-- ==== Sys2Proof/Word.lean ====
section
/-! DEFINITION. The word types of the PX-4160: link words, time base values, small link fields. -/

namespace Sys2Proof

/-- A link word and a word of a table image: 16 bits, bit 15 the most significant (11_frame_and_table_image_layouts.md). -/
abbrev Word := BitVec 16

/-- An eight-bit field: a cycle number, a request code, a tag. -/
abbrev Byte := BitVec 8

/-- A value of the millisecond time base (R1): 32 bits, wrapping. -/
abbrev Time := BitVec 32

/-- A station address field of a frame header: 0..62, and 63 for all stations (00_scope.md section 5.6). -/
abbrev Address := BitVec 6

end Sys2Proof
end

