-- ==== Sys2Proof/Syntax.lean ====
section
/-! DEFINITION. The commands of the PX-4160: one constructor for each row of spec/opcode_table.json, with its operands. -/

namespace Sys2Proof

/-- The two link ports (08_the_scheme_link.md). -/
inductive Side where
  | east
  | west
  deriving DecidableEq, Repr

/-- The two edges of a reset input: the input becoming active (the part is held in reset) and inactive (release), R144. -/
inductive ResetPhase where
  | assert
  | release
  deriving DecidableEq, Repr

/-- The reception of a good frame at a port: where and when its start marker fell, and its header fields (section 11.1).
`start` is the word time of the start marker (R140, log 6). `spare` is bits 1-0 of header word 1. -/
structure Reception where
  port : Side
  start : Nat
  source : Address
  cycle : Byte
  dest : Address
  spare : BitVec 2
  deriving DecidableEq, Repr

/-- The commands. Frames are given by their reception and payload; a good frame's check word is the one R182 forms.
Request commands carry the tag and the argument words after word 0, as section 11.2 lays them out. -/
inductive Instr where
  | powerOnReset (phase : ResetPhase)
  | resetPin (phase : ResetPhase)
  | timeBaseTick
  | armingEvaluation
  | holdTimerExpiry (scheme : Fin 16)
  | resetTimerExpiry (scheme : Fin 16)
  | settleIntervalEnd
  | windowEnd (station : Fin 32)
  | staleChange (point : Fin 256)
  | entryExpiry (action : Fin 128)
  | expansionCompletion
  /-- `start` is the word time of the own slot's word time 0 on the timing port. -/
  | ownSlotStart (start : Nat)
  /-- `start` is the word time of the slot start on the transmitter's feeding port. -/
  | waitingCopySend (tx : Side) (start : Nat)
  | slotEndRestart
  /-- A frame of kind MARKER with payload length 1: `payload` is its payload word. -/
  | marker (rx : Reception) (payload : Word)
  | missedMarker (port : Side)
  /-- One babbling slot received on the port. -/
  | babble (port : Side)
  | publish (rx : Reception) (payload : List Word)
  /-- A good frame of a kind without a row of its own: TRIP, REPLY, STATUS, kinds 6..15, and REQUESTs not for the part. -/
  | repeatedFrame (rx : Reception) (kind : BitVec 4) (payload : List Word)
  /-- `markerWhole`: the start marker was well formed. `words`: the words received after it before the carrier was lost
  (header words, payload, check word). -/
  | damagedFrame (port : Side) (start : Nat) (markerWhole : Bool) (words : List Word)
  /-- A frame of the part's own that returned through the loop, given as `damagedFrame`'s operands are. -/
  | loopedFrame (port : Side) (markerWhole : Bool) (words : List Word)
  | requestLost (rx : Reception) (payload : List Word)
  | unknownRequest (rx : Reception) (code tag : Byte) (args : List Word)
  | identify (rx : Reception) (tag : Byte) (args : List Word)
  | readState (rx : Reception) (tag : Byte) (args : List Word)
  | readTable (rx : Reception) (tag : Byte) (args : List Word)
  | load (rx : Reception) (tag : Byte) (args : List Word)
  | copyActiveToShadow (rx : Reception) (tag : Byte) (args : List Word)
  | commit (rx : Reception) (tag : Byte) (args : List Word)
  | start (rx : Reception) (tag : Byte) (args : List Word)
  | closeGate (rx : Reception) (tag : Byte) (args : List Word)
  | resetScheme (rx : Reception) (tag : Byte) (args : List Word)
  | restoreMargin (rx : Reception) (tag : Byte) (args : List Word)
  | releaseHardTrip (rx : Reception) (tag : Byte) (args : List Word)
  | forcePoint (rx : Reception) (tag : Byte) (args : List Word)
  | unforcePoint (rx : Reception) (tag : Byte) (args : List Word)
  /-- PORT CONTROL with action 0: `port` is bits 15-8 of word 1; `extra` are argument words beyond word 1. -/
  | portRestart (rx : Reception) (tag port : Byte) (extra : List Word)
  /-- PORT CONTROL with action 1. -/
  | rejoin (rx : Reception) (tag port : Byte) (extra : List Word)
  /-- PORT CONTROL with action 2. -/
  | loopbackOn (rx : Reception) (tag port : Byte) (extra : List Word)
  /-- PORT CONTROL with action 3. -/
  | loopbackOff (rx : Reception) (tag port : Byte) (extra : List Word)
  /-- READ COUNTERS without the clear option: `first` is bits 15-8 of word 1, none when the payload ends before word 1. -/
  | readCounters (rx : Reception) (tag : Byte) (first : Option Byte) (extra : List Word)
  /-- READ COUNTERS with the clear option (bit 0 of word 1). -/
  | readCountersClear (rx : Reception) (tag first : Byte) (extra : List Word)
  | readOperationLog (rx : Reception) (tag : Byte) (args : List Word)
  | clearNotices (rx : Reception) (tag : Byte) (args : List Word)
  | restart (rx : Reception) (tag : Byte) (args : List Word)
  deriving DecidableEq, Repr

end Sys2Proof
end

