-- ==== Sys2Proof/Decode.lean ====
section
/-! DEFINITION. The bits of spec/opcode_table.json. No row of this block's table has bits (98_reader.md: "n_rows_with_fixed": 0,
"n_rows_with_fields": 0), so no word spells a command. Frames and requests are decoded in Machine/Operands.lean. -/

namespace Sys2Proof

/-- The command a word spells by the table's bits: none, since no row gives bits. -/
def decodeTableWord (_nbits _w : Nat) : Option Instr := none

end Sys2Proof
end

