-- ==== Sys2Proof/Config.lean ====
section
/-! DEFINITION. What the manual leaves open: constants and functions without a body, so that no proof can rest on their value. -/

namespace Sys2Proof

/-- The fields of a reply or report that the spec names and, for an object that does not have them, gives no value (log 11). -/
structure UnstatedFields where
  /-- The last-accepted-cycle field of a STATION report while the record holds NONE (R139). -/
  stationCycle : Byte
  /-- The last raw word of a POINT report while the record holds none (R123). -/
  rawWord : Word
  /-- The unit code field of a POINT report of a point that is not ANALOG (R123). -/
  unitCode : BitVec 3
  /-- The cycle-number field of a PORT report while the port has none (R180). -/
  portCycle : Byte
  /-- Replacements used of a SKIPPED participation, which "holds the scheme index alone" (R89). -/
  skippedReplacements : BitVec 3
  /-- Continuation position of a SKIPPED participation (R89). -/
  skippedContinuation : BitVec 5
  /-- Requirement of a SKIPPED participation (R89). -/
  skippedRequirement : Word
  /-- Confirmed amount of a SKIPPED participation (R89). -/
  skippedConfirmed : BitVec 32
  deriving DecidableEq, Repr, Inhabited

/-- The unstated fields of one report, numbered by its draw and, for a SKIPPED participation, by the scheme. FREE VALUE (DESIGN CHOICE, log 11). -/
opaque Config.unstated : Nat → Nat → UnstatedFields

/-- The revision of the part's logic, returned by IDENTIFY (R172); the spec states no value. FREE VALUE (DESIGN CHOICE, log 10). -/
opaque Config.logicRevision : Word

/-- How many header words of a frame with a framing error have left before the error shows (R148: "through header word 1 at
most"). The model bounds it by 2 and by the words received. FREE VALUE (DESIGN CHOICE, log 8). -/
opaque Config.framingRepeat : Nat → Nat

/-- Whether, in an update event with an express serve, the confirmations come before the serve (R92 leaves it open).
FREE VALUE (DESIGN CHOICE, log 9). -/
opaque Config.confirmFirst : Nat → Bool

/-- What the agent reads as word 0 (code and tag) of a REQUEST whose payload is empty. FREE VALUE (DESIGN CHOICE, log 12). -/
opaque Config.missingRequestWord : Nat → Word

end Sys2Proof
end

