-- ==== Sys2Proof/Machine/Bits.lean ====
section
/-! DEFINITION. Bit fields, two-word quantities, rounding and the check word: the conventions of 00_scope.md section 5 and
11_frame_and_table_image_layouts.md. -/

namespace Sys2Proof.Machine

/-- The `n`-bit field of a word whose lowest bit is bit `lo`. -/
def bits (w : Word) (lo n : Nat) : Nat := (w.toNat >>> lo) % 2 ^ n

/-- Bit `i` of a word. -/
def bit (w : Word) (i : Nat) : Bool := w.getLsbD i

/-- A word built from fields (lowest bit, width, value); unnamed bits are 0 (11_frame_and_table_image_layouts.md). -/
def packWord (fields : List (Nat × Nat × Nat)) : Word :=
  BitVec.ofNat 16 (fields.foldl (fun acc f => acc + (f.2.2 % 2 ^ f.2.1) <<< f.1) 0)

/-- A Bool as a one-bit field value. -/
def bitNat (b : Bool) : Nat := if b then 1 else 0

/-- A quantity of 32 bits from two words, the high word first. -/
def long (hi lo : Word) : BitVec 32 := hi ++ lo

/-- The two words of a 32-bit quantity, the high word first. -/
def longWords (v : BitVec 32) : List Word := [v.extractLsb' 16 16, v.extractLsb' 0 16]

/-- A number as a word in two's complement. -/
def intWord (n : Int) : Word := BitVec.ofInt 16 n

/-- A number as two words in two's complement. -/
def intLong (n : Int) : List Word := longWords (BitVec.ofInt 32 n)

/-- The number `n / d` rounded half away from zero (00_scope.md section 5.3), for `d` above 0. -/
def roundHalfAway (n : Int) (d : Nat) : Int :=
  let m := (2 * n.natAbs + d) / (2 * d)
  if n < 0 then -(m : Int) else (m : Int)

/-- The number `n / d` rounded up (00_scope.md section 5.3), for `d` above 0. -/
def roundUp (n d : Nat) : Nat := (n + (d - 1)) / d

/-- A number clamped to `lo..hi`. -/
def clamp (lo hi n : Int) : Int := max lo (min hi n)

/-- The analog range of the part: -32,767..+32,767 (R112, R175). -/
def clampAnalog (n : Int) : Int := clamp (-32767) 32767 n

/-- One more, saturating at 65,535 (00_scope.md section 5.7). -/
def satInc (c : Word) : Word := if c = 65535 then 65535 else c + 1

/-- One bit into the check register (R182). -/
def checkBit (r : Word) (b : Bool) : Word :=
  let shifted := r <<< 1
  if r.msb != b then shifted ^^^ 0x3D65 else shifted

/-- One word into the check register, most significant bit first (R182). -/
def checkStep (r w : Word) : Word :=
  [15, 14, 13, 12, 11, 10, 9, 8, 7, 6, 5, 4, 3, 2, 1, 0].foldl (fun acc i => checkBit acc (w.getLsbD i)) r

/-- The check register after the given words, from 0x0000 (R182). -/
def checkRegister (words : List Word) : Word := words.foldl checkStep 0

/-- The check word of a frame over its header words and payload (R182). -/
def checkWord (words : List Word) : Word := ~~~ (checkRegister words)

/-- The poisoned check word: the complement of the correct one, which is the register before the final inversion (R148, R182). -/
def poisonWord (words : List Word) : Word := checkRegister words

end Sys2Proof.Machine
end

