-- ==== Sys2Proof/Machine/State.lean ====
section
/-! DEFINITION. The state of the PX-4160, block by block (00_scope.md section 3), and its value right after a reset. -/

namespace Sys2Proof.Machine

/-- No command of the spec stops the part: a frame, a request or a timed event has its effect, is answered with a result code, or
does not occur (log 1). So there is no fault. -/
inductive Fault where
  deriving DecidableEq, Repr

/-- Reasons a command has no meaning in the model. -/
inductive Refusal where
  /-- Raised by an arm of exec whose command has no meaning yet. Safe: nothing can be proved of what the command does. -/
  | notModelled (mnemonic : String)
  deriving DecidableEq, Repr

/-! ### Link Ports (08_the_scheme_link.md) -/

/-- Port states (R144 to R155). -/
inductive PortState where
  | down
  | acquiring
  | locked
  | isolated
  | loopback
  deriving DecidableEq, Repr

/-- The seven counters of a port (R160). -/
structure PortCounters where
  markerMissed : Word
  slotConflict : Word
  check : Word
  framing : Word
  truncated : Word
  loopGood : Word
  loopBad : Word
  deriving DecidableEq, Repr

/-- The live record of a port (section 8.3). `position` is the word time of the start of slot 0 of the current cycle. -/
structure PortRec where
  state : PortState
  adoptedS : Option Nat
  position : Option Nat
  cycle : Option Byte
  acquisition : Nat
  miss : Nat
  strikes : Nat
  babbleSeen : Bool
  babbleFree : Nat
  counters : PortCounters
  deriving DecidableEq, Repr

/-- A copy of an own frame that waits for the slot of the same number on a transmitter (R158). -/
structure WaitingCopy where
  tx : Side
  slot : Nat
  words : List Word
  deriving DecidableEq, Repr

/-- What a transmitter sends in one slot: the words after the start marker, idle fill following them. `loop` says that the
transmitter feeds its own receiver (R154). MODEL's own record (log 24). -/
structure Emission where
  tx : Side
  loop : Bool
  slot : Option Nat
  words : List Word
  deriving DecidableEq, Repr

/-- The link ports, the repeater and the slot composer. `ownSlotsRun`: the timing port has taken a MARKER at or after the last
change of timing port, so own slots start (R156). -/
structure LinkState where
  east : PortRec
  west : PortRec
  lastCycle : Byte
  ownSlotsRun : Bool
  waiting : List WaitingCopy
  deriving DecidableEq, Repr

/-! ### Intake (07_station_intake_and_freshness.md) -/

/-- A station's standing (section 7.2). -/
inductive Freshness where
  | unknown
  | fresh
  | degraded
  | silent
  deriving DecidableEq, Repr

/-- The live record of a station (section 7.2). -/
structure StationRec where
  freshness : Freshness
  windowCount : Nat
  windowStart : Time
  lastCycle : Option Byte
  rejoinLeft : Nat
  duplicate : Word
  rejoinDiscard : Word
  deriving DecidableEq, Repr

/-- The station live records and the two Intake counters. -/
structure IntakeState where
  stations : List StationRec
  misplaced : Word
  unknownSource : Word
  deriving DecidableEq, Repr

/-! ### Point Store (06_points_and_data_quality.md) -/

/-- The values of a binary point. -/
inductive BinaryValue where
  | intermediate
  | opened
  | closed
  deriving DecidableEq, Repr

/-- A point's value: a number, or one of the binary values (section 6.2). -/
inductive PointValue where
  | analog (n : Int)
  | binary (b : BinaryValue)
  deriving DecidableEq, Repr

/-- A point's quality (section 6.4). -/
inductive Quality where
  | invalid
  | good
  | suspect
  | held
  | stale
  | forced
  deriving DecidableEq, Repr

/-- The live record of a point (section 6.2). -/
structure PointRec where
  value : PointValue
  quality : Quality
  holdStart : Option Time
  lastRaw : Option Word
  deriving DecidableEq, Repr

/-! ### Selection records, nodes and express images (02_shed_requirement_and_selection.md) -/

/-- The outcome of a selection walk (section 2.6). -/
inductive SelOutcome where
  | none
  | covered
  | short
  deriving DecidableEq, Repr

/-- A selected candidate: its position and the amount recorded for it (R35). -/
structure SelItem where
  position : Nat
  amount : Nat
  deriving DecidableEq, Repr

/-- The selection record (section 2.6). -/
structure SelRecord where
  requirement : Nat
  items : List SelItem
  total : Nat
  outcome : SelOutcome
  continuation : Nat
  stamp : Time
  deriving DecidableEq, Repr

/-- Where a node comes from (R68): the chain of a scheme's candidate, or a direct chain. -/
inductive Origin where
  | scheme (scheme position : Nat)
  | direct
  deriving DecidableEq, Repr

/-- A node of a chain walk (R68). -/
structure Node where
  action : Nat
  origin : Origin
  deriving DecidableEq, Repr

/-- A scheme and a copy of its selection record: an image's participation (section 2.8), a snapshot's taken scheme (R70). -/
structure SchemeCopy where
  scheme : Nat
  record : SelRecord
  deriving DecidableEq, Repr

/-- The status of an express image (section 2.8). -/
inductive ImageStatus where
  | invalid
  | valid
  | oversize
  deriving DecidableEq, Repr

/-- An express image (section 2.8). -/
structure Image where
  status : ImageStatus
  participations : List SchemeCopy
  nodes : List Node
  deriving DecidableEq, Repr

/-! ### Arming Evaluator (01_schemes_and_arming.md) -/

/-- Scheme states (section 1.4). -/
inductive SchemeState where
  | off
  | gated
  | suspended
  | disarmed
  | arming
  | armed
  | operating
  | operated
  deriving DecidableEq, Repr

/-- The live record of a scheme (section 1.2). Timers hold their expiry time, or none when stopped. -/
structure SchemeRec where
  state : SchemeState
  armCount : Nat
  disarmCount : Nat
  walk : Int
  holdTimer : Option Time
  stress : Nat
  backstop : Nat
  q : Int
  hardTrip : Bool
  selection : Option SelRecord
  resetTimer : Option Time
  deriving DecidableEq, Repr

/-- The scheme live records, the start gate and the evaluation schedule. -/
structure ArmingState where
  schemes : List SchemeRec
  gateOpen : Bool
  startRequested : Bool
  settleEnded : Bool
  nextEvaluation : Option Time
  deriving DecidableEq, Repr

/-! ### Contingency Monitor (03_contingency_detection_and_arbitration.md) -/

/-- Contingency states (section 3.2). -/
inductive ContState where
  | idle
  | confirming
  | pending
  | serving
  | served
  deriving DecidableEq, Repr

/-- The last combined value (section 3.2). -/
inductive Combined where
  | unknown
  | false
  | true
  deriving DecidableEq, Repr

/-- The live record of a contingency (section 3.2). -/
structure ContRec where
  state : ContState
  confirm : Nat
  rearm : Nat
  last : Combined
  degraded : Bool
  deriving DecidableEq, Repr

/-- The contingency records, the last-served index, the express images and the GATED_DETECTION counter. The pending set is the
contingencies whose state is PENDING, exactly (R58). -/
structure MonitorState where
  conts : List ContRec
  lastServed : Option Nat
  imageA : Image
  imageB : Image
  gatedDetection : Word
  deriving DecidableEq, Repr

/-! ### Action Engine and Trip Queue (04_action_chains_and_the_trip_queue.md) -/

/-- The snapshot of the contingency being served (section 4.2). -/
structure Snapshot where
  contingency : Nat
  priority : Nat
  opId : Nat
  taken : List SchemeCopy
  directHead : Option Nat
  takeTime : Time
  deriving DecidableEq, Repr

/-- States of a trip entry (R76). -/
inductive EntryState where
  | waiting
  | sending
  | await
  deriving DecidableEq, Repr

/-- A live trip entry (section 4.4). -/
structure Entry where
  action : Nat
  destination : Nat
  output : Nat
  priority : Nat
  repeats : Nat
  sent : Nat
  order : Word
  deadline : Time
  state : EntryState
  refs : List Nat
  deriving DecidableEq, Repr

/-- The Trip Queue: its live entries in list order, and the next order number (R75). -/
structure QueueState where
  entries : List Entry
  nextOrder : Word
  deriving DecidableEq, Repr

/-! ### Confirmation Tracker and Operation Log (05, 10) -/

/-- How an operation was opened (section 5.1). -/
inductive OpPath where
  | ordinary
  | express
  deriving DecidableEq, Repr

/-- Phase of an open operation (section 5.1). -/
inductive OpPhase where
  | expanding
  | tracking
  deriving DecidableEq, Repr

/-- Head status of a candidate (section 5.1). -/
inductive HeadStatus where
  | outstanding
  | confirmed
  | failed
  | dropped
  deriving DecidableEq, Repr

/-- Node status of auxiliary and direct nodes (section 5.1). -/
inductive NodeStatus where
  | outstanding
  | confirmed
  | sent
  | expired
  | dropped
  deriving DecidableEq, Repr

/-- Participation outcome (R100). -/
inductive PartOutcome where
  | covered
  | short
  | failed
  deriving DecidableEq, Repr

/-- Operation outcome (R101). -/
inductive OpOutcome where
  | complete
  | incomplete
  deriving DecidableEq, Repr

/-- An auxiliary or direct node handed in for an operation. The auxiliary tallies of section 5.1 count these by status (log 22). -/
structure NodeItem where
  action : Nat
  status : NodeStatus
  deriving DecidableEq, Repr

/-- A candidate of a participation. `head` is the head action of its position (log 22). -/
structure Candidate where
  position : Nat
  amount : Nat
  head : Nat
  headStatus : HeadStatus
  aux : List NodeItem
  deriving DecidableEq, Repr

/-- What a taken participation holds (section 5.1). -/
structure TakenPart where
  requirement : Nat
  candidates : List Candidate
  replacements : Nat
  confirmed : Nat
  continuation : Nat
  outcome : Option PartOutcome
  deriving DecidableEq, Repr

/-- A participation: `taken` is none when the scheme was SKIPPED (R89: it "holds the scheme index alone"). -/
structure Participation where
  scheme : Nat
  taken : Option TakenPart
  deriving DecidableEq, Repr

/-- An operation record (section 5.1). -/
structure Operation where
  id : Nat
  contingency : Nat
  path : OpPath
  priority : Nat
  phase : OpPhase
  takeTime : Time
  takeCycle : Byte
  parts : List Participation
  direct : List NodeItem
  outstanding : Nat
  overflow : Bool
  deriving DecidableEq, Repr

/-- The Operation Table in ascending id, and the id last allocated (0: none since the reset), R87 and R88. -/
structure TrackerState where
  ops : List Operation
  lastId : Nat
  deriving DecidableEq, Repr

/-- A logged record (R178). -/
structure LogRecord where
  op : Operation
  outcome : OpOutcome
  closeTime : Time
  closeCycle : Byte
  seq : Word
  deriving DecidableEq, Repr

/-- The Operation Log, newest first, and the next closure sequence number (R178). The fill count is the list's length. -/
structure LogState where
  records : List LogRecord
  nextSeq : Word
  deriving DecidableEq, Repr

/-! ### Engineering Agent, Table Banks, notices (09, 10) -/

/-- What the request holder holds: the reply of the request executed, until it is composed (R168, R171). `restart`: it answers a
RESTART. -/
structure Held where
  dest : Address
  payload : List Word
  restart : Bool
  deriving DecidableEq, Repr

/-- The Engineering Agent. `restartDue`: the reply to a RESTART has begun to be sent; the restart falls at the end of its slot
(R159). -/
structure AgentState where
  holder : Option Held
  requestLost : Word
  restartDue : Bool
  deriving DecidableEq, Repr

/-- The words of a bank: (word address, word) in canonical form, an unlisted word reading 0 (R162, log 21). -/
abbrev BankWords := List (Nat × Word)

/-- Bank statuses (R161). -/
inductive BankStatus where
  | blank
  | valid
  | modified
  deriving DecidableEq, Repr

/-- A settings bank (section 9.1). -/
structure Bank where
  status : BankStatus
  words : BankWords
  deriving DecidableEq, Repr

/-- The two banks and the selector: `activeB` says that Bank B is active (R161). -/
structure BanksState where
  a : Bank
  b : Bank
  activeB : Bool
  deriving DecidableEq, Repr

/-- The seven notices (R176). -/
structure Notices where
  marginWalked : Bool
  backstop : Bool
  portIsolated : Bool
  queueOverflow : Bool
  untrackedOperation : Bool
  requestLost : Bool
  expressFallback : Bool
  deriving DecidableEq, Repr

/-- The machine. `out` (what the last command put on the transmitters) and `freeIndex` (the next free value) are the model's own
fields (log 24); `pending` is the queue of commands that wait. -/
structure State where
  timeBase : Time
  powerHeld : Bool
  pinHeld : Bool
  link : LinkState
  intake : IntakeState
  points : List PointRec
  arming : ArmingState
  monitor : MonitorState
  engine : Option Snapshot
  queue : QueueState
  tracker : TrackerState
  log : LogState
  agent : AgentState
  banks : BanksState
  notices : Notices
  out : List Emission
  freeIndex : Nat
  pending : List Instr
  deriving DecidableEq, Repr

/-! ### Reset values -/

/-- All port counters 0 (R144). -/
def PortCounters.zero : PortCounters := ⟨0, 0, 0, 0, 0, 0, 0⟩

/-- A port in DOWN with the values of R144 and the given counters. -/
def PortRec.down (counters : PortCounters) : PortRec :=
  ⟨.down, none, none, none, 0, 0, 0, false, 0, counters⟩

/-- The link after a reset (R144). -/
def LinkState.reset : LinkState := ⟨.down .zero, .down .zero, 0, false, []⟩

/-- A station record after a reset (R126). -/
def StationRec.reset : StationRec := ⟨.unknown, 0, 0, none, 0, 0, 0⟩

/-- Intake after a reset (R126). -/
def IntakeState.reset : IntakeState := ⟨List.replicate 32 .reset, 0, 0⟩

/-- A point record after a reset or commit with the given first value (R109, R110). -/
def PointRec.fresh (value : PointValue) : PointRec := ⟨value, .invalid, none, none⟩

/-- A scheme record with every count 0 and every timer stopped (R4), in the given state. -/
def SchemeRec.fresh (state : SchemeState) (hardTrip : Bool) : SchemeRec :=
  ⟨state, 0, 0, 0, none, 0, 0, 0, hardTrip, none, none⟩

/-- A contingency record after a reset or commit (R48, R49). -/
def ContRec.fresh : ContRec := ⟨.idle, 0, 0, .unknown, .false⟩

/-- An image that is INVALID, with no participations and no nodes (R42). -/
def Image.invalid : Image := ⟨.invalid, [], []⟩

/-- The Contingency Monitor after a reset (R48, R42). -/
def MonitorState.reset : MonitorState := ⟨List.replicate 64 .fresh, none, .invalid, .invalid, 0⟩

/-- The Trip Queue after a reset (R75). -/
def QueueState.reset : QueueState := ⟨[], 1⟩

/-- The Operation Table after a reset (R87). -/
def TrackerState.reset : TrackerState := ⟨[], 0⟩

/-- The Operation Log after a power-on reset (R178). -/
def LogState.empty : LogState := ⟨[], 0⟩

/-- The Engineering Agent after a reset (R168). -/
def AgentState.reset : AgentState := ⟨none, 0, false⟩

/-- A BLANK bank (R162). -/
def Bank.blank : Bank := ⟨.blank, []⟩

/-- No notice raised (R176). -/
def Notices.clear : Notices := ⟨false, false, false, false, false, false, false⟩

/-- A new part right after a power-on reset: both banks BLANK and Bank A named active (R161), every block at its reset values
under a BLANK bank, and no command waiting (log 4). -/
def State.reset : State where
  timeBase := 0
  powerHeld := false
  pinHeld := false
  link := .reset
  intake := .reset
  points := List.replicate 256 (.fresh (.analog 0))
  arming := ⟨List.replicate 16 (.fresh .off false), false, false, false, none⟩
  monitor := .reset
  engine := none
  queue := .reset
  tracker := .reset
  log := .empty
  agent := .reset
  banks := ⟨.blank, .blank, false⟩
  notices := .clear
  out := []
  freeIndex := 0
  pending := []

end Sys2Proof.Machine
end

