-- ==== Sys2Proof/Machine/Ops.lean ====
section
/-! DEFINITION. Named operations on the state: one setter per block, access to the records of the fixed tables, the bank memory
with its canonical form, and the sharing between commands of "held in reset". -/

namespace Sys2Proof

/-- The other port. -/
def Side.other : Side → Side
  | .east => .west
  | .west => .east

end Sys2Proof

namespace Sys2Proof.Machine

/-! ### One setter per field of State -/

/-- The state with another `timeBase`. -/
def State.setTimeBase (s : State) (v : Time) : State := { s with timeBase := v }

/-- The state with another `powerHeld`. -/
def State.setPowerHeld (s : State) (v : Bool) : State := { s with powerHeld := v }

/-- The state with another `pinHeld`. -/
def State.setPinHeld (s : State) (v : Bool) : State := { s with pinHeld := v }

/-- The state with another `link`. -/
def State.setLink (s : State) (v : LinkState) : State := { s with link := v }

/-- The state with another `intake`. -/
def State.setIntake (s : State) (v : IntakeState) : State := { s with intake := v }

/-- The state with another `points`. -/
def State.setPoints (s : State) (v : List PointRec) : State := { s with points := v }

/-- The state with another `arming`. -/
def State.setArming (s : State) (v : ArmingState) : State := { s with arming := v }

/-- The state with another `monitor`. -/
def State.setMonitor (s : State) (v : MonitorState) : State := { s with monitor := v }

/-- The state with another `engine`. -/
def State.setEngine (s : State) (v : Option Snapshot) : State := { s with engine := v }

/-- The state with another `queue`. -/
def State.setQueue (s : State) (v : QueueState) : State := { s with queue := v }

/-- The state with another `tracker`. -/
def State.setTracker (s : State) (v : TrackerState) : State := { s with tracker := v }

/-- The state with another `log`. -/
def State.setLog (s : State) (v : LogState) : State := { s with log := v }

/-- The state with another `agent`. -/
def State.setAgent (s : State) (v : AgentState) : State := { s with agent := v }

/-- The state with another `banks`. -/
def State.setBanks (s : State) (v : BanksState) : State := { s with banks := v }

/-- The state with another `notices`. -/
def State.setNotices (s : State) (v : Notices) : State := { s with notices := v }

/-- The state with another `out`. -/
def State.setOut (s : State) (v : List Emission) : State := { s with out := v }

/-- The state with another `freeIndex`. -/
def State.setFreeIndex (s : State) (v : Nat) : State := { s with freeIndex := v }

/-- The state with another `pending`. -/
def State.setPending (s : State) (v : List Instr) : State := { s with pending := v }

/-! ### Records of the fixed tables -/

/-- The live record of scheme `i`. -/
def State.scheme (s : State) (i : Nat) : SchemeRec := s.arming.schemes.getD i (.fresh .off false)

/-- The live record of station entry `i`. -/
def State.station (s : State) (i : Nat) : StationRec := s.intake.stations.getD i .reset

/-- The live record of point `i`. -/
def State.point (s : State) (i : Nat) : PointRec := s.points.getD i (.fresh (.analog 0))

/-- The live record of contingency `i`. -/
def State.cont (s : State) (i : Nat) : ContRec := s.monitor.conts.getD i .fresh

/-- The live record of a port. -/
def LinkState.port (l : LinkState) : Side → PortRec
  | .east => l.east
  | .west => l.west

/-- The live record of a port. -/
def State.port (s : State) (side : Side) : PortRec := s.link.port side

/-- The link with another record for one port. -/
def LinkState.setPort (l : LinkState) (side : Side) (p : PortRec) : LinkState :=
  match side with
  | .east => { l with east := p }
  | .west => { l with west := p }

/-- The state with another record for one port. -/
def State.setPort (s : State) (side : Side) (p : PortRec) : State := s.setLink (s.link.setPort side p)

/-- Change the record of scheme `i`. -/
def State.updScheme (s : State) (i : Nat) (f : SchemeRec → SchemeRec) : State :=
  s.setArming { s.arming with schemes := s.arming.schemes.modify i f }

/-- Change every scheme record. -/
def State.mapSchemes (s : State) (f : SchemeRec → SchemeRec) : State :=
  s.setArming { s.arming with schemes := s.arming.schemes.map f }

/-- Change the record of station entry `i`. -/
def State.updStation (s : State) (i : Nat) (f : StationRec → StationRec) : State :=
  s.setIntake { s.intake with stations := s.intake.stations.modify i f }

/-- Change the record of point `i`. -/
def State.updPoint (s : State) (i : Nat) (f : PointRec → PointRec) : State := s.setPoints (s.points.modify i f)

/-- Change the record of contingency `i`. -/
def State.updCont (s : State) (i : Nat) (f : ContRec → ContRec) : State :=
  s.setMonitor { s.monitor with conts := s.monitor.conts.modify i f }

/-- Change the notices. -/
def State.raise (s : State) (f : Notices → Notices) : State := s.setNotices (f s.notices)

/-- Change one port's counters. -/
def State.countPort (s : State) (side : Side) (f : PortCounters → PortCounters) : State :=
  s.setPort side { s.port side with counters := f (s.port side).counters }

/-- Put one more emission on a transmitter. -/
def State.emit (s : State) (e : Emission) : State := s.setOut (s.out ++ [e])

/-- The time-base value `ms` milliseconds from now (R1). -/
def State.after (s : State) (ms : Nat) : Time := s.timeBase + BitVec.ofNat 32 ms

/-! ### Commands while the part is held in reset -/

/-- The part is held in reset by the power-good input or the reset pin (R144). -/
def State.held (s : State) : Bool := s.powerHeld || s.pinHeld

/-- The transmitters carry nothing of an earlier command. -/
def State.quiet (s : State) : State := s.setOut []

/-- The effect of an event: while the part is held in reset nothing is received, timed or sent (R144), and the event does not
occur; otherwise `f`. -/
def running (s : State) (f : State → State) : Host.Outcome State Fault Refusal :=
  .next (if s.held then s.quiet else f s.quiet)

/-! ### Bank memory (R161 to R165) -/

/-- The word at an address; an unlisted word reads 0 (R162). -/
def BankWords.read : BankWords → Nat → Word
  | [], _ => 0
  | (k, w) :: rest, a => if k = a then w else if a < k then 0 else BankWords.read rest a

/-- Write one word, keeping the canonical form: rising addresses, no listed zero. -/
def BankWords.write : BankWords → Nat → Word → BankWords
  | [], a, w => if w = 0 then [] else [(a, w)]
  | (k, v) :: rest, a, w =>
    if a < k then (if w = 0 then (k, v) :: rest else (a, w) :: (k, v) :: rest)
    else if a = k then (if w = 0 then rest else (a, w) :: rest)
    else (k, v) :: BankWords.write rest a w

/-- Write a run of words from an address on. -/
def BankWords.writeRun : BankWords → Nat → List Word → BankWords
  | m, _, [] => m
  | m, a, w :: ws => BankWords.writeRun (BankWords.write m a w) (a + 1) ws

/-- Read a run of `n` words from an address on. -/
def BankWords.readRun (m : BankWords) (a n : Nat) : List Word := (List.range n).map (fun i => BankWords.read m (a + i))

/-- The canonical form: addresses strictly rising, no listed zero. -/
def BankWords.wf : BankWords → Bool
  | [] => true
  | [(_, w)] => w != 0
  | (k, w) :: (k', w') :: rest => w != 0 && decide (k < k') && BankWords.wf ((k', w') :: rest)

/-- The eight table kinds (section 9.1), by their codes in section 11.2. -/
inductive TableKind where
  | link
  | params
  | station
  | point
  | scheme
  | shed
  | action
  | contingency
  deriving DecidableEq, Repr

/-- The kind of a code (section 11.2); codes 8..15 name none (R183). -/
def TableKind.ofCode : Nat → Option TableKind
  | 0 => some .link
  | 1 => some .params
  | 2 => some .station
  | 3 => some .point
  | 4 => some .scheme
  | 5 => some .shed
  | 6 => some .action
  | 7 => some .contingency
  | _ => none

/-- The code of a kind (section 11.2). -/
def TableKind.code : TableKind → Nat
  | .link => 0
  | .params => 1
  | .station => 2
  | .point => 3
  | .scheme => 4
  | .shed => 5
  | .action => 6
  | .contingency => 7

/-- Entries of a kind (section 9.1). -/
def TableKind.entries : TableKind → Nat
  | .link | .params => 1
  | .station => 32
  | .point | .shed => 256
  | .scheme => 16
  | .action => 128
  | .contingency => 64

/-- Words per entry image of a kind (section 9.1). -/
def TableKind.width : TableKind → Nat
  | .link => 4
  | .params | .station | .shed | .action => 3
  | .point | .contingency => 5
  | .scheme => 28

/-- The model's address of a kind's first word: the tables one after another in the order of their codes (log 21). -/
def TableKind.base : TableKind → Nat
  | .link => 0
  | .params => 4
  | .station => 7
  | .point => 103
  | .scheme => 1383
  | .shed => 1831
  | .action => 2599
  | .contingency => 2983

/-- The address of word `first` of an entry image. -/
def TableKind.address (k : TableKind) (entry first : Nat) : Nat := k.base + entry * k.width + first

/-- A word of an entry image. -/
def Bank.word (b : Bank) (k : TableKind) (entry i : Nat) : Word := b.words.read (k.address entry i)

/-- The active bank (R161). -/
def State.active (s : State) : Bank := if s.banks.activeB then s.banks.b else s.banks.a

/-- The shadow bank (R161). -/
def State.shadow (s : State) : Bank := if s.banks.activeB then s.banks.a else s.banks.b

/-- The state with another shadow bank. -/
def State.setShadow (s : State) (b : Bank) : State :=
  s.setBanks (if s.banks.activeB then { s.banks with a := b } else { s.banks with b := b })

/-- The active bank is BLANK (R161: before the first successful commit). -/
def State.blank (s : State) : Bool := s.active.status == .blank

/-- The active bank is VALID (R161). -/
def State.valid (s : State) : Bool := s.active.status == .valid

end Sys2Proof.Machine
end

