-- ==== Sys2Proof/Machine/Operands.lean ====
section
/-! DEFINITION. What words stand for: the entry images of the settings tables (R184), frames and requests (section 11.1, 11.2), and
the settings in force (R141). The active bank's fields are decoded from its words at every use (R184). -/

namespace Sys2Proof.Machine

/-! ### Entry images (R184) -/

/-- The Link Table (section 8.2). `own` holds the own slots up to `ownCount`; slots beyond the count are not decoded. -/
structure LinkEntry where
  slots : Nat
  ownCount : Nat
  own : List Nat
  address : Nat
  engineer : Nat
  isolation : Bool
  babbleLimit : Nat
  autoRejoin : Bool
  deriving DecidableEq, Repr

/-- The Link Table of a bank. -/
def Bank.link (b : Bank) : LinkEntry :=
  let w := b.word .link 0
  let count := bits (w 1) 0 3
  { slots := bits (w 0) 0 6
    ownCount := count
    own := [bits (w 2) 0 6, bits (w 2) 8 6, bits (w 3) 0 6, bits (w 3) 8 6].take count
    address := bits (w 0) 6 6
    engineer := bits (w 1) 8 6
    isolation := bit (w 0) 12
    babbleLimit := bits (w 1) 4 4
    autoRejoin := bit (w 0) 13 }

/-- A seven-bit index in which 127 is NONE. -/
def optionIndex (none7 : Nat) (n : Nat) : Option Nat := if n = none7 then none else some n

/-- The Bank Parameters (section 9.1): evaluation interval E, express designations, hard trip master enable. -/
structure ParamsEntry where
  interval : Nat
  expressA : Option Nat
  expressB : Option Nat
  masterTrip : Bool
  deriving DecidableEq, Repr

/-- The Bank Parameters of a bank. -/
def Bank.params (b : Bank) : ParamsEntry :=
  let w := b.word .params 0
  { interval := bits (w 0) 0 7
    expressA := optionIndex 127 (bits (w 1) 0 7)
    expressB := optionIndex 127 (bits (w 2) 0 7)
    masterTrip := bit (w 0) 15 }

/-- A Station Table entry (section 7.1). -/
structure StationEntry where
  enable : Bool
  degradedSilent : Bool
  discards : Nat
  address : Nat
  slot : Nat
  window : Nat
  minimum : Nat
  deriving DecidableEq, Repr

/-- Station Table entry `i` of a bank. -/
def Bank.station (b : Bank) (i : Nat) : StationEntry :=
  let w := b.word .station i
  { enable := bit (w 0) 15
    degradedSilent := bit (w 0) 14
    discards := bits (w 0) 12 2
    address := bits (w 0) 6 6
    slot := bits (w 0) 0 6
    window := (w 1).toNat
    minimum := bits (w 2) 0 8 }

/-- The kind of a point, with its enable (R184). -/
inductive PointKind where
  | disabled
  | analog
  | single
  | double
  deriving DecidableEq, Repr

/-- The kind's code in the entry image and in a POINT report (R184, section 11.3). -/
def PointKind.code : PointKind → Nat
  | .disabled => 0
  | .analog => 1
  | .single => 2
  | .double => 3

/-- A Point Table entry (section 6.1). `substitute` is none under the stale policy LAST. -/
structure PointEntry where
  kind : PointKind
  source : Nat
  unsigned : Bool
  unit : Nat
  offset : Nat
  holdLimit : Nat
  rawZero : Int
  gain : Int
  substitute : Option Int
  bitNumber : Nat
  oneIsClosed : Bool
  deriving DecidableEq, Repr

/-- Point Table entry `i` of a bank. `bitNumber` is the bit of a SINGLE point and b of a DOUBLE point. -/
def Bank.point (b : Bank) (i : Nat) : PointEntry :=
  let w := b.word .point i
  { kind := match bits (w 0) 14 2 with
      | 0 => .disabled
      | 1 => .analog
      | 2 => .single
      | _ => .double
    source := bits (w 0) 9 5
    unsigned := bit (w 0) 8
    unit := bits (w 0) 5 3
    offset := bits (w 0) 0 5
    holdLimit := (w 1).toNat
    rawZero := (w 2).toInt
    gain := (w 3).toInt
    substitute := if w 4 = 0x8000 then none else some (w 4).toInt
    bitNumber := bits (w 2) 0 4
    oneIsClosed := bit (w 2) 4 }

/-- The point is enabled. -/
def PointEntry.enabled (e : PointEntry) : Bool := e.kind != .disabled

/-- The point is an enabled SINGLE or DOUBLE point. -/
def PointEntry.isBinary (e : PointEntry) : Bool := e.kind == .single || e.kind == .double

/-- One input of a scheme that is not NONE. -/
structure InputEntry where
  point : Nat
  weight : Int
  deriving DecidableEq, Repr

/-- A Scheme Table entry (section 1.1). -/
structure SchemeEntry where
  enable : Bool
  inputs : List InputEntry
  armLevel : Int
  stressLevel : Int
  floor : Int
  backstopLevel : Int
  limit : Int
  hysteresis : Int
  armNeeded : Nat
  disarmNeeded : Nat
  holdCode : Nat
  escalation : Nat
  lenient : Bool
  walkEnable : Bool
  backstopEnable : Bool
  step : Nat
  hardTripEnable : Bool
  sensitivity : Nat
  shedList : Option Nat
  bias : Nat
  cap : Nat
  blocking : Option Nat
  resetDelay : Nat
  deriving DecidableEq, Repr

/-- An input word: point 15-8, weight 7-0 signed, −128 meaning NONE (R184). -/
def inputOf (w : Word) : Option InputEntry :=
  let weight := (w.extractLsb' 0 8).toInt
  if weight = -128 then none else some ⟨bits w 8 8, weight⟩

/-- Scheme Table entry `i` of a bank. -/
def Bank.scheme (b : Bank) (i : Nat) : SchemeEntry :=
  let w := b.word .scheme i
  let level := fun k => (long (w k) (w (k + 1))).toInt
  { enable := bit (w 21) 13
    inputs := [w 0, w 1, w 2, w 3, w 4, w 5, w 6, w 7].filterMap inputOf
    armLevel := level 8
    stressLevel := level 10
    floor := level 12
    backstopLevel := level 14
    limit := level 16
    hysteresis := level 18
    armNeeded := bits (w 20) 0 4
    disarmNeeded := bits (w 20) 4 4
    holdCode := bits (w 20) 8 2
    escalation := bits (w 20) 10 3
    lenient := bit (w 20) 13
    walkEnable := bit (w 20) 14
    backstopEnable := bit (w 20) 15
    step := bits (w 21) 0 13
    hardTripEnable := bit (w 21) 15
    sensitivity := bits (w 22) 0 10
    shedList := optionIndex 31 (bits (w 22) 10 5)
    bias := (w 23).toNat
    cap := (w 24).toNat
    blocking := if bit (w 25) 8 then some (bits (w 25) 0 8) else none
    resetDelay := bits (w 26) 0 10 }

/-- The walk-down hold time in ms: hold codes 0..3 are 60, 120, 180 and 240 s (R184). -/
def SchemeEntry.holdMs (e : SchemeEntry) : Nat := (e.holdCode + 1) * 60000

/-- A candidate of a shed list (section 2.3). -/
structure CandidateEntry where
  enable : Bool
  head : Nat
  availability : Nat
  amount : Nat
  minimum : Nat
  deriving DecidableEq, Repr

/-- Position `p` of shed list `l` of a bank: entry 16 × l + p; none for an empty position (R184). -/
def Bank.candidate (b : Bank) (l p : Nat) : Option CandidateEntry :=
  let w := b.word .shed (16 * l + p)
  if bit (w 0) 15 then
    some { enable := bit (w 0) 14
           head := bits (w 0) 0 8
           availability := bits (w 1) 8 8
           amount := bits (w 1) 0 8
           minimum := (w 2).toNat }
  else none

/-- An Action Table entry (section 4.1). `next` is none for END. -/
structure ActionEntry where
  destination : Nat
  output : Nat
  repeats : Nat
  confirm : Option Nat
  next : Option Nat
  timeout : Nat
  deriving DecidableEq, Repr

/-- Action Table entry `i` of a bank. -/
def Bank.action (b : Bank) (i : Nat) : ActionEntry :=
  let w := b.word .action i
  { destination := bits (w 0) 10 6
    output := bits (w 0) 6 4
    repeats := bits (w 0) 3 3
    confirm := if bit (w 1) 8 then some (bits (w 1) 0 8) else none
    next := if bit (w 1) 15 then none else some (bits (w 2) 9 7)
    timeout := bits (w 2) 0 9 }

/-- A Contingency Table entry (section 3.1). -/
structure ContEntry where
  enable : Bool
  all : Bool
  edge : Bool
  confirmCount : Nat
  rearmCount : Nat
  priority : Nat
  triggers : List Nat
  mask : Word
  direct : Option Nat
  deriving DecidableEq, Repr

/-- Contingency Table entry `i` of a bank. -/
def Bank.cont (b : Bank) (i : Nat) : ContEntry :=
  let w := b.word .contingency i
  { enable := bit (w 0) 15
    all := bit (w 0) 14
    edge := bit (w 0) 13
    confirmCount := bits (w 0) 10 3
    rearmCount := bits (w 0) 6 4
    priority := bits (w 0) 4 2
    triggers :=
      (if bit (w 0) 0 then [bits (w 1) 8 8] else []) ++ (if bit (w 0) 1 then [bits (w 1) 0 8] else []) ++
      (if bit (w 0) 2 then [bits (w 2) 8 8] else []) ++ (if bit (w 0) 3 then [bits (w 2) 0 8] else [])
    mask := w 3
    direct := if bit (w 4) 8 then some (bits (w 4) 0 8) else none }

/-- The schemes of a contingency's scheme mask, in ascending scheme index. -/
def ContEntry.schemes (e : ContEntry) : List Nat := (List.range 16).filter (fun i => bit e.mask i)

/-! ### Chains (R66, R68) -/

/-- The actions reached from `a` by next, at most `n` of them. -/
def Bank.chainFrom (b : Bank) : Nat → Nat → List Nat
  | 0, _ => []
  | n + 1, a =>
    a :: match (b.action a).next with
      | none => []
      | some x => Bank.chainFrom b n x

/-- A chain, in chain order: at most 8 actions (R66). -/
def Bank.chain (b : Bank) (head : Nat) : List Nat := b.chainFrom 8 head

/-- Following next from `a` reaches END within `n` actions (R67). -/
def Bank.chainEnds (b : Bank) : Nat → Nat → Bool
  | 0, _ => false
  | n + 1, a =>
    match (b.action a).next with
    | none => true
    | some x => Bank.chainEnds b n x

/-- A chain walk: one node per action of the chain, in chain order (R68). -/
def Bank.walk (b : Bank) (head : Nat) (origin : Origin) : List Node := (b.chain head).map (fun a => ⟨a, origin⟩)

/-- The head action of a position of a scheme's shed list (R72). Validation lets a taken candidate name none but a held position. -/
def Bank.headAction (b : Bank) (scheme position : Nat) : Nat :=
  match (b.scheme scheme).shedList with
  | none => 0
  | some l => ((b.candidate l position).map CandidateEntry.head).getD 0

/-- The nodes of a list of taken schemes, then of the direct chain (R43, R72): scheme by scheme, candidate by candidate. -/
def Bank.serviceNodes (b : Bank) (taken : List SchemeCopy) (direct : Option Nat) : List Node :=
  taken.flatMap (fun t => t.record.items.flatMap (fun i =>
    b.walk (b.headAction t.scheme i.position) (.scheme t.scheme i.position)))
  ++ (match direct with
      | none => []
      | some h => b.walk h .direct)

/-! ### The settings in force (R141) -/

/-- The timing port (R156). -/
def LinkState.timingPort (l : LinkState) : Option Side :=
  if l.east.state = .locked then some .east else if l.west.state = .locked then some .west else none

/-- The timing port (R156). -/
def State.timingPort (s : State) : Option Side := s.link.timingPort

/-- The slot count in force for a port: the Link Table's, or the port's adopted S under the blank link setting (R141). -/
def State.slotsOf (s : State) (side : Side) : Option Nat :=
  if s.blank then (s.port side).adoptedS else some s.active.link.slots

/-- The own slots in force: the Link Table's, or slot S−1 of the timing port's adopted S (R141). -/
def State.ownSlots (s : State) : List Nat :=
  if s.blank then
    match s.timingPort with
    | none => []
    | some t =>
      match (s.port t).adoptedS with
      | none => []
      | some n => [n - 1]
  else s.active.link.own

/-- The part station address in force (R141). -/
def State.partAddress (s : State) : Nat := if s.blank then 62 else s.active.link.address

/-- The engineering station address in force (R141, R169). -/
def State.engineerAddress (s : State) : Nat := if s.blank then 63 else s.active.link.engineer

/-- Babble isolation enable in force (R141). -/
def State.isolation (s : State) : Bool := !s.blank && s.active.link.isolation

/-- Babble limit in force (R141). -/
def State.babbleLimit (s : State) : Nat := if s.blank then 15 else s.active.link.babbleLimit

/-- Auto-rejoin enable in force (R141). -/
def State.autoRejoin (s : State) : Bool := !s.blank && s.active.link.autoRejoin

/-! ### Frames (section 11.1) -/

/-- The two header words of a frame. -/
def headerWords (kind source len cycle dest spare : Nat) : List Word :=
  [packWord [(12, 4, kind), (6, 6, source), (0, 6, len)], packWord [(8, 8, cycle), (2, 6, dest), (0, 2, spare)]]

/-- A whole frame after its start marker: header words, payload, check word (R182). -/
def frameWords (header payload : List Word) : List Word := header ++ payload ++ [checkWord (header ++ payload)]

/-- The words of a good frame received, which the repeater sends as received. -/
def receivedWords (rx : Reception) (kind : BitVec 4) (payload : List Word) : List Word :=
  frameWords (headerWords kind.toNat rx.source.toNat payload.length rx.cycle.toNat rx.dest.toNat rx.spare.toNat) payload

/-- The slot of a cycle position that a word time falls in, and the word time within it (R140); none without a position. -/
def slotHolding (slots : Nat) (position : Option Nat) (start : Nat) : Option (Nat × Nat) :=
  match position with
  | none => none
  | some p => if p ≤ start then some ((start - p) / 32 % slots, (start - p) % 32) else none

/-- The slot of a port that a word time falls in, and the word time within it (R140). -/
def State.slotHolding (s : State) (side : Side) (start : Nat) : Option (Nat × Nat) :=
  match s.slotsOf side with
  | none => none
  | some n => Machine.slotHolding n (s.port side).position start

/-- The slot that starts at a word time on a port: none off word time 0 of a slot (R140). -/
def State.slotAt (s : State) (side : Side) (start : Nat) : Option Nat :=
  match s.slotHolding side start with
  | some (k, 0) => some k
  | _ => none

/-- The ways a frame can be damaged (R148). -/
inductive Damage where
  | framing
  | truncated
  | badCheck
  deriving DecidableEq, Repr

/-- The payload length L declared by header word 0. -/
def declaredLength (h : Word) : Nat := bits h 0 6

/-- The damage shown by a received frame's words, judged in the order of R148; none for a whole frame with a correct check word. -/
def damageOf (markerWhole : Bool) (words : List Word) : Option Damage :=
  match words with
  | [] => some .framing
  | h :: _ =>
    let len := declaredLength h
    if !markerWhole || decide (25 ≤ len) then some .framing
    else if words.length < len + 3 then some .truncated
    else if words.getD (len + 2) 0 = checkWord (words.take (len + 2)) then none
    else some .badCheck

/-- A truncated frame as repeated: padded to its declared length with zero words and ended with a poisoned check word (R148). -/
def truncatedWords (words : List Word) : List Word :=
  let n := declaredLength (words.headD 0) + 2
  let sent := (words ++ List.replicate n 0).take n
  sent ++ [poisonWord sent]

/-- A whole frame's words: through its check word. -/
def wholeWords (words : List Word) : List Word := words.take (declaredLength (words.headD 0) + 3)

/-! ### Requests (section 11.2) -/

/-- A REQUEST as the agent reads it. `len` is its payload length; `args` the words after word 0. -/
structure Request where
  source : Address
  code : Byte
  tag : Byte
  len : Nat
  args : List Word
  deriving DecidableEq, Repr

/-- The request of a frame whose payload is word 0 (code and tag) and the given arguments. -/
def requestOf (rx : Reception) (code tag : Byte) (args : List Word) : Request :=
  ⟨rx.source, code, tag, args.length + 1, args⟩

/-- The payload of such a request. -/
def requestPayload (code tag : Byte) (args : List Word) : List Word := (code ++ tag) :: args

/-- Argument word `i` after word 0, counted from 1 as section 11.2 counts it. -/
def Request.arg (q : Request) (i : Nat) : Word := q.args.getD (i - 1) 0

/-- Word 1 of a PORT CONTROL request (section 11.2). -/
def portControlWord (port action : Byte) : Word := port ++ action

/-- Word 1 of a READ COUNTERS request (section 11.2). -/
def readCountersWord (first : Byte) (clear : Bool) : Word := first ++ (if clear then 1 else 0 : Byte)

/-- Result codes (section 11.2). -/
inductive Result where
  | done
  | busy
  | refusedGate
  | notPermitted
  | badArgument
  | validationFailed
  | unknownRequest
  deriving DecidableEq, Repr

/-- The code of a result (section 11.2). -/
def Result.code : Result → Nat
  | .done => 0
  | .busy => 1
  | .refusedGate => 2
  | .notPermitted => 3
  | .badArgument => 4
  | .validationFailed => 5
  | .unknownRequest => 6

/-- The payload of a REPLY: code and tag echoed, result and report length, data (section 11.2). -/
def replyPayload (q : Request) (r : Result) (reportLength : Nat) (data : List Word) : List Word :=
  (q.code ++ q.tag) :: packWord [(0, 4, r.code), (4, 12, reportLength)] :: data

end Sys2Proof.Machine
end

