-- ==== Sys2Proof/Machine/Flags.lean ====
section
/-! DEFINITION. Conditions over the state that several blocks test: qualities, output lines, work in flight, permission, the cycle
number, and the latching of hard-trip requests. -/

namespace Sys2Proof.Machine

/-! ### Qualities (section 6.5) -/

/-- Fresh quality: GOOD, SUSPECT or FORCED (R8, R51, R78, R92). -/
def Quality.fresh : Quality → Bool
  | .good | .suspect | .forced => true
  | .invalid | .held | .stale => false

/-- Usable for a candidate: GOOD, SUSPECT, HELD or FORCED (R34). -/
def Quality.usable : Quality → Bool
  | .good | .suspect | .held | .forced => true
  | .invalid | .stale => false

/-- Usable for a scheme input: STALE only under LENIENT (R8). -/
def Quality.usableInput (lenient : Bool) : Quality → Bool
  | .stale => lenient
  | q => q.usable

/-- The number a value stands for: a binary value's code is 0 INTERMEDIATE, 1 OPEN, 2 CLOSED (11_frame_and_table_image_layouts.md). -/
def PointValue.number : PointValue → Int
  | .analog n => n
  | .binary .intermediate => 0
  | .binary .opened => 1
  | .binary .closed => 2

/-- The point is OPEN with fresh quality: a trigger reads OPEN (R51), a confirm point reads OPEN (R78, R92), a blocking point is in
effect (R8). -/
def PointRec.readsOpen (p : PointRec) : Bool := p.value == .binary .opened && p.quality.fresh

/-! ### Output lines (R103, R105) -/

/-- The hard trip line: the master enable is set and a hard-trip request is latched; negated under a BLANK bank (R103). -/
def State.hardTripLine (s : State) : Bool :=
  !s.blank && s.active.params.masterTrip && s.arming.schemes.any SchemeRec.hardTrip

/-- The operated alarm line: a scheme is OPERATED (R105). -/
def State.operatedAlarm (s : State) : Bool := s.arming.schemes.any (fun r => r.state == .operated)

/-! ### Work in flight (R28, R166) -/

/-- The engine is SERVING, an operation is open or the Trip Queue holds an entry (R28, R166). -/
def State.workInFlight (s : State) : Bool :=
  s.engine.isSome || !s.tracker.ops.isEmpty || !s.queue.entries.isEmpty

/-- The live entry for an action (R75: never two). -/
def State.liveEntry (s : State) (action : Nat) : Option Entry := s.queue.entries.find? (fun e => e.action == action)

/-- The pending set, in ascending index: the contingencies whose state is PENDING (R58). -/
def State.pendingSet (s : State) : List Nat := (List.range 64).filter (fun c => (s.cont c).state == .pending)

/-- The contingency is express contingency A (R46): named in the Bank Parameters and enabled. -/
def State.isExpressA (s : State) (c : Nat) : Bool := s.active.params.expressA == some c && (s.active.cont c).enable

/-- The contingency is express contingency B (R46). -/
def State.isExpressB (s : State) (c : Nat) : Bool := s.active.params.expressB == some c && (s.active.cont c).enable

/-- The cycle number of an event: the timing port's, or without one the last taken on any port (R88). -/
def State.cycleNumber (s : State) : Byte :=
  match s.timingPort with
  | some t => ((s.port t).cycle).getD s.link.lastCycle
  | none => s.link.lastCycle

/-- A write from this source address is accepted (R169). -/
def State.permits (s : State) (source : Address) : Bool :=
  s.engineerAddress == 63 || s.engineerAddress == source.toNat

/-! ### Latching and leaving (R19, R22) -/

/-- Latch a scheme's hard-trip request if its hard trip enable is yes (R19, R79, R101). -/
def State.latchHardTrip (s : State) (i : Nat) : State :=
  if (s.active.scheme i).hardTripEnable then s.updScheme i (fun r => { r with hardTrip := true }) else s

/-- A scheme enters OPERATED: its reset timer starts if its reset delay is nonzero (R22). -/
def State.toOperated (s : State) (i : Nat) : State :=
  let delay := (s.active.scheme i).resetDelay
  s.updScheme i (fun r => { r with
    state := .operated
    resetTimer := if delay = 0 then none else some (s.after (delay * 1000)) })

/-- A scheme record with its arming, disarm and stress counts 0 and no selection record, in another state: what a take
(R21), a suspension (R8), a disarming (R16), a reset of the scheme (R24) and a gate closing (R28) have in common. -/
def SchemeRec.calm (r : SchemeRec) (state : SchemeState) : SchemeRec :=
  { r with state := state, armCount := 0, disarmCount := 0, stress := 0, selection := none }

end Sys2Proof.Machine
end

