-- ==== Sys2Proof/Machine/Selection.lean ====
section
/-! DEFINITION. The Selection Unit (02_shed_requirement_and_selection.md): requirement, eligibility, selection walk, replacement
search and express image build. -/

namespace Sys2Proof.Machine

/-- The shed requirement of a scheme with quantity `q` (R31). -/
def SchemeEntry.requirement (e : SchemeEntry) (q : Int) : Nat :=
  min (roundUp ((q - e.limit).toNat * e.sensitivity) 256 + e.bias) e.cap

/-- The amount of an amount point's value: a negative value counts as 0 (R35). -/
def PointRec.amount (p : PointRec) : Nat := p.value.number.toNat

/-- The five conditions of R34 on a candidate, at this event. -/
def State.candidateEligible (s : State) (c : CandidateEntry) : Bool :=
  c.enable
  && ((s.point c.availability).value == .binary .closed && (s.point c.availability).quality.usable)
  && (s.point c.amount).quality.usable
  && decide (c.minimum ≤ (s.point c.amount).amount)
  && (s.liveEntry c.head).isNone

/-- The amount of the candidate at a position of a shed list, when it is eligible (R34, R35); none for an ineligible position. -/
def State.eligible (s : State) (list position : Nat) : Option Nat :=
  match s.active.candidate list position with
  | none => none
  | some c => if s.candidateEligible c then some (s.point c.amount).amount else none

/-- The selection walk of R37 over the positions still to be examined, with the items added so far and their total: the selected
list, C and the continuation position. -/
def selectionWalk (eligible : Nat → Option Nat) (requirement : Nat) :
    List Nat → List SelItem → Nat → List SelItem × Nat × Nat
  | [], items, total => (items, total, 16)
  | p :: rest, items, total =>
    match eligible p with
    | none => selectionWalk eligible requirement rest items total
    | some amount =>
      if requirement ≤ total + amount ∨ items.length + 1 = 8 then (items ++ [⟨p, amount⟩], total + amount, p + 1)
      else selectionWalk eligible requirement rest (items ++ [⟨p, amount⟩]) (total + amount)

/-- The selection of a scheme for a requirement (R36, R37, R38). -/
def State.select (s : State) (shedList : Option Nat) (requirement : Nat) : SelRecord :=
  if requirement = 0 then ⟨0, [], 0, .none, 0, s.timeBase⟩
  else
    match shedList with
    | none => ⟨requirement, [], 0, .short, 0, s.timeBase⟩
    | some l =>
      let walk := selectionWalk (s.eligible l) requirement (List.range 16) [] 0
      ⟨requirement, walk.1, walk.2.1, if requirement ≤ walk.2.1 then .covered else .short, walk.2.2, s.timeBase⟩

/-- The first eligible position of a list of positions, with its amount (R41). -/
def firstEligible (eligible : Nat → Option Nat) : List Nat → Option (Nat × Nat)
  | [] => none
  | p :: rest =>
    match eligible p with
    | some amount => some (p, amount)
    | none => firstEligible eligible rest

/-- The replacement search from a continuation position: the candidate's position and amount (R41). -/
def State.replacement (s : State) (shedList : Option Nat) (from' : Nat) : Option (Nat × Nat) :=
  match shedList with
  | none => none
  | some l => firstEligible (s.eligible l) ((List.range 16).drop from')

/-- The schemes of a list that are ARMED, with their selection records, in the list's order (R43, R70). -/
def State.armedOf (s : State) (schemes : List Nat) : List SchemeCopy :=
  schemes.filterMap (fun i =>
    if (s.scheme i).state = .armed then (s.scheme i).selection.map (fun r => ⟨i, r⟩) else none)

/-- Build the express image of a designation (R43, R44). -/
def State.buildImage (s : State) (designation : Option Nat) : Image :=
  match designation with
  | none => .invalid
  | some c =>
    let e := s.active.cont c
    if e.enable then
      let taken := s.armedOf e.schemes
      let nodes := s.active.serviceNodes taken e.direct
      if nodes.length ≤ 32 then ⟨.valid, taken, nodes⟩ else ⟨.oversize, [], []⟩
    else .invalid

/-- Rebuild both express images (R43). -/
def State.buildImages (s : State) : State :=
  s.setMonitor { s.monitor with
    imageA := s.buildImage s.active.params.expressA
    imageB := s.buildImage s.active.params.expressB }

end Sys2Proof.Machine
end

