-- ==== Sys2Proof/Machine/Tracker.lean ====
section
/-! DEFINITION. Hand-in to the Trip Queue, recording, crediting, escalation, closure, takes and express serves
(04_action_chains_and_the_trip_queue.md, 05_confirmation_escalation_and_operations.md). -/

namespace Sys2Proof.Machine

/-! ### Recording nodes in an operation (R90, R91) -/

/-- The outcome of a hand-in (R81). `merged true`: the id was newly added to the entry's reference set. -/
inductive HandOutcome where
  | entered
  | merged (newly : Bool)
  | alreadyOpen
  | dropped
  deriving DecidableEq, Repr

/-- The status a node takes on at its hand-in (R90, R91). -/
def HandOutcome.status : HandOutcome → NodeStatus
  | .entered | .merged _ => .outstanding
  | .alreadyOpen => .confirmed
  | .dropped => .dropped

/-- What the hand-in adds to the outstanding count (R90). -/
def HandOutcome.counts : HandOutcome → Nat
  | .entered | .merged true => 1
  | .merged false | .alreadyOpen | .dropped => 0

/-- Record a node of a candidate's chain: its head by its head status, another action among its auxiliary nodes. -/
def Candidate.record (c : Candidate) (action : Nat) (o : HandOutcome) : Candidate :=
  if action = c.head then
    { c with headStatus := match o with
        | .entered | .merged _ => c.headStatus
        | .alreadyOpen => .confirmed
        | .dropped => .dropped }
  else { c with aux := c.aux ++ [⟨action, o.status⟩] }

/-- The amount a hand-in credits for a candidate: its head node finishing ALREADY_OPEN (R91). -/
def Candidate.recordAmount (c : Candidate) (action : Nat) (o : HandOutcome) : Nat :=
  if action = c.head ∧ o = .alreadyOpen then c.amount else 0

/-- Record a node of the candidate at a position. -/
def TakenPart.record (t : TakenPart) (position action : Nat) (o : HandOutcome) : TakenPart :=
  { t with
    candidates := t.candidates.map (fun c => if c.position = position then c.record action o else c)
    confirmed := t.confirmed
      + ((t.candidates.filter (fun c => c.position == position)).map (fun c => c.recordAmount action o)).sum }

/-- Change a taken participation's content. -/
def Participation.update (p : Participation) (f : TakenPart → TakenPart) : Participation := { p with taken := p.taken.map f }

/-- Record a node handed in for an operation (R90, R91). -/
def Operation.record (op : Operation) (n : Node) (o : HandOutcome) : Operation :=
  let op : Operation :=
    { op with outstanding := op.outstanding + o.counts, overflow := op.overflow || o == HandOutcome.dropped }
  match n.origin with
  | .direct => { op with direct := op.direct ++ [⟨n.action, o.status⟩] }
  | .scheme i p =>
    { op with parts := op.parts.map (fun part =>
        if part.scheme = i then part.update (fun t => t.record p n.action o) else part) }

/-- Change the open operation of an id. -/
def State.updOp (s : State) (id : Nat) (f : Operation → Operation) : State :=
  s.setTracker { s.tracker with ops := s.tracker.ops.map (fun o => if o.id = id then f o else o) }

/-- The open operation of an id. -/
def State.findOp (s : State) (id : Nat) : Option Operation := s.tracker.ops.find? (fun o => o.id == id)

/-! ### Hand-in (R77 to R81) -/

/-- Insert an id into a reference set kept in ascending order. -/
def insertRef (id : Nat) : List Nat → List Nat
  | [] => [id]
  | x :: rest => if id = x then x :: rest else if id < x then id :: x :: rest else x :: insertRef id rest

/-- An entry joined by a hand-in (R77). -/
def Entry.join (e : Entry) (id priority : Nat) : Entry :=
  { e with priority := max e.priority priority, refs := if id = 0 then e.refs else insertRef id e.refs }

/-- The entry a hand-in makes (R80). -/
def State.newEntry (s : State) (id priority action : Nat) : Entry :=
  let a := s.active.action action
  { action := action, destination := a.destination, output := a.output, priority := priority, repeats := a.repeats, sent := 0
    order := s.queue.nextOrder, deadline := s.after a.timeout, state := .waiting, refs := if id = 0 then [] else [id] }

/-- The node's action has a confirm point that reads OPEN (R78). -/
def State.confirmOpen (s : State) (action : Nat) : Bool :=
  match (s.active.action action).confirm with
  | none => false
  | some p => (s.point p).readsOpen

/-- The outcome of handing a node in: the tests of R77 to R80, in order. -/
def State.handOutcome (s : State) (id action : Nat) : HandOutcome :=
  match s.liveEntry action with
  | some e => .merged (id != 0 && !e.refs.contains id)
  | none =>
    if s.confirmOpen action then .alreadyOpen
    else if 32 ≤ s.queue.entries.length then .dropped
    else .entered

/-- The hard-trip latches of a dropped node: its origin scheme, or every scheme the service took (R79). -/
def State.latchDropped (s : State) (taken : List Nat) (o : Origin) : State :=
  match o with
  | .scheme i _ => s.latchHardTrip i
  | .direct => taken.foldl State.latchHardTrip s

/-- What an outcome does to the queue, the notices and the requests (R77 to R80). -/
def State.applyHand (s : State) (id priority : Nat) (taken : List Nat) (n : Node) : HandOutcome → State
  | .merged _ =>
    s.setQueue { s.queue with entries := s.queue.entries.map (fun e => if e.action = n.action then e.join id priority else e) }
  | .alreadyOpen => s
  | .dropped => (s.raise (fun n => { n with queueOverflow := true })).latchDropped taken n.origin
  | .entered =>
    s.setQueue { entries := s.queue.entries ++ [s.newEntry id priority n.action], nextOrder := s.queue.nextOrder + 1 }

/-- Hand one node in, under an operation id (0 for untracked work), and record its outcome (R81, R90, R91). `taken` are the schemes
the service took. -/
def State.handIn (id priority : Nat) (taken : List Nat) (s : State) (n : Node) : State :=
  let o := s.handOutcome id n.action
  let s := s.applyHand id priority taken n o
  if id = 0 then s else s.updOp id (fun op => op.record n o)

/-! ### Finishing nodes (R93, R95, R96) -/

/-- A node item of the finished action that is waiting. -/
def NodeItem.finish (action : Nat) (status : NodeStatus) (i : NodeItem) : NodeItem :=
  if i.action = action ∧ i.status = .outstanding then { i with status := status } else i

/-- The candidate's head waits on the action. -/
def Candidate.waitsOn (c : Candidate) (action : Nat) : Bool := c.head == action && c.headStatus == .outstanding

/-- Finish the waiting nodes of an action in a candidate. A head finishes CONFIRMED or, by expiry, FAILED; it is never SENT (R95). -/
def Candidate.finish (action : Nat) (status : NodeStatus) (c : Candidate) : Candidate :=
  { c with
    headStatus :=
      if c.waitsOn action then
        match status with
        | .confirmed => .confirmed
        | .expired => .failed
        | .outstanding | .sent | .dropped => c.headStatus
      else c.headStatus
    aux := c.aux.map (NodeItem.finish action status) }

/-- Finish the waiting nodes of an action in a taken participation, crediting confirmed candidates (R93). -/
def TakenPart.finish (action : Nat) (status : NodeStatus) (t : TakenPart) : TakenPart :=
  { t with
    candidates := t.candidates.map (Candidate.finish action status)
    confirmed := t.confirmed + (if status = .confirmed then
      ((t.candidates.filter (fun c => c.waitsOn action)).map Candidate.amount).sum else 0) }

/-- Finish the waiting nodes of an action in an operation; its outstanding count goes down by 1 (R93, R95, R96). -/
def Operation.finish (action : Nat) (status : NodeStatus) (op : Operation) : Operation :=
  { op with
    parts := op.parts.map (fun p => p.update (TakenPart.finish action status))
    direct := op.direct.map (NodeItem.finish action status)
    outstanding := op.outstanding - 1 }

/-- Finish an action in every operation of a reference set, in ascending id. -/
def State.finishFor (action : Nat) (status : NodeStatus) (refs : List Nat) (s : State) : State :=
  refs.foldl (fun s id => s.updOp id (Operation.finish action status)) s

/-- Remove the live entry of an action; the others keep their order (section 4.4). -/
def State.removeEntry (s : State) (action : Nat) : State :=
  s.setQueue { s.queue with entries := s.queue.entries.filter (fun e => e.action != action) }

/-- An entry leaves the queue with a status, and the operations of its reference set are credited or failed. -/
def State.finishEntry (status : NodeStatus) (s : State) (e : Entry) : State :=
  (s.removeEntry e.action).finishFor e.action status e.refs

/-- The live entries that an update of the given points confirms, in list order (R92). -/
def State.confirmedEntries (s : State) (updated : List Nat) : List Entry :=
  s.queue.entries.filter (fun e =>
    match (s.active.action e.action).confirm with
    | none => false
    | some p => updated.contains p && (s.point p).readsOpen)

/-- Finish CONFIRMED the entries that an update confirms (R92, R93). -/
def State.confirmUpdated (s : State) (updated : List Nat) : State :=
  (s.confirmedEntries updated).foldl (State.finishEntry .confirmed) s

/-! ### Allocation (R88, R89) -/

/-- The id after an id in the cycle 1, 2, …, 255, 1 (R88); 0 stands for no id yet. -/
def nextId (id : Nat) : Nat := if 255 ≤ id then 1 else id + 1

/-- The first id from `id` on that is not open (R88). -/
def freeId (opened : List Nat) : Nat → Nat → Nat
  | 0, id => id
  | n + 1, id => if opened.contains id then freeId opened n (nextId id) else id

/-- The id a new operation receives (R88: found within 9 steps). -/
def State.newId (s : State) : Nat := freeId (s.tracker.ops.map Operation.id) 9 (nextId s.tracker.lastId)

/-- The table with one more operation, in ascending id. -/
def insertOp (op : Operation) : List Operation → List Operation
  | [] => [op]
  | x :: rest => if op.id < x.id then op :: x :: rest else x :: insertOp op rest

/-- The participations of an operation over the schemes of a mask: a taken scheme with its record's content, any other SKIPPED
(R89). -/
def State.participations (s : State) (schemes : List Nat) (taken : List SchemeCopy) : List Participation :=
  schemes.map (fun i =>
    match taken.find? (fun t => t.scheme == i) with
    | none => ⟨i, none⟩
    | some t => ⟨i, some
        { requirement := t.record.requirement
          candidates := t.record.items.map (fun it =>
            ⟨it.position, it.amount, s.active.headAction i it.position, .outstanding, []⟩)
          replacements := 0
          confirmed := 0
          continuation := t.record.continuation
          outcome := none }⟩)

/-- The Operation Table holds fewer than 8 open operations (R88). -/
def State.canTrack (s : State) : Bool := decide (s.tracker.ops.length < 8)

/-- Allocate an operation (R88, R89). -/
def State.allocate (s : State) (cont : Nat) (path : OpPath) (priority : Nat) (phase : OpPhase) (taken : List SchemeCopy) : State :=
  let op : Operation :=
    { id := s.newId, contingency := cont, path := path, priority := priority, phase := phase, takeTime := s.timeBase
      takeCycle := s.cycleNumber, parts := s.participations (s.active.cont cont).schemes taken, direct := []
      outstanding := 0, overflow := false }
  s.setTracker { ops := insertOp op s.tracker.ops, lastId := s.newId }

/-- The work goes ahead untracked: the notice is raised (R63, R71). -/
def State.raiseUntracked (s : State) : State := s.raise (fun n => { n with untrackedOperation := true })

/-- Allocate an operation, or with 8 open go ahead untracked (R63, R70, R71). -/
def State.openWork (s : State) (cont : Nat) (path : OpPath) (priority : Nat) (phase : OpPhase) (taken : List SchemeCopy) : State :=
  if s.canTrack then s.allocate cont path priority phase taken else s.raiseUntracked

/-- The operation id of work opened now: 0 when it will be untracked. -/
def State.workId (s : State) : Nat := if s.canTrack then s.newId else 0

/-! ### Closure (R99 to R101) -/

/-- The outcome of a taken participation (R100). -/
def TakenPart.closeOutcome (t : TakenPart) : PartOutcome :=
  if t.requirement ≤ t.confirmed then .covered else if t.confirmed = 0 then .failed else .short

/-- A participation at closure: a taken one has its outcome, a SKIPPED one none (R100). -/
def Participation.close (p : Participation) : Participation :=
  p.update (fun t => { t with outcome := some t.closeOutcome })

/-- The taken participation is SHORT or FAILED (R101). -/
def Participation.isShort (p : Participation) : Bool :=
  match p.taken with
  | none => false
  | some t => t.closeOutcome != .covered

/-- The operation outcome (R101): COMPLETE when every taken participation is COVERED and no direct item EXPIRED or DROPPED. -/
def Operation.outcome (op : Operation) : OpOutcome :=
  if op.parts.any Participation.isShort || op.direct.any (fun i => i.status == .expired || i.status == .dropped)
  then .incomplete else .complete

/-- Write a closed operation as the newest log record (R178). -/
def State.logClosed (s : State) (op : Operation) (outcome : OpOutcome) : State :=
  s.setLog
    { records := (⟨op, outcome, s.timeBase, s.cycleNumber, s.log.nextSeq⟩ :: s.log.records).take 32
      nextSeq := s.log.nextSeq + 1 }

/-- A scheme at the end of its work goes from OPERATING to OPERATED (R22). -/
def State.endWork (s : State) (i : Nat) : State := if (s.scheme i).state = .operating then s.toOperated i else s

/-- Close an operation (R100, R101, in its order). -/
def State.closeOp (s : State) (op : Operation) : State :=
  let s := (op.parts.filter Participation.isShort).foldl (fun s p => s.latchHardTrip p.scheme) s
  let s := s.logClosed { op with parts := op.parts.map Participation.close } op.outcome
  let s := s.setTracker { s.tracker with ops := s.tracker.ops.filter (fun o => o.id != op.id) }
  (op.parts.filter (fun p => p.taken.isSome)).foldl (fun s p => s.endWork p.scheme) s

/-- An open operation that closes at the end of the event (R99). -/
def Operation.finished (op : Operation) : Bool := op.phase == .tracking && op.outstanding == 0

/-- Close the operations the event has left with outstanding count 0, in ascending id (R99). -/
def State.closeFinished (s : State) : State := (s.tracker.ops.filter Operation.finished).foldl State.closeOp s

/-! ### Escalation (R97, R98) -/

/-- The schemes of an operation in whose participations an expiry of `action` fails a candidate (R96, R97). -/
def Operation.failing (op : Operation) (action : Nat) : List Nat :=
  (op.parts.filter (fun p =>
    match p.taken with
    | none => false
    | some t => t.candidates.any (fun c => c.waitsOn action))).map Participation.scheme

/-- The schemes an operation took: its participations not SKIPPED (R79). -/
def Operation.takenSchemes (op : Operation) : List Nat :=
  (op.parts.filter (fun p => p.taken.isSome)).map Participation.scheme

/-- Add a replacement candidate to a taken participation (R97). -/
def TakenPart.addReplacement (t : TakenPart) (position amount head : Nat) : TakenPart :=
  { t with
    candidates := t.candidates ++ [⟨position, amount, head, .outstanding, []⟩]
    replacements := t.replacements + 1
    continuation := position + 1 }

/-- The taken participation of a scheme in an operation. -/
def Operation.takenPart (op : Operation) (scheme : Nat) : Option TakenPart :=
  (op.parts.find? (fun p => p.scheme == scheme)).bind Participation.taken

/-- Change the taken participation of a scheme in an operation. -/
def Operation.updPart (op : Operation) (scheme : Nat) (f : TakenPart → TakenPart) : Operation :=
  { op with parts := op.parts.map (fun p => if p.scheme = scheme then p.update f else p) }

/-- Try escalation for one participation of an operation (R97): search, add the replacement, hand its chain in. -/
def State.escalate (id : Nat) (s : State) (scheme : Nat) : State :=
  match s.findOp id with
  | none => s
  | some op =>
    match op.takenPart scheme with
    | none => s
    | some t =>
      let e := s.active.scheme scheme
      if t.replacements < e.escalation then
        match s.replacement e.shedList t.continuation with
        | none => s
        | some (position, amount) =>
          let head := s.active.headAction scheme position
          (s.active.walk head (.scheme scheme position)).foldl (State.handIn id op.priority op.takenSchemes)
            (s.updOp id (fun o => o.updPart scheme (fun t => t.addReplacement position amount head)))
      else s

/-- An expired entry's effect on one operation of its reference set: fail its waiting nodes, then escalate participation by
participation (R96). -/
def State.expireFor (action : Nat) (s : State) (id : Nat) : State :=
  match s.findOp id with
  | none => s
  | some op =>
    (op.failing action).foldl (State.escalate id) (s.updOp id (Operation.finish action .expired))

/-- An entry finishes EXPIRED (R96). -/
def State.expireEntry (s : State) (e : Entry) : State :=
  (e.refs.foldl (State.expireFor e.action) (s.removeEntry e.action)).closeFinished

/-! ### The Action Engine (R59, R70 to R74) -/

/-- The arbiter's order as a number: priority, then express A and express B within priority 3 (R59). -/
def State.rank (s : State) (c : Nat) : Nat :=
  let p := (s.active.cont c).priority
  3 * p + if p = 3 then (if s.isExpressA c then 2 else if s.isExpressB c then 1 else 0) else 0

/-- The contingency the arbiter chooses: the greatest rank, then the lowest index (R59). -/
def State.chosen (s : State) : Option Nat :=
  s.pendingSet.foldl (fun best c =>
    match best with
    | none => some c
    | some b => if s.rank b < s.rank c then some c else some b) none

/-- Take schemes into OPERATING (R21). -/
def State.takeSchemes (s : State) (taken : List SchemeCopy) : State :=
  taken.foldl (fun s t => s.updScheme t.scheme (fun r => r.calm .operating)) s

/-- The take event (R70, R71). -/
def State.take (s : State) (c : Nat) : State :=
  let e := s.active.cont c
  let taken := s.armedOf e.schemes
  let snapshot : Snapshot :=
    { contingency := c, priority := e.priority, opId := s.workId, taken := taken, directHead := e.direct, takeTime := s.timeBase }
  let s := (s.openWork c .ordinary e.priority .expanding taken).takeSchemes taken
  (s.updCont c (fun r => { r with state := .serving })).setEngine (some snapshot)

/-- The arbiter's take at the end of an event that leaves the engine IDLE with the pending set not empty (R59). -/
def State.arbiterTake (s : State) : State :=
  match s.engine with
  | some _ => s
  | none =>
    match s.chosen with
    | none => s
    | some c => s.take c

/-- A contingency goes SERVED with rearm progress 0 and becomes the last served (R60, R62). -/
def State.served (s : State) (c : Nat) : State :=
  let s := s.updCont c (fun r => { r with state := .served, rearm := 0 })
  s.setMonitor { s.monitor with lastServed := some c }

/-- The expansion completion of a service (R74). -/
def State.completeExpansion (s : State) (snap : Snapshot) : State :=
  let nodes := s.active.serviceNodes snap.taken snap.directHead
  let schemes := snap.taken.map SchemeCopy.scheme
  let s := if snap.opId = 0 then s else s.updOp snap.opId (fun op => { op with phase := .tracking })
  let s := nodes.foldl (State.handIn snap.opId snap.priority schemes) s
  let s := if snap.opId = 0 then schemes.foldl State.endWork s else s
  (((s.served snap.contingency).setEngine none).closeFinished).arbiterTake

/-! ### The express path (R62, R63) -/

/-- The nodes of an image that a serve hands in: those of the schemes it takes, and every direct node (R62). -/
def Image.servedNodes (img : Image) (taken : List Nat) : List Node :=
  img.nodes.filter (fun n =>
    match n.origin with
    | .scheme i _ => taken.contains i
    | .direct => true)

/-- Serve an express contingency from its image (R62); with 8 operations open as untracked work (R63). -/
def State.serveExpress (s : State) (c : Nat) (img : Image) : State :=
  let taken := img.participations.filter (fun p => decide ((s.scheme p.scheme).state = .armed))
  let schemes := taken.map SchemeCopy.scheme
  let id := s.workId
  let s := (s.openWork c .express 3 .tracking taken).takeSchemes taken
  let s := if id = 0 then schemes.foldl State.endWork s else s
  let s := (img.servedNodes schemes).foldl (State.handIn id 3 schemes) s
  s.served c

end Sys2Proof.Machine
end

