-- ==== Sys2Proof/Machine/Monitor.lean ====
section
/-! DEFINITION. The Contingency Monitor's evaluations, and what follows the updates of an event: evaluations, confirmations, express
serves, closures, the arbiter's take (03_contingency_detection_and_arbitration.md). -/

namespace Sys2Proof.Machine

/-- The combined condition of a contingency's trigger points; none when the evaluation does not run (R51). -/
def State.condition (s : State) (e : ContEntry) : Option Bool :=
  let fresh := e.triggers.filter (fun p => (s.point p).quality.fresh)
  let isOpen := fun p => (s.point p).value == .binary .opened
  if e.all then
    if fresh.length = e.triggers.length then some (e.triggers.all isOpen) else none
  else if fresh.isEmpty then none else some (fresh.any isOpen)

/-- The combined value recorded by an evaluation that ran (R52). -/
def Combined.ofBool (b : Bool) : Combined := if b then .true else .false

/-- One more TRUE evaluation toward the confirm count: the record with its progress, and whether confirmation completes in this
event (R53, R54, R55). -/
def ContRec.advance (e : ContEntry) (r : ContRec) : ContRec × Bool :=
  if e.confirmCount ≤ r.confirm + 1 then ({ r with state := .confirming, confirm := 0 }, true)
  else ({ r with state := .confirming, confirm := r.confirm + 1 }, false)

/-- An evaluation that runs, by the contingency's state (R53, R54, R56, R57). -/
def ContRec.evaluated (e : ContEntry) (cond : Bool) (r : ContRec) : ContRec × Bool :=
  match r.state with
  | .idle => if cond && (!e.edge || r.last == .false) then ({ r with confirm := 0 } : ContRec).advance e else (r, false)
  | .confirming => if cond then r.advance e else ({ r with state := .idle, confirm := 0 }, false)
  | .pending | .serving => (r, false)
  | .served =>
    if cond then ({ r with rearm := 0 }, false)
    else if e.rearmCount ≤ r.rearm + 1 then ({ r with state := .idle, confirm := 0, rearm := 0 }, false)
    else ({ r with rearm := r.rearm + 1 }, false)

/-- The record at the end of an evaluation that is due (R52): DEGRADED and the last combined value with it. -/
def ContRec.due (e : ContEntry) (cond : Option Bool) (r : ContRec) : ContRec × Bool :=
  match cond with
  | none => ({ r with degraded := true }, false)
  | some b =>
    let done := r.evaluated e b
    ({ done.1 with last := .ofBool b, degraded := false }, done.2)

/-- The express image of a contingency, when it is an express contingency (R55). -/
def State.expressImage (s : State) (c : Nat) : Option Image :=
  if s.isExpressA c then some s.monitor.imageA else if s.isExpressB c then some s.monitor.imageB else none

/-- Confirmation completes with the gate open and the contingency to be served from a VALID image (R55). -/
def State.servesExpress (s : State) (c : Nat) : Bool :=
  s.arming.gateOpen && (s.expressImage c).any (fun img => img.status == .valid)

/-- What a completed confirmation leads to within the evaluation (R55, R65). An express serve is left to the end of the
evaluations, and its contingency stays CONFIRMING until then. -/
def State.completed (s : State) (c : Nat) : State :=
  if !s.arming.gateOpen then
    let s := s.updCont c (fun r => { r with state := .served, rearm := 0 })
    s.setMonitor { s.monitor with gatedDetection := satInc s.monitor.gatedDetection }
  else
    match s.expressImage c with
    | none => s.updCont c (fun r => { r with state := .pending })
    | some img =>
      match img.status with
      | .valid => s
      | .invalid => s.updCont c (fun r => { r with state := .pending })
      | .oversize =>
        (s.updCont c (fun r => { r with state := .pending })).raise (fun n => { n with expressFallback := true })

/-- Evaluate one contingency (R50 to R57): the state, and the express serves gathered so far. -/
def State.evaluateCont (acc : State × List Nat) (c : Nat) : State × List Nat :=
  let s := acc.1
  let e := s.active.cont c
  let done := (s.cont c).due e (s.condition e)
  let s := s.updCont c (fun _ => done.1)
  if done.2 then (s.completed c, if s.servesExpress c then acc.2 ++ [c] else acc.2) else (s, acc.2)

/-- The enabled contingencies with an updated trigger point, in ascending index (R50). -/
def State.dueConts (s : State) (updated : List Nat) : List Nat :=
  (List.range 64).filter (fun c =>
    let e := s.active.cont c
    e.enable && e.triggers.any updated.contains)

/-- The evaluations of an update event: the state, and the contingencies to be served on the express path (R50, R55). -/
def State.evaluateConts (s : State) (updated : List Nat) : State × List Nat :=
  (s.dueConts updated).foldl State.evaluateCont (s, [])

/-- The express serves of an event, express A before express B (R55). -/
def State.expressServes (s : State) (serves : List Nat) : State :=
  let byA := (serves.filter s.isExpressA).foldl (fun s c => s.serveExpress c s.monitor.imageA) s
  (serves.filter (fun c => !s.isExpressA c)).foldl (fun s c => s.serveExpress c s.monitor.imageB) byA

/-- Draw the next free choice of Config.confirmFirst (log 9). -/
def State.drawConfirmFirst (s : State) : Bool × State := (Config.confirmFirst s.freeIndex, s.setFreeIndex (s.freeIndex + 1))

/-- A point as a hand-in that comes before the event's updates to OPEN finds it: one that the event has left reading OPEN as it
stood before the event, any other as the event has left it (R78, R92, R111). -/
def PointRec.beforeOpening (after before : PointRec) : PointRec := if after.readsOpen then before else after

/-- Express serves that come before the event's confirmations: their hand-ins do not see the points that the event has made OPEN, so
that a serve node waiting on one is ENTERED (R92). `before` are the points before the event. -/
def State.servesFirst (s : State) (before : List PointRec) (serves : List Nat) : State :=
  ((s.setPoints (List.zipWith PointRec.beforeOpening s.points before)).expressServes serves).setPoints s.points

/-- Confirmations and express serves of an update event. Without a serve there is no order to choose; with one, R92 leaves the
order open, and a free value decides (log 9). -/
def State.confirmAndServe (s : State) (before : List PointRec) (updated serves : List Nat) : State :=
  if serves.isEmpty then s.confirmUpdated updated
  else
    let draw := s.drawConfirmFirst
    if draw.1 then (draw.2.confirmUpdated updated).expressServes serves
    else (draw.2.servesFirst before serves).confirmUpdated updated

/-- What follows the updates of the given points in one event (R55, R111): evaluations, confirmations and express serves,
closures, the arbiter's take. `before` are the points before the event. -/
def State.afterUpdates (before : List PointRec) (updated : List Nat) (s : State) : State :=
  let evaluated := s.evaluateConts updated
  ((evaluated.1.confirmAndServe before updated evaluated.2).closeFinished).arbiterTake

end Sys2Proof.Machine
end

