-- ==== Sys2Proof/Machine/Points.lean ====
section
/-! DEFINITION. The Point Store, Intake and the start gate: decoding, updates, holding, forcing, frame acceptance, windows, gate
opening and closing (06, 07, and section 1.6 of 01). -/

namespace Sys2Proof.Machine

/-! ### Decoding (R112 to R114) -/

/-- The raw number of an analog word (R112). -/
def PointEntry.raw (e : PointEntry) (w : Word) : Int := if e.unsigned then (w.toNat : Int) else w.toInt

/-- The scaled and clamped value of an analog word (R112). -/
def PointEntry.scale (e : PointEntry) (w : Word) : Int := clampAnalog (roundHalfAway ((e.raw w - e.rawZero) * e.gain) 1024)

/-- A SINGLE point's value (R113). -/
def PointEntry.single (e : PointEntry) (w : Word) : BinaryValue :=
  if bit w e.bitNumber == e.oneIsClosed then .closed else .opened

/-- A DOUBLE point's value from bits b+1 and b; none for code 11 (R114). -/
def PointEntry.double (e : PointEntry) (w : Word) : Option BinaryValue :=
  match bit w (e.bitNumber + 1), bit w e.bitNumber with
  | false, true => some .opened
  | true, false => some .closed
  | false, false => some .intermediate
  | true, true => none

/-- The value of a point's word; none when the indication is at fault (R114). -/
def PointEntry.decode (e : PointEntry) (w : Word) : Option PointValue :=
  match e.kind with
  | .disabled => none
  | .analog => some (.analog (e.scale w))
  | .single => some (.binary (e.single w))
  | .double => (e.double w).map .binary

/-- The quality a publication gives (R115). -/
def Freshness.quality : Freshness → Quality
  | .fresh | .unknown => .good
  | .degraded | .silent => .suspect

/-- The value of a point at a reset or commit (R109, R110); 0 for a disabled point (R107). -/
def PointKind.initial : PointKind → PointValue
  | .disabled | .analog => .analog 0
  | .single | .double => .binary .intermediate

/-! ### Publications (R115) -/

/-- A point's record after a publication that carries its word (R115). -/
def PointRec.publish (e : PointEntry) (freshness : Freshness) (w : Word) (r : PointRec) : PointRec :=
  let r := { r with lastRaw := some w }
  if r.quality = .forced then r
  else
    match e.decode w with
    | none => { r with quality := .invalid, holdStart := none }
    | some v => { r with value := v, quality := freshness.quality, holdStart := none }

/-- Point `i` takes its word from the station's publications, and the payload reaches it (R115). -/
def State.carries (s : State) (station : Nat) (payload : List Word) (i : Nat) : Bool :=
  let e := s.active.point i
  e.enabled && e.source == station && decide (e.offset < payload.length)

/-- The points a publication updates: those it carries that are not FORCED (R115). -/
def State.updatedBy (s : State) (station : Nat) (payload : List Word) : List Nat :=
  (List.range 256).filter (fun i => s.carries station payload i && (s.point i).quality != .forced)

/-- Every point of the station treated in one event (R115). -/
def State.publishPoints (s : State) (station : Nat) (freshness : Freshness) (payload : List Word) : State :=
  s.setPoints (s.points.mapIdx (fun i r =>
    if s.carries station payload i then
      r.publish (s.active.point i) freshness (payload.getD (s.active.point i).offset 0)
    else r))

/-! ### Intake (R128 to R133) -/

/-- The enabled station entry of an address (R129). -/
def State.stationOf (s : State) (address : Address) : Option Nat :=
  (List.range 32).find? (fun i => (s.active.station i).enable && (s.active.station i).address == address.toNat)

/-- An accepted frame that is not a rejoin discard: counted, its points updated, their consumers run (R133). -/
def State.countPublication (s : State) (i : Nat) (payload : List Word) : State :=
  let updated := s.updatedBy i payload
  let s := s.updStation i (fun r => { r with windowCount := min 255 (r.windowCount + 1) })
  (s.publishPoints i (s.station i).freshness payload).afterUpdates s.points updated

/-- A frame that passes the source and slot tests: the cycle test, then acceptance (R131 to R133). -/
def State.offerInSlot (s : State) (i : Nat) (cycle : Byte) (payload : List Word) : State :=
  if (s.station i).lastCycle = some cycle then
    s.updStation i (fun r => { r with duplicate := satInc r.duplicate })
  else
    let s := s.updStation i (fun r => { r with lastCycle := some cycle })
    if 0 < (s.station i).rejoinLeft then
      s.updStation i (fun r => { r with rejoinLeft := r.rejoinLeft - 1, rejoinDiscard := satInc r.rejoinDiscard })
    else s.countPublication i payload

/-- A PUBLISH frame offered to Intake, received in a slot (R128 to R131). -/
def State.offer (s : State) (source : Address) (slot : Nat) (cycle : Byte) (payload : List Word) : State :=
  match s.stationOf source with
  | none => s.setIntake { s.intake with unknownSource := satInc s.intake.unknownSource }
  | some i =>
    if (s.active.station i).slot = slot then s.offerInSlot i cycle payload
    else s.setIntake { s.intake with misplaced := satInc s.intake.misplaced }

/-! ### Windows, holding and stale changes (R116, R117, R134 to R136) -/

/-- The freshness decided at a window end (R135). -/
def StationEntry.judge (e : StationEntry) (count : Nat) : Freshness :=
  if e.minimum ≤ count then .fresh
  else if count = 0 ∨ e.degradedSilent then .silent
  else .degraded

/-- A point going to STALE (R117). -/
def PointRec.toStale (e : PointEntry) (r : PointRec) : PointRec :=
  { r with
    quality := .stale
    holdStart := none
    value := match e.kind, e.substitute with
      | .analog, some v => .analog v
      | _, _ => r.value }

/-- A point of a station that enters SILENT (R116); with hold limit 0 it goes to STALE within the event (R117). -/
def PointRec.hold (e : PointEntry) (now : Time) (r : PointRec) : PointRec :=
  if r.quality = .good ∨ r.quality = .suspect then
    if e.holdLimit = 0 then r.toStale e else { r with quality := .held, holdStart := some now }
  else r

/-- The points of a station that enters SILENT (R116). -/
def State.holdPoints (s : State) (station : Nat) : State :=
  s.setPoints (s.points.mapIdx (fun i r =>
    let e := s.active.point i
    if e.enabled && e.source == station then r.hold e s.timeBase else r))

/-- A window end (R134 to R136). -/
def State.endWindow (s : State) (i : Nat) : State :=
  let e := s.active.station i
  let r := s.station i
  let judged := e.judge r.windowCount
  let entered := decide (judged = .silent) && decide (r.freshness ≠ .silent)
  let s := s.updStation i (fun r => { r with
    freshness := judged
    windowCount := 0
    windowStart := s.timeBase
    rejoinLeft := if entered then e.discards else r.rejoinLeft })
  if entered then s.holdPoints i else s

/-! ### Forcing (R118 to R120) -/

/-- The value of a FORCE POINT's value word for a kind; none when it does not suit the kind (R118). -/
def PointKind.forceValue (k : PointKind) (w : Word) : Option PointValue :=
  match k with
  | .disabled => none
  | .analog => if w = 0x8000 then none else some (.analog w.toInt)
  | .single | .double =>
    match w.toNat with
    | 0 => some (.binary .intermediate)
    | 1 => some (.binary .opened)
    | 2 => some (.binary .closed)
    | _ => none

/-- Force a point to a value, and update it (R118). -/
def State.force (s : State) (i : Nat) (v : PointValue) : State :=
  (s.updPoint i (fun r => { r with value := v, quality := .forced, holdStart := none })).afterUpdates s.points [i]

/-- A point record that loses its force (R119). -/
def PointRec.unforce (r : PointRec) : PointRec :=
  if r.quality = .forced then { r with quality := .invalid, holdStart := none } else r

/-- The FORCED points among those addressed. -/
def State.forcedOf (s : State) (addressed : Nat → Bool) : List Nat :=
  (List.range 256).filter (fun i => addressed i && (s.point i).quality == .forced)

/-- Unforce the points addressed and update those that were FORCED, together (R119). -/
def State.unforce (s : State) (addressed : Nat → Bool) : State :=
  let updated := s.forcedOf addressed
  (s.setPoints (s.points.mapIdx (fun i r => if addressed i then r.unforce else r))).afterUpdates s.points updated

/-! ### The start gate (R25 to R28) -/

/-- The gate's three conditions hold and it is closed (R25). -/
def State.gateDue (s : State) : Bool :=
  !s.arming.gateOpen && s.arming.settleEnded && s.arming.startRequested && s.valid

/-- A scheme at the gate's opening (R26). -/
def SchemeRec.openGate (r : SchemeRec) : SchemeRec :=
  if r.state = .gated then { r.calm .disarmed with backstop := 0 } else r

/-- The event that opens the gate: schemes, then forces and their updates, with the gate already open (R26, R120). -/
def State.openGate (s : State) : State :=
  ((s.setArming { s.arming with gateOpen := true, schemes := s.arming.schemes.map SchemeRec.openGate })).unforce (fun _ => true)

/-- Open the gate if this event has completed its conditions (R25). -/
def State.tryOpenGate (s : State) : State := if s.gateDue then s.openGate else s

/-- A scheme at the gate's closing (R28). -/
def SchemeRec.closeGate (r : SchemeRec) : SchemeRec :=
  if r.state = .off then r else { r.calm .gated with backstop := 0, resetTimer := none }

/-- The effect of a taken CLOSE GATE (R28). -/
def State.closeGate (s : State) : State :=
  s.setArming { s.arming with
    gateOpen := false
    startRequested := false
    schemes := s.arming.schemes.map SchemeRec.closeGate }

end Sys2Proof.Machine
end

