-- ==== Sys2Proof/Machine/Link.lean ====
section
/-! DEFINITION. The link ports, the repeater and the placing of own frames on the transmitters (08_the_scheme_link.md). -/

namespace Sys2Proof.Machine

/-! ### Port states and the timing port (R144, R156) -/

/-- After an event that may have changed port states or taken a MARKER on `taken`: own slots run once the timing port takes a
MARKER at or after the change (R156), and a waiting copy whose transmitter's timing source has changed is dropped (R158).
`before` is the link before the event. -/
def LinkState.retime (l before : LinkState) (taken : Option Side) : LinkState :=
  let same := decide (before.timingPort = l.timingPort)
  let onTiming := l.timingPort.isSome && taken == l.timingPort
  { l with
    ownSlotsRun := onTiming || (same && before.ownSlotsRun && l.timingPort.isSome)
    waiting := l.waiting.filter (fun w => same && (l.port w.tx.other).state == .locked) }

/-- Replace a port's record in an event that takes a MARKER on it or changes its state. -/
def State.changePort (s : State) (side : Side) (took : Bool) (p : PortRec) : State :=
  s.setLink ((s.link.setPort side p).retime s.link (if took then some side else none))

/-- A port that goes to DOWN keeps its counters (R144). -/
def PortRec.toDown (p : PortRec) : PortRec := .down p.counters

/-- A port goes to DOWN (R144, R155). -/
def State.portDown (s : State) (side : Side) : State := s.changePort side false (s.port side).toDown

/-- Entering ISOLATED (R152). The miss and acquisition counts stay as they were, here and while the port is ISOLATED (log 33). -/
def PortRec.isolate (p : PortRec) : PortRec := { p with state := .isolated, babbleFree := 0 }

/-- From ISOLATED to ACQUIRING (R153). -/
def PortRec.rejoin (p : PortRec) : PortRec :=
  { p with state := .acquiring, acquisition := 0, miss := 0, strikes := 0, babbleSeen := false }

/-! ### MARKERs (R145 to R147, R151 to R153) -/

/-- A valid MARKER's slot count matches the port (R145, R182): the S in force, or in DOWN with no adopted S any S in 4..32. -/
def State.markerMatches (s : State) (side : Side) (slots : Nat) : Bool :=
  match s.slotsOf side with
  | some n => decide (4 ≤ slots) && decide (slots ≤ 32) && n == slots
  | none => (s.port side).state == .down && decide (4 ≤ slots) && decide (slots ≤ 32)

/-- Taking a MARKER: cycle position, cycle number, and the babble rule's look at babble seen (R145, R151). -/
def PortRec.takeMarker (start : Nat) (cycle : Byte) (p : PortRec) : PortRec :=
  { p with
    position := some start
    cycle := some cycle
    strikes := if p.babbleSeen then p.strikes else p.strikes - 1
    babbleSeen := false }

/-- The MARKER starts at the port's expected position (R146). -/
def PortRec.expects (p : PortRec) (slots : Option Nat) (start : Nat) : Bool :=
  match p.position, slots with
  | some pos, some n => pos + 32 * n == start
  | _, _ => false

/-- A port takes a MARKER, and the part's last cycle number taken with it (R145). -/
def State.takeMarker (s : State) (side : Side) (cycle : Byte) (p : PortRec) : State :=
  let s := s.changePort side true p
  s.setLink { s.link with lastCycle := cycle }

/-- The record of an ISOLATED port that takes a MARKER at its expected position (R152, R153). Its miss and acquisition counts stay as
they were at its entry into ISOLATED (log 33). -/
def PortRec.quietCycle (autoRejoin : Bool) (start : Nat) (cycle : Byte) (p : PortRec) : PortRec :=
  let run := if p.babbleSeen then 0 else min 256 (p.babbleFree + 1)
  let p := { p.takeMarker start cycle with babbleFree := run }
  if run = 256 ∧ autoRejoin then p.rejoin else p

/-- A valid MARKER's use for timing, by the port's state (R146, R147, R152). A MARKER with another S leaves an ISOLATED port without a
cycle position, and so without slots, where R152 says that it has no expected position: the model's choice (log 36). -/
def State.timeMarker (s : State) (side : Side) (start : Nat) (cycle : Byte) (slots : Nat) : State :=
  let p := s.port side
  let expected := p.expects (s.slotsOf side) start
  let hit := s.markerMatches side slots
  match p.state with
  | .loopback => s
  | .down =>
    if hit then
      s.takeMarker side cycle { p.takeMarker start cycle with
        state := .acquiring
        acquisition := 1
        miss := 0
        adoptedS := if s.blank then some slots else p.adoptedS }
    else s
  | .acquiring =>
    if !hit then s.portDown side
    else if expected then
      let count := p.acquisition + 1
      s.takeMarker side cycle { p.takeMarker start cycle with
        state := if 4 ≤ count then .locked else .acquiring
        acquisition := count
        miss := 0 }
    else s.takeMarker side cycle { p.takeMarker start cycle with acquisition := 1, miss := 0 }
  | .locked =>
    if !hit then s.portDown side
    else if expected then s.takeMarker side cycle { p.takeMarker start cycle with miss := 0 }
    else s
  | .isolated =>
    if !hit then s.setPort side { p with babbleFree := 0, position := none }
    else if expected then s.takeMarker side cycle (p.quietCycle s.autoRejoin start cycle)
    else s.takeMarker side cycle { p.takeMarker start cycle with babbleFree := 0 }

/-- The cycle position one cycle period on (R146, R147, R152). -/
def PortRec.runOn (slots : Option Nat) (p : PortRec) : PortRec :=
  match slots with
  | none => p
  | some n => { p with position := p.position.map (· + 32 * n) }

/-- No valid matching MARKER starts at the expected position of a port that has one (R146, R147, R152). In ISOLATED the miss and
acquisition counts stay as they were (log 33). -/
def State.missMarker (s : State) (side : Side) : State :=
  let p := s.port side
  let on := p.runOn (s.slotsOf side)
  let missed := { on with
    miss := p.miss + 1
    counters := { p.counters with markerMissed := satInc p.counters.markerMissed } }
  if p.position.isNone then s
  else
    match p.state with
    | .down | .loopback => s
    | .isolated => s.setPort side { on with babbleFree := 0 }
    | .acquiring =>
      if 3 ≤ p.miss + 1 then s.changePort side false missed.toDown
      else s.setPort side { missed with acquisition := 0 }
    | .locked =>
      if 3 ≤ p.miss + 1 then s.changePort side false missed.toDown
      else s.setPort side missed

/-- A babbling slot (R151, R152). That an ISOLATED or ACQUIRING port that has no cycle position detects babble too, though R140 gives it
no slots, is the model's choice (log 36). -/
def State.babbleSlot (s : State) (side : Side) : State :=
  let p := s.port side
  let struck := { p with strikes := min 15 (p.strikes + 1), babbleSeen := true }
  match p.state with
  | .down | .loopback => s
  | .isolated => s.setPort side { p with babbleSeen := true }
  | .acquiring => s.setPort side struck
  | .locked =>
    if s.isolation && decide (s.babbleLimit ≤ struck.strikes) then
      (s.changePort side false struck.isolate).raise (fun n => { n with portIsolated := true })
    else s.setPort side struck

/-! ### The Repeater (R148 to R150) -/

/-- Send received words onward from a port: out of the other port's transmitter, in the slot of the receiving port, unless that
port is ISOLATED or in LOOPBACK (R150). -/
def State.repeatWords (s : State) (side : Side) (slot : Option Nat) (words : List Word) : State :=
  match (s.port side.other).state with
  | .isolated | .loopback => s
  | .down | .acquiring | .locked => s.emit ⟨side.other, false, slot, words⟩

/-- A frame in this slot may be repeated: the slot is not an own slot (R148, R149). -/
def State.passes (s : State) (slot : Option Nat) : Bool :=
  match slot with
  | none => true
  | some k => !s.ownSlots.contains k

/-- The last word time of a slot whose word is repeated; the words of the guard never leave the part (R150). -/
def lastRepeated : Nat := 27

/-- What is repeated of a frame with a framing error: the start marker, received at word time `at'` of its slot, and the words after
it, through header word 1 and through the last word time repeated; idle fill for the rest of the slot (R148, R150). That the start
marker leaves, a malformed one too, is the model's choice, and how many words leave after it is a free value (log 8). -/
def State.repeatBroken (s : State) (side : Side) (slot : Option Nat) (at' : Nat) (words : List Word) : State :=
  let s' := s.setFreeIndex (s.freeIndex + 1)
  if at' ≤ lastRepeated then
    s'.repeatWords side slot (words.take (min (lastRepeated - at') (min 2 (Config.framingRepeat s.freeIndex))))
  else s'

/-- A framing error of a frame whose start marker falls at word time `at'` of a slot: counted, and repeated as far as it may be
unless the slot is an own slot (R148). -/
def State.framingError (s : State) (side : Side) (slot : Option Nat) (at' : Nat) (words : List Word) : State :=
  let s := s.countPort side (fun c => { c with framing := satInc c.framing })
  if s.passes slot then s.repeatBroken side slot at' words else s

/-- A frame whose start marker falls off word time 0 of a slot of a LOCKED port: a framing error of the slot it falls in (R140; that
slot is log 32). -/
def State.offSlot (s : State) (side : Side) (start : Nat) (words : List Word) : State :=
  match s.slotHolding side start with
  | none => s.framingError side none 0 words
  | some (slot, at') => s.framingError side (some slot) at' words

/-- A damaged frame received on a LOCKED port in a slot: counted once, and repeated in its damaged form unless the slot is an own
slot (R148). -/
def State.damagedInSlot (s : State) (side : Side) (slot : Nat) (words : List Word) : Damage → State
  | .framing => s.framingError side (some slot) 0 words
  | .truncated =>
    let s := s.countPort side (fun c => { c with truncated := satInc c.truncated })
    if s.passes (some slot) then s.repeatWords side (some slot) (truncatedWords words) else s
  | .badCheck =>
    let s := s.countPort side (fun c => { c with check := satInc c.check })
    if s.passes (some slot) then s.repeatWords side (some slot) (wholeWords words) else s

/-- The three ways R149 handles a good frame received in a slot, as far as repetition goes. -/
inductive Passage where
  | stripped
  | conflict
  | repeated
  deriving DecidableEq, Repr

/-- How a good frame received in a slot is handled (R149). -/
def State.passage (s : State) (source : Address) (slot : Nat) : Passage :=
  if source.toNat = s.partAddress then .stripped
  else if s.ownSlots.contains slot then .conflict
  else .repeated

/-- A good frame received on a LOCKED port in a slot, with what is done with it when it is handed on (R149). -/
def State.goodInSlot (s : State) (rx : Reception) (kind : BitVec 4) (payload : List Word) (slot : Nat)
    (handOn : State → State) : State :=
  match s.passage rx.source slot with
  | .stripped => s
  | .conflict => s.countPort rx.port (fun c => { c with slotConflict := satInc c.slotConflict })
  | .repeated => handOn (s.repeatWords rx.port (some slot) (receivedWords rx kind payload))

/-- A frame received whole with a correct check word: handled on a LOCKED port only (R149), as a framing error when its start
marker falls off word time 0 of a slot or its length is above 24 (R140, R148). `handOn` receives the slot. -/
def State.receiveGood (s : State) (rx : Reception) (kind : BitVec 4) (payload : List Word)
    (handOn : Nat → State → State) : State :=
  if (s.port rx.port).state = .locked then
    match s.slotAt rx.port rx.start with
    | none => s.offSlot rx.port rx.start (receivedWords rx kind payload)
    | some slot =>
      if payload.length ≤ 24 then s.goodInSlot rx kind payload slot (handOn slot)
      else s.damagedInSlot rx.port slot (receivedWords rx kind payload) .framing
  else s

/-- A valid MARKER received (R145). On a LOCKED port it is also a frame of its slot (R149), and one that starts off a slot is a
framing error and no valid MARKER (R148). -/
def State.receiveMarker (s : State) (rx : Reception) (payload : Word) : State :=
  let slots := bits payload 0 6
  if (s.port rx.port).state = .locked then
    match s.slotAt rx.port rx.start with
    | none => s.offSlot rx.port rx.start (receivedWords rx 0 [payload])
    | some slot =>
      (s.goodInSlot rx 0 [payload] slot (fun s => s)).timeMarker rx.port rx.start rx.cycle slots
  else s.timeMarker rx.port rx.start rx.cycle slots

/-- A frame that ended damaged (R148), on a LOCKED port. Words that make a whole frame with a correct check word in a slot are no
damaged frame, and the event does not occur. -/
def State.receiveDamaged (s : State) (side : Side) (start : Nat) (markerWhole : Bool) (words : List Word) : State :=
  if (s.port side).state = .locked then
    match s.slotAt side start with
    | none => s.offSlot side start words
    | some slot =>
      match damageOf markerWhole words with
      | none => s
      | some d => s.damagedInSlot side slot words d
  else s

/-- A looped frame back at its receiver (R154). -/
def State.receiveLooped (s : State) (side : Side) (markerWhole : Bool) (words : List Word) : State :=
  if (s.port side).state = .loopback then
    match damageOf markerWhole words with
    | none => s.countPort side (fun c => { c with loopGood := satInc c.loopGood })
    | some _ => s.countPort side (fun c => { c with loopBad := satInc c.loopBad })
  else s

/-! ### Own frames on the transmitters (R150, R158) -/

/-- A transmitter is fed by the LOCKED port that is not the timing port, so that an own frame's copy waits on it (R158). -/
def State.copyWaits (s : State) (tx : Side) : Bool :=
  (s.port tx.other).state == .locked && s.timingPort != some tx.other

/-- Send or queue an own frame's copy on one transmitter (R158). -/
def State.sendOn (slot : Nat) (words : List Word) (s : State) (tx : Side) : State :=
  if (s.port tx).state = .isolated then s
  else if s.copyWaits tx then s.setLink { s.link with waiting := s.link.waiting ++ [⟨tx, slot, words⟩] }
  else s.emit ⟨tx, (s.port tx).state == .loopback, some slot, words⟩

/-- Send an own frame once on each transmitter (R158). -/
def State.sendOwn (s : State) (slot : Nat) (words : List Word) : State := [Side.east, .west].foldl (State.sendOn slot words) s

/-- The words of an own frame: part station address as source, the timing port's cycle number (R158, R182). -/
def State.ownFrame (s : State) (kind dest : Nat) (payload : List Word) : List Word :=
  frameWords (headerWords kind s.partAddress payload.length s.cycleNumber.toNat dest 0) payload

/-- Remove the first element a predicate holds of. -/
def removeFirst (p : WaitingCopy → Bool) : List WaitingCopy → List WaitingCopy
  | [] => []
  | x :: rest => if p x then rest else x :: removeFirst p rest

/-- A waiting copy goes out when its transmitter's slot of the same number starts (R158); that slot is the feeding port's. -/
def State.sendWaiting (s : State) (tx : Side) (start : Nat) : State :=
  match s.slotAt tx.other start with
  | none => s
  | some slot =>
    let mine := fun w : WaitingCopy => w.tx == tx && w.slot == slot
    match s.link.waiting.find? mine with
    | none => s
    | some w =>
      let s := s.setLink { s.link with waiting := removeFirst mine s.link.waiting }
      if (s.port tx).state = .isolated then s
      else s.emit ⟨tx, (s.port tx).state == .loopback, some slot, w.words⟩

end Sys2Proof.Machine
end

