-- ==== Sys2Proof/Machine/Report.lean ====
section
/-! DEFINITION. What the part reports: TRIP and STATUS payloads, READ STATE reports, the counter image and log summaries
(10_status_reporting_and_the_operation_log.md, 11_frame_and_table_image_layouts.md). -/

namespace Sys2Proof.Machine

/-! ### Codes (sections 11.1 and 11.3) -/

/-- Scheme state codes. -/
def SchemeState.code : SchemeState → Nat
  | .off => 0
  | .gated => 1
  | .suspended => 2
  | .disarmed => 3
  | .arming => 4
  | .armed => 5
  | .operating => 6
  | .operated => 7

/-- Port state codes. -/
def PortState.code : PortState → Nat
  | .down => 0
  | .acquiring => 1
  | .locked => 2
  | .isolated => 3
  | .loopback => 4

/-- Contingency state codes. -/
def ContState.code : ContState → Nat
  | .idle => 0
  | .confirming => 1
  | .pending => 2
  | .serving => 3
  | .served => 4

/-- Last combined value codes. -/
def Combined.code : Combined → Nat
  | .unknown => 0
  | .false => 1
  | .true => 2

/-- Selection outcome codes. -/
def SelOutcome.code : SelOutcome → Nat
  | .none => 0
  | .covered => 1
  | .short => 2

/-- Entry state codes. -/
def EntryState.code : EntryState → Nat
  | .waiting => 0
  | .sending => 1
  | .await => 2

/-- Head status codes. -/
def HeadStatus.code : HeadStatus → Nat
  | .outstanding => 0
  | .confirmed => 1
  | .failed => 2
  | .dropped => 3

/-- Node status codes. -/
def NodeStatus.code : NodeStatus → Nat
  | .outstanding => 0
  | .confirmed => 1
  | .sent => 2
  | .expired => 3
  | .dropped => 4

/-- Participation outcome codes; none is 0. -/
def PartOutcome.code : Option PartOutcome → Nat
  | none => 0
  | some .covered => 1
  | some .short => 2
  | some .failed => 3

/-- Operation outcome codes; an open operation is 0. -/
def OpOutcome.code : Option OpOutcome → Nat
  | none => 0
  | some .complete => 1
  | some .incomplete => 2

/-- Quality codes. -/
def Quality.code : Quality → Nat
  | .invalid => 0
  | .good => 1
  | .suspect => 2
  | .held => 3
  | .stale => 4
  | .forced => 5

/-- Freshness codes. -/
def Freshness.code : Freshness → Nat
  | .unknown => 0
  | .fresh => 1
  | .degraded => 2
  | .silent => 3

/-- Bank status codes. -/
def BankStatus.code : BankStatus → Nat
  | .blank => 0
  | .valid => 1
  | .modified => 2

/-- Timing port codes. -/
def timingCode : Option Side → Nat
  | none => 0
  | some .east => 1
  | some .west => 2

/-! ### TRIP frames (R82 to R84) -/

/-- The entries a TRIP frame takes: those with repeats remaining, highest priority first, list order within one, at most 11
(R82). -/
def State.tripEntries (s : State) : List Entry :=
  ([3, 2, 1, 0].flatMap (fun p => s.queue.entries.filter (fun e => decide (0 < e.repeats) && e.priority == p))).take 11

/-- The two words of one command, from the entry as it stands at the start of the slot (R84). The repeat ordinal minus 1 is the
sends made before this one. -/
def Entry.commandWords (e : Entry) : List Word :=
  [packWord [(10, 6, e.destination), (6, 4, e.output), (4, 2, e.priority), (2, 2, e.sent)],
   packWord [(8, 8, e.refs.min?.getD 0), (0, 7, e.action)]]

/-- The payload of a TRIP frame (section 11.1). -/
def tripPayload (entries : List Entry) : List Word :=
  packWord [(0, 4, entries.length)] :: entries.flatMap Entry.commandWords

/-- An entry after one send (R83). -/
def Entry.send (e : Entry) : Entry :=
  { e with repeats := e.repeats - 1, sent := e.sent + 1, state := if 1 < e.repeats then .sending else .await }

/-- The entry finishes SENT with this send: its last repeat, and its action has no confirm point (R83, R95). -/
def State.finishesSent (s : State) (e : Entry) : Bool :=
  decide (e.repeats ≤ 1) && (s.active.action e.action).confirm.isNone

/-- The effects of sending a TRIP frame that carries the given entries, once per frame (R83, R95, R99). -/
def State.sendTrip (s : State) (entries : List Entry) : State :=
  let done := entries.filter s.finishesSent
  let sent := s.queue.entries.map (fun e => if entries.contains e then e.send else e)
  let s := s.setQueue { s.queue with entries := sent }
  (done.foldl (State.finishEntry .sent) s).closeFinished

/-! ### STATUS (R175) -/

/-- Q divided by 10, rounded half away from zero and clamped (R175). -/
def statusQ (q : Int) : Int := clampAnalog (roundHalfAway q 10)

/-- Word 0 of a STATUS frame. -/
def State.statusFlags (s : State) : Word :=
  let n := s.notices
  packWord
    [(0, 1, bitNat s.arming.gateOpen), (1, 1, bitNat s.arming.startRequested), (2, 1, bitNat s.hardTripLine),
     (3, 1, bitNat s.operatedAlarm), (4, 2, timingCode s.timingPort), (6, 1, bitNat n.marginWalked),
     (7, 1, bitNat n.backstop), (8, 1, bitNat n.portIsolated), (9, 1, bitNat n.queueOverflow),
     (10, 1, bitNat n.untrackedOperation), (11, 1, bitNat n.requestLost), (12, 1, bitNat n.expressFallback)]

/-- Four scheme states in one word, from scheme `first` on. -/
def State.statusSchemes (s : State) (first : Nat) : Word :=
  packWord
    [(0, 4, (s.scheme first).state.code), (4, 4, (s.scheme (first + 1)).state.code),
     (8, 4, (s.scheme (first + 2)).state.code), (12, 4, (s.scheme (first + 3)).state.code)]

/-- The payload of a STATUS frame: 24 words (section 11.1). -/
def State.statusPayload (s : State) : List Word :=
  [s.statusFlags, s.statusSchemes 0, s.statusSchemes 4, s.statusSchemes 8, s.statusSchemes 12,
   packWord [(15, 1, bitNat s.engine.isSome), (8, 7, s.pendingSet.length), (0, 7, s.monitor.lastServed.getD 127)],
   packWord [(0, 3, (s.port .east).state.code), (4, 4, (s.port .east).strikes), (8, 3, (s.port .west).state.code),
     (12, 4, (s.port .west).strikes)],
   packWord [(8, 4, s.tracker.ops.length), (0, 6, s.queue.entries.length)]]
  ++ (List.range 16).map (fun i => intWord (statusQ (s.scheme i).q))

/-! ### READ STATE reports (R180, section 11.3) -/

/-- A time remaining to a time-base value, or 0xFFFFFFFF when there is none. -/
def State.remaining (s : State) (t : Option Time) : List Word :=
  longWords (match t with
    | none => 0xFFFFFFFF
    | some e => e - s.timeBase)

/-- The time elapsed since a time-base value, or 0xFFFFFFFF when there is none. -/
def State.elapsed (s : State) (t : Option Time) : List Word :=
  longWords (match t with
    | none => 0xFFFFFFFF
    | some e => s.timeBase - e)

/-- The words of a selection record in a SCHEME report. -/
def SelRecord.words (r : SelRecord) : List Word :=
  [BitVec.ofNat 16 r.requirement,
   packWord [(0, 2, r.outcome.code), (4, 4, r.items.length), (8, 5, r.continuation)]]
  ++ longWords (BitVec.ofNat 32 r.total) ++ longWords r.stamp
  ++ r.items.flatMap (fun i => [BitVec.ofNat 16 i.position, BitVec.ofNat 16 i.amount])

/-- The SCHEME report. -/
def State.schemeReport (s : State) (i : Nat) : List Word :=
  let r := s.scheme i
  [packWord [(0, 4, r.state.code), (4, 4, r.armCount), (8, 4, r.disarmCount), (12, 2, r.stress), (14, 2, r.backstop)],
   packWord [(0, 1, bitNat r.hardTrip), (3, 1, bitNat r.selection.isSome)]]
  ++ intLong r.walk ++ intLong r.q ++ s.remaining r.holdTimer ++ s.remaining r.resetTimer
  ++ (match r.state, r.selection with
      | .armed, some sel => sel.words
      | _, _ => [])

/-- The CONTINGENCY report. -/
def State.contReport (s : State) (c : Nat) : List Word :=
  let r := s.cont c
  [packWord [(0, 3, r.state.code), (4, 3, r.confirm), (8, 4, r.rearm), (12, 2, r.last.code), (14, 1, bitNat r.degraded)],
   if s.isExpressA c then 1 else if s.isExpressB c then 2 else 0]

/-- One word of the pending set, for 16 contingencies from `first` on. -/
def State.pendingWord (s : State) (first : Nat) : Word :=
  packWord ((List.range 16).map (fun i => (i, 1, bitNat ((s.cont (first + i)).state == .pending))))

/-- The ENGINE report. -/
def State.engineReport (s : State) : List Word :=
  [packWord [(15, 1, bitNat s.engine.isSome), (0, 7, s.monitor.lastServed.getD 127)],
   s.pendingWord 48, s.pendingWord 32, s.pendingWord 16, s.pendingWord 0]
  ++ (match s.engine with
      | none => []
      | some snap => packWord [(8, 8, snap.opId), (0, 6, snap.contingency)] :: longWords snap.takeTime)

/-- The four reference words of an entry: two ids a word, high byte first, 0 where unused. -/
def refWords (refs : List Nat) : List Word :=
  [0, 2, 4, 6].map (fun i => packWord [(8, 8, refs.getD i 0), (0, 8, refs.getD (i + 1) 0)])

/-- The nine words of an entry in the TRIP QUEUE report. -/
def State.entryWords (s : State) (e : Entry) : List Word :=
  [packWord [(0, 7, e.action), (8, 2, e.priority), (10, 2, e.state.code)],
   packWord [(0, 3, e.repeats), (4, 3, e.sent), (8, 4, e.refs.length)],
   e.order]
  ++ s.remaining (some e.deadline) ++ refWords e.refs

/-- The TRIP QUEUE report. -/
def State.queueReport (s : State) : List Word :=
  BitVec.ofNat 16 s.queue.entries.length :: s.queue.entries.flatMap s.entryWords

/-- The tally of a candidate's auxiliary nodes of a status (section 5.1). -/
def Candidate.tally (c : Candidate) (st : NodeStatus) : Nat := c.aux.countP (fun i => i.status == st)

/-- The three words of a candidate in an OPERATION report. -/
def Candidate.words (c : Candidate) : List Word :=
  [packWord [(0, 4, c.position), (4, 2, c.headStatus.code)],
   BitVec.ofNat 16 c.amount,
   packWord [(0, 3, c.tally .outstanding), (3, 3, c.tally .confirmed), (6, 3, c.tally .sent), (9, 3, c.tally .expired),
     (12, 3, c.tally .dropped)]]

/-- The words of a participation. What the record of a SKIPPED one does not hold is left open (log 11). -/
def Participation.words (u : Nat → UnstatedFields) (p : Participation) : List Word :=
  match p.taken with
  | none =>
    let left := u p.scheme
    [packWord [(0, 4, p.scheme), (8, 3, left.skippedReplacements.toNat), (11, 5, left.skippedContinuation.toNat)],
     left.skippedRequirement] ++ longWords left.skippedConfirmed ++ [0]
  | some t =>
    [packWord [(0, 4, p.scheme), (4, 1, 1), (5, 2, PartOutcome.code t.outcome), (8, 3, t.replacements), (11, 5, t.continuation)],
     BitVec.ofNat 16 t.requirement] ++ longWords (BitVec.ofNat 32 t.confirmed)
    ++ [BitVec.ofNat 16 t.candidates.length] ++ t.candidates.flatMap Candidate.words

/-- The OPERATION and LOG RECORD report; the closing words are 0 while open. -/
def Operation.words (u : Nat → UnstatedFields) (op : Operation) (outcome : Option OpOutcome) (closing : List Word) : List Word :=
  [packWord [(8, 8, op.id), (7, 1, bitNat (op.path == .express)), (0, 6, op.contingency)],
   packWord [(0, 2, op.priority), (2, 1, bitNat (op.phase == .tracking)), (3, 1, bitNat op.overflow),
     (4, 2, OpOutcome.code outcome), (8, 5, op.parts.length)],
   BitVec.ofNat 16 op.outstanding]
  ++ longWords op.takeTime ++ [op.takeCycle.setWidth 16] ++ closing
  ++ [BitVec.ofNat 16 op.direct.length]
  ++ op.direct.map (fun i => packWord [(0, 7, i.action), (8, 3, i.status.code)])
  ++ op.parts.flatMap (Participation.words u)

/-- The OPERATION report: the open operation at a place in ascending id, or empty. -/
def State.operationReport (s : State) (place : Nat) : List Word :=
  match s.tracker.ops[place]? with
  | none => []
  | some op => op.words (Config.unstated s.freeIndex) none [0, 0, 0, 0]

/-- The LOG RECORD report, or empty at or beyond the fill count. -/
def State.logReport (s : State) (index : Nat) : List Word :=
  match s.log.records[index]? with
  | none => []
  | some r =>
    r.op.words (Config.unstated s.freeIndex) (some r.outcome) (longWords r.closeTime ++ [r.closeCycle.setWidth 16, r.seq])

/-- The STATION report (R139). -/
def State.stationReport (s : State) (i : Nat) : List Word :=
  let e := s.active.station i
  let r := s.station i
  [packWord [(15, 1, bitNat e.enable), (6, 6, e.address), (0, 6, e.slot)],
   packWord [(0, 2, r.freshness.code), (4, 2, r.rejoinLeft), (6, 1, bitNat r.lastCycle.isSome),
     (8, 8, (r.lastCycle.getD (Config.unstated s.freeIndex 0).stationCycle).toNat)],
   BitVec.ofNat 16 r.windowCount]
  ++ s.remaining (if e.enable then some (r.windowStart + BitVec.ofNat 32 e.window) else none)
  ++ [r.duplicate, r.rejoinDiscard]

/-- The unit code field of a POINT report: that of an ANALOG point (R123); of another point it is left open (log 11). -/
def PointEntry.unitField (u : UnstatedFields) (e : PointEntry) : Nat :=
  match e.kind with
  | .analog => e.unit
  | .disabled | .single | .double => u.unitCode.toNat

/-- The POINT report (R123). -/
def State.pointReport (s : State) (i : Nat) : List Word :=
  let e := s.active.point i
  let r := s.point i
  [packWord [(0, 2, e.kind.code), (4, 3, r.quality.code), (8, 3, e.unitField (Config.unstated s.freeIndex 0)),
     (15, 1, bitNat r.lastRaw.isSome)],
   intWord r.value.number]
  ++ s.elapsed r.holdStart ++ [r.lastRaw.getD (Config.unstated s.freeIndex 0).rawWord]

/-- The PORT report. -/
def State.portReport (s : State) (side : Side) : List Word :=
  let p := s.port side
  [packWord [(0, 3, p.state.code), (4, 3, p.acquisition), (8, 2, p.miss), (12, 4, p.strikes)],
   packWord [(0, 6, p.adoptedS.getD 0), (6, 1, bitNat p.cycle.isSome),
     (8, 8, (p.cycle.getD (Config.unstated s.freeIndex 0).portCycle).toNat)],
   packWord [(0, 9, p.babbleFree), (15, 1, bitNat p.babbleSeen)]]

/-- The report of an object; none for a kind or index outside the table (R180). -/
def State.report (s : State) (kind index : Nat) : Option (List Word) :=
  match kind with
  | 0 => if index < 16 then some (s.schemeReport index) else none
  | 1 => if index < 64 then some (s.contReport index) else none
  | 2 => if index = 0 then some s.engineReport else none
  | 3 => if index = 0 then some s.queueReport else none
  | 4 => if index < 8 then some (s.operationReport index) else none
  | 5 => if index < 32 then some (s.logReport index) else none
  | 6 => if index < 32 then some (s.stationReport index) else none
  | 7 => if index < 256 then some (s.pointReport index) else none
  | 8 => match index with
    | 0 => some (s.portReport .east)
    | 1 => some (s.portReport .west)
    | _ => none
  | _ => none

/-! ### Counters (R181) -/

/-- A port's seven counters in the image's order (section 11.2). -/
def PortCounters.image (c : PortCounters) : List Word :=
  [c.markerMissed, c.slotConflict, c.check, c.framing, c.truncated, c.loopGood, c.loopBad]

/-- The counter image: 82 counters (R181, R183). -/
def State.counterImage (s : State) : List Word :=
  s.link.east.counters.image ++ s.link.west.counters.image
  ++ [s.intake.misplaced, s.intake.unknownSource, s.monitor.gatedDetection, s.agent.requestLost]
  ++ (List.range 32).flatMap (fun i => [(s.station i).duplicate, (s.station i).rejoinDiscard])

/-- A counter of the image set to 0 where the clearing covers its place. -/
def clearAt (covers : Nat → Bool) (place : Nat) (c : Word) : Word := if covers place then 0 else c

/-- A port's counters after a clearing, its image starting at `first`. -/
def PortCounters.clearAt (covers : Nat → Bool) (first : Nat) (c : PortCounters) : PortCounters :=
  { markerMissed := Machine.clearAt covers first c.markerMissed
    slotConflict := Machine.clearAt covers (first + 1) c.slotConflict
    check := Machine.clearAt covers (first + 2) c.check
    framing := Machine.clearAt covers (first + 3) c.framing
    truncated := Machine.clearAt covers (first + 4) c.truncated
    loopGood := Machine.clearAt covers (first + 5) c.loopGood
    loopBad := Machine.clearAt covers (first + 6) c.loopBad }

/-- Set to 0 the counters at the image places covered (R181). -/
def State.clearCounters (s : State) (covers : Nat → Bool) : State :=
  let s := s.setLink { s.link with
    east := { s.link.east with counters := s.link.east.counters.clearAt covers 0 }
    west := { s.link.west with counters := s.link.west.counters.clearAt covers 7 } }
  let s := s.setIntake
    { stations := s.intake.stations.mapIdx (fun i r => { r with
        duplicate := clearAt covers (18 + 2 * i) r.duplicate
        rejoinDiscard := clearAt covers (19 + 2 * i) r.rejoinDiscard })
      misplaced := clearAt covers 14 s.intake.misplaced
      unknownSource := clearAt covers 15 s.intake.unknownSource }
  let s := s.setMonitor { s.monitor with gatedDetection := clearAt covers 16 s.monitor.gatedDetection }
  s.setAgent { s.agent with requestLost := clearAt covers 17 s.agent.requestLost }

/-! ### Operation Log summaries (R179) -/

/-- The duration of a logged operation, saturating at 65,535 ms (R179, R183). -/
def LogRecord.duration (r : LogRecord) : Word :=
  let d := (r.closeTime - r.op.takeTime).toNat
  if 65535 ≤ d then 65535 else BitVec.ofNat 16 d

/-- The six words of a log summary (R183). -/
def LogRecord.summary (r : LogRecord) : List Word :=
  [r.seq,
   packWord [(8, 8, r.op.id), (7, 1, bitNat (r.op.path == .express)), (0, 6, r.op.contingency)],
   packWord [(0, 2, r.op.priority), (2, 1, bitNat (r.outcome == .incomplete)), (3, 1, bitNat r.op.overflow)]]
  ++ longWords r.op.takeTime ++ [r.duration]

end Sys2Proof.Machine
end

