-- ==== Sys2Proof/Machine/Validation.lean ====
section
/-! DEFINITION. COMMIT: validation of the shadow bank, check by check (R166), and the effects of a successful commit (R167), with the
live-state settings it shares with the resets (R4, R5, R48, R49, R109, R110, R126, R127). -/

namespace Sys2Proof.Machine

/-! ### Validation (R166) -/

/-- What a VALIDATION_FAILED reply carries (R166). -/
structure Failure where
  kind : TableKind
  entry : Nat
  check : Nat
  deriving DecidableEq, Repr

/-- The place of the first false check, counted from `n`. -/
def firstFalse : Nat → List Bool → Option Nat
  | _, [] => none
  | n, b :: rest => if b then firstFalse (n + 1) rest else some n

/-- Run an entry's checks in ascending check number (R166). -/
def runChecks (k : TableKind) (entry : Nat) (checks : List Bool) : Option Failure :=
  (firstFalse 1 checks).map (fun n => ⟨k, entry, n⟩)

/-- A number lies in a range. -/
def within (lo hi n : Int) : Bool := decide (lo ≤ n) && decide (n ≤ hi)

/-- The point is an enabled SINGLE or DOUBLE point of the bank. -/
def Bank.binaryPoint (b : Bank) (p : Nat) : Bool := (b.point p).isBinary

/-- The point is an enabled ANALOG point of the bank. -/
def Bank.analogPoint (b : Bank) (p : Nat) : Bool := (b.point p).kind == .analog

/-- A point reference that is NONE or an enabled binary point of the bank. -/
def Bank.binaryOrNone (b : Bank) (p : Option Nat) : Bool := p.all b.binaryPoint

/-- Link Table checks 1 to 7 (R142). -/
def Bank.linkChecks (b : Bank) : List Bool :=
  let e := b.link
  [within 4 32 e.slots, within 1 4 e.ownCount, e.own.all (fun k => within 1 (e.slots - 1) k), decide e.own.Nodup,
   within 0 62 e.address, within 0 63 e.engineer, within 1 15 e.babbleLimit]

/-- Bank Parameters checks 1 to 3 (R166). -/
def Bank.paramsChecks (b : Bank) : List Bool :=
  let e := b.params
  [within 4 100 e.interval, e.expressA.all (fun c : Nat => within 0 63 c), e.expressB.all (fun c : Nat => within 0 63 c)]

/-- An enabled entry of lower index has the property (R125). -/
def Bank.lowerStation (b : Bank) (i : Nat) (p : StationEntry → Bool) : Bool :=
  (List.range i).any (fun j => (b.station j).enable && p (b.station j))

/-- Station Table checks 1 to 9 of an enabled entry (R125). -/
def Bank.stationChecks (b : Bank) (i : Nat) : List Bool :=
  let e := b.station i
  [within 0 62 e.address, e.address != b.link.address, !b.lowerStation i (fun o => o.address == e.address),
   within 1 (b.link.slots - 1) e.slot, !b.link.own.contains e.slot, !b.lowerStation i (fun o => o.slot == e.slot),
   within 10 2000 e.window, within 1 255 e.minimum, within 0 3 e.discards]

/-- Point Table checks 1 to 9 of an enabled entry (R108). A coded kind, format and substitute hold legal values alone (R184). -/
def Bank.pointChecks (b : Bank) (i : Nat) : List Bool :=
  let e := b.point i
  [(b.station e.source).enable, within 0 23 e.offset, within 0 60000 e.holdLimit, e.enabled, true,
   e.kind != .analog || decide (e.unit ≤ 6), e.kind != .analog || e.substitute.all (fun v => within (-32767) 32767 v),
   e.kind != .single || decide (e.bitNumber ≤ 15), e.kind != .double || e.bitNumber % 2 == 0]

/-- Action Table checks 1 to 7 (R67). -/
def Bank.actionChecks (b : Bank) (i : Nat) : List Bool :=
  let e := b.action i
  [(List.range 32).any (fun j => (b.station j).enable && (b.station j).address == e.destination),
   within 0 15 e.output, b.binaryOrNone e.confirm, within 2 500 e.timeout, within 1 4 e.repeats,
   e.next.all (fun n : Nat => within 0 127 n), b.chainEnds 8 i]

/-- A lower position of the same list holds a candidate of this head action (R33). -/
def Bank.headTaken (b : Bank) (l p head : Nat) : Bool :=
  (List.range p).any (fun j => (b.candidate l j).any (fun c => c.head == head))

/-- Shed Lists checks 1 to 6 of a held position (R33). -/
def Bank.shedChecks (b : Bank) (l p : Nat) (c : CandidateEntry) : List Bool :=
  [within 0 127 c.head, (b.action c.head).confirm.isSome, b.binaryPoint c.availability, b.analogPoint c.amount,
   within 0 60000 c.minimum, !b.headTaken l p c.head]

/-- A level lies in −1,000,000..+1,000,000 (R3). -/
def levelFits (n : Int) : Bool := within (-1000000) 1000000 n

/-- Scheme Table checks 1 to 17 of an enabled entry (R3). -/
def Bank.schemeChecks (b : Bank) (i : Nat) : List Bool :=
  let e := b.scheme i
  [!e.inputs.isEmpty, e.inputs.all (fun x => b.analogPoint x.point), e.inputs.all (fun x => within (-64) 64 x.weight),
   levelFits e.armLevel && levelFits e.stressLevel && levelFits e.floor && levelFits e.backstopLevel && levelFits e.limit,
   decide (e.floor ≤ e.armLevel), within 0 100000 e.hysteresis, within 1 15 e.armNeeded, within 1 15 e.disarmNeeded,
   within 1 5000 e.step, within 0 3 e.holdCode, within 0 1023 e.sensitivity, within 0 60000 e.bias, within 0 60000 e.cap,
   e.shedList.all (fun l : Nat => within 0 15 l), within 0 4 e.escalation, b.binaryOrNone e.blocking, within 0 600 e.resetDelay]

/-- Contingency Table checks 1 to 7 of an enabled entry (R47). -/
def Bank.contChecks (b : Bank) (i : Nat) : List Bool :=
  let e := b.cont i
  [!e.triggers.isEmpty, e.triggers.all b.binaryPoint, decide e.triggers.Nodup, within 1 4 e.confirmCount,
   within 1 15 e.rearmCount, within 0 3 e.priority, e.direct.all (fun a : Nat => within 0 127 a)]

/-- Contingency check 8 for a designation: an enabled express contingency has priority 3 (R47). -/
def Bank.designationCheck (b : Bank) (d : Option Nat) : Option Failure :=
  match d with
  | none => none
  | some c => if (b.cont c).enable && (b.cont c).priority != 3 then some ⟨.contingency, c, 8⟩ else none

/-- Contingency checks 8, for A and then for B, and 9 (R47). -/
def Bank.designationChecks (b : Bank) : Option Failure :=
  let p := b.params
  ((b.designationCheck p.expressA).or (b.designationCheck p.expressB)).or
    (match p.expressA with
     | none => none
     | some c => if p.expressB = some c then some ⟨.contingency, c, 9⟩ else none)

/-- Run a table's checks over its entries in ascending index. -/
def overEntries (k : TableKind) (examined : Nat → Bool) (checks : Nat → List Bool) : Option Failure :=
  (List.range k.entries).findSome? (fun i => if examined i then runChecks k i (checks i) else none)

/-- Run the Shed Lists' checks: entry 16 × list + position (R33, R166). -/
def Bank.shedFailure (b : Bank) : Option Failure :=
  (List.range 256).findSome? (fun i =>
    match b.candidate (i / 16) (i % 16) with
    | none => none
    | some c => runChecks .shed i (b.shedChecks (i / 16) (i % 16) c))

/-- The first check a bank fails, table by table in the order of R166; none when it passes. -/
def Bank.failure (b : Bank) : Option Failure :=
  (runChecks .link 0 b.linkChecks).or <|
  (runChecks .params 0 b.paramsChecks).or <|
  (overEntries .station (fun i => (b.station i).enable) b.stationChecks).or <|
  (overEntries .point (fun i => (b.point i).enabled) b.pointChecks).or <|
  (overEntries .action (fun _ => true) b.actionChecks).or <|
  b.shedFailure.or <|
  (overEntries .scheme (fun i => (b.scheme i).enable) b.schemeChecks).or <|
  (overEntries .contingency (fun i => (b.cont i).enable) b.contChecks).or <|
  b.designationChecks

/-! ### Live state from a bank, at resets and commits -/

/-- Every point record from a bank's Point Table (R109, R110). -/
def Bank.freshPoints (b : Bank) : List PointRec := (List.range 256).map (fun i => .fresh (b.point i).kind.initial)

/-- A scheme's state from its entry: OFF when disabled (R4, R5). -/
def Bank.schemeState (b : Bank) (i : Nat) (enabled : SchemeState) : SchemeState :=
  if (b.scheme i).enable then enabled else .off

/-- Every contingency record at IDLE (R48, R49). -/
def freshConts : List ContRec := List.replicate 64 .fresh

/-! ### The effects of a successful commit (R167) -/

/-- The S, the own-slot set or the part station address in force differs from a bank's (R143). Under the blank link setting S is each
port's adopted S (log 17). -/
def State.linkChanged (s : State) (new : Bank) : Bool :=
  let slots := [Side.east, Side.west].any (fun side =>
    match s.slotsOf side with
    | none => false
    | some n => n != new.link.slots)
  let sameSet := s.ownSlots.all new.link.own.contains && new.link.own.all s.ownSlots.contains
  slots || !sameSet || s.partAddress != new.link.address

/-- Both ports go to DOWN (R143). -/
def State.portsDown (s : State) : State := (s.portDown .east).portDown .west

/-- Swap the banks: the shadow becomes active and VALID, the old active bank the shadow, unchanged (R167). -/
def BanksState.swap (b : BanksState) : BanksState :=
  if b.activeB then { b with a := { b.a with status := .valid }, activeB := false }
  else { b with b := { b.b with status := .valid }, activeB := true }

/-- A station record at a commit: as after a reset but for its counters, which are kept (R127). -/
def StationRec.atCommit (now : Time) (r : StationRec) : StationRec :=
  ⟨.unknown, 0, now, none, 0, r.duplicate, r.rejoinDiscard⟩

/-- The live state that the owners set from the newly active bank (R5, R6, R42, R49, R110, R127). -/
def State.setFromActive (s : State) : State :=
  let b := s.active
  let s := s.setIntake { s.intake with stations := s.intake.stations.map (StationRec.atCommit s.timeBase) }
  let s := s.setPoints b.freshPoints
  let s := s.setArming { s.arming with
    schemes := s.arming.schemes.mapIdx (fun i r =>
      .fresh (b.schemeState i (if s.arming.gateOpen then .disarmed else .gated)) r.hardTrip)
    nextEvaluation := some (s.after b.params.interval) }
  s.setMonitor { s.monitor with conts := freshConts, lastServed := none, imageA := .invalid, imageB := .invalid }

/-- The effects of a successful commit, in the order of R167. -/
def State.commitBanks (s : State) : State :=
  let s := if s.linkChanged s.shadow then s.portsDown else s
  ((s.setBanks s.banks.swap).setFromActive).tryOpenGate

end Sys2Proof.Machine
end

