-- ==== Sys2Proof/Machine/Agent.lean ====
section
/-! DEFINITION. The Engineering Agent: taking a REQUEST, permission, and what each request does
(09_table_banks_and_engineering_requests.md, and R170's order of refusals). -/

namespace Sys2Proof.Machine

/-! ### Answering (R170, R171) -/

/-- Place the reply to a request in the holder (R171). A report length that is not given is 0 (for a refused READ STATE: log 35). -/
def State.reply (s : State) (q : Request) (r : Result) (reportLength : Nat := 0) (data : List Word := [])
    (restart : Bool := false) : State :=
  s.setAgent { s.agent with holder := some ⟨q.source, replyPayload q r reportLength data, restart⟩ }

/-- Answer DONE with data. -/
def State.done (s : State) (q : Request) (data : List Word := []) : State := s.reply q .done 0 data

/-- Permission, then payload length, then the request's own rule (R170). `args` is the number of argument words. -/
def State.guarded (s : State) (q : Request) (write : Bool) (args : Nat) (body : State → State) : State :=
  if write && !s.permits q.source then s.reply q .notPermitted
  else if q.len ≠ 1 + args then s.reply q .badArgument
  else body s

/-! ### The requests -/

/-- IDENTIFY (R172): part code 0x4160, revision, and standing (R183). -/
def State.doIdentify (q : Request) (s : State) : State :=
  s.guarded q false 0 fun s => s.done q
    [0x4160, Config.logicRevision,
     packWord [(0, 6, s.partAddress), (6, 1, bitNat s.banks.activeB), (8, 2, s.banks.a.status.code),
       (10, 2, s.banks.b.status.code), (12, 1, bitNat s.arming.gateOpen), (13, 1, bitNat s.arming.startRequested)]]

/-- READ STATE (R180). Each report draws the fields the spec leaves open anew (log 11). That the report length of a refused READ STATE
is 0 is the model's choice: the spec names the field in every READ STATE reply and gives no length for a refusal (log 35). -/
def State.doReadState (q : Request) (s : State) : State :=
  s.guarded q false 2 fun s =>
    match s.report (bits (q.arg 1) 8 8) (bits (q.arg 1) 0 8) with
    | none => s.reply q .badArgument
    | some words =>
      let first := (q.arg 2).toNat
      if words ≠ [] ∧ words.length ≤ first then s.reply q .badArgument
      else
        (s.setFreeIndex (s.freeIndex + 1)).reply q .done words.length (longWords s.timeBase ++ (words.drop first).take 20)

/-- A run of words of an entry image: kind, entry, first word and count within their ranges (R163, R165). -/
def runFits (kind : Option TableKind) (entry first count : Nat) : Option TableKind :=
  match kind with
  | none => none
  | some k =>
    if entry < k.entries ∧ 1 ≤ count ∧ count ≤ 20 ∧ first + count ≤ k.width then some k else none

/-- READ TABLE (R165). -/
def State.doReadTable (q : Request) (s : State) : State :=
  s.guarded q false 2 fun s =>
    let entry := bits (q.arg 1) 0 8
    let first := bits (q.arg 2) 8 8
    let count := bits (q.arg 2) 0 8
    let bank := if bit (q.arg 1) 15 then s.banks.b else s.banks.a
    match runFits (TableKind.ofCode (bits (q.arg 1) 8 4)) entry first count with
    | none => s.reply q .badArgument
    | some k => s.done q (BitVec.ofNat 16 bank.status.code :: bank.words.readRun (k.address entry first) count)

/-- The shadow bank after a LOAD of a run of words (R163). -/
def State.loadShadow (s : State) (address : Nat) (data : List Word) : State :=
  s.setShadow ⟨.modified, s.shadow.words.writeRun address data⟩

/-- LOAD (R163). Its payload is 3 words and the data the count declares (R183). -/
def State.doLoad (q : Request) (s : State) : State :=
  let entry := bits (q.arg 1) 0 8
  let first := bits (q.arg 2) 8 8
  let count := bits (q.arg 2) 0 8
  s.guarded q true (2 + count) fun s =>
    match runFits (TableKind.ofCode (bits (q.arg 1) 8 4)) entry first count with
    | none => s.reply q .badArgument
    | some k => (s.loadShadow (k.address entry first) (q.args.drop 2)).done q

/-- COPY ACTIVE TO SHADOW (R164). -/
def State.doCopy (q : Request) (s : State) : State :=
  s.guarded q true 0 fun s => (s.setShadow s.active).done q

/-- COMMIT (R166, R167). -/
def State.doCommit (q : Request) (s : State) : State :=
  s.guarded q true 0 fun s =>
    if s.workInFlight then s.reply q .busy
    else
      match s.shadow.failure with
      | some f =>
        s.reply q .validationFailed 0
          [BitVec.ofNat 16 f.kind.code, BitVec.ofNat 16 f.entry, BitVec.ofNat 16 f.check]
      | none => s.commitBanks.done q

/-- START (R27). -/
def State.doStart (q : Request) (s : State) : State :=
  s.guarded q true 0 fun s => ((s.setArming { s.arming with startRequested := true }).tryOpenGate).done q

/-- CLOSE GATE (R28). -/
def State.doCloseGate (q : Request) (s : State) : State :=
  s.guarded q true 0 fun s => if s.workInFlight then s.reply q .busy else s.closeGate.done q

/-- The schemes a RESET SCHEME or RESTORE MARGIN addresses: one, or all for 0x00FF; none for an index outside its range (R183). The
index is the whole word, so 256..65,535 are outside it too (log 34). -/
def addressedSchemes (w : Word) : Option (List Nat) :=
  if w = 0x00FF then some (List.range 16) else if w.toNat < 16 then some [w.toNat] else none

/-- A scheme's record under a taken RESET SCHEME (R24). -/
def SchemeRec.resetScheme (r : SchemeRec) : SchemeRec :=
  match r.state with
  | .off | .gated | .operating => r
  | .operated => { r.calm .disarmed with resetTimer := none }
  | .armed | .arming | .disarmed | .suspended => r.calm .disarmed

/-- RESET SCHEME (R24). -/
def State.doResetScheme (q : Request) (s : State) : State :=
  s.guarded q true 1 fun s =>
    match addressedSchemes (q.arg 1) with
    | none => s.reply q .badArgument
    | some schemes =>
      if schemes.any (fun i => (s.scheme i).state == .operating) then s.reply q .busy
      else (schemes.foldl (fun s i => s.updScheme i SchemeRec.resetScheme) s).done q

/-- A scheme's record under RESTORE MARGIN (R13); an OFF scheme does not change (R2). -/
def SchemeRec.restoreMargin (r : SchemeRec) : SchemeRec :=
  if r.state = .off then r else { r with walk := 0, holdTimer := none, stress := 0 }

/-- RESTORE MARGIN (R13). -/
def State.doRestoreMargin (q : Request) (s : State) : State :=
  s.guarded q true 1 fun s =>
    match addressedSchemes (q.arg 1) with
    | none => s.reply q .badArgument
    | some schemes => (schemes.foldl (fun s i => s.updScheme i SchemeRec.restoreMargin) s).done q

/-- RELEASE HARD TRIP (R104). -/
def State.doReleaseHardTrip (q : Request) (s : State) : State :=
  s.guarded q true 0 fun s => (s.mapSchemes (fun r => { r with hardTrip := false, backstop := 0 })).done q

/-- FORCE POINT (R118). -/
def State.doForcePoint (q : Request) (s : State) : State :=
  s.guarded q true 2 fun s =>
    let i := (q.arg 1).toNat
    if s.arming.gateOpen then s.reply q .refusedGate
    else if 256 ≤ i then s.reply q .badArgument
    else
      match (s.active.point i).kind.forceValue (q.arg 2) with
      | none => s.reply q .badArgument
      | some v => (s.force i v).done q

/-- UNFORCE POINT (R119). -/
def State.doUnforcePoint (q : Request) (s : State) : State :=
  s.guarded q true 1 fun s =>
    let i := (q.arg 1).toNat
    if i = 0xFFFF then (s.unforce (fun _ => true)).done q
    else if 256 ≤ i then s.reply q .badArgument
    else (s.unforce (fun k => k == i)).done q

/-- A port of a code (section 11.2). -/
def sideOf : Nat → Option Side
  | 0 => some .east
  | 1 => some .west
  | _ => none

/-- A PORT CONTROL action on the port named; BAD_ARGUMENT for a port other than East or West (R155). -/
def State.onPort (q : Request) (s : State) (body : Side → State → State) : State :=
  s.guarded q true 1 fun s =>
    match sideOf (bits (q.arg 1) 8 8) with
    | none => s.reply q .badArgument
    | some side => body side s

/-- PORT CONTROL, port RESTART (R155). -/
def State.doPortRestart (q : Request) (s : State) : State :=
  s.onPort q fun side s => (s.portDown side).done q

/-- PORT CONTROL, REJOIN (R153). -/
def State.doRejoin (q : Request) (s : State) : State :=
  s.onPort q fun side s =>
    (if (s.port side).state = .isolated then s.changePort side false (s.port side).rejoin else s).done q

/-- PORT CONTROL, LOOPBACK ON (R154). -/
def State.doLoopbackOn (q : Request) (s : State) : State :=
  s.onPort q fun side s =>
    if s.arming.gateOpen then s.reply q .refusedGate
    else if s.timingPort = some side ∧ (s.port side.other).state ≠ .locked then s.reply q .busy
    else (s.changePort side false { s.port side with state := .loopback }).done q

/-- PORT CONTROL, LOOPBACK OFF (R155). -/
def State.doLoopbackOff (q : Request) (s : State) : State :=
  s.onPort q fun side s => (if (s.port side).state = .loopback then s.portDown side else s).done q

/-- PORT CONTROL by its action (R155). -/
def State.doPortControl (q : Request) (s : State) : State :=
  match bits (q.arg 1) 0 8 with
  | 0 => s.doPortRestart q
  | 1 => s.doRejoin q
  | 2 => s.doLoopbackOn q
  | 3 => s.doLoopbackOff q
  | _ => s.guarded q true 1 fun s => s.reply q .badArgument

/-- The counters a READ COUNTERS reply carries, from its first word on (R181). -/
def State.countersFrom (s : State) (first : Nat) : List Word := (s.counterImage.drop first).take 20

/-- READ COUNTERS without the clear option (R181). -/
def State.doReadCounters (q : Request) (s : State) : State :=
  s.guarded q false 1 fun s =>
    let first := bits (q.arg 1) 8 8
    if 81 < first then s.reply q .badArgument else s.done q (s.countersFrom first)

/-- READ COUNTERS with the clear option: exactly the counters carried go to 0 (R181). -/
def State.doReadCountersClear (q : Request) (s : State) : State :=
  s.guarded q true 1 fun s =>
    let first := bits (q.arg 1) 8 8
    if 81 < first then s.reply q .badArgument
    else (s.clearCounters (fun place => decide (first ≤ place) && decide (place < first + 20))).done q (s.countersFrom first)

/-- READ OPERATION LOG (R179). -/
def State.doReadLog (q : Request) (s : State) : State :=
  s.guarded q false 1 fun s =>
    let first := bits (q.arg 1) 8 8
    let count := bits (q.arg 1) 0 8
    if 31 < first ∨ count = 0 ∨ 3 < count then s.reply q .badArgument
    else s.done q (BitVec.ofNat 16 s.log.records.length :: ((s.log.records.drop first).take count).flatMap LogRecord.summary)

/-- CLEAR NOTICES (R177). -/
def State.doClearNotices (q : Request) (s : State) : State :=
  s.guarded q true 0 fun s => (s.setNotices .clear).done q

/-- RESTART: nothing changes but the holder (R173). -/
def State.doRestart (q : Request) (s : State) : State :=
  s.guarded q true 0 fun s => s.reply q .done 0 [] true

/-- Execute a request by its code (R170, section 11.2). A READ COUNTERS whose payload ends before its clear option is a read. -/
def State.execute (q : Request) (s : State) : State :=
  match q.code.toNat with
  | 0x01 => s.doIdentify q
  | 0x02 => s.doReadState q
  | 0x03 => s.doReadTable q
  | 0x04 => s.doLoad q
  | 0x05 => s.doCopy q
  | 0x06 => s.doCommit q
  | 0x07 => s.doStart q
  | 0x08 => s.doCloseGate q
  | 0x09 => s.doResetScheme q
  | 0x0A => s.doRestoreMargin q
  | 0x0B => s.doReleaseHardTrip q
  | 0x0C => s.doForcePoint q
  | 0x0D => s.doUnforcePoint q
  | 0x0E => s.doPortControl q
  | 0x0F => if bit (q.arg 1) 0 then s.doReadCountersClear q else s.doReadCounters q
  | 0x10 => s.doReadLog q
  | 0x11 => s.doClearNotices q
  | 0x12 => s.doRestart q
  | _ => s.reply q .unknownRequest

/-! ### Taking a request (R149, R168) -/

/-- The destination screen (R168): the part station address, or 63 for an IDENTIFY. -/
def State.screens (s : State) (dest : Address) (code : Byte) : Bool :=
  dest.toNat == s.partAddress || (dest.toNat == 63 && code == 0x01)

/-- A request that finds the holder full (R168). -/
def State.loseRequest (s : State) : State :=
  (s.setAgent { s.agent with requestLost := satInc s.agent.requestLost }).raise (fun n => { n with requestLost := true })

/-- A REQUEST handed on by a port: taken from the timing port only, screened, and executed if the holder is empty (R149, R156,
R168, R171). -/
def State.takeRequest (port : Side) (dest : Address) (code : Byte) (body : State → State) (s : State) : State :=
  if s.timingPort = some port ∧ s.screens dest code then
    if s.agent.holder.isSome then s.loseRequest else body s
  else s

/-- A REQUEST frame received, of a code and tag with argument words, with the request's effect. -/
def State.receiveRequest (s : State) (rx : Reception) (code tag : Byte) (args : List Word)
    (body : Request → State → State) : State :=
  s.receiveGood rx 3 (requestPayload code tag args)
    (fun _ s => s.takeRequest rx.port rx.dest code (body (requestOf rx code tag args)))

/-- Word 0 of a REQUEST payload; of an empty payload a free value (log 12). -/
def State.requestWord (s : State) (payload : List Word) : Word :=
  match payload with
  | [] => Config.missingRequestWord s.freeIndex
  | w :: _ => w

/-- A REQUEST frame of any payload, handed to the agent. -/
def State.handPayload (rx : Reception) (payload : List Word) (s : State) : State :=
  let w := s.requestWord payload
  let s := if payload.isEmpty then s.setFreeIndex (s.freeIndex + 1) else s
  let q : Request := ⟨rx.source, w.extractLsb' 8 8, w.extractLsb' 0 8, payload.length, payload.drop 1⟩
  s.takeRequest rx.port rx.dest q.code (fun s => s.execute q)

/-! ### Own slots (R157 to R159) -/

/-- The frame composed at an own slot's start, and its effects: a TRIP frame, else the waiting REPLY, else STATUS (R157). -/
def State.compose (s : State) (slot : Nat) : State :=
  match s.tripEntries with
  | e :: rest => (s.sendOwn slot (s.ownFrame 2 63 (tripPayload (e :: rest)))).sendTrip (e :: rest)
  | [] =>
    match s.agent.holder with
    | some h =>
      let s := s.sendOwn slot (s.ownFrame 4 h.dest.toNat h.payload)
      s.setAgent { s.agent with holder := none, restartDue := h.restart }
    | none => s.sendOwn slot (s.ownFrame 5 63 s.statusPayload)

/-- The own slot of the timing port that starts at a word time, while own slots run (R156, R157). -/
def State.ownSlotAt (s : State) (start : Nat) : Option Nat :=
  match s.timingPort with
  | none => none
  | some t =>
    if s.link.ownSlotsRun then
      match s.slotAt t start with
      | none => none
      | some k => if s.ownSlots.contains k then some k else none
    else none

/-! ### Resets (R144 and the owners' reset rules) -/

/-- Every block's live state at its reset values, the time base 0 and the notices clear; banks, selector and log kept (R1, R4, R25,
R42, R48, R69, R75, R87, R109, R126, R144, R161, R168, R176). -/
def State.resetLive (s : State) : State :=
  let b := s.active
  { s with
    timeBase := 0
    link := .reset
    intake := .reset
    points := b.freshPoints
    arming :=
      { schemes := (List.range 16).map (fun i => .fresh (b.schemeState i .gated) false)
        gateOpen := false
        startRequested := false
        settleEnded := false
        nextEvaluation := if s.valid then some (BitVec.ofNat 32 b.params.interval) else none }
    monitor := .reset
    engine := none
    queue := .reset
    tracker := .reset
    agent := .reset
    notices := .clear
    out := [] }

end Sys2Proof.Machine
end

