-- ==== Sys2Proof/Machine/Receive.lean ====
section
/-! DEFINITION. Family: receiving (MARKER, MISSED_MARKER, BABBLE, PUBLISH, REPEATED_FRAME, DAMAGED_FRAME, LOOPED_FRAME,
REQUEST_LOST). -/

namespace Sys2Proof.Machine

/-- MARKER (R145 to R147, R152): a valid MARKER received on a port. -/
def execMarker (rx : Reception) (payload : Word) (s : State) : Host.Outcome State Fault Refusal :=
  running s fun s => s.receiveMarker rx payload

/-- MISSED_MARKER (R146, R147, R152): no valid matching MARKER starts at the port's expected position. -/
def execMissedMarker (port : Side) (s : State) : Host.Outcome State Fault Refusal :=
  running s fun s => s.missMarker port

/-- BABBLE (R151, R152): a babbling slot on the port. -/
def execBabble (port : Side) (s : State) : Host.Outcome State Fault Refusal :=
  running s fun s => s.babbleSlot port

/-- PUBLISH (R128, R149): a good PUBLISH frame is repeated and offered to Intake. -/
def execPublish (rx : Reception) (payload : List Word) (s : State) : Host.Outcome State Fault Refusal :=
  running s fun s => s.receiveGood rx 1 payload (fun slot s => s.offer rx.source slot rx.cycle payload)

/-- REPEATED_FRAME (R149): a good frame of another kind. A REQUEST is also handed to the Engineering Agent (R168), which passes over
one that is not for the part; a frame of kind MARKER or PUBLISH has the effect of its own row. -/
def execRepeatedFrame (rx : Reception) (kind : BitVec 4) (payload : List Word) (s : State) :
    Host.Outcome State Fault Refusal :=
  running s fun s =>
    match kind.toNat, payload with
    | 0, [w] => s.receiveMarker rx w
    | 1, _ => s.receiveGood rx kind payload (fun slot s => s.offer rx.source slot rx.cycle payload)
    | 3, _ => s.receiveGood rx kind payload (fun _ s => s.handPayload rx payload)
    | _, _ => s.receiveGood rx kind payload (fun _ s => s)

/-- DAMAGED_FRAME (R148). -/
def execDamagedFrame (port : Side) (start : Nat) (markerWhole : Bool) (words : List Word) (s : State) :
    Host.Outcome State Fault Refusal :=
  running s fun s => s.receiveDamaged port start markerWhole words

/-- LOOPED_FRAME (R154). -/
def execLoopedFrame (port : Side) (markerWhole : Bool) (words : List Word) (s : State) : Host.Outcome State Fault Refusal :=
  running s fun s => s.receiveLooped port markerWhole words

/-- REQUEST_LOST (R168): a REQUEST frame whose taking the full holder prevents. With the holder empty no request is lost, and the
event does not occur. -/
def execRequestLost (rx : Reception) (payload : List Word) (s : State) : Host.Outcome State Fault Refusal :=
  running s fun s =>
    if s.agent.holder.isSome then s.receiveGood rx 3 payload (fun _ s => s.handPayload rx payload) else s

end Sys2Proof.Machine
end

