-- ==== Sys2Proof/Machine/Requests.lean ====
section
/-! DEFINITION. Family: requests. Each command is the reception of a REQUEST frame with its code, tag and argument words (R149), taken
by the Engineering Agent and executed in the same event (R168 to R171). -/

namespace Sys2Proof.Machine

/-- UNKNOWN_REQUEST (R170): a code that is none of the eighteen. -/
def execUnknownRequest (rx : Reception) (code tag : Byte) (args : List Word) (s : State) :
    Host.Outcome State Fault Refusal :=
  running s fun s => s.receiveRequest rx code tag args State.execute

/-- IDENTIFY (R172). -/
def execIdentify (rx : Reception) (tag : Byte) (args : List Word) (s : State) :
    Host.Outcome State Fault Refusal :=
  running s fun s => s.receiveRequest rx 0x01 tag args State.doIdentify

/-- READ_STATE (R180). -/
def execReadState (rx : Reception) (tag : Byte) (args : List Word) (s : State) :
    Host.Outcome State Fault Refusal :=
  running s fun s => s.receiveRequest rx 0x02 tag args State.doReadState

/-- READ_TABLE (R165). -/
def execReadTable (rx : Reception) (tag : Byte) (args : List Word) (s : State) :
    Host.Outcome State Fault Refusal :=
  running s fun s => s.receiveRequest rx 0x03 tag args State.doReadTable

/-- LOAD (R163). -/
def execLoad (rx : Reception) (tag : Byte) (args : List Word) (s : State) :
    Host.Outcome State Fault Refusal :=
  running s fun s => s.receiveRequest rx 0x04 tag args State.doLoad

/-- COPY_ACTIVE_TO_SHADOW (R164). -/
def execCopyActiveToShadow (rx : Reception) (tag : Byte) (args : List Word) (s : State) :
    Host.Outcome State Fault Refusal :=
  running s fun s => s.receiveRequest rx 0x05 tag args State.doCopy

/-- COMMIT (R166, R167). -/
def execCommit (rx : Reception) (tag : Byte) (args : List Word) (s : State) :
    Host.Outcome State Fault Refusal :=
  running s fun s => s.receiveRequest rx 0x06 tag args State.doCommit

/-- START (R27). -/
def execStart (rx : Reception) (tag : Byte) (args : List Word) (s : State) :
    Host.Outcome State Fault Refusal :=
  running s fun s => s.receiveRequest rx 0x07 tag args State.doStart

/-- CLOSE_GATE (R28). -/
def execCloseGate (rx : Reception) (tag : Byte) (args : List Word) (s : State) :
    Host.Outcome State Fault Refusal :=
  running s fun s => s.receiveRequest rx 0x08 tag args State.doCloseGate

/-- RESET_SCHEME (R24). -/
def execResetScheme (rx : Reception) (tag : Byte) (args : List Word) (s : State) :
    Host.Outcome State Fault Refusal :=
  running s fun s => s.receiveRequest rx 0x09 tag args State.doResetScheme

/-- RESTORE_MARGIN (R13). -/
def execRestoreMargin (rx : Reception) (tag : Byte) (args : List Word) (s : State) :
    Host.Outcome State Fault Refusal :=
  running s fun s => s.receiveRequest rx 0x0A tag args State.doRestoreMargin

/-- RELEASE_HARD_TRIP (R104). -/
def execReleaseHardTrip (rx : Reception) (tag : Byte) (args : List Word) (s : State) :
    Host.Outcome State Fault Refusal :=
  running s fun s => s.receiveRequest rx 0x0B tag args State.doReleaseHardTrip

/-- FORCE_POINT (R118). -/
def execForcePoint (rx : Reception) (tag : Byte) (args : List Word) (s : State) :
    Host.Outcome State Fault Refusal :=
  running s fun s => s.receiveRequest rx 0x0C tag args State.doForcePoint

/-- UNFORCE_POINT (R119). -/
def execUnforcePoint (rx : Reception) (tag : Byte) (args : List Word) (s : State) :
    Host.Outcome State Fault Refusal :=
  running s fun s => s.receiveRequest rx 0x0D tag args State.doUnforcePoint

/-- PORT_RESTART (R155): PORT CONTROL with action 0. -/
def execPortRestart (rx : Reception) (tag port : Byte) (extra : List Word) (s : State) :
    Host.Outcome State Fault Refusal :=
  running s fun s => s.receiveRequest rx 0x0E tag (portControlWord port 0 :: extra) State.doPortRestart

/-- REJOIN (R153): PORT CONTROL with action 1. -/
def execRejoin (rx : Reception) (tag port : Byte) (extra : List Word) (s : State) :
    Host.Outcome State Fault Refusal :=
  running s fun s => s.receiveRequest rx 0x0E tag (portControlWord port 1 :: extra) State.doRejoin

/-- LOOPBACK_ON (R154): PORT CONTROL with action 2. -/
def execLoopbackOn (rx : Reception) (tag port : Byte) (extra : List Word) (s : State) :
    Host.Outcome State Fault Refusal :=
  running s fun s => s.receiveRequest rx 0x0E tag (portControlWord port 2 :: extra) State.doLoopbackOn

/-- LOOPBACK_OFF (R155): PORT CONTROL with action 3. -/
def execLoopbackOff (rx : Reception) (tag port : Byte) (extra : List Word) (s : State) :
    Host.Outcome State Fault Refusal :=
  running s fun s => s.receiveRequest rx 0x0E tag (portControlWord port 3 :: extra) State.doLoopbackOff

/-- READ_COUNTERS without its clear option (R181). `first` is none when the
payload ends before word 1. -/
def execReadCounters (rx : Reception) (tag : Byte) (first : Option Byte) (extra : List Word) (s : State) :
    Host.Outcome State Fault Refusal :=
  running s fun s => s.receiveRequest rx 0x0F tag (match first with
    | none => extra
    | some f => readCountersWord f false :: extra) State.doReadCounters

/-- READ_COUNTERS with its clear option (R181). -/
def execReadCountersClear (rx : Reception) (tag first : Byte) (extra : List Word) (s : State) :
    Host.Outcome State Fault Refusal :=
  running s fun s => s.receiveRequest rx 0x0F tag (readCountersWord first true :: extra) State.doReadCountersClear

/-- READ_OPERATION_LOG (R179). -/
def execReadOperationLog (rx : Reception) (tag : Byte) (args : List Word) (s : State) :
    Host.Outcome State Fault Refusal :=
  running s fun s => s.receiveRequest rx 0x10 tag args State.doReadLog

/-- CLEAR_NOTICES (R177). -/
def execClearNotices (rx : Reception) (tag : Byte) (args : List Word) (s : State) :
    Host.Outcome State Fault Refusal :=
  running s fun s => s.receiveRequest rx 0x11 tag args State.doClearNotices

/-- RESTART (R173). -/
def execRestart (rx : Reception) (tag : Byte) (args : List Word) (s : State) :
    Host.Outcome State Fault Refusal :=
  running s fun s => s.receiveRequest rx 0x12 tag args State.doRestart

end Sys2Proof.Machine
end

