-- ==== Sys2Proof/Machine/Resets.lean ====
section
/-! DEFINITION. Family: resets (POWER_ON_RESET, RESET_PIN, SLOT_END_RESTART). -/

namespace Sys2Proof.Machine

/-- POWER_ON_RESET (R144, R178): the power-good input deasserted holds the part in reset, with its live state reset and the Operation
Log emptied; its assertion releases the part with the time base at 0. A release while the part is not held does not occur
(log 5). -/
def execPowerOnReset (phase : ResetPhase) (s : State) : Host.Outcome State Fault Refusal :=
  match phase with
  | .assert => .next ((s.resetLive.setLog .empty).setPowerHeld true)
  | .release => .next (if s.powerHeld then (s.resetLive.setLog .empty).setPowerHeld false else s.quiet)

/-- RESET_PIN (R144): as POWER_ON_RESET, with the Operation Log kept (R178). -/
def execResetPin (phase : ResetPhase) (s : State) : Host.Outcome State Fault Refusal :=
  match phase with
  | .assert => .next (s.resetLive.setPinHeld true)
  | .release => .next (if s.pinHeld then s.resetLive.setPinHeld false else s.quiet)

/-- SLOT_END_RESTART (R159, R173): at the end of the own slot that carries the reply to a RESTART, everything is set as after a
reset pin. -/
def execSlotEndRestart (s : State) : Host.Outcome State Fault Refusal :=
  running s fun s => if s.agent.restartDue then s.resetLive else s

end Sys2Proof.Machine
end

