-- ==== Sys2Proof/Machine/Slots.lean ====
section
/-! DEFINITION. Family: sending (OWN_SLOT_START, WAITING_COPY_SEND). -/

namespace Sys2Proof.Machine

/-- OWN_SLOT_START (R157): an own slot of the timing port starts at a word time, and one frame is composed and sent. -/
def execOwnSlotStart (start : Nat) (s : State) : Host.Outcome State Fault Refusal :=
  running s fun s =>
    match s.ownSlotAt start with
    | none => s
    | some slot => s.compose slot

/-- WAITING_COPY_SEND (R158): the slot of a waiting copy's number starts on its transmitter. -/
def execWaitingCopySend (tx : Side) (start : Nat) (s : State) : Host.Outcome State Fault Refusal :=
  running s fun s => s.sendWaiting tx start

end Sys2Proof.Machine
end

