-- ==== Sys2Proof/Machine/Arming.lean ====
section
/-! DEFINITION. The Arming Evaluator's periodic evaluation (01_schemes_and_arming.md section 1.3). -/

namespace Sys2Proof.Machine

/-- Q of a scheme at this event, when every input is usable (R8, R10). -/
def State.formQ (s : State) (e : SchemeEntry) : Option Int :=
  if e.inputs.all (fun i => (s.point i.point).quality.usableInput e.lenient) then
    some (roundHalfAway ((e.inputs.map (fun i => i.weight * (s.point i.point).value.number)).sum) 16)
  else none

/-- The blocking point is in effect (R8). -/
def State.blocked (s : State) (e : SchemeEntry) : Bool :=
  match e.blocking with
  | none => false
  | some p => (s.point p).readsOpen

/-- The walk-down stage (R11): the record after it, and whether a step was taken. `expiry` is the hold timer's expiry for a step. -/
def SchemeRec.walkDown (e : SchemeEntry) (expiry : Time) (q : Int) (r : SchemeRec) : SchemeRec × Bool :=
  if e.walkEnable then
    let stress := if e.stressLevel < q then min 2 (r.stress + 1) else 0
    if stress = 2 ∧ r.holdTimer = none then
      ({ r with walk := min (r.walk + e.step) (e.armLevel - e.floor), holdTimer := some expiry, stress := 0 }, true)
    else ({ r with stress := stress }, false)
  else (r, false)

/-- The effective arm level A_eff (R14). -/
def SchemeRec.armLevel (e : SchemeEntry) (r : SchemeRec) : Int := e.armLevel - r.walk

/-- The disarm level D (R14). -/
def SchemeRec.disarmLevel (e : SchemeEntry) (r : SchemeRec) : Int := r.armLevel e - e.hysteresis

/-- Arming and disarming persistence (R15, R16). -/
def SchemeRec.persist (e : SchemeEntry) (q : Int) (r : SchemeRec) : SchemeRec :=
  match r.state with
  | .disarmed =>
    if r.armLevel e ≤ q then
      if e.armNeeded ≤ 1 then { r with state := .armed, armCount := 0, disarmCount := 0 }
      else { r with state := .arming, armCount := 1 }
    else { r with armCount := 0 }
  | .arming =>
    if r.armLevel e ≤ q then
      if e.armNeeded ≤ r.armCount + 1 then { r with state := .armed, armCount := 0, disarmCount := 0 }
      else { r with armCount := r.armCount + 1 }
    else { r with state := .disarmed, armCount := 0 }
  | .armed =>
    if r.disarmLevel e ≤ q then { r with disarmCount := 0 }
    else if e.disarmNeeded ≤ r.disarmCount + 1 then
      { r with state := .disarmed, armCount := 0, disarmCount := 0, selection := none }
    else { r with disarmCount := r.disarmCount + 1 }
  | .off | .gated | .suspended | .operating | .operated => r

/-- The backstop stage (R18): the record after it, and whether the BACKSTOP notice is raised. -/
def SchemeRec.runBackstop (e : SchemeEntry) (formed : Option Int) (r : SchemeRec) : SchemeRec × Bool :=
  let reached := e.backstopEnable && formed.any (fun q => decide (e.backstopLevel ≤ q))
  if reached then
    let latch := decide (r.backstop = 1) && e.hardTripEnable
    ({ r with backstop := min 2 (r.backstop + 1), hardTrip := r.hardTrip || latch }, latch)
  else ({ r with backstop := 0 }, false)

/-- Arming stages of a scheme that is DISARMED, ARMING or ARMED with usable inputs and no block (R11, R14 to R17): the record, and
whether a walk-down step was taken. -/
def State.armingStages (s : State) (e : SchemeEntry) (q : Int) (r : SchemeRec) : SchemeRec × Bool :=
  let walked := r.walkDown e (s.after e.holdMs) q
  let r' := walked.1.persist e q
  (if r'.state = .armed then { r' with selection := some (s.select e.shedList (e.requirement q)) } else r', walked.2)

/-- The stages of one scheme's evaluation before the backstop (R8 to R17, R20, R29): the record, and whether a walk-down step was
taken. -/
def State.evaluateStages (s : State) (e : SchemeEntry) (formed : Option Int) (r : SchemeRec) : SchemeRec × Bool :=
  let r := { r with q := formed.getD r.q }
  match r.state with
  | .off => (r, false)
  | .gated => ({ r with stress := 0 }, false)
  | .suspended => (if formed.isSome && !s.blocked e then r.calm .disarmed else r.calm .suspended, false)
  | .disarmed | .arming | .armed =>
    match formed with
    | none => (r.calm .suspended, false)
    | some q => if s.blocked e then (r.calm .suspended, false) else s.armingStages e q r
  | .operating | .operated => ({ r with stress := 0 }, false)

/-- A scheme's record after its part of an evaluation (R7), with whether a walk-down step was taken and whether the BACKSTOP notice is
raised. An OFF scheme is not visited (R2), and a GATED one forms Q alone (R29). -/
def State.evaluatedScheme (s : State) (i : Nat) : SchemeRec × Bool × Bool :=
  let r := s.scheme i
  let e := s.active.scheme i
  let formed := s.formQ e
  let staged := s.evaluateStages e formed r
  match r.state with
  | .off => (r, false, false)
  | .gated => ({ staged.1 with backstop := 0 }, false, false)
  | .suspended | .disarmed | .arming | .armed | .operating | .operated =>
    let final := staged.1.runBackstop e formed
    (final.1, staged.2, final.2)

/-- One scheme's part of the evaluation: its record, MARGIN_WALKED and BACKSTOP. -/
def State.evaluateScheme (s : State) (i : Nat) : State :=
  let e := s.evaluatedScheme i
  (s.updScheme i (fun _ => e.1)).raise (fun n => { n with
    marginWalked := n.marginWalked || e.2.1
    backstop := n.backstop || e.2.2 })

/-- The periodic evaluation (R7): the schemes in ascending index, then both express images; the next one falls E ms later (R6). -/
def State.evaluate (s : State) : State :=
  let s := ((List.range 16).foldl State.evaluateScheme s).buildImages
  s.setArming { s.arming with nextEvaluation := some (s.after s.active.params.interval) }

end Sys2Proof.Machine
end

