-- ==== Sys2Proof/Machine/Timed.lean ====
section
/-! DEFINITION. Family: the time base and what falls due on it (TIME_BASE_TICK, ARMING_EVALUATION, HOLD_TIMER_EXPIRY,
RESET_TIMER_EXPIRY, SETTLE_INTERVAL_END, WINDOW_END, STALE_CHANGE, ENTRY_EXPIRY, EXPANSION_COMPLETION). A timed event occurs while the
time base equals its time (R1) and not otherwise (log 2). -/

namespace Sys2Proof.Machine

/-- TIME_BASE_TICK (R1). -/
def execTimeBaseTick (s : State) : Host.Outcome State Fault Refusal :=
  running s fun s => s.setTimeBase (s.timeBase + 1)

/-- ARMING_EVALUATION (R6, R7). -/
def execArmingEvaluation (s : State) : Host.Outcome State Fault Refusal :=
  running s fun s => if s.arming.nextEvaluation = some s.timeBase then s.evaluate else s

/-- HOLD_TIMER_EXPIRY (R12): the timer stops and nothing else changes. -/
def execHoldTimerExpiry (scheme : Fin 16) (s : State) : Host.Outcome State Fault Refusal :=
  running s fun s =>
    if (s.scheme scheme).holdTimer = some s.timeBase then s.updScheme scheme (fun r => { r with holdTimer := none }) else s

/-- RESET_TIMER_EXPIRY (R23): OPERATED to DISARMED. -/
def execResetTimerExpiry (scheme : Fin 16) (s : State) : Host.Outcome State Fault Refusal :=
  running s fun s =>
    if (s.scheme scheme).resetTimer = some s.timeBase ∧ (s.scheme scheme).state = .operated then
      s.updScheme scheme (fun r => { r.calm .disarmed with resetTimer := none })
    else s

/-- SETTLE_INTERVAL_END (R25): the time base reaches 2,000 ms after a reset; the gate opens if its other conditions hold. -/
def execSettleIntervalEnd (s : State) : Host.Outcome State Fault Refusal :=
  running s fun s =>
    if s.timeBase = 2000 ∧ s.arming.settleEnded = false then
      (s.setArming { s.arming with settleEnded := true }).tryOpenGate
    else s

/-- WINDOW_END (R134 to R136): an enabled station's window ends at its window start plus its freshness window. -/
def execWindowEnd (station : Fin 32) (s : State) : Host.Outcome State Fault Refusal :=
  running s fun s =>
    let e := s.active.station station
    if e.enable ∧ (s.station station).windowStart + BitVec.ofNat 32 e.window = s.timeBase then s.endWindow station else s

/-- STALE_CHANGE (R117): a HELD point's hold limit runs out. -/
def execStaleChange (point : Fin 256) (s : State) : Host.Outcome State Fault Refusal :=
  running s fun s =>
    let e := s.active.point point
    let r := s.point point
    if r.quality = .held ∧ r.holdStart.map (· + BitVec.ofNat 32 e.holdLimit) = some s.timeBase then
      s.updPoint point (PointRec.toStale e)
    else s

/-- ENTRY_EXPIRY (R96, R97): the live entry of an action reaches its confirm deadline. -/
def execEntryExpiry (action : Fin 128) (s : State) : Host.Outcome State Fault Refusal :=
  running s fun s =>
    match s.liveEntry action with
    | none => s
    | some e => if e.deadline = s.timeBase then s.expireEntry e else s

/-- EXPANSION_COMPLETION (R74). It falls at any time up to 4 ms after the take, as the sender gives it (R72, log 20). -/
def execExpansionCompletion (s : State) : Host.Outcome State Fault Refusal :=
  running s fun s =>
    match s.engine with
    | none => s
    | some snap => s.completeExpansion snap

end Sys2Proof.Machine
end

