-- ==== Sys2Proof/Machine/Dispatch.lean ====
section
/-! DEFINITION. One arm per command, each a direct call of its meaning. -/

namespace Sys2Proof.Machine

def exec (i : Instr) (s : State) : Host.Outcome State Fault Refusal :=
  match i with
  | .powerOnReset phase => Sys2Proof.Machine.execPowerOnReset phase s
  | .resetPin phase => Sys2Proof.Machine.execResetPin phase s
  | .timeBaseTick => Sys2Proof.Machine.execTimeBaseTick s
  | .armingEvaluation => Sys2Proof.Machine.execArmingEvaluation s
  | .holdTimerExpiry scheme => Sys2Proof.Machine.execHoldTimerExpiry scheme s
  | .resetTimerExpiry scheme => Sys2Proof.Machine.execResetTimerExpiry scheme s
  | .settleIntervalEnd => Sys2Proof.Machine.execSettleIntervalEnd s
  | .windowEnd station => Sys2Proof.Machine.execWindowEnd station s
  | .staleChange point => Sys2Proof.Machine.execStaleChange point s
  | .entryExpiry action => Sys2Proof.Machine.execEntryExpiry action s
  | .expansionCompletion => Sys2Proof.Machine.execExpansionCompletion s
  | .ownSlotStart start => Sys2Proof.Machine.execOwnSlotStart start s
  | .waitingCopySend tx start => Sys2Proof.Machine.execWaitingCopySend tx start s
  | .slotEndRestart => Sys2Proof.Machine.execSlotEndRestart s
  | .marker rx payload => Sys2Proof.Machine.execMarker rx payload s
  | .missedMarker port => Sys2Proof.Machine.execMissedMarker port s
  | .babble port => Sys2Proof.Machine.execBabble port s
  | .publish rx payload => Sys2Proof.Machine.execPublish rx payload s
  | .repeatedFrame rx kind payload => Sys2Proof.Machine.execRepeatedFrame rx kind payload s
  | .damagedFrame port start markerWhole words => Sys2Proof.Machine.execDamagedFrame port start markerWhole words s
  | .loopedFrame port markerWhole words => Sys2Proof.Machine.execLoopedFrame port markerWhole words s
  | .requestLost rx payload => Sys2Proof.Machine.execRequestLost rx payload s
  | .unknownRequest rx code tag args => Sys2Proof.Machine.execUnknownRequest rx code tag args s
  | .identify rx tag args => Sys2Proof.Machine.execIdentify rx tag args s
  | .readState rx tag args => Sys2Proof.Machine.execReadState rx tag args s
  | .readTable rx tag args => Sys2Proof.Machine.execReadTable rx tag args s
  | .load rx tag args => Sys2Proof.Machine.execLoad rx tag args s
  | .copyActiveToShadow rx tag args => Sys2Proof.Machine.execCopyActiveToShadow rx tag args s
  | .commit rx tag args => Sys2Proof.Machine.execCommit rx tag args s
  | .start rx tag args => Sys2Proof.Machine.execStart rx tag args s
  | .closeGate rx tag args => Sys2Proof.Machine.execCloseGate rx tag args s
  | .resetScheme rx tag args => Sys2Proof.Machine.execResetScheme rx tag args s
  | .restoreMargin rx tag args => Sys2Proof.Machine.execRestoreMargin rx tag args s
  | .releaseHardTrip rx tag args => Sys2Proof.Machine.execReleaseHardTrip rx tag args s
  | .forcePoint rx tag args => Sys2Proof.Machine.execForcePoint rx tag args s
  | .unforcePoint rx tag args => Sys2Proof.Machine.execUnforcePoint rx tag args s
  | .portRestart rx tag port extra => Sys2Proof.Machine.execPortRestart rx tag port extra s
  | .rejoin rx tag port extra => Sys2Proof.Machine.execRejoin rx tag port extra s
  | .loopbackOn rx tag port extra => Sys2Proof.Machine.execLoopbackOn rx tag port extra s
  | .loopbackOff rx tag port extra => Sys2Proof.Machine.execLoopbackOff rx tag port extra s
  | .readCounters rx tag first extra => Sys2Proof.Machine.execReadCounters rx tag first extra s
  | .readCountersClear rx tag first extra => Sys2Proof.Machine.execReadCountersClear rx tag first extra s
  | .readOperationLog rx tag args => Sys2Proof.Machine.execReadOperationLog rx tag args s
  | .clearNotices rx tag args => Sys2Proof.Machine.execClearNotices rx tag args s
  | .restart rx tag args => Sys2Proof.Machine.execRestart rx tag args s

end Sys2Proof.Machine
end

