-- ==== Sys2Proof/WellFormed.lean ====
section
/-! DEFINITION. Which command terms stand for an event of the part. The meanings are total; a term refused here names an event
that no link can carry or that has a row of its own. -/

namespace Sys2Proof

/-- A frame carries at most 24 payload words (08_the_scheme_link.md section 8.1). -/
def payloadFits (payload : List Word) : Bool := payload.length ≤ 24

/-- Header words, payload and check word of a frame: at most 27 words (08_the_scheme_link.md section 8.1). -/
def receivedFits (words : List Word) : Bool := words.length ≤ 27

/-- A request's word 0 and its arguments fit a frame's payload. -/
def argsFit (args : List Word) : Bool := args.length + 1 ≤ 24

/-- A good frame that belongs to REPEATED_FRAME: not a PUBLISH (row PUBLISH) and not a valid MARKER (row MARKER, R145). -/
def repeatedKindFits (kind : BitVec 4) (payload : List Word) : Bool :=
  kind != 1 && !(kind == 0 && payload.length == 1)

/-- A request code that is none of the eighteen of section 11.2. -/
def codeUnknown (code : Byte) : Bool := code == 0 || decide (0x12 < code.toNat)

/-- The well-formedness check of a command. -/
def Instr.wellFormed : Instr → Bool
  | .powerOnReset _ | .resetPin _ | .timeBaseTick | .armingEvaluation | .holdTimerExpiry _ | .resetTimerExpiry _
  | .settleIntervalEnd | .windowEnd _ | .staleChange _ | .entryExpiry _ | .expansionCompletion | .ownSlotStart _
  | .waitingCopySend _ _ | .slotEndRestart | .marker _ _ | .missedMarker _ | .babble _ => true
  | .publish _ payload => payloadFits payload
  | .repeatedFrame _ kind payload => payloadFits payload && repeatedKindFits kind payload
  | .damagedFrame _ _ _ words => receivedFits words
  | .loopedFrame _ _ words => receivedFits words
  | .requestLost _ payload => payloadFits payload
  | .unknownRequest _ code _ args => codeUnknown code && argsFit args
  | .identify _ _ args | .readState _ _ args | .readTable _ _ args | .load _ _ args | .copyActiveToShadow _ _ args
  | .commit _ _ args | .start _ _ args | .closeGate _ _ args | .resetScheme _ _ args | .restoreMargin _ _ args
  | .releaseHardTrip _ _ args | .forcePoint _ _ args | .unforcePoint _ _ args | .readOperationLog _ _ args
  | .clearNotices _ _ args | .restart _ _ args => argsFit args
  | .portRestart _ _ _ extra | .rejoin _ _ _ extra | .loopbackOn _ _ _ extra | .loopbackOff _ _ _ extra
  | .readCountersClear _ _ _ extra => argsFit (0 :: extra)
  | .readCounters _ _ first extra => argsFit (0 :: extra) && (first.isSome || extra.isEmpty)

end Sys2Proof
end

