-- ==== Sys2Proof/Safety.lean ====
section
/-! DEFINITION. What a well-timed run is, what holds in every state of a run, and the words the statements use for the reception of a
frame and of a request. -/

namespace Sys2Proof.Machine

/-! ### Well-timed runs (R1, log 2) -/

/-- A timer's or deadline's expiry time is now. -/
def State.isNow (s : State) (t : Option Time) : Bool := t == some s.timeBase

/-- The window end of an enabled station falls now and has not been taken (R134). -/
def State.windowDue (s : State) (i : Nat) : Bool :=
  (s.active.station i).enable
  && s.isNow (some ((s.station i).windowStart + BitVec.ofNat 32 (s.active.station i).window))

/-- The hold limit of a HELD point runs out now (R117). -/
def State.staleDue (s : State) (i : Nat) : Bool :=
  (s.point i).quality == .held
  && s.isNow ((s.point i).holdStart.map (· + BitVec.ofNat 32 (s.active.point i).holdLimit))

/-- The service in progress was taken 4 ms ago, the latest its expansion completion may fall (R72). -/
def State.expansionDue (s : State) : Bool := s.engine.any (fun snap => decide (4 ≤ (s.timeBase - snap.takeTime).toNat))

/-- A timed event falls at this value of the time base and has not been taken. -/
def State.due (s : State) : Bool :=
  s.isNow s.arming.nextEvaluation
  || (s.timeBase == 2000 && !s.arming.settleEnded)
  || s.arming.schemes.any (fun r => s.isNow r.holdTimer || s.isNow r.resetTimer)
  || (List.range 32).any s.windowDue
  || (List.range 256).any s.staleDue
  || s.queue.entries.any (fun e => s.isNow (some e.deadline))
  || s.expansionDue

/-- A command that may come next in a well-timed run: the millisecond does not pass while an event of this one is due, and the
command is well-formed. -/
def State.wellTimed (s : State) (c : Instr) : Bool :=
  c.wellFormed && (c != .timeBaseTick || s.held || !s.due)

/-! ### What holds in every state -/

/-- Both banks are held in their canonical form (log 21). -/
def State.BanksCanonical (s : State) : Prop := s.banks.a.words.wf = true ∧ s.banks.b.words.wf = true

/-- With the gate open, no point is FORCED (R120). -/
def State.NoForceWhileOpen (s : State) : Prop :=
  s.arming.gateOpen = true → ∀ p ∈ s.points, p.quality ≠ .forced

/-- The pending set is empty while the engine is IDLE (R58). -/
def State.IdleMeansNonePending (s : State) : Prop := s.engine = none → s.pendingSet = []

/-- A contingency is SERVING exactly when the engine serves it (R58). -/
def State.ServingIsTheEngines (s : State) : Prop :=
  ∀ c, (s.cont c).state = .serving ↔ s.engine.map Snapshot.contingency = some c

/-- With the gate closed every scheme is OFF or GATED, and no work is in flight or waiting (R28, R29, R65). -/
def State.ClosedMeansQuiet (s : State) : Prop :=
  s.arming.gateOpen = false →
    (∀ r ∈ s.arming.schemes, r.state = .off ∨ r.state = .gated)
    ∧ s.engine = none ∧ s.tracker.ops = [] ∧ s.queue.entries = [] ∧ s.pendingSet = []

/-- A scheme has a selection record exactly while it is ARMED (R17). -/
def State.SelectionWhileArmed (s : State) : Prop :=
  ∀ r ∈ s.arming.schemes, r.selection.isSome = true ↔ r.state = .armed

/-- The reset timer runs only in OPERATED (section 1.2 of 01_schemes_and_arming.md). -/
def State.ResetTimerInOperated (s : State) : Prop :=
  ∀ r ∈ s.arming.schemes, r.resetTimer.isSome = true → r.state = .operated

/-- At most 32 live entries, and never two for one action (R75). -/
def State.QueueBounded (s : State) : Prop :=
  s.queue.entries.length ≤ 32 ∧ (s.queue.entries.map Entry.action).Nodup

/-- At most 8 open operations and at most 32 logged records (R87, R178). -/
def State.TablesBounded (s : State) : Prop := s.tracker.ops.length ≤ 8 ∧ s.log.records.length ≤ 32

/-- A port that is DOWN holds the values R144 gives, its counters apart. -/
def State.DownPortsReset (s : State) : Prop :=
  ∀ side, (s.port side).state = .down → s.port side = .down (s.port side).counters

/-- A port's counts stay within the ranges of section 8.3: strike count, miss count, babble-free run and acquisition count, the last
below 4 while the port is ACQUIRING (R146). -/
def State.PortCountsBounded (s : State) : Prop :=
  ∀ side, (s.port side).strikes ≤ 15 ∧ (s.port side).miss ≤ 3 ∧ (s.port side).babbleFree ≤ 256
    ∧ (s.port side).acquisition ≤ 4 ∧ ((s.port side).state = .acquiring → (s.port side).acquisition ≤ 3)

/-- The tables of live records have the sizes the spec gives them. -/
def State.TablesWhole (s : State) : Prop :=
  s.points.length = 256 ∧ s.arming.schemes.length = 16 ∧ s.intake.stations.length = 32 ∧ s.monitor.conts.length = 64

/-! ### A bank that passes validation (R166) -/

/-- The Link Table and the Bank Parameters pass their checks (R142, R166). -/
structure Bank.LinkPasses (b : Bank) : Prop where
  slots : 4 ≤ b.link.slots ∧ b.link.slots ≤ 32
  count : 1 ≤ b.link.ownCount ∧ b.link.ownCount ≤ 4
  own : (∀ k ∈ b.link.own, 1 ≤ k ∧ k < b.link.slots) ∧ b.link.own.Nodup
  addresses : b.link.address ≤ 62 ∧ b.link.engineer ≤ 63
  babbleLimit : 1 ≤ b.link.babbleLimit ∧ b.link.babbleLimit ≤ 15
  interval : 4 ≤ b.params.interval ∧ b.params.interval ≤ 100
  designations : ∀ c, b.params.expressA = some c ∨ b.params.expressB = some c → c ≤ 63

/-- An enabled Station Table entry passes its checks (R125). -/
structure Bank.StationPasses (b : Bank) (i : Nat) : Prop where
  address : (b.station i).address ≤ 62 ∧ (b.station i).address ≠ b.link.address
  slot : 1 ≤ (b.station i).slot ∧ (b.station i).slot < b.link.slots ∧ (b.station i).slot ∉ b.link.own
  alone : ∀ j < i, (b.station j).enable = true →
    (b.station j).address ≠ (b.station i).address ∧ (b.station j).slot ≠ (b.station i).slot
  window : 10 ≤ (b.station i).window ∧ (b.station i).window ≤ 2000
  minimum : 1 ≤ (b.station i).minimum
  discards : (b.station i).discards ≤ 3

/-- An enabled Point Table entry passes its checks (R108). -/
structure Bank.PointPasses (b : Bank) (i : Nat) : Prop where
  source : (b.station (b.point i).source).enable = true
  offset : (b.point i).offset ≤ 23
  holdLimit : (b.point i).holdLimit ≤ 60000
  analog : (b.point i).kind = .analog → (b.point i).unit ≤ 6
    ∧ ∀ v, (b.point i).substitute = some v → -32767 ≤ v ∧ v ≤ 32767
  double : (b.point i).kind = .double → 2 ∣ (b.point i).bitNumber

/-- The point is an enabled SINGLE or DOUBLE point of the bank. -/
def Bank.IsBinary (b : Bank) (p : Nat) : Prop := (b.point p).kind = .single ∨ (b.point p).kind = .double

/-- An Action Table entry passes its checks (R67): its chain ends within 8 actions. -/
structure Bank.ActionPasses (b : Bank) (i : Nat) : Prop where
  destination : ∃ j < 32, (b.station j).enable = true ∧ (b.station j).address = (b.action i).destination
  confirm : ∀ p, (b.action i).confirm = some p → b.IsBinary p
  timeout : 2 ≤ (b.action i).timeout ∧ (b.action i).timeout ≤ 500
  repeats : 1 ≤ (b.action i).repeats ∧ (b.action i).repeats ≤ 4
  chain : ∃ last, (b.chain i).getLast? = some last ∧ (b.action last).next = none

/-- A held position of a shed list passes its checks (R33). -/
structure Bank.CandidatePasses (b : Bank) (l p : Nat) (c : CandidateEntry) : Prop where
  head : c.head ≤ 127 ∧ (b.action c.head).confirm ≠ none
  availability : b.IsBinary c.availability
  amount : (b.point c.amount).kind = .analog
  minimum : c.minimum ≤ 60000
  alone : ∀ j < p, ∀ c', b.candidate l j = some c' → c'.head ≠ c.head

/-- An enabled Scheme Table entry passes its checks (R3). -/
structure Bank.SchemePasses (b : Bank) (i : Nat) : Prop where
  inputs : (b.scheme i).inputs ≠ [] ∧ ∀ x ∈ (b.scheme i).inputs,
    (b.point x.point).kind = .analog ∧ -64 ≤ x.weight ∧ x.weight ≤ 64
  levels : ∀ n ∈ [(b.scheme i).armLevel, (b.scheme i).stressLevel, (b.scheme i).floor, (b.scheme i).backstopLevel,
    (b.scheme i).limit], -1000000 ≤ n ∧ n ≤ 1000000
  floor : (b.scheme i).floor ≤ (b.scheme i).armLevel
  hysteresis : 0 ≤ (b.scheme i).hysteresis ∧ (b.scheme i).hysteresis ≤ 100000
  persistence : 1 ≤ (b.scheme i).armNeeded ∧ 1 ≤ (b.scheme i).disarmNeeded
  step : 1 ≤ (b.scheme i).step ∧ (b.scheme i).step ≤ 5000
  bias : (b.scheme i).bias ≤ 60000 ∧ (b.scheme i).cap ≤ 60000
  shedList : ∀ l, (b.scheme i).shedList = some l → l ≤ 15
  escalation : (b.scheme i).escalation ≤ 4
  blocking : ∀ p, (b.scheme i).blocking = some p → b.IsBinary p
  resetDelay : (b.scheme i).resetDelay ≤ 600

/-- An enabled Contingency Table entry passes its checks (R47). -/
structure Bank.ContPasses (b : Bank) (i : Nat) : Prop where
  triggers : (b.cont i).triggers ≠ [] ∧ (∀ p ∈ (b.cont i).triggers, b.IsBinary p) ∧ (b.cont i).triggers.Nodup
  confirmCount : 1 ≤ (b.cont i).confirmCount ∧ (b.cont i).confirmCount ≤ 4
  rearmCount : 1 ≤ (b.cont i).rearmCount
  direct : ∀ h, (b.cont i).direct = some h → h ≤ 127
  express : b.params.expressA = some i ∨ b.params.expressB = some i → (b.cont i).priority = 3

/-- Every entry that validation examines passes its checks (R166). -/
structure Bank.Passes (b : Bank) : Prop where
  link : b.LinkPasses
  stations : ∀ i < 32, (b.station i).enable = true → b.StationPasses i
  points : ∀ i < 256, (b.point i).kind ≠ .disabled → b.PointPasses i
  actions : ∀ i < 128, b.ActionPasses i
  candidates : ∀ l < 16, ∀ p < 16, ∀ c, b.candidate l p = some c → b.CandidatePasses l p c
  schemes : ∀ i < 16, (b.scheme i).enable = true → b.SchemePasses i
  contingencies : ∀ i < 64, (b.cont i).enable = true → b.ContPasses i
  express : ∀ c, b.params.expressA = some c → b.params.expressB ≠ some c

/-! ### An operation's record (R90, R91, R93, R95, R96) -/

/-- A candidate with a node of its chain noted: its head by the head status, another action among its auxiliary nodes. -/
def Candidate.noted (c : Candidate) (action : Nat) (head : HeadStatus) (status : NodeStatus) : Candidate :=
  if action = c.head then { c with headStatus := head } else { c with aux := c.aux ++ [⟨action, status⟩] }

/-- An operation with a node noted under `status`, a head as `head` says of its head status, and `credit` of the candidate's amount
credited when the node is its head (R90, R91). -/
def Operation.noted (op : Operation) (n : Node) (head : HeadStatus → HeadStatus) (status : NodeStatus)
    (credit : Nat → Nat) : Operation :=
  match n.origin with
  | .direct => { op with direct := op.direct ++ [⟨n.action, status⟩] }
  | .scheme i p =>
    { op with parts := op.parts.map (fun part => if part.scheme = i then
        { part with taken := part.taken.map (fun x => { x with
            candidates := x.candidates.map (fun c =>
              if c.position = p then c.noted n.action (head c.headStatus) status else c)
            confirmed := x.confirmed + (x.candidates.map (fun c =>
              if c.position = p ∧ n.action = c.head then credit c.amount else 0)).sum }) }
        else part) }

/-- A node item with its action's waiting nodes finished. -/
def NodeItem.settled (i : NodeItem) (action : Nat) (status : NodeStatus) : NodeItem :=
  if i.action = action ∧ i.status = .outstanding then { i with status := status } else i

/-- An operation with every waiting node of an action finished: heads as `head` says, other nodes with `status`, `credit` of a head's
amount credited, and the outstanding count 1 lower (R93, R95, R96). -/
def Operation.settled (op : Operation) (action : Nat) (head : HeadStatus) (status : NodeStatus) (credit : Nat → Nat) : Operation :=
  { op with
    parts := op.parts.map (fun part => { part with taken := part.taken.map (fun x => { x with
      candidates := x.candidates.map (fun c => { c with
        headStatus := if c.head = action ∧ c.headStatus = .outstanding then head else c.headStatus
        aux := c.aux.map (fun i => i.settled action status) })
      confirmed := x.confirmed + (x.candidates.map (fun c =>
        if c.head = action ∧ c.headStatus = .outstanding then credit c.amount else 0)).sum }) })
    direct := op.direct.map (fun i => i.settled action status)
    outstanding := op.outstanding - 1 }

/-! ### The numbered checks of validation (R166) -/

/-- What the checks of an entry ask, in ascending check number, except contingency checks 8 and 9 (R166). -/
def Bank.requirements (b : Bank) : TableKind → Nat → List Prop
  | .link, _ => let e := b.link
    [4 ≤ e.slots ∧ e.slots ≤ 32, 1 ≤ e.ownCount ∧ e.ownCount ≤ 4, ∀ k ∈ e.own, 1 ≤ k ∧ k < e.slots, e.own.Nodup,
      e.address ≤ 62, e.engineer ≤ 63, 1 ≤ e.babbleLimit ∧ e.babbleLimit ≤ 15]
  | .params, _ => let e := b.params
    [4 ≤ e.interval ∧ e.interval ≤ 100, ∀ c, e.expressA = some c → c ≤ 63, ∀ c, e.expressB = some c → c ≤ 63]
  | .station, i => let e := b.station i
    [e.address ≤ 62, e.address ≠ b.link.address, ∀ j < i, (b.station j).enable = true → (b.station j).address ≠ e.address,
      1 ≤ e.slot ∧ e.slot < b.link.slots, e.slot ∉ b.link.own, ∀ j < i, (b.station j).enable = true → (b.station j).slot ≠ e.slot,
      10 ≤ e.window ∧ e.window ≤ 2000, 1 ≤ e.minimum ∧ e.minimum ≤ 255, e.discards ≤ 3]
  | .point, i => let e := b.point i
    [(b.station e.source).enable = true, e.offset ≤ 23, e.holdLimit ≤ 60000, e.kind ≠ .disabled, True,
      e.kind = .analog → e.unit ≤ 6, e.kind = .analog → ∀ v, e.substitute = some v → -32767 ≤ v ∧ v ≤ 32767,
      e.kind = .single → e.bitNumber ≤ 15, e.kind = .double → 2 ∣ e.bitNumber]
  | .action, i => let e := b.action i
    [∃ j < 32, (b.station j).enable = true ∧ (b.station j).address = e.destination, e.output ≤ 15,
      ∀ p, e.confirm = some p → b.IsBinary p, 2 ≤ e.timeout ∧ e.timeout ≤ 500, 1 ≤ e.repeats ∧ e.repeats ≤ 4,
      ∀ n, e.next = some n → n ≤ 127, ∃ last, (b.chain i).getLast? = some last ∧ (b.action last).next = none]
  | .shed, i =>
    match b.candidate (i / 16) (i % 16) with
    | none => []
    | some c => [c.head ≤ 127, (b.action c.head).confirm ≠ none, b.IsBinary c.availability, (b.point c.amount).kind = .analog,
        c.minimum ≤ 60000, ∀ j < i % 16, ∀ c', b.candidate (i / 16) j = some c' → c'.head ≠ c.head]
  | .scheme, i => let e := b.scheme i
    [e.inputs ≠ [], ∀ x ∈ e.inputs, (b.point x.point).kind = .analog, ∀ x ∈ e.inputs, -64 ≤ x.weight ∧ x.weight ≤ 64,
      ∀ n ∈ [e.armLevel, e.stressLevel, e.floor, e.backstopLevel, e.limit], -1000000 ≤ n ∧ n ≤ 1000000, e.floor ≤ e.armLevel,
      0 ≤ e.hysteresis ∧ e.hysteresis ≤ 100000, 1 ≤ e.armNeeded ∧ e.armNeeded ≤ 15, 1 ≤ e.disarmNeeded ∧ e.disarmNeeded ≤ 15,
      1 ≤ e.step ∧ e.step ≤ 5000, e.holdCode ≤ 3, e.sensitivity ≤ 1023, e.bias ≤ 60000, e.cap ≤ 60000,
      ∀ l, e.shedList = some l → l ≤ 15, e.escalation ≤ 4, ∀ p, e.blocking = some p → b.IsBinary p, e.resetDelay ≤ 600]
  | .contingency, i => let e := b.cont i
    [e.triggers ≠ [], ∀ p ∈ e.triggers, b.IsBinary p, e.triggers.Nodup, 1 ≤ e.confirmCount ∧ e.confirmCount ≤ 4,
      1 ≤ e.rearmCount ∧ e.rearmCount ≤ 15, e.priority ≤ 3, ∀ h, e.direct = some h → h ≤ 127]

/-- The entry is examined: it has no enable, or its enable is yes (R166). -/
def Bank.Examined (b : Bank) : TableKind → Nat → Prop
  | .link, _ | .params, _ | .action, _ | .shed, _ => True
  | .station, i => (b.station i).enable = true
  | .point, i => (b.point i).kind ≠ .disabled
  | .scheme, i => (b.scheme i).enable = true
  | .contingency, i => (b.cont i).enable = true

/-- A check of an examined entry, of this number, that the bank fails (R166). Contingency checks 8 and 9 join the express designations
to the table: 9 holds of equal designations whatever the entry's enable (log 18). -/
def Bank.Fails (b : Bank) (f : Failure) : Prop :=
  (f.entry < f.kind.entries ∧ b.Examined f.kind f.entry ∧ 1 ≤ f.check
    ∧ ∃ asked, (b.requirements f.kind f.entry)[f.check - 1]? = some asked ∧ ¬ asked)
  ∨ (f.kind = .contingency ∧ f.check = 8 ∧ (b.params.expressA = some f.entry ∨ b.params.expressB = some f.entry)
    ∧ (b.cont f.entry).enable = true ∧ (b.cont f.entry).priority ≠ 3)
  ∨ (f.kind = .contingency ∧ f.check = 9 ∧ b.params.expressA = some f.entry ∧ b.params.expressB = some f.entry)

/-- A table's place in the order of validation (R166). -/
def TableKind.stage : TableKind → Nat
  | .link => 0
  | .params => 1
  | .station => 2
  | .point => 3
  | .action => 4
  | .shed => 5
  | .scheme => 6
  | .contingency => 7

/-- When a check runs, as a number: table by table, entry by entry, check by check; then contingency check 8 for express A, for
express B, and check 9 (R166). -/
def Bank.place (b : Bank) (f : Failure) : Nat :=
  if f.kind = .contingency ∧ f.check = 8 then 8 * 65536 + (if b.params.expressA = some f.entry then 0 else 1)
  else if f.kind = .contingency ∧ f.check = 9 then 9 * 65536
  else f.kind.stage * 65536 + f.entry * 32 + f.check

/-! ### An update event (R50, R55, R92, R111) -/

/-- An update of the given points makes an evaluation of the contingency due: it is enabled, and one of its trigger points is among
them (R50). -/
def State.Evaluates (s : State) (updated : List Nat) (c : Nat) : Prop :=
  c < 64 ∧ (s.active.cont c).enable = true ∧ ∃ p ∈ (s.active.cont c).triggers, p ∈ updated

/-- The record a due evaluation of the contingency leaves, and whether confirmation completes in it (R51 to R57). -/
def State.judged (s : State) (c : Nat) : ContRec × Bool := (s.cont c).due (s.active.cont c) (s.condition (s.active.cont c))

/-- `t` is `s` after the evaluations of an update of the given points: every contingency that is due is evaluated once, on the state
before the event's evaluations, and no other changes. `serves` are the contingencies left to an express serve of the same event, in
ascending index: confirmation completes with the gate open and a VALID image (R50 to R57, R65). -/
structure State.Evaluated (s : State) (updated : List Nat) (t : State) (serves : List Nat) : Prop where
  others : ∀ c, ¬ s.Evaluates updated c → t.cont c = s.cont c
  goesOn : ∀ c, s.Evaluates updated c → (s.judged c).2 = false → t.cont c = (s.judged c).1
  completes : ∀ c, s.Evaluates updated c → (s.judged c).2 = true →
    t.cont c = if s.arming.gateOpen = false then { (s.judged c).1 with state := .served, rearm := 0 }
      else if c ∈ serves then (s.judged c).1 else { (s.judged c).1 with state := .pending }
  serves : serves.Pairwise (· < ·) ∧ ∀ c, c ∈ serves ↔ s.Evaluates updated c ∧ (s.judged c).2 = true ∧ s.arming.gateOpen = true
    ∧ ∃ img, s.expressImage c = some img ∧ img.status = .valid
  detections : ∃ l : List Nat, l.Nodup ∧ (∀ c, c ∈ l ↔ s.Evaluates updated c ∧ (s.judged c).2 = true ∧ s.arming.gateOpen = false)
    ∧ t.monitor.gatedDetection.toNat = min 65535 (s.monitor.gatedDetection.toNat + l.length)
  fallback : t.notices.expressFallback = true ↔ s.notices.expressFallback = true ∨ (s.arming.gateOpen = true
    ∧ ∃ c, s.Evaluates updated c ∧ (s.judged c).2 = true ∧ ∃ img, s.expressImage c = some img ∧ img.status = .oversize)
  only : t = { s with
    monitor := { s.monitor with conts := t.monitor.conts, gatedDetection := t.monitor.gatedDetection }
    notices := { s.notices with expressFallback := t.notices.expressFallback } }

/-- `t` is `s` after all that follows an update of the given points in one event, the points as the event leaves them and `before` as
they stood: the evaluations; the confirmations and the express serves, A before B, in either order (log 9), a serve that comes first
not seeing as OPEN what the event has made OPEN; the closures; and the take (R50, R55, R59, R92, R99). -/
def State.UpdateEvent (s : State) (before : List PointRec) (updated : List Nat) (t : State) : Prop :=
  ∃ u serves, s.Evaluated updated u serves ∧
    let serve := fun x : State =>
      let byA := (serves.filter x.isExpressA).foldl (fun y c => y.serveExpress c y.monitor.imageA) x
      (serves.filter (fun c => !x.isExpressA c)).foldl (fun y c => y.serveExpress c y.monitor.imageB) byA
    let drawn := { u with freeIndex := u.freeIndex + 1 }
    let unopened := List.zipWith (fun after old : PointRec =>
      if after.value = .binary .opened ∧ after.quality ∈ [Quality.good, .suspect, .forced] then old else after) u.points before
    (serves = [] → t = ((u.confirmUpdated updated).closeFinished).arbiterTake)
    ∧ (serves ≠ [] → t = ((serve (drawn.confirmUpdated updated)).closeFinished).arbiterTake
      ∨ t = ((({ serve { drawn with points := unopened } with points := u.points }).confirmUpdated updated).closeFinished).arbiterTake)

/-! ### An operation as it is allocated (R88, R89) -/

/-- The record of an operation allocated in this event for a contingency, with the selection records of the schemes taken: its
participations are the schemes of the mask in ascending index, a taken one with its record's content and every head OUTSTANDING, any
other SKIPPED (R88, R89). -/
structure Operation.Opened (op : Operation) (s : State) (c : Nat) (path : OpPath) (priority : Nat) (phase : OpPhase)
    (taken : List SchemeCopy) : Prop where
  record : op = { id := s.newId, contingency := c, path := path, priority := priority, phase := phase, takeTime := s.timeBase
                  takeCycle := op.takeCycle, parts := op.parts, direct := [], outstanding := 0, overflow := false }
  cycle : op.takeCycle = match s.timingPort with
    | some side => ((s.port side).cycle).getD s.link.lastCycle
    | none => s.link.lastCycle
  schemes : op.parts.map Participation.scheme = (List.range 16).filter (fun i => bit (s.active.cont c).mask i)
  takenParts : ∀ p ∈ op.parts, ∀ copy, taken.find? (fun x => x.scheme == p.scheme) = some copy → p.taken = some {
    requirement := copy.record.requirement
    candidates := copy.record.items.map (fun x =>
      ⟨x.position, x.amount, s.active.headAction p.scheme x.position, .outstanding, []⟩)
    replacements := 0
    confirmed := 0
    continuation := copy.record.continuation
    outcome := none }
  skipped : ∀ p ∈ op.parts, (∀ copy ∈ taken, copy.scheme ≠ p.scheme) → p.taken = none

/-- The Operation Table with an operation allocated: the others kept, in ascending id where they were so, and its id the last
allocated (R87, R88). -/
def TrackerState.Gains (before : TrackerState) (op : Operation) (after : TrackerState) : Prop :=
  ∃ lower higher, before.ops = lower ++ higher ∧ after = ⟨lower ++ op :: higher, op.id⟩
    ∧ (∀ x ∈ lower, x.id ≤ op.id) ∧ ∀ x ∈ higher.head?, op.id < x.id

/-! ### The words of STATUS frames and reports (sections 11.1 to 11.3) -/

/-- The word holds each field given as (lowest bit, width, value): its bits are the value, of one that does not fit the low bits. -/
def HoldsFields (w : Word) (fields : List (Nat × Nat × Nat)) : Prop := ∀ f ∈ fields, bits w f.1 f.2.1 = f.2.2 % 2 ^ f.2.1

/-- The 32-bit quantity in words `i` and `i + 1`, the high word first (11_frame_and_table_image_layouts.md). -/
def longAt (w : List Word) (i : Nat) : BitVec 32 := w.getD i 0 ++ w.getD (i + 1) 0

/-- Scheme states in the order of their codes (section 11.1). -/
def schemeStates : List SchemeState := [.off, .gated, .suspended, .disarmed, .arming, .armed, .operating, .operated]

/-- Port states in the order of their codes (section 11.1). -/
def portStates : List PortState := [.down, .acquiring, .locked, .isolated, .loopback]

/-- Node statuses in the order of their codes (section 11.3). -/
def nodeStatuses : List NodeStatus := [.outstanding, .confirmed, .sent, .expired, .dropped]

/-- The words are a STATUS payload that shows the state (R175, section 11.1): the gate, the lines (R103, R105), the timing port, the
notices, the scheme states, the engine, the ports, the work in flight, and each Q divided by 10, rounded and clamped. -/
structure State.ShownBy (s : State) (w : List Word) : Prop where
  length : w.length = 24
  flags : HoldsFields (w.getD 0 0) [(0, 1, s.arming.gateOpen.toNat), (1, 1, s.arming.startRequested.toNat),
    (4, 2, [none, some Side.east, some .west].idxOf s.timingPort), (6, 1, s.notices.marginWalked.toNat),
    (7, 1, s.notices.backstop.toNat), (8, 1, s.notices.portIsolated.toNat), (9, 1, s.notices.queueOverflow.toNat),
    (10, 1, s.notices.untrackedOperation.toNat), (11, 1, s.notices.requestLost.toNat), (12, 1, s.notices.expressFallback.toNat)]
  hardTripLine : (w.getD 0 0).getLsbD 2 = true ↔ s.active.status ≠ .blank ∧ s.active.params.masterTrip = true
    ∧ ∃ r ∈ s.arming.schemes, r.hardTrip = true
  alarmLine : (w.getD 0 0).getLsbD 3 = true ↔ ∃ r ∈ s.arming.schemes, r.state = .operated
  schemes : ∀ i < 16, HoldsFields (w.getD (1 + i / 4) 0) [(4 * (i % 4), 4, schemeStates.idxOf (s.scheme i).state)]
  engine : HoldsFields (w.getD 5 0) [(15, 1, s.engine.isSome.toNat),
    (8, 7, ((List.range 64).filter (fun c => (s.cont c).state = .pending)).length), (0, 7, s.monitor.lastServed.getD 127)]
  ports : HoldsFields (w.getD 6 0) [(0, 3, portStates.idxOf (s.port .east).state), (4, 4, (s.port .east).strikes),
    (8, 3, portStates.idxOf (s.port .west).state), (12, 4, (s.port .west).strikes)]
  work : HoldsFields (w.getD 7 0) [(8, 4, s.tracker.ops.length), (0, 6, s.queue.entries.length)]
  figures : ∀ i < 16, (w.getD (8 + i) 0).toInt = max (-32767) (min 32767 (roundHalfAway (s.scheme i).q 10))

/-- The words are the SCHEME report of a record at the time base `now` (R180, section 11.3). -/
structure SchemeRec.Reported (r : SchemeRec) (now : Time) (w : List Word) : Prop where
  counts : HoldsFields (w.getD 0 0) [(0, 4, schemeStates.idxOf r.state), (4, 4, r.armCount), (8, 4, r.disarmCount), (12, 2, r.stress),
    (14, 2, r.backstop)]
  flags : HoldsFields (w.getD 1 0) [(0, 1, r.hardTrip.toNat), (3, 1, r.selection.isSome.toNat)]
  walk : longAt w 2 = BitVec.ofInt 32 r.walk
  q : longAt w 4 = BitVec.ofInt 32 r.q
  hold : longAt w 6 = match r.holdTimer with
    | none => 0xFFFFFFFF
    | some e => e - now
  reset : longAt w 8 = match r.resetTimer with
    | none => 0xFFFFFFFF
    | some e => e - now
  short : r.state ≠ .armed → w.length = 10
  record : ∀ sel, r.state = .armed → r.selection = some sel → w.length = 16 + 2 * sel.items.length
    ∧ w.getD 10 0 = BitVec.ofNat 16 sel.requirement
    ∧ HoldsFields (w.getD 11 0) [(0, 2, [SelOutcome.none, .covered, .short].idxOf sel.outcome), (4, 4, sel.items.length),
        (8, 5, sel.continuation)]
    ∧ longAt w 12 = BitVec.ofNat 32 sel.total ∧ longAt w 14 = sel.stamp
    ∧ ∀ j x, sel.items[j]? = some x →
      w.getD (16 + 2 * j) 0 = BitVec.ofNat 16 x.position ∧ w.getD (17 + 2 * j) 0 = BitVec.ofNat 16 x.amount

/-- The words are the CONTINGENCY report of contingency `c` (R180, section 11.3). -/
structure State.ReportsCont (s : State) (c : Nat) (w : List Word) : Prop where
  length : w.length = 2
  standing : HoldsFields (w.getD 0 0) [(0, 3, [ContState.idle, .confirming, .pending, .serving, .served].idxOf (s.cont c).state),
    (4, 3, (s.cont c).confirm), (8, 4, (s.cont c).rearm), (12, 2, [Combined.unknown, .false, .true].idxOf (s.cont c).last),
    (14, 1, (s.cont c).degraded.toNat)]
  express : w.getD 1 0 = if s.active.params.expressA = some c ∧ (s.active.cont c).enable = true then 1
    else if s.active.params.expressB = some c ∧ (s.active.cont c).enable = true then 2 else 0

/-- The words are the ENGINE report (R180, section 11.3). -/
structure State.ReportsEngine (s : State) (w : List Word) : Prop where
  standing : HoldsFields (w.getD 0 0) [(15, 1, s.engine.isSome.toNat), (0, 7, s.monitor.lastServed.getD 127)]
  pendingSet : ∀ c < 64, (w.getD (4 - c / 16) 0).getLsbD (c % 16) = true ↔ (s.cont c).state = .pending
  idle : s.engine = none → w.length = 5
  serving : ∀ snap, s.engine = some snap → w.length = 8
    ∧ HoldsFields (w.getD 5 0) [(8, 8, snap.opId), (0, 6, snap.contingency)] ∧ longAt w 6 = snap.takeTime

/-- The words are the TRIP QUEUE report (R86, R180, section 11.3): nine words an entry, in list order. -/
structure State.ReportsQueue (s : State) (w : List Word) : Prop where
  length : w.length = 1 + 9 * s.queue.entries.length
  count : w.getD 0 0 = BitVec.ofNat 16 s.queue.entries.length
  entries : ∀ j e, s.queue.entries[j]? = some e →
    HoldsFields (w.getD (1 + 9 * j) 0) [(0, 7, e.action), (8, 2, e.priority),
        (10, 2, [EntryState.waiting, .sending, .await].idxOf e.state)]
    ∧ HoldsFields (w.getD (2 + 9 * j) 0) [(0, 3, e.repeats), (4, 3, e.sent), (8, 4, e.refs.length)]
    ∧ w.getD (3 + 9 * j) 0 = e.order ∧ longAt w (4 + 9 * j) = e.deadline - s.timeBase
    ∧ ∀ k < 4, HoldsFields (w.getD (6 + k + 9 * j) 0) [(8, 8, e.refs.getD (2 * k) 0), (0, 8, e.refs.getD (2 * k + 1) 0)]

/-- The words are those of a participation in an OPERATION or LOG RECORD report (R180, section 11.3). What a SKIPPED one shows of the
figures it does not hold is left open (log 11). -/
structure Participation.Reported (p : Participation) (w : List Word) : Prop where
  standing : HoldsFields (w.getD 0 0) [(0, 4, p.scheme), (4, 1, p.taken.isSome.toNat)]
  skipped : p.taken = none → w.length = 5 ∧ HoldsFields (w.getD 0 0) [(5, 2, 0)] ∧ w.getD 4 0 = 0
  figures : ∀ t, p.taken = some t → w.length = 5 + 3 * t.candidates.length
    ∧ HoldsFields (w.getD 0 0) [(5, 2, [none, some PartOutcome.covered, some .short, some .failed].idxOf t.outcome),
        (8, 3, t.replacements), (11, 5, t.continuation)]
    ∧ w.getD 1 0 = BitVec.ofNat 16 t.requirement ∧ longAt w 2 = BitVec.ofNat 32 t.confirmed
    ∧ w.getD 4 0 = BitVec.ofNat 16 t.candidates.length
  candidates : ∀ t j c, p.taken = some t → t.candidates[j]? = some c →
    HoldsFields (w.getD (5 + 3 * j) 0) [(0, 4, c.position),
        (4, 2, [HeadStatus.outstanding, .confirmed, .failed, .dropped].idxOf c.headStatus)]
    ∧ w.getD (6 + 3 * j) 0 = BitVec.ofNat 16 c.amount
    ∧ HoldsFields (w.getD (7 + 3 * j) 0) ((List.range 5).map (fun k =>
        (3 * k, 3, c.aux.countP (fun i => nodeStatuses.idxOf i.status = k))))

/-- The words are an OPERATION or LOG RECORD report, with the outcome's code, the closing time and cycle and the closure sequence number,
all 0 while the operation is open (R106, R178, R180, section 11.3). -/
structure Operation.Reported (op : Operation) (outcome : Nat) (closeTime : Time) (closeCycle : Byte) (seq : Word) (w : List Word) :
    Prop where
  identity : HoldsFields (w.getD 0 0) [(8, 8, op.id), (7, 1, [OpPath.ordinary, .express].idxOf op.path), (0, 6, op.contingency)]
  standing : HoldsFields (w.getD 1 0) [(0, 2, op.priority), (2, 1, [OpPhase.expanding, .tracking].idxOf op.phase),
    (3, 1, op.overflow.toNat), (4, 2, outcome), (8, 5, op.parts.length)]
  outstanding : w.getD 2 0 = BitVec.ofNat 16 op.outstanding
  taken : longAt w 3 = op.takeTime ∧ w.getD 5 0 = op.takeCycle.setWidth 16
  closed : longAt w 6 = closeTime ∧ w.getD 8 0 = closeCycle.setWidth 16 ∧ w.getD 9 0 = seq
  direct : w.getD 10 0 = BitVec.ofNat 16 op.direct.length ∧ ∀ j item, op.direct[j]? = some item →
    HoldsFields (w.getD (11 + j) 0) [(0, 7, item.action), (8, 3, nodeStatuses.idxOf item.status)]
  parts : ∃ runs : List (List Word), w.drop (11 + op.direct.length) = runs.flatten ∧ runs.length = op.parts.length
    ∧ ∀ (j : Nat) (p : Participation) (run : List Word), op.parts[j]? = some p → runs[j]? = some run → p.Reported run

/-- The words are the STATION report of entry `i` (R139, R180, section 11.3). -/
structure State.ReportsStation (s : State) (i : Nat) (w : List Word) : Prop where
  length : w.length = 7
  settings : HoldsFields (w.getD 0 0) [(15, 1, (s.active.station i).enable.toNat), (6, 6, (s.active.station i).address),
    (0, 6, (s.active.station i).slot)]
  standing : HoldsFields (w.getD 1 0) [(0, 2, [Freshness.unknown, .fresh, .degraded, .silent].idxOf (s.station i).freshness),
    (4, 2, (s.station i).rejoinLeft), (6, 1, (s.station i).lastCycle.isSome.toNat)]
  cycle : ∀ c, (s.station i).lastCycle = some c → HoldsFields (w.getD 1 0) [(8, 8, c.toNat)]
  window : w.getD 2 0 = BitVec.ofNat 16 (s.station i).windowCount
  windowEnd : longAt w 3 = if (s.active.station i).enable = true
    then (s.station i).windowStart + BitVec.ofNat 32 (s.active.station i).window - s.timeBase else 0xFFFFFFFF
  counters : w.getD 5 0 = (s.station i).duplicate ∧ w.getD 6 0 = (s.station i).rejoinDiscard

/-- The words are the POINT report of point `i` (R123, R180, section 11.3). -/
structure State.ReportsPoint (s : State) (i : Nat) (w : List Word) : Prop where
  length : w.length = 5
  standing : HoldsFields (w.getD 0 0) [(0, 2, [PointKind.disabled, .analog, .single, .double].idxOf (s.active.point i).kind),
    (4, 3, [Quality.invalid, .good, .suspect, .held, .stale, .forced].idxOf (s.point i).quality),
    (15, 1, (s.point i).lastRaw.isSome.toNat)]
  unit : (s.active.point i).kind = .analog → HoldsFields (w.getD 0 0) [(8, 3, (s.active.point i).unit)]
  value : w.getD 1 0 = match (s.point i).value with
    | .analog n => BitVec.ofInt 16 n
    | .binary .intermediate => 0
    | .binary .opened => 1
    | .binary .closed => 2
  hold : longAt w 2 = match (s.point i).holdStart with
    | none => 0xFFFFFFFF
    | some e => s.timeBase - e
  raw : ∀ x, (s.point i).lastRaw = some x → w.getD 4 0 = x

/-- The words are the PORT report of a port (R180, section 11.3). -/
structure PortRec.Reported (p : PortRec) (w : List Word) : Prop where
  length : w.length = 3
  standing : HoldsFields (w.getD 0 0) [(0, 3, portStates.idxOf p.state), (4, 3, p.acquisition), (8, 2, p.miss), (12, 4, p.strikes)]
  timing : HoldsFields (w.getD 1 0) [(0, 6, p.adoptedS.getD 0), (6, 1, p.cycle.isSome.toNat)]
  cycle : ∀ c, p.cycle = some c → HoldsFields (w.getD 1 0) [(8, 8, c.toNat)]
  babble : HoldsFields (w.getD 2 0) [(0, 9, p.babbleFree), (15, 1, p.babbleSeen.toNat)]

/-- The words are the counter image (R181, section 11.2): seven counters a port, the part's four, and two a station entry. -/
structure State.CountedBy (s : State) (w : List Word) : Prop where
  length : w.length = 82
  port : ∀ side first, (side, first) ∈ [(Side.east, 0), (.west, 7)] → let c := (s.port side).counters
    (w.drop first).take 7 = [c.markerMissed, c.slotConflict, c.check, c.framing, c.truncated, c.loopGood, c.loopBad]
  part : w.getD 14 0 = s.intake.misplaced ∧ w.getD 15 0 = s.intake.unknownSource ∧ w.getD 16 0 = s.monitor.gatedDetection
    ∧ w.getD 17 0 = s.agent.requestLost
  station : ∀ i < 32, w.getD (18 + 2 * i) 0 = (s.station i).duplicate ∧ w.getD (19 + 2 * i) 0 = (s.station i).rejoinDiscard

/-- The words are the log summary of a record (R179, section 11.2). -/
structure LogRecord.SummedUp (r : LogRecord) (w : List Word) : Prop where
  length : w.length = 6
  seq : w.getD 0 0 = r.seq
  identity : HoldsFields (w.getD 1 0) [(8, 8, r.op.id), (7, 1, [OpPath.ordinary, .express].idxOf r.op.path), (0, 6, r.op.contingency)]
  outcome : HoldsFields (w.getD 2 0) [(0, 2, r.op.priority), (2, 1, [OpOutcome.complete, .incomplete].idxOf r.outcome),
    (3, 1, r.op.overflow.toNat)]
  taken : longAt w 3 = r.op.takeTime
  duration : (w.getD 5 0).toNat = min 65535 (r.closeTime - r.op.takeTime).toNat

/-! ### What an event leaves behind -/

/-- Nothing but the service of contingencies changed: scheme records, contingencies and images, engine, queue, operations, log,
notices, and the free index. -/
def State.ServiceOnly (s t : State) : Prop :=
  t = { s with
    arming := { s.arming with schemes := t.arming.schemes }
    monitor := t.monitor
    engine := t.engine
    queue := t.queue
    tracker := t.tracker
    log := t.log
    notices := t.notices
    freeIndex := t.freeIndex }

/-- Every block of `t` holds its reset values under the banks of `s`, which are kept (R1, R4, R25, R42, R48, R69, R75, R87, R109, R126,
R144, R161, R168, R176, and R6 for the next evaluation). -/
def State.ResetLeaves (s t : State) : Prop :=
  t.timeBase = 0 ∧ t.banks = s.banks ∧ t.out = []
  ∧ (∀ side, t.port side = ⟨.down, none, none, none, 0, 0, 0, false, 0, ⟨0, 0, 0, 0, 0, 0, 0⟩⟩)
  ∧ t.link.lastCycle = 0 ∧ t.timingPort = none ∧ t.link.waiting = []
  ∧ (∀ i < 32, t.station i = ⟨.unknown, 0, 0, none, 0, 0, 0⟩) ∧ t.intake.misplaced = 0 ∧ t.intake.unknownSource = 0
  ∧ (∀ i < 256, t.point i = ⟨(s.active.point i).kind.initial, .invalid, none, none⟩)
  ∧ (∀ i < 16, t.scheme i =
      ⟨if (s.active.scheme i).enable then .gated else .off, 0, 0, 0, none, 0, 0, 0, false, none, none⟩)
  ∧ t.arming.gateOpen = false ∧ t.arming.startRequested = false ∧ t.arming.settleEnded = false
  ∧ t.arming.nextEvaluation
      = (if s.active.status = .valid then some (BitVec.ofNat 32 s.active.params.interval) else none)
  ∧ (∀ c < 64, t.cont c = ⟨.idle, 0, 0, .unknown, false⟩) ∧ t.monitor.lastServed = none
  ∧ t.monitor.imageA = ⟨.invalid, [], []⟩ ∧ t.monitor.imageB = ⟨.invalid, [], []⟩ ∧ t.monitor.gatedDetection = 0
  ∧ t.engine = none ∧ t.queue = ⟨[], 1⟩ ∧ t.tracker = ⟨[], 0⟩
  ∧ t.agent = ⟨none, 0, false⟩ ∧ t.notices = ⟨false, false, false, false, false, false, false⟩
  ∧ t.hardTripLine = false ∧ t.operatedAlarm = false

/-- A transmitter sends an own frame in the slot now starting: its port is not ISOLATED, and it is not fed by the LOCKED port that is
not the timing port (R158). -/
def State.sendsNow (s : State) (tx : Side) : Bool :=
  (s.port tx).state != .isolated && !((s.port tx.other).state == .locked && s.timingPort != some tx.other)

/-- A transmitter keeps a copy of an own frame for its own slot of the same number (R158). -/
def State.sendsLater (s : State) (tx : Side) : Bool :=
  (s.port tx).state != .isolated && ((s.port tx.other).state == .locked && s.timingPort != some tx.other)

/-- The state with an own frame sent once on each transmitter that is not ISOLATED, and nothing else changed (R158). -/
def State.ownSent (s : State) (slot : Nat) (words : List Word) : State :=
  { s with
    out := ([Side.east, .west].filter s.sendsNow).map (fun tx => ⟨tx, (s.port tx).state == .loopback, some slot, words⟩)
    link := { s.link with
      waiting := s.link.waiting ++ ([Side.east, .west].filter s.sendsLater).map (fun tx => ⟨tx, slot, words⟩) } }

/-! ### Receiving a frame and a request -/

/-- A good frame arrives on a LOCKED port at the start of slot `slot`, which is not an own slot, and is not the part's own: it is
repeated and handed on (R149). -/
def State.HandsOn (s : State) (rx : Reception) (payload : List Word) (slot : Nat) : Prop :=
  s.held = false ∧ (s.port rx.port).state = .locked ∧ s.slotAt rx.port rx.start = some slot
  ∧ s.ownSlots.contains slot = false ∧ rx.source.toNat ≠ s.partAddress ∧ payload.length ≤ 24

/-- What the repeater puts on the other port's transmitter: the words in the slot they came in, or nothing when that port is ISOLATED
or in LOOPBACK (R150). -/
def State.onward (s : State) (side : Side) (slot : Option Nat) (words : List Word) : List Emission :=
  match (s.port side.other).state with
  | .isolated | .loopback => []
  | .down | .acquiring | .locked => [⟨side.other, false, slot, words⟩]

/-- The state with a good frame repeated and nothing else changed (R149). -/
def State.repeated (s : State) (rx : Reception) (kind : BitVec 4) (payload : List Word) (slot : Nat) : State :=
  { s with out := s.onward rx.port (some slot) (receivedWords rx kind payload) }

end Sys2Proof.Machine

namespace Sys2Proof

/-- A request command, seen as the REQUEST frame it stands for: its reception, code, tag and arguments; whether it is a write
(R169); and the number of argument words its code requires (R183). -/
structure RequestView where
  rx : Reception
  code : Byte
  tag : Byte
  args : List Word
  write : Bool
  needs : Nat

/-- The REQUEST frame a request command stands for. -/
def Instr.request : Instr → Option RequestView
  | .identify rx tag args => some ⟨rx, 0x01, tag, args, false, 0⟩
  | .readState rx tag args => some ⟨rx, 0x02, tag, args, false, 2⟩
  | .readTable rx tag args => some ⟨rx, 0x03, tag, args, false, 2⟩
  | .load rx tag args => some ⟨rx, 0x04, tag, args, true, 2 + Machine.bits (args.getD 1 0) 0 8⟩
  | .copyActiveToShadow rx tag args => some ⟨rx, 0x05, tag, args, true, 0⟩
  | .commit rx tag args => some ⟨rx, 0x06, tag, args, true, 0⟩
  | .start rx tag args => some ⟨rx, 0x07, tag, args, true, 0⟩
  | .closeGate rx tag args => some ⟨rx, 0x08, tag, args, true, 0⟩
  | .resetScheme rx tag args => some ⟨rx, 0x09, tag, args, true, 1⟩
  | .restoreMargin rx tag args => some ⟨rx, 0x0A, tag, args, true, 1⟩
  | .releaseHardTrip rx tag args => some ⟨rx, 0x0B, tag, args, true, 0⟩
  | .forcePoint rx tag args => some ⟨rx, 0x0C, tag, args, true, 2⟩
  | .unforcePoint rx tag args => some ⟨rx, 0x0D, tag, args, true, 1⟩
  | .portRestart rx tag port extra => some ⟨rx, 0x0E, tag, Machine.portControlWord port 0 :: extra, true, 1⟩
  | .rejoin rx tag port extra => some ⟨rx, 0x0E, tag, Machine.portControlWord port 1 :: extra, true, 1⟩
  | .loopbackOn rx tag port extra => some ⟨rx, 0x0E, tag, Machine.portControlWord port 2 :: extra, true, 1⟩
  | .loopbackOff rx tag port extra => some ⟨rx, 0x0E, tag, Machine.portControlWord port 3 :: extra, true, 1⟩
  | .readCounters rx tag none extra => some ⟨rx, 0x0F, tag, extra, false, 1⟩
  | .readCounters rx tag (some first) extra => some ⟨rx, 0x0F, tag, Machine.readCountersWord first false :: extra, false, 1⟩
  | .readCountersClear rx tag first extra => some ⟨rx, 0x0F, tag, Machine.readCountersWord first true :: extra, true, 1⟩
  | .readOperationLog rx tag args => some ⟨rx, 0x10, tag, args, false, 1⟩
  | .clearNotices rx tag args => some ⟨rx, 0x11, tag, args, true, 0⟩
  | .restart rx tag args => some ⟨rx, 0x12, tag, args, true, 0⟩
  | .powerOnReset _ | .resetPin _ | .timeBaseTick | .armingEvaluation | .holdTimerExpiry _ | .resetTimerExpiry _
  | .settleIntervalEnd | .windowEnd _ | .staleChange _ | .entryExpiry _ | .expansionCompletion | .ownSlotStart _
  | .waitingCopySend _ _ | .slotEndRestart | .marker _ _ | .missedMarker _ | .babble _ | .publish _ _
  | .repeatedFrame _ _ _ | .damagedFrame _ _ _ _ | .loopedFrame _ _ _ | .requestLost _ _
  | .unknownRequest _ _ _ _ => none

/-- The good frame a command stands for: its reception, kind and payload. -/
def Instr.frame : Instr → Option (Reception × BitVec 4 × List Word)
  | .marker rx payload => some (rx, 0, [payload])
  | .publish rx payload => some (rx, 1, payload)
  | .repeatedFrame rx kind payload => some (rx, kind, payload)
  | .requestLost rx payload => some (rx, 3, payload)
  | .unknownRequest rx code tag args => some (rx, 3, Machine.requestPayload code tag args)
  | c => c.request.map (fun v => (v.rx, 3, Machine.requestPayload v.code v.tag v.args))

/-- The port a command's frame arrives on, the word time of its start marker, and the words received after it, of a good frame and of a
damaged one. -/
def Instr.arrival : Instr → Option (Side × Nat × List Word)
  | .damagedFrame side at' _ words => some (side, at', words)
  | c => c.frame.map (fun f => (f.1.port, f.1.start, Machine.receivedWords f.1 f.2.1 f.2.2))

end Sys2Proof

namespace Sys2Proof.Machine

/-- A REQUEST of this code, tag and arguments arrives in a slot on the timing port, addressed to the part (R149, R156, R168). -/
def State.Reaches (s : State) (rx : Reception) (code tag : Byte) (args : List Word) (slot : Nat) : Prop :=
  s.HandsOn rx (requestPayload code tag args) slot ∧ s.timingPort = some rx.port ∧ rx.dest.toNat = s.partAddress

/-- A REQUEST of this code, tag and arguments is taken: it reaches the agent and finds the holder empty (R168). -/
def State.Takes (s : State) (rx : Reception) (code tag : Byte) (args : List Word) (slot : Nat) : Prop :=
  s.Reaches rx code tag args slot ∧ s.agent.holder = none

/-- A write that is taken and permitted (R169). -/
def State.TakesWrite (s : State) (rx : Reception) (code tag : Byte) (args : List Word) (slot : Nat) : Prop :=
  s.Takes rx code tag args slot ∧ (s.engineerAddress = 63 ∨ s.engineerAddress = rx.source.toNat)

/-- The REQUEST repeated onward and nothing else changed. -/
def State.requestRepeated (s : State) (rx : Reception) (code tag : Byte) (args : List Word) (slot : Nat) : State :=
  s.repeated rx 3 (requestPayload code tag args) slot

/-- The state with the reply to a request in the holder: code and tag echoed, result and report length, data (R171, section
11.2). -/
def State.answered (s : State) (rx : Reception) (code tag : Byte) (result : Result) (length : Nat) (data : List Word)
    (restart : Bool) : State :=
  { s with agent := { s.agent with
      holder := some ⟨rx.source, (code ++ tag) :: packWord [(0, 4, result.code), (4, 12, length)] :: data, restart⟩ } }

end Sys2Proof.Machine
end

