-- ==== Sys2Proof/Certificates/Slice0/Obligations.lean ====
section
/-! DEFINITION. The statements for the provers, chapter by chapter of the spec. -/

open Sys2Proof Sys2Proof.Machine

/-! ### The step -/

/-- One step is exec of the command at the front of the queue, on the state with the queue's rest; with no command waiting the block
idles. The queue is the interface's; idling is the model's choice (log 3). -/
def Obligations.StepRunsTheFrontCommand : Prop :=
  (∀ (c : Instr) (rest : List Instr) (s : State), s.pending = c :: rest → step s = exec c { s with pending := rest })
  ∧ ∀ s : State, s.pending = [] → step s = .next s

/-- While the part is held in reset, nothing is received, timed or sent: every command but the two reset inputs leaves every block as
it is (R144; that the event then does not occur is log 5). -/
def Obligations.HeldPartTakesNoEvent : Prop :=
  ∀ (s : State) (c : Instr), s.held = true → (∀ p, c ≠ .powerOnReset p) → (∀ p, c ≠ .resetPin p) →
    exec c s = .next { s with out := [] }

/-! ### Resets -/

/-- A new part: both banks BLANK with every word 0, Bank A active, every scheme OFF, every point INVALID at 0, the gate closed, no
evaluation due, and both lines negated (R161, R162, R4, R109). That the reset state is that of a new part is log 4. -/
def Obligations.NewPartIsBlank : Prop :=
  (∀ a, State.reset.banks.a.words.read a = 0) ∧ (∀ a, State.reset.banks.b.words.read a = 0)
  ∧ State.reset.banks.a.status = .blank ∧ State.reset.banks.b.status = .blank ∧ State.reset.banks.activeB = false
  ∧ State.reset.ResetLeaves State.reset ∧ (∀ i < 16, (State.reset.scheme i).state = .off)
  ∧ (∀ i < 256, (State.reset.point i).value = .analog 0) ∧ State.reset.arming.nextEvaluation = none
  ∧ State.reset.log.records = [] ∧ State.reset.log.nextSeq = 0

/-- A power-on reset and a reset pin set every block to its reset values, when the input holds the part and again when it releases it;
the power-on reset empties the Operation Log and the reset pin keeps it (R144, R178). That the values are taken at the assertion and
again at the release is the model's reading (log 5).
At the end of the slot that carried the reply to a RESTART everything is set as after a reset pin, the log and the banks kept;
before such a reply the event changes nothing (R159, R173; the second half is log 1). -/
def Obligations.ResetsSetEveryBlock : Prop :=
  (∀ s : State,
      (∃ t, exec (.powerOnReset .assert) s = .next t ∧ s.ResetLeaves t ∧ t.powerHeld = true ∧ t.pinHeld = s.pinHeld
        ∧ t.log = ⟨[], 0⟩)
      ∧ (s.powerHeld = true → ∃ t, exec (.powerOnReset .release) s = .next t ∧ s.ResetLeaves t ∧ t.powerHeld = false
        ∧ t.pinHeld = s.pinHeld ∧ t.log = ⟨[], 0⟩)
      ∧ (∃ t, exec (.resetPin .assert) s = .next t ∧ s.ResetLeaves t ∧ t.pinHeld = true ∧ t.powerHeld = s.powerHeld
        ∧ t.log = s.log)
      ∧ (s.pinHeld = true → ∃ t, exec (.resetPin .release) s = .next t ∧ s.ResetLeaves t ∧ t.pinHeld = false
        ∧ t.powerHeld = s.powerHeld ∧ t.log = s.log))
  ∧ (∀ s : State, s.held = false →
      (s.agent.restartDue = true → ∃ t, exec .slotEndRestart s = .next t ∧ s.ResetLeaves t ∧ t.log = s.log
        ∧ t.powerHeld = false ∧ t.pinHeld = false)
      ∧ (s.agent.restartDue = false → exec .slotEndRestart s = .next { s with out := [] }))

/-! ### The time base and what falls due on it -/

/-- The time base goes up by 1 each millisecond, wrapping from 2^32 − 1 to 0, and nothing else changes with it (R1). That
what falls due at the new value comes by commands of its own is log 2. -/
def Obligations.TickCountsOneMillisecond : Prop :=
  ∀ s : State, s.held = false →
    exec .timeBaseTick s = .next { s with out := [], timeBase := s.timeBase + 1 }
    ∧ (s.timeBase = 0xFFFFFFFF → s.timeBase + 1 = 0)

/-- R12. The expiry of a hold timer stops the timer and changes nothing else, in every scheme state. Then the walk-down stage with Q
above S_top takes a step when the stress count was 1 or 2, and while the timer runs it takes none. -/
def Obligations.HoldTimerExpiryStopsTheTimer : Prop :=
  (∀ (s : State) (i : Fin 16), s.held = false → (s.scheme i).holdTimer = some s.timeBase →
    exec (.holdTimerExpiry i) s = .next { s with
      out := []
      arming := { s.arming with schemes := s.arming.schemes.modify i (fun r => { r with holdTimer := none }) } })
  ∧ (∀ (e : SchemeEntry) (expiry : Time) (q : Int) (r : SchemeRec), e.walkEnable = true → e.stressLevel < q →
      r.holdTimer = none → r.stress = 1 ∨ r.stress = 2 → (r.walkDown e expiry q).2 = true)
  ∧ (∀ (e : SchemeEntry) (expiry t : Time) (q : Int) (r : SchemeRec), r.holdTimer = some t →
      (r.walkDown e expiry q).2 = false ∧ (r.walkDown e expiry q).1.walk = r.walk)

/-- R23. At the expiry of a running reset timer the timer stops and the scheme goes from OPERATED to DISARMED with its arming, disarm
and stress counts at 0; W, the hold timer, the backstop count and the hard-trip request are kept. A timer that is not running does not
expire. -/
def Obligations.ResetTimerExpiryDisarms : Prop :=
  ∀ (s : State) (i : Fin 16), s.held = false →
    ((s.scheme i).resetTimer = some s.timeBase → (s.scheme i).state = .operated →
      exec (.resetTimerExpiry i) s = .next { s with
        out := []
        arming := { s.arming with schemes := s.arming.schemes.modify i (fun r => { r with
          state := .disarmed, armCount := 0, disarmCount := 0, stress := 0, selection := none, resetTimer := none }) } })
    ∧ ((s.scheme i).resetTimer = none → exec (.resetTimerExpiry i) s = .next { s with out := [] })

/-- R135. The freshness at a window end follows from the window count alone, and a new window begins; without an entry into SILENT
nothing but the freshness, the count and the start of the window changes, no point among them. -/
def Obligations.WindowEndJudges : Prop :=
  ∀ (s : State) (i : Fin 32), s.held = false → (s.active.station i).enable = true → s.TablesWhole →
    (s.station i).windowStart + BitVec.ofNat 32 (s.active.station i).window = s.timeBase →
    (∃ t, exec (.windowEnd i) s = .next t
      ∧ ((s.active.station i).minimum ≤ (s.station i).windowCount → (t.station i).freshness = .fresh)
      ∧ ((s.station i).windowCount < (s.active.station i).minimum → 1 ≤ (s.station i).windowCount →
          (t.station i).freshness = (if (s.active.station i).degradedSilent then .silent else .degraded))
      ∧ ((s.station i).windowCount = 0 → 1 ≤ (s.active.station i).minimum → (t.station i).freshness = .silent)
      ∧ (t.station i).windowCount = 0 ∧ (t.station i).windowStart = s.timeBase
      ∧ ((t.station i).freshness ≠ .silent ∨ (s.station i).freshness = .silent →
          t = { s with
            out := []
            intake := { s.intake with stations := s.intake.stations.modify i (fun r => { r with
              freshness := (t.station i).freshness, windowCount := 0, windowStart := s.timeBase }) } }))

/-- R135, R136, R116, R117. A window end that makes a station SILENT, with no accepted frame, or with fewer than the minimum and
degraded counted as silent, loads its rejoin discards and holds its enabled GOOD and SUSPECT points, those with hold limit 0 going on
to STALE; no other point changes.
R117. When a HELD point's hold limit runs out it goes to STALE and its hold start stops; an ANALOG point under SUBSTITUTE takes
the substitute value, every other keeps its value; no consumer is told. -/
def Obligations.SilenceHoldsThenMakesStale : Prop :=
  (∀ (s : State) (i : Fin 32), s.held = false → (s.active.station i).enable = true → s.TablesWhole →
      (s.station i).windowStart + BitVec.ofNat 32 (s.active.station i).window = s.timeBase →
      (s.station i).windowCount < (s.active.station i).minimum →
      (s.station i).windowCount = 0 ∨ (s.active.station i).degradedSilent = true → (s.station i).freshness ≠ .silent →
      ∃ t, exec (.windowEnd i) s = .next t
        ∧ (t.station i).freshness = .silent ∧ (t.station i).rejoinLeft = (s.active.station i).discards
        ∧ (∀ p < 256,
            t.point p =
              if (s.active.point p).kind ≠ .disabled ∧ (s.active.point p).source = i
                  ∧ ((s.point p).quality = .good ∨ (s.point p).quality = .suspect) then
                if (s.active.point p).holdLimit = 0 then (s.point p).toStale (s.active.point p)
                else { s.point p with quality := .held, holdStart := some s.timeBase }
              else s.point p)
        ∧ t.monitor = s.monitor ∧ t.arming = s.arming ∧ t.queue = s.queue ∧ t.link = s.link ∧ t.banks = s.banks)
  ∧ (∀ (s : State) (p : Fin 256) (t : Time), s.held = false → (s.point p).quality = .held → (s.point p).holdStart = some t →
      t + BitVec.ofNat 32 (s.active.point p).holdLimit = s.timeBase →
      exec (.staleChange p) s = .next { s with
        out := []
        points := s.points.modify p (fun r => { r with
          quality := .stale
          holdStart := none
          value :=
            if (s.active.point p).kind = .analog then
              match (s.active.point p).substitute with
              | some v => .analog v
              | none => r.value
            else r.value }) })

/-! ### Rounding, requirement, selection -/

/-- The two roundings of 00_scope.md section 5.3: half away from zero, and up. -/
def Obligations.RoundingConventions : Prop :=
  (∀ (n : Int) (d : Nat), 0 < d →
    2 * (n - roundHalfAway n d * d).natAbs ≤ d
    ∧ (2 * (n - roundHalfAway n d * d).natAbs = d → n.natAbs < (roundHalfAway n d).natAbs * d))
  ∧ (∀ n d : Nat, 0 < d → n ≤ roundUp n d * d ∧ ∀ m : Nat, n ≤ m * d → roundUp n d ≤ m)

/-- R31. The requirement is the lesser of the cap and B plus the excess of Q over L times k divided by 256, rounded up; it is the
lesser of B and the cap when Q is at most L or k is 0, and never above the cap. -/
def Obligations.RequirementFollowsTheExcess : Prop :=
  ∀ (e : SchemeEntry) (q : Int),
    (∃ excess up : Nat, (excess : Int) = max 0 (q - e.limit)
      ∧ excess * e.sensitivity ≤ 256 * up ∧ 256 * up < excess * e.sensitivity + 256
      ∧ e.requirement q = min (up + e.bias) e.cap)
    ∧ (q ≤ e.limit ∨ e.sensitivity = 0 → e.requirement q = min e.bias e.cap)
    ∧ e.requirement q ≤ e.cap ∧ (e.cap < e.bias → e.requirement q = e.cap)

/-- The selection record (R36 to R39): at most 8 items in ascending position, each an eligible candidate with its amount; C their sum;
COVERED exactly when C reaches the requirement; no eligible position before the continuation position is passed over; nothing is
examined for a requirement of 0 or without a shed list. The walk stops with the addition that brings C to the requirement or fills the
8 places, and the continuation position is then that of the last item plus 1; otherwise it is 16. -/
def Obligations.SelectionRecordIsTheWalks : Prop :=
  ∀ (s : State) (requirement : Nat),
    (∀ list, s.select list 0 = ⟨0, [], 0, .none, 0, s.timeBase⟩)
    ∧ (0 < requirement → s.select none requirement = ⟨requirement, [], 0, .short, 0, s.timeBase⟩)
    ∧ (∀ list, 0 < requirement →
        let r := s.select (some list) requirement
        r.requirement = requirement ∧ r.stamp = s.timeBase ∧ r.items.length ≤ 8 ∧ r.continuation ≤ 16
        ∧ r.items.Pairwise (fun x y => x.position < y.position)
        ∧ (∀ x ∈ r.items, x.position < r.continuation ∧ s.eligible list x.position = some x.amount)
        ∧ r.total = (r.items.map SelItem.amount).sum
        ∧ r.outcome = (if requirement ≤ r.total then .covered else .short)
        ∧ (∀ p amount, p < r.continuation → s.eligible list p = some amount → ⟨p, amount⟩ ∈ r.items)
        ∧ (r.continuation < 16 → requirement ≤ r.total ∨ r.items.length = 8)
        ∧ (∀ k < r.items.length, ((r.items.take k).map SelItem.amount).sum < requirement)
        ∧ (requirement ≤ r.total ∨ r.items.length = 8 →
            ∃ last, r.items.getLast? = some last ∧ r.continuation = last.position + 1)
        ∧ (r.total < requirement → r.items.length < 8 → r.continuation = 16))

/-- Eligibility and the amount of a candidate (R34, R35).
The replacement search (R41) returns the first eligible position from the continuation position on, with its amount, and none when
there is no such position or no shed list. -/
def Obligations.EligibilityAndReplacement : Prop :=
  (∀ (s : State) (list p amount : Nat),
      s.eligible list p = some amount ↔
        ∃ c, s.active.candidate list p = some c ∧ c.enable = true
          ∧ (s.point c.availability).value = .binary .closed
          ∧ (s.point c.availability).quality ∈ [Quality.good, .suspect, .held, .forced]
          ∧ (s.point c.amount).quality ∈ [Quality.good, .suspect, .held, .forced]
          ∧ (amount : Int) = max 0 (s.point c.amount).value.number ∧ c.minimum ≤ amount
          ∧ ∀ e ∈ s.queue.entries, e.action ≠ c.head)
  ∧ (∀ (s : State) (start : Nat),
      s.replacement none start = none
      ∧ ∀ list,
        (∀ k amount, s.replacement (some list) start = some (k, amount) ↔
          start ≤ k ∧ k < 16 ∧ s.eligible list k = some amount ∧ ∀ j, start ≤ j → j < k → s.eligible list j = none)
        ∧ (s.replacement (some list) start = none ↔ ∀ j, start ≤ j → j < 16 → s.eligible list j = none))

/-! ### The arming evaluation -/

/-- An evaluation treats each of the 16 schemes once, on the points, queue and time as they stand at the event; it then rebuilds both
express images from the schemes it leaves, and the next one falls E ms later. It may raise MARGIN_WALKED and BACKSTOP, and changes
nothing else (R6, R7, R43).
An image (R43, R44) is INVALID and empty without a designation or for a disabled contingency; else it holds the ARMED schemes of the
mask in ascending index, each with its selection record, and the nodes of their service; with more than 32 nodes it is OVERSIZE and
empty. That an ARMED scheme without a selection record is left out is log 29.
The nodes of a service (R66, R68): scheme by scheme and item by item the chain of the item's head action, then the direct chain; a
chain is its head and the actions reached by next, at most 8. -/
def Obligations.EvaluationTreatsEachScheme : Prop :=
  (∀ s : State, s.held = false → s.TablesWhole → s.arming.nextEvaluation = some s.timeBase →
    ∃ t, exec .armingEvaluation s = .next t
      ∧ (∀ i < 16, t.scheme i = (s.evaluatedScheme i).1)
      ∧ (t.notices.marginWalked = true ↔ s.notices.marginWalked = true ∨ ∃ i < 16, (s.evaluatedScheme i).2.1 = true)
      ∧ (t.notices.backstop = true ↔ s.notices.backstop = true ∨ ∃ i < 16, (s.evaluatedScheme i).2.2 = true)
      ∧ t.TablesWhole
      ∧ t = { s with
          out := []
          arming := { s.arming with
            schemes := t.arming.schemes
            nextEvaluation := some (s.timeBase + BitVec.ofNat 32 s.active.params.interval) }
          monitor := { s.monitor with
            imageA := t.buildImage s.active.params.expressA, imageB := t.buildImage s.active.params.expressB }
          notices := { s.notices with marginWalked := t.notices.marginWalked, backstop := t.notices.backstop } })
  ∧ (∀ s : State,
      s.buildImage none = ⟨.invalid, [], []⟩
      ∧ ∀ c, let e := s.active.cont c
        (e.enable = false → s.buildImage (some c) = ⟨.invalid, [], []⟩)
        ∧ (e.enable = true → ∃ taken : List SchemeCopy,
          taken.Pairwise (fun x y => x.scheme < y.scheme)
          ∧ (∀ i rec, (⟨i, rec⟩ : SchemeCopy) ∈ taken ↔
              i < 16 ∧ bit e.mask i = true ∧ (s.scheme i).state = .armed ∧ (s.scheme i).selection = some rec)
          ∧ s.buildImage (some c) = (if (s.active.serviceNodes taken e.direct).length ≤ 32 then
              ⟨.valid, taken, s.active.serviceNodes taken e.direct⟩ else ⟨.oversize, [], []⟩)))
  ∧ (∀ b : Bank,
      (∀ taken direct, b.serviceNodes taken direct
        = taken.flatMap (fun t => t.record.items.flatMap (fun item =>
            (b.chain (b.headAction t.scheme item.position)).map (fun a => ⟨a, .scheme t.scheme item.position⟩)))
          ++ direct.toList.flatMap (fun h => (b.chain h).map (fun a => ⟨a, .direct⟩)))
      ∧ (∀ i p l c, (b.scheme i).shedList = some l → b.candidate l p = some c → b.headAction i p = c.head)
      ∧ ∀ h, let chain := b.chain h
        chain.length ≤ 8 ∧ chain[0]? = some h
        ∧ (∀ k a, chain[k]? = some a → k < 7 → chain[k + 1]? = (b.action a).next))

/-- Q of each scheme that is not OFF is formed when every input is usable, as the weighted sum divided by 16 and rounded half away
from zero, and is kept otherwise; an OFF scheme does not change, and a GATED one keeps everything but Q, with its stress and backstop
counts 0 (R2, R10, R29). An OPERATING or OPERATED scheme keeps everything but Q and the backstop, with its stress count 0 (R20).
An unusable input or a blocking point in effect puts a DISARMED, ARMING or ARMED scheme into SUSPENDED with its counts at 0 and its
selection record gone, W and the hold timer kept; a SUSPENDED scheme stays so while the cause lasts and goes to DISARMED when it is
gone (R8, R9). A blocking point is in effect when it reads OPEN with fresh quality (R8). -/
def Obligations.EvaluationFormsQAndSuspends : Prop :=
  (∀ (s : State) (i : Nat),
      let e := s.active.scheme i
      let r := (s.evaluatedScheme i).1
      ((s.scheme i).state = .off → r = s.scheme i)
      ∧ ((s.scheme i).state ≠ .off →
          r.q =
            if ∀ x ∈ e.inputs, (s.point x.point).quality ∈ [Quality.good, .suspect, .held, .forced]
                ∨ ((s.point x.point).quality = .stale ∧ e.lenient = true) then
              roundHalfAway ((e.inputs.map (fun x => x.weight * (s.point x.point).value.number)).sum) 16
            else (s.scheme i).q)
      ∧ ((s.scheme i).state = .gated → r = { s.scheme i with q := r.q, stress := 0, backstop := 0 })
      ∧ ((s.scheme i).state = .operating ∨ (s.scheme i).state = .operated →
          r = { s.scheme i with q := r.q, stress := 0, backstop := r.backstop, hardTrip := r.hardTrip }))
  ∧ (∀ (s : State) (i : Nat),
      let r := (s.evaluatedScheme i).1
      let cause := s.formQ (s.active.scheme i) = none ∨ s.blocked (s.active.scheme i) = true
      ((s.scheme i).state ∈ [SchemeState.disarmed, .arming, .armed, .suspended] → cause → r.state = .suspended)
      ∧ ((s.scheme i).state = .suspended → ¬ cause → r.state = .disarmed)
      ∧ (r.state = .suspended ∨ (s.scheme i).state = .suspended →
          (s.scheme i).state ∈ [SchemeState.disarmed, .arming, .armed, .suspended] →
          r.armCount = 0 ∧ r.disarmCount = 0 ∧ r.stress = 0 ∧ r.selection = none ∧ r.walk = (s.scheme i).walk
          ∧ r.holdTimer = (s.scheme i).holdTimer ∧ ((s.scheme i).hardTrip = true → r.hardTrip = true)))
  ∧ (∀ (s : State) (e : SchemeEntry), s.blocked e = true ↔ ∃ p, e.blocking = some p ∧ (s.point p).value = .binary .opened
      ∧ (s.point p).quality ∈ [Quality.good, .suspect, .forced])

/-- Walk-down and the arming transitions of a DISARMED, ARMING or ARMED scheme whose inputs are usable and which is not blocked (R11,
R14 to R17): a step moves W, starts the hold timer, clears the stress count and is reported for MARGIN_WALKED, and without one the
stress count goes up to 2 or back to 0; the effective arm level falls with W, arming needs Na evaluations at or above it, disarming Nd
below the disarm level, and an ARMED scheme leaves the evaluation with the selection for its requirement. -/
def Obligations.EvaluationArmsAndDisarms : Prop :=
  ∀ (s : State) (i : Nat) (q : Int),
    let e := s.active.scheme i
    let old := s.scheme i
    let r := (s.evaluatedScheme i).1
    let level := e.armLevel - r.walk
    s.formQ e = some q → s.blocked e = false → 1 ≤ e.armNeeded → 1 ≤ e.disarmNeeded →
    old.state ∈ [SchemeState.disarmed, .arming, .armed] →
    let stepped := e.walkEnable = true ∧ e.stressLevel < q ∧ 1 ≤ old.stress ∧ old.holdTimer = none
    (stepped → r.walk = min (old.walk + e.step) (e.armLevel - e.floor)
      ∧ r.holdTimer = some (s.timeBase + BitVec.ofNat 32 (60000 * (e.holdCode + 1))) ∧ r.stress = 0)
    ∧ (¬ stepped → r.walk = old.walk ∧ r.holdTimer = old.holdTimer
      ∧ r.stress = if e.walkEnable = true then (if e.stressLevel < q then min 2 (old.stress + 1) else 0) else old.stress)
    ∧ ((s.evaluatedScheme i).2.1 = true ↔ stepped)
    ∧ (old.state = .disarmed → q < level → r.state = .disarmed ∧ r.armCount = 0)
    ∧ (old.state = .disarmed → level ≤ q → e.armNeeded = 1 → r.state = .armed ∧ r.armCount = 0 ∧ r.disarmCount = 0)
    ∧ (old.state = .disarmed → level ≤ q → 1 < e.armNeeded → r.state = .arming ∧ r.armCount = 1)
    ∧ (old.state = .arming → q < level → r.state = .disarmed ∧ r.armCount = 0)
    ∧ (old.state = .arming → level ≤ q → old.armCount + 1 < e.armNeeded →
        r.state = .arming ∧ r.armCount = old.armCount + 1)
    ∧ (old.state = .arming → level ≤ q → e.armNeeded ≤ old.armCount + 1 →
        r.state = .armed ∧ r.armCount = 0 ∧ r.disarmCount = 0)
    ∧ (old.state = .armed → level - e.hysteresis ≤ q → r.state = .armed ∧ r.disarmCount = 0)
    ∧ (old.state = .armed → q < level - e.hysteresis → old.disarmCount + 1 < e.disarmNeeded →
        r.state = .armed ∧ r.disarmCount = old.disarmCount + 1)
    ∧ (old.state = .armed → q < level - e.hysteresis → e.disarmNeeded ≤ old.disarmCount + 1 →
        r.state = .disarmed ∧ r.armCount = 0 ∧ r.disarmCount = 0 ∧ r.selection = none)
    ∧ (r.state = .armed → r.selection = some (s.select e.shedList (e.requirement q)))

/-- The backstop of a scheme that is neither OFF nor GATED (R18): the count goes up to 2 while Q is formed and at or above the level,
and to 0 otherwise; when it goes from 1 to 2 with hard trip enabled the request latches and the notice is due.
The output lines in every state: the hard trip line is asserted while a request is latched and the master enable of a bank that is not
BLANK is set (R103); the operated alarm line is asserted while a scheme is OPERATED (R105). -/
def Obligations.BackstopLatchesAtTwo : Prop :=
  (∀ (s : State) (i : Nat),
    let e := s.active.scheme i
    let old := s.scheme i
    let out := s.evaluatedScheme i
    let reached := e.backstopEnable = true ∧ ∃ q, s.formQ e = some q ∧ e.backstopLevel ≤ q
    old.state ≠ .off → old.state ≠ .gated →
    (reached → out.1.backstop = min 2 (old.backstop + 1)) ∧ (¬ reached → out.1.backstop = 0)
    ∧ (out.2.2 = true ↔ reached ∧ old.backstop = 1 ∧ e.hardTripEnable = true)
    ∧ (out.1.hardTrip = true ↔ old.hardTrip = true ∨ out.2.2 = true))
  ∧ (∀ s : State, s.TablesWhole →
      (s.hardTripLine = true ↔ s.active.status ≠ .blank ∧ s.active.params.masterTrip = true
        ∧ ∃ i < 16, (s.scheme i).hardTrip = true)
      ∧ (s.operatedAlarm = true ↔ ∃ i < 16, (s.scheme i).state = .operated))

/-! ### Contingencies -/

/-- The combined condition of the trigger points (R51): under ANY over the fresh points, TRUE if one reads OPEN; under ALL only when all
are fresh, TRUE if every one reads OPEN.
What an evaluation that is due does to a contingency's record (R52 to R54, R56, R57); the second component says that confirmation
completes. -/
def Obligations.ContingencyEvaluation : Prop :=
  (∀ (s : State) (e : ContEntry),
      let fresh := fun p => (s.point p).quality ∈ [Quality.good, .suspect, .forced]
      let opened := fun p => (s.point p).value = .binary .opened
      (e.all = false → (∀ p ∈ e.triggers, ¬ fresh p) → s.condition e = none)
      ∧ (e.all = false → ∀ p ∈ e.triggers, fresh p →
          ∃ b, s.condition e = some b ∧ (b = true ↔ ∃ p' ∈ e.triggers, fresh p' ∧ opened p'))
      ∧ (e.all = true → (∃ p ∈ e.triggers, ¬ fresh p) → s.condition e = none)
      ∧ (e.all = true → (∀ p ∈ e.triggers, fresh p) →
          ∃ b, s.condition e = some b ∧ (b = true ↔ ∀ p ∈ e.triggers, opened p)))
  ∧ (∀ (e : ContEntry) (r : ContRec), 1 ≤ e.confirmCount → 1 ≤ e.rearmCount →
      r.due e none = ({ r with degraded := true }, false)
      ∧ (∀ b, (r.due e (some b)).1.degraded = false ∧ (r.due e (some b)).1.last = (if b then .true else .false))
      ∧ (r.state = .idle → e.edge = true → r.last ≠ .false →
          (r.due e (some true)).1.state = .idle ∧ (r.due e (some true)).2 = false)
      ∧ (r.state = .idle → (e.edge = false ∨ r.last = .false) → 1 < e.confirmCount →
          (r.due e (some true)).1.state = .confirming ∧ (r.due e (some true)).1.confirm = 1
          ∧ (r.due e (some true)).2 = false)
      ∧ (r.state = .idle → (e.edge = false ∨ r.last = .false) → e.confirmCount = 1 →
          (r.due e (some true)).1.confirm = 0 ∧ (r.due e (some true)).2 = true)
      ∧ (r.state = .idle → (r.due e (some false)).1.state = .idle ∧ (r.due e (some false)).2 = false)
      ∧ (r.state = .confirming → r.confirm + 1 < e.confirmCount →
          (r.due e (some true)).1.state = .confirming ∧ (r.due e (some true)).1.confirm = r.confirm + 1
          ∧ (r.due e (some true)).2 = false)
      ∧ (r.state = .confirming → e.confirmCount ≤ r.confirm + 1 →
          (r.due e (some true)).1.confirm = 0 ∧ (r.due e (some true)).2 = true)
      ∧ (r.state = .confirming → (r.due e (some false)).1.state = .idle ∧ (r.due e (some false)).1.confirm = 0
          ∧ (r.due e (some false)).2 = false)
      ∧ (r.state = .pending ∨ r.state = .serving → ∀ b,
          r.due e (some b) = ({ r with degraded := false, last := if b then .true else .false }, false))
      ∧ (r.state = .served → (r.due e (some true)).1.state = .served ∧ (r.due e (some true)).1.rearm = 0)
      ∧ (r.state = .served → r.rearm + 1 < e.rearmCount →
          (r.due e (some false)).1.state = .served ∧ (r.due e (some false)).1.rearm = r.rearm + 1)
      ∧ (r.state = .served → e.rearmCount ≤ r.rearm + 1 →
          (r.due e (some false)).1.state = .idle ∧ (r.due e (some false)).1.rearm = 0
          ∧ (r.due e (some false)).1.confirm = 0))

/-- The arbiter chooses, from the pending set, the highest priority, then within priority 3 express A, then express B, then the others,
then the lowest index; it chooses none exactly when the set is empty (R59). An express contingency is one that the Bank Parameters
name and whose enable is yes (R46). -/
def Obligations.ArbiterChoosesByPriority : Prop :=
  ∀ s : State,
    (∀ c, (s.isExpressA c = true ↔ s.active.params.expressA = some c ∧ (s.active.cont c).enable = true)
      ∧ (s.isExpressB c = true ↔ s.active.params.expressB = some c ∧ (s.active.cont c).enable = true))
    ∧ (s.chosen = none ↔ ∀ c < 64, (s.cont c).state ≠ .pending)
    ∧ ∀ c, s.chosen = some c →
      c < 64 ∧ (s.cont c).state = .pending
      ∧ ∀ c' < 64, c' ≠ c → (s.cont c').state = .pending →
        (s.active.cont c').priority < (s.active.cont c).priority
        ∨ ((s.active.cont c').priority = (s.active.cont c).priority
          ∧ (((s.active.cont c).priority = 3 ∧ s.isExpressA c = true ∧ s.isExpressA c' = false)
            ∨ ((s.active.cont c).priority = 3 ∧ s.isExpressA c' = false ∧ s.isExpressB c = true ∧ s.isExpressB c' = false)
            ∨ (c < c' ∧ ((s.active.cont c).priority = 3 → s.isExpressA c' = false ∧ s.isExpressB c' = false))))

/-- The take (R59, R70, R71): with the engine IDLE and the pending set not empty the chosen contingency goes SERVING, each ARMED scheme
of its mask goes to OPERATING with its counts 0, the engine holds the snapshot, and every other scheme and contingency is as it was;
with the engine SERVING or the set empty nothing happens. That an ARMED scheme without a selection record is not taken is log 29.
The operation allocated (R88, R89) is ORDINARY and EXPANDING, with the contingency, its priority, and the time and cycle of the event;
its participations are the schemes of the mask in ascending index, a taken one with its requirement, candidates OUTSTANDING and
continuation position, any other SKIPPED. -/
def Obligations.TakeBeginsTheService : Prop :=
  ∀ s : State, s.TablesWhole →
    (s.engine ≠ none ∨ s.chosen = none → s.arbiterTake = s)
    ∧ ∀ c, s.engine = none → s.chosen = some c →
      let t := s.arbiterTake
      let e := s.active.cont c
      let mine := fun i => bit e.mask i = true ∧ (s.scheme i).state = .armed ∧ (s.scheme i).selection ≠ none
      (∀ i < 16, t.scheme i = if bit e.mask i = true ∧ (s.scheme i).state = .armed ∧ (s.scheme i).selection ≠ none then
          { s.scheme i with state := .operating, armCount := 0, disarmCount := 0, stress := 0, selection := none }
        else s.scheme i)
      ∧ (∀ i < 64, t.cont i = if i = c then { s.cont i with state := .serving } else s.cont i)
      ∧ (∃ snap, t.engine = some snap ∧ snap.contingency = c ∧ snap.priority = e.priority
          ∧ snap.takeTime = s.timeBase ∧ snap.directHead = e.direct
          ∧ (∀ i rec, (⟨i, rec⟩ : SchemeCopy) ∈ snap.taken ↔ i < 16 ∧ mine i ∧ (s.scheme i).selection = some rec)
          ∧ (8 ≤ s.tracker.ops.length → snap.opId = 0 ∧ t.tracker = s.tracker ∧ t.notices.untrackedOperation = true)
          ∧ (s.tracker.ops.length < 8 → snap.opId = s.newId ∧ t.tracker.ops.length = s.tracker.ops.length + 1
              ∧ t.notices = s.notices
              ∧ ∃ op, op.Opened s c .ordinary e.priority .expanding snap.taken ∧ s.tracker.Gains op t.tracker))
      ∧ t.queue = s.queue ∧ t.log = s.log

/-- A confirmation that completes with the gate closed goes straight to SERVED and counts GATED_DETECTION; with it open, an express
contingency with its image OVERSIZE raises EXPRESS_FALLBACK and joins the pending set, one with its image INVALID and an ordinary one
join it, and one with its image VALID is left to the express serve (R55, R65).
What an update of points makes of every contingency (R50): each that is due is evaluated once and no other changes, with the
confirmations that complete in it gathered for the express path in ascending index. -/
def Obligations.CompletedConfirmation : Prop :=
  (∀ (s : State) (updated : List Nat), s.TablesWhole → s.Evaluated updated (s.evaluateConts updated).1 (s.evaluateConts updated).2)
  ∧ ∀ (s : State) (c : Nat), s.TablesWhole → c < 64 →
    let t := s.completed c
    (s.arming.gateOpen = false →
      (t.cont c).state = .served ∧ (t.cont c).rearm = 0
      ∧ t.monitor.gatedDetection = (if s.monitor.gatedDetection = 65535 then 65535 else s.monitor.gatedDetection + 1)
      ∧ t.notices = s.notices ∧ t.monitor.lastServed = s.monitor.lastServed ∧ s.servesExpress c = false)
    ∧ (s.arming.gateOpen = true → ∀ img, s.expressImage c = some img → img.status = .oversize →
      (t.cont c).state = .pending ∧ t.notices = { s.notices with expressFallback := true } ∧ s.servesExpress c = false)
    ∧ (s.arming.gateOpen = true → ∀ img, s.expressImage c = some img → img.status = .invalid →
      (t.cont c).state = .pending ∧ t.notices = s.notices ∧ s.servesExpress c = false)
    ∧ (s.arming.gateOpen = true → s.expressImage c = none →
      (t.cont c).state = .pending ∧ t.notices = s.notices ∧ s.servesExpress c = false)
    ∧ (s.arming.gateOpen = true → ∀ img, s.expressImage c = some img → img.status = .valid →
      t = s ∧ s.servesExpress c = true)

/-- An express serve (R62, R63): the contingency goes SERVED and becomes the last served; each scheme with a participation in the image
that is still ARMED goes to OPERATING, or straight to OPERATED when 8 operations are open; every other scheme keeps its state; the
engine is not touched. It hands in, in the image's order, at priority 3 and under the new operation's id or 0, the image's nodes that
come from a scheme it takes or from the direct chain; that an untracked serve, too, leaves out the nodes of a scheme that is no longer
ARMED is log 19.
The operation it allocates (R88, R89) is EXPRESS and TRACKING, of priority 3, with a participation for each scheme of the contingency's
mask, those taken filled from the image's selection records; the hand-ins are then recorded in it. -/
def Obligations.ExpressServeTakesTheImagesSchemes : Prop :=
  ∀ (s : State) (c : Nat) (img : Image), s.TablesWhole → c < 64 →
    let t := s.serveExpress c img
    let taken := (img.participations.map SchemeCopy.scheme).filter (fun i => (s.scheme i).state = .armed)
    let handed := img.nodes.filter (fun n => match n.origin with
      | .scheme i _ => taken.contains i
      | .direct => true)
    t.queue = (handed.foldl (State.handIn (if s.tracker.ops.length < 8 then s.newId else 0) 3 taken) s).queue
    ∧ (s.tracker.ops.length < 8 → t.tracker.lastId = s.newId ∧ t.tracker.ops.length = s.tracker.ops.length + 1
        ∧ ∃ op opened, op.Opened s c .express 3 .tracking (img.participations.filter (fun p => (s.scheme p.scheme).state = .armed))
          ∧ s.tracker.Gains op opened
          ∧ t.tracker = (handed.foldl (State.handIn s.newId 3 taken) { s with tracker := opened }).tracker)
    ∧ (8 ≤ s.tracker.ops.length → t.tracker = s.tracker)
    ∧ (t.cont c).state = .served ∧ (t.cont c).rearm = 0 ∧ t.monitor.lastServed = some c ∧ t.engine = s.engine
    ∧ (∀ i < 64, i ≠ c → t.cont i = s.cont i)
    ∧ (∀ i < 16, (t.scheme i).state =
        if (∃ p ∈ img.participations, p.scheme = i) ∧ (s.scheme i).state = .armed then
          (if s.tracker.ops.length < 8 then .operating else .operated)
        else (s.scheme i).state)
    ∧ (8 ≤ s.tracker.ops.length → t.notices.untrackedOperation = true ∧ t.log = s.log)
    ∧ (t.monitor.imageA = s.monitor.imageA ∧ t.monitor.imageB = s.monitor.imageB)

/-! ### The Trip Queue and the operations -/

/-- The four tests of a hand-in, in order (R77 to R80), with what each does to the queue, the notices and, for a tracked operation, its
record and outstanding count (R90, R91): a head finishing ALREADY_OPEN is CONFIRMED and its amount credited at once, one DROPPED is
DROPPED, and one ENTERED or MERGED stays as it is; another node is noted under its candidate or in the direct list.
The confirm point reads OPEN when the action has one and it is OPEN with fresh quality (R78); an id joins a reference set once, and the
set's ascending order is kept (R77; log 27). -/
def Obligations.HandInOutcomes : Prop :=
  (∀ (s : State) (a : Nat), s.confirmOpen a = true ↔ ∃ p, (s.active.action a).confirm = some p
      ∧ (s.point p).value = .binary .opened ∧ (s.point p).quality ∈ [Quality.good, .suspect, .forced])
  ∧ (∀ (id : Nat) (refs : List Nat), (∀ x, x ∈ insertRef id refs ↔ x = id ∨ x ∈ refs)
      ∧ (refs.Pairwise (· < ·) → (insertRef id refs).Pairwise (· < ·)))
  ∧ ∀ (s : State) (id priority : Nat) (taken : List Nat) (n : Node),
    let t := s.handIn id priority taken n
    let counted := fun (k : Nat) => t.tracker.ops.map Operation.outstanding
      = s.tracker.ops.map (fun o => if id ≠ 0 ∧ o.id = id then o.outstanding + k else o.outstanding)
    let noted := fun (head : HeadStatus → HeadStatus) (status : NodeStatus) (credit : Nat → Nat) (k : Nat) (dropped : Bool) =>
      t.tracker = { s.tracker with ops := s.tracker.ops.map (fun o => if id ≠ 0 ∧ o.id = id then
        { o.noted n head status credit with outstanding := o.outstanding + k, overflow := o.overflow || dropped } else o) }
    (∀ e, s.liveEntry n.action = some e →
      t.queue = { s.queue with entries := s.queue.entries.map (fun x => if x.action = n.action then
        { x with priority := max x.priority priority, refs := if id = 0 then x.refs else insertRef id x.refs } else x) }
      ∧ t.notices = s.notices ∧ t.arming = s.arming ∧ counted (if id ∈ e.refs then 0 else 1)
      ∧ noted (fun h => h) .outstanding (fun _ => 0) (if id ∈ e.refs then 0 else 1) false)
    ∧ (s.liveEntry n.action = none → s.confirmOpen n.action = true →
      t.queue = s.queue ∧ t.notices = s.notices ∧ t.arming = s.arming ∧ counted 0
      ∧ noted (fun _ => .confirmed) .confirmed (fun amount => amount) 0 false)
    ∧ (s.liveEntry n.action = none → s.confirmOpen n.action = false → 32 ≤ s.queue.entries.length →
      t.queue = s.queue ∧ t.notices = { s.notices with queueOverflow := true } ∧ counted 0
      ∧ noted (fun _ => .dropped) .dropped (fun _ => 0) 0 true
      ∧ (∀ i p, n.origin = .scheme i p → i < s.arming.schemes.length → (s.active.scheme i).hardTripEnable = true →
          (t.scheme i).hardTrip = true)
      ∧ (n.origin = .direct → ∀ i ∈ taken, i < s.arming.schemes.length → (s.active.scheme i).hardTripEnable = true →
          (t.scheme i).hardTrip = true)
      ∧ (∀ o ∈ t.tracker.ops, id ≠ 0 → o.id = id → o.overflow = true))
    ∧ (s.liveEntry n.action = none → s.confirmOpen n.action = false → s.queue.entries.length < 32 →
      t.queue = ⟨s.queue.entries ++ [{
          action := n.action
          destination := (s.active.action n.action).destination
          output := (s.active.action n.action).output
          priority := priority
          repeats := (s.active.action n.action).repeats
          sent := 0
          order := s.queue.nextOrder
          deadline := s.timeBase + BitVec.ofNat 32 (s.active.action n.action).timeout
          state := .waiting
          refs := if id = 0 then [] else [id] }], s.queue.nextOrder + 1⟩
      ∧ t.notices = s.notices ∧ t.arming = s.arming ∧ counted 1
      ∧ noted (fun h => h) .outstanding (fun _ => 0) 1 false)

/-- After a counted publication no live entry is left whose action's confirm point the publication has made OPEN with fresh quality,
whatever express serve and take the same event made (R92).
The confirmations of an update finish, in list order, exactly the entries whose confirm point it has left reading OPEN (R92).
An entry that finishes CONFIRMED or SENT leaves the queue, and in each operation of its reference set every waiting node of its action
finishes so: CONFIRMED, a head with its amount credited; SENT, with no head finished and nothing credited; the outstanding count goes
down by 1 (R93, R95). -/
def Obligations.ConfirmedEntriesLeaveTheQueue : Prop :=
  (∀ (s : State) (station : Nat) (payload : List Word),
    ∀ e ∈ (s.countPublication station payload).queue.entries, ∀ p,
      (s.active.action e.action).confirm = some p → p ∈ s.updatedBy station payload →
      ¬ (((s.countPublication station payload).point p).value = .binary .opened
        ∧ ((s.countPublication station payload).point p).quality ∈ [Quality.good, .suspect, .forced]))
  ∧ (∀ (s : State) (updated : List Nat), ∃ l : List Entry, l.Sublist s.queue.entries
      ∧ (∀ e ∈ s.queue.entries, e ∈ l ↔ ∃ p ∈ updated, (s.active.action e.action).confirm = some p
          ∧ (s.point p).value = .binary .opened ∧ (s.point p).quality ∈ [Quality.good, .suspect, .forced])
      ∧ s.confirmUpdated updated = l.foldl (State.finishEntry .confirmed) s)
  ∧ (∀ (s : State) (e : Entry), e.refs.Nodup →
      let finished := fun (settled : Operation → Operation) => ({ s with
        queue := { s.queue with entries := s.queue.entries.filter (fun x => x.action != e.action) }
        tracker := { s.tracker with ops := s.tracker.ops.map (fun o => if o.id ∈ e.refs then settled o else o) } } : State)
      s.finishEntry .confirmed e = finished (fun o => o.settled e.action .confirmed .confirmed (fun amount => amount))
      ∧ s.finishEntry .sent e = finished (fun o => o.settled e.action .outstanding .sent (fun _ => 0)))

/-- R100. The outcome of a taken participation follows from its requirement and its confirmed amount alone. -/
def Obligations.ParticipationOutcomeTable : Prop :=
  ∀ t : TakenPart,
    (t.requirement = 0 → t.closeOutcome = .covered)
    ∧ (0 < t.requirement → t.requirement ≤ t.confirmed → t.closeOutcome = .covered)
    ∧ (0 < t.requirement → 0 < t.confirmed → t.confirmed < t.requirement → t.closeOutcome = .short)
    ∧ (0 < t.requirement → t.confirmed = 0 → t.closeOutcome = .failed)
    ∧ ∀ scheme, (Participation.close ⟨scheme, some t⟩).taken = some { t with outcome := some t.closeOutcome }
      ∧ (Participation.close ⟨scheme, none⟩) = ⟨scheme, none⟩

/-- A closure (R101, R178): hard-trip requests of SHORT and FAILED schemes latch where hard trip is enabled, the record becomes the
newest of at most 32 in the log with its outcome, time, cycle and sequence number, the operation leaves the table, and its taken
schemes that are OPERATING go to OPERATED with their reset timers.
At the end of an event the operations in TRACKING with outstanding count 0 close, one after the other in the table's order, and none
such is left (R99). -/
def Obligations.ClosureLogsAndReleases : Prop :=
  (∀ s : State,
      s.closeFinished = (s.tracker.ops.filter (fun o => o.phase = .tracking ∧ o.outstanding = 0)).foldl State.closeOp s
      ∧ ∀ o, o ∈ s.closeFinished.tracker.ops ↔ o ∈ s.tracker.ops
          ∧ ∀ x ∈ s.tracker.ops, x.phase = .tracking → x.outstanding = 0 → x.id ≠ o.id)
  ∧ ∀ (s : State) (op : Operation), s.TablesWhole → (∀ p ∈ op.parts, p.scheme < 16) →
    let t := s.closeOp op
    let complete := (∀ p ∈ op.parts, ∀ x, p.taken = some x → x.closeOutcome = .covered)
      ∧ ∀ d ∈ op.direct, d.status ≠ .expired ∧ d.status ≠ .dropped
    (∃ record, t.log.records = (record :: s.log.records).take 32
      ∧ record.op = { op with parts := op.parts.map Participation.close }
      ∧ (record.outcome = .complete ↔ complete)
      ∧ record.closeTime = s.timeBase ∧ record.closeCycle = s.cycleNumber ∧ record.seq = s.log.nextSeq)
    ∧ t.log.nextSeq = s.log.nextSeq + 1
    ∧ t.tracker = { s.tracker with ops := s.tracker.ops.filter (fun o => o.id != op.id) }
    ∧ (∀ i < 16, (t.scheme i).hardTrip = true ↔ (s.scheme i).hardTrip = true
        ∨ ((s.active.scheme i).hardTripEnable = true
          ∧ ∃ p ∈ op.parts, ∃ x, p = ⟨i, some x⟩ ∧ x.closeOutcome ≠ .covered))
    ∧ (∀ i < 16,
        let mine := (∃ p ∈ op.parts, p.scheme = i ∧ p.taken ≠ none) ∧ (s.scheme i).state = .operating
        let delay := (s.active.scheme i).resetDelay
        (mine → (t.scheme i).state = .operated
          ∧ (t.scheme i).resetTimer
            = if delay = 0 then none else some (s.timeBase + BitVec.ofNat 32 (1000 * delay)))
        ∧ (¬ mine → (t.scheme i).state = (s.scheme i).state ∧ (t.scheme i).resetTimer = (s.scheme i).resetTimer))
    ∧ t.queue = s.queue ∧ t.monitor = s.monitor ∧ t.engine = s.engine ∧ t.notices = s.notices

/-- With fewer than 8 operations open, the id a new operation receives is one of 1..255 and is not the id of an open operation; it is
the first such id of the cycle 1, 2, …, 255, 1, … after the id last allocated, found within 9 steps (R88). -/
def Obligations.NewOperationIdIsFree : Prop :=
  ∀ s : State, s.tracker.ops.length < 8 → s.tracker.lastId ≤ 255 →
    1 ≤ s.newId ∧ s.newId ≤ 255 ∧ s.newId ∉ s.tracker.ops.map Operation.id
    ∧ (s.tracker.lastId < 255 → s.tracker.lastId + 1 ∉ s.tracker.ops.map Operation.id → s.newId = s.tracker.lastId + 1)
    ∧ (s.tracker.lastId = 255 → 1 ∉ s.tracker.ops.map Operation.id → s.newId = 1)
    ∧ ∃ d ≤ 8, s.newId = (s.tracker.lastId + d) % 255 + 1
      ∧ ∀ j < d, (s.tracker.lastId + j) % 255 + 1 ∈ s.tracker.ops.map Operation.id

/-- An entry expires in every state in which it is live and its deadline is now: it leaves the queue, every other entry stays, and
nothing outside the service of contingencies changes; a live entry of its action after the event is one that an escalation has made.
An expiry that is not due changes nothing (R96).
The expiry of an untracked entry removes it and has no further effect (R96, R102); the premise on the open operations rules out the
states no run reaches, in which one has nothing left to wait for and is not closed.
The expiry of a tracked entry for one operation without escalation (R96, R99, R100): the entry leaves, the operation's waiting
candidates of the action are FAILED, and the operation, with nothing left to wait for, closes into the log.
What an expiry does to one operation of the reference set (R96, R97): its waiting nodes finish, heads as FAILED and others as EXPIRED,
and escalation is tried for each participation with a candidate so failed, in turn. Escalation (R97, R98): with replacements used below
the limit and a candidate found from the continuation position on, the candidate is added OUTSTANDING, replacements used goes up by 1,
the continuation position moves past it, and its chain is handed in at the operation's priority; otherwise nothing changes. -/
def Obligations.EntryExpiry : Prop :=
  (∀ (s : State) (a : Fin 128), s.held = false →
      (∀ e, s.liveEntry a = some e → e.deadline = s.timeBase → ∃ t, exec (.entryExpiry a) s = .next t
        ∧ State.ServiceOnly { s with out := [] } t ∧ t.monitor = s.monitor ∧ t.engine = s.engine
        ∧ (∀ x ∈ s.queue.entries, x.action ≠ a.val → ∃ y ∈ t.queue.entries, y.action = x.action ∧ y.order = x.order
            ∧ y.sent = x.sent ∧ y.repeats = x.repeats ∧ y.deadline = x.deadline ∧ y.state = x.state)
        ∧ (∀ y ∈ t.queue.entries, y.action = a.val → y.sent = 0 ∧ y.state = .waiting
            ∧ y.deadline = s.timeBase + BitVec.ofNat 32 (s.active.action a.val).timeout))
      ∧ ((∀ e, s.liveEntry a = some e → e.deadline ≠ s.timeBase) → exec (.entryExpiry a) s = .next { s with out := [] }))
  ∧ (∀ (s : State) (a : Fin 128) (e : Entry), s.held = false → s.liveEntry a = some e → e.refs = [] →
      e.deadline = s.timeBase → (∀ op ∈ s.tracker.ops, op.phase = .tracking → op.outstanding ≠ 0) →
      exec (.entryExpiry a) s = .next { s with
        out := []
        queue := { s.queue with entries := s.queue.entries.filter (fun x => x.action != a.val) } })
  ∧ (∀ (s : State) (a : Fin 128) (e : Entry) (op : Operation), s.held = false → s.liveEntry a = some e → e.refs = [op.id] →
      e.deadline = s.timeBase → s.tracker.ops = [op] → op.phase = .tracking → op.outstanding = 1 →
      (∀ i, (s.active.scheme i).escalation = 0) →
      ∃ t, exec (.entryExpiry a) s = .next t ∧ t.tracker.ops = []
        ∧ t.queue.entries = s.queue.entries.filter (fun x => x.action != a.val)
        ∧ ∃ record, t.log.records = (record :: s.log.records).take 32 ∧ record.closeTime = s.timeBase
          ∧ record.op = (let failed := op.settled a.val .failed .expired (fun _ => 0)
              { failed with parts := failed.parts.map Participation.close }))
  ∧ (∀ (s : State) (a id : Nat) (op : Operation), s.findOp id = some op → ∃ schemes : List Nat,
      (∀ i, i ∈ schemes ↔ ∃ part ∈ op.parts, part.scheme = i ∧ ∃ x, part.taken = some x
        ∧ ∃ c ∈ x.candidates, c.head = a ∧ c.headStatus = .outstanding)
      ∧ schemes.Sublist (op.parts.map Participation.scheme)
      ∧ s.expireFor a id = schemes.foldl (State.escalate id) { s with tracker := { s.tracker with
          ops := s.tracker.ops.map (fun o => if o.id = id then o.settled a .failed .expired (fun _ => 0) else o) } })
  ∧ (∀ (s : State) (id i : Nat) (op : Operation) (x : TakenPart), s.findOp id = some op →
      (∃ part, op.parts.find? (fun p => p.scheme == i) = some part ∧ part.taken = some x) →
      let e := s.active.scheme i
      (e.escalation ≤ x.replacements ∨ s.replacement e.shedList x.continuation = none → s.escalate id i = s)
      ∧ ∀ position amount, x.replacements < e.escalation → s.replacement e.shedList x.continuation = some (position, amount) →
        let head := s.active.headAction i position
        let added : State := { s with tracker := { s.tracker with ops := s.tracker.ops.map (fun o => if o.id = id then
          { o with parts := o.parts.map (fun part => if part.scheme = i then
            { part with taken := part.taken.map (fun x => { x with
                candidates := x.candidates ++ [⟨position, amount, head, .outstanding, []⟩]
                replacements := x.replacements + 1
                continuation := position + 1 }) } else part) } else o) } }
        let nodes : List Node := (s.active.chain head).map (fun a => ⟨a, .scheme i position⟩)
        s.escalate id i = nodes.foldl (State.handIn id op.priority
          ((op.parts.filter (fun p => p.taken.isSome)).map Participation.scheme)) added)

/-- The expansion completion of a service (R60, R74): the contingency goes SERVED with rearm progress 0 and becomes the last served;
with nothing else pending the engine returns to IDLE; nothing outside the service of contingencies changes. The completion is taken
whenever it is commanded (log 20). It hands in, in order, the nodes of the snapshot's taken schemes and direct chain, under the
snapshot's id and at its priority (R72); after untracked work each taken scheme that is OPERATING goes to OPERATED (R71).
The operation goes to TRACKING before the hand-ins, and every operation they leave with outstanding count 0 closes in the same event,
before the arbiter's take (R74, R99). -/
def Obligations.ExpansionCompletionServes : Prop :=
  ∀ (s : State) (snap : Snapshot), s.held = false → s.TablesWhole → s.engine = some snap → snap.contingency < 64 →
    (s.cont snap.contingency).state = .serving →
    ∃ t, exec .expansionCompletion s = .next t
      ∧ (t.cont snap.contingency).state = .served ∧ (t.cont snap.contingency).rearm = 0
      ∧ t.monitor.lastServed = some snap.contingency
      ∧ t.queue = ((s.active.serviceNodes snap.taken snap.directHead).foldl
          (State.handIn snap.opId snap.priority (snap.taken.map SchemeCopy.scheme)) s).queue
      ∧ (snap.opId = 0 → ∀ i < 16, i ∈ snap.taken.map SchemeCopy.scheme →
          (s.scheme i).state = .operating → (t.scheme i).state = .operated)
      ∧ (s.pendingSet = [] → t.engine = none)
      ∧ (∀ c, s.pendingSet = [c] → (t.cont c).state = .serving ∧ t.engine.map Snapshot.contingency = some c)
      ∧ State.ServiceOnly { s with out := [] } t
      ∧ (∀ op ∈ t.tracker.ops, op.phase = .tracking → op.outstanding ≠ 0)
      ∧ (snap.opId ≠ 0 → s.pendingSet = [] → ∀ op ∈ t.tracker.ops, op.id = snap.opId → op.phase = .tracking)
      ∧ (let schemes := snap.taken.map SchemeCopy.scheme
         let tracking : State := { s with out := [], tracker := { s.tracker with ops := s.tracker.ops.map (fun o =>
           if snap.opId ≠ 0 ∧ o.id = snap.opId then { o with phase := .tracking } else o) } }
         let handed := (s.active.serviceNodes snap.taken snap.directHead).foldl (State.handIn snap.opId snap.priority schemes) tracking
         let worked := if snap.opId = 0 then schemes.foldl State.endWork handed else handed
         t = (({ worked with
           engine := none
           monitor := { worked.monitor with
             conts := worked.monitor.conts.modify snap.contingency (fun r => { r with state := .served, rearm := 0 })
             lastServed := some snap.contingency } }).closeFinished).arbiterTake)

/-! ### Own slots -/

/-- An own slot with no entry to send (R157): the waiting REPLY goes out and the holder empties; without one a STATUS frame of 24
words goes out and nothing else changes. The words of a STATUS frame show the state as section 11.1 lays them out (R175). An own frame
carries the part station address and the timing port's cycle number (R158).
A waiting copy goes out when its transmitter's slot of the same number starts, and is then gone (R158); nothing else changes.
A copy that waits is dropped when its transmitter's timing source changes (R158): no command leaves one waiting from before it once the
timing port is another, or once the port that feeds its transmitter is LOCKED no more.
The timing port is East while it is LOCKED, otherwise West while it is, otherwise none (R156). An own slot starts at the start of an own
slot of the timing port's cycle position (R140), once own slots run; otherwise nothing is sent. A change of timing port leaves own slots
not running, but at the MARKER on the new timing port that makes it so; while the timing port stays, they go on running, and a MARKER on
it starts them, which one at its expected position always does.
The settings in force (R141): the Link Table's, or under a BLANK bank the blank link setting. -/
def Obligations.OwnSlotsAndWaitingCopies : Prop :=
  (∀ (s : State) (start slot : Nat), s.held = false → s.ownSlotAt start = some slot →
      (∀ e ∈ s.queue.entries, e.repeats = 0) →
      (∀ h, s.agent.holder = some h →
        exec (.ownSlotStart start) s = .next
          { s.ownSent slot (s.ownFrame 4 h.dest.toNat h.payload) with
            agent := { s.agent with holder := none, restartDue := h.restart } })
      ∧ (s.agent.holder = none →
        exec (.ownSlotStart start) s = .next (s.ownSent slot (s.ownFrame 5 63 s.statusPayload))))
  ∧ (∀ s : State, s.ShownBy s.statusPayload)
  ∧ (∀ (s : State) (kind dest : Nat) (payload : List Word) (side : Side) (cycle : Byte), s.timingPort = some side →
      (s.port side).cycle = some cycle → s.ownFrame kind dest payload
        = frameWords (headerWords kind s.partAddress payload.length cycle.toNat dest 0) payload)
  ∧ (∀ (s : State) (tx : Side) (start slot : Nat) (words : List Word) (rest : List WaitingCopy), s.held = false →
      s.slotAt tx.other start = some slot → s.link.waiting = ⟨tx, slot, words⟩ :: rest → (s.port tx).state ≠ .isolated →
      exec (.waitingCopySend tx start) s = .next { s with
        out := [⟨tx, (s.port tx).state == .loopback, some slot, words⟩]
        link := { s.link with waiting := rest } })
  ∧ (∀ (s t : State) (c : Instr), exec c s = .next t →
      (t.timingPort ≠ s.timingPort → t.link.waiting = [])
      ∧ ∀ w ∈ t.link.waiting, (s.port w.tx.other).state = .locked → (t.port w.tx.other).state = .locked)
  ∧ (∀ s : State, s.timingPort = if (s.port .east).state = .locked then some .east
      else if (s.port .west).state = .locked then some .west else none)
  ∧ (∀ (s : State) (start slot : Nat), s.ownSlotAt start = some slot ↔ ∃ side pos slots, s.timingPort = some side
      ∧ s.link.ownSlotsRun = true ∧ (s.port side).position = some pos ∧ s.slotsOf side = some slots ∧ pos ≤ start
      ∧ (start - pos) % 32 = 0 ∧ slot = (start - pos) / 32 % slots ∧ slot ∈ s.ownSlots)
  ∧ (∀ (s : State) (start : Nat), s.held = false → s.ownSlotAt start = none →
      exec (.ownSlotStart start) s = .next { s with out := [] })
  ∧ (∀ (s t : State) (c : Instr), exec c s = .next t →
      let marker := fun side => ∃ rx w, (c = .marker rx w ∨ c = .repeatedFrame rx 0 [w]) ∧ rx.port = side
      (t.timingPort ≠ s.timingPort → (t.link.ownSlotsRun = true ↔ ∃ side, t.timingPort = some side ∧ marker side))
      ∧ ∀ side, s.timingPort = some side → t.timingPort = some side →
        (s.link.ownSlotsRun = true → t.link.ownSlotsRun = true)
        ∧ (t.link.ownSlotsRun = true → s.link.ownSlotsRun = true ∨ marker side))
  ∧ (∀ (s : State) (rx : Reception) (w : Word) (pos : Nat), s.held = false → s.timingPort = some rx.port →
      s.slotsOf rx.port = some (bits w 0 6) → 4 ≤ bits w 0 6 → bits w 0 6 ≤ 32 → (s.port rx.port).position = some pos →
      rx.start = pos + 32 * bits w 0 6 →
      ∃ t, exec (.marker rx w) s = .next t ∧ t.timingPort = some rx.port ∧ t.link.ownSlotsRun = true)
  ∧ (∀ s : State,
      (s.active.status ≠ .blank → (∀ side, s.slotsOf side = some s.active.link.slots) ∧ s.ownSlots = s.active.link.own
        ∧ s.partAddress = s.active.link.address ∧ s.engineerAddress = s.active.link.engineer
        ∧ s.isolation = s.active.link.isolation ∧ s.babbleLimit = s.active.link.babbleLimit
        ∧ s.autoRejoin = s.active.link.autoRejoin)
      ∧ (s.active.status = .blank → (∀ side, s.slotsOf side = (s.port side).adoptedS)
        ∧ (∀ side slots, s.timingPort = some side → (s.port side).adoptedS = some slots → s.ownSlots = [slots - 1])
        ∧ s.partAddress = 62 ∧ s.engineerAddress = 63 ∧ s.isolation = false ∧ s.babbleLimit = 15 ∧ s.autoRejoin = false))

/-- An own slot with entries to send (R82, R83): a TRIP frame of at most 11 commands goes out, each entry it carries is sent once, and an
entry without a confirm point whose last repeat this was leaves the queue; the others stand as they were, and the holder is not
touched.
The order of a TRIP frame (R82): an entry is carried before another when its priority is higher, or in list order when they are equal;
and an entry with repeats remaining is left out only when 11 of at least its priority are carried.
Its words (R84 and section 11.1): the command count; for each entry its destination, output, priority and repeat ordinal less 1, which
is the times it was sent before; then the lowest operation id of its reference set, 0 for an empty one, and its action. -/
def Obligations.OwnSlotSendsTripsFirst : Prop :=
  (∀ (s : State) (start slot : Nat), s.held = false → s.ownSlotAt start = some slot → s.QueueBounded →
      s.tripEntries ≠ [] →
      let finished := fun e : Entry =>
        s.tripEntries.contains e && decide (e.repeats ≤ 1) && (s.active.action e.action).confirm.isNone
      ∃ t, exec (.ownSlotStart start) s = .next t
        ∧ s.tripEntries.length ≤ 11 ∧ (∀ e ∈ s.tripEntries, e ∈ s.queue.entries ∧ 0 < e.repeats)
        ∧ t.out = (s.ownSent slot (s.ownFrame 2 63 (tripPayload s.tripEntries))).out
        ∧ t.link = (s.ownSent slot (s.ownFrame 2 63 (tripPayload s.tripEntries))).link
        ∧ t.queue.nextOrder = s.queue.nextOrder
        ∧ t.queue.entries = (s.queue.entries.filter (fun e => !finished e)).map (fun e => if e ∈ s.tripEntries then
            { e with repeats := e.repeats - 1, sent := e.sent + 1, state := if 1 < e.repeats then .sending else .await }
            else e)
        ∧ t.agent = s.agent ∧ t.monitor = s.monitor ∧ t.engine = s.engine ∧ t.points = s.points ∧ t.banks = s.banks)
  ∧ (∀ s : State, (∀ e ∈ s.queue.entries, e.priority ≤ 3) →
      s.tripEntries.Pairwise (fun x y => y.priority ≤ x.priority)
      ∧ (∀ p, s.tripEntries.filter (fun e => e.priority = p)
          <+: s.queue.entries.filter (fun e => 0 < e.repeats ∧ e.priority = p))
      ∧ ∀ e ∈ s.queue.entries, 0 < e.repeats → e ∉ s.tripEntries →
        s.tripEntries.length = 11 ∧ ∀ x ∈ s.tripEntries, e.priority ≤ x.priority)
  ∧ (∀ l : List Entry, l.length ≤ 11 →
      (tripPayload l).length = 1 + 2 * l.length ∧ bits ((tripPayload l).getD 0 0) 0 4 = l.length
      ∧ ∀ i e, l[i]? = some e → e.destination < 64 → e.output < 16 → e.priority < 4 → e.sent < 4 → e.action < 128 →
        (∀ id ∈ e.refs, id < 256) →
        let first := (tripPayload l).getD (1 + 2 * i) 0
        let second := (tripPayload l).getD (2 + 2 * i) 0
        bits first 10 6 = e.destination ∧ bits first 6 4 = e.output ∧ bits first 4 2 = e.priority ∧ bits first 2 2 = e.sent
        ∧ bits second 0 7 = e.action ∧ (e.refs = [] → bits second 8 8 = 0)
        ∧ (e.refs ≠ [] → bits second 8 8 ∈ e.refs ∧ ∀ id ∈ e.refs, bits second 8 8 ≤ id))

/-! ### Receiving -/

/-- A valid matching MARKER in DOWN is taken and starts acquisition; the fourth taken at expected positions locks the port (R145,
R146).
On a LOCKED port (R147, R149, R151): a matching MARKER at the expected position is repeated and taken, and lets one strike leak
when no babble was seen since the last; a valid MARKER with another S takes the port to DOWN with its counters kept.
On an ACQUIRING port (R146) a matching MARKER off the expected position is a new start, and one with another S takes the port to DOWN.
On an ISOLATED port (R152, R153) a matching MARKER at the expected position is taken and adds to the babble-free run, or clears it when
babble was seen, and with auto-rejoin the 256th takes the port to ACQUIRING; one elsewhere is a new start; one with another S leaves
the port without a position. What the miss and acquisition counts of an ISOLATED port then show is log 33, that the run is kept at the
rejoin is log 16, and that a strike leaks in ISOLATED too is log 15. That the ISOLATED port without an expected position has no cycle
position is log 36.
A matching MARKER on a LOCKED port off the expected position is repeated and changes nothing. That a MARKER is repeated, stripped or
counted in SLOT_CONFLICT by R149 alone, and used for timing by R147 alone, whichever R149 did, is log 14. One with another S, or with
an S outside 4..32, is not taken in DOWN. -/
def Obligations.MarkersTakenByAPort : Prop :=
  (∀ (s : State) (rx : Reception) (payload : Word), s.held = false → 4 ≤ bits payload 0 6 → bits payload 0 6 ≤ 32 →
      ((s.port rx.port).state = .down →
        (s.active.status ≠ .blank → s.active.link.slots = bits payload 0 6) →
        (s.active.status = .blank → (s.port rx.port).adoptedS = none) →
        ∃ t, exec (.marker rx payload) s = .next t
          ∧ t.port rx.port = { s.port rx.port with
              state := .acquiring, acquisition := 1, miss := 0, position := some rx.start, cycle := some rx.cycle
              strikes := (t.port rx.port).strikes, babbleSeen := false
              adoptedS := if s.active.status = .blank then some (bits payload 0 6) else (s.port rx.port).adoptedS }
          ∧ t.link.lastCycle = rx.cycle ∧ t.port rx.port.other = s.port rx.port.other
          ∧ t = { s with out := [], link := t.link })
      ∧ ∀ pos, (s.port rx.port).state = .acquiring → s.slotsOf rx.port = some (bits payload 0 6) →
        (s.port rx.port).position = some pos → rx.start = pos + 32 * bits payload 0 6 →
        ∃ t, exec (.marker rx payload) s = .next t
          ∧ (t.port rx.port).state = (if 3 ≤ (s.port rx.port).acquisition then .locked else .acquiring)
          ∧ (t.port rx.port).acquisition = (s.port rx.port).acquisition + 1 ∧ (t.port rx.port).miss = 0
          ∧ (t.port rx.port).position = some rx.start ∧ (t.port rx.port).cycle = some rx.cycle
          ∧ t.link.lastCycle = rx.cycle ∧ t.port rx.port.other = s.port rx.port.other
          ∧ t = { s with out := [], link := t.link })
  ∧ (∀ (s : State) (rx : Reception) (payload : Word) (slot : Nat), s.HandsOn rx [payload] slot →
      (∀ pos, s.slotsOf rx.port = some (bits payload 0 6) → 4 ≤ bits payload 0 6 → bits payload 0 6 ≤ 32 →
        (s.port rx.port).position = some pos → rx.start = pos + 32 * bits payload 0 6 →
        ∃ t, exec (.marker rx payload) s = .next t
          ∧ t.port rx.port = { s.port rx.port with
              position := some rx.start, cycle := some rx.cycle, miss := 0, babbleSeen := false
              strikes := (s.port rx.port).strikes - (if (s.port rx.port).babbleSeen then 0 else 1) }
          ∧ t.link.lastCycle = rx.cycle ∧ t.port rx.port.other = s.port rx.port.other
          ∧ t = { s.repeated rx 0 [payload] slot with link := t.link })
      ∧ (∀ pos, s.slotsOf rx.port = some (bits payload 0 6) → 4 ≤ bits payload 0 6 → bits payload 0 6 ≤ 32 →
        (s.port rx.port).position = some pos → rx.start ≠ pos + 32 * bits payload 0 6 →
        exec (.marker rx payload) s = .next (s.repeated rx 0 [payload] slot))
      ∧ (s.slotsOf rx.port ≠ some (bits payload 0 6) ∨ bits payload 0 6 < 4 ∨ 32 < bits payload 0 6 →
        ∃ t, exec (.marker rx payload) s = .next t
          ∧ t.port rx.port = .down (s.port rx.port).counters ∧ t.port rx.port.other = s.port rx.port.other
          ∧ t.link.lastCycle = s.link.lastCycle ∧ t = { s.repeated rx 0 [payload] slot with link := t.link }))
  ∧ (∀ (s : State) (rx : Reception) (payload : Word), s.held = false → 4 ≤ bits payload 0 6 → bits payload 0 6 ≤ 32 →
      let p := s.port rx.port
      let matched := s.slotsOf rx.port = some (bits payload 0 6)
      let leaked := p.strikes - (if p.babbleSeen then 0 else 1)
      ∃ t, exec (.marker rx payload) s = .next t
        ∧ (p.state = .acquiring → matched → (∀ pos, p.position = some pos → rx.start ≠ pos + 32 * bits payload 0 6) →
            t.port rx.port = { p with acquisition := 1, miss := 0, position := some rx.start, cycle := some rx.cycle
                                      strikes := leaked, babbleSeen := false })
        ∧ (p.state = .acquiring → ¬ matched → t.port rx.port = .down p.counters)
        ∧ (∀ pos, p.state = .isolated → matched → p.position = some pos → rx.start = pos + 32 * bits payload 0 6 →
            let run := if p.babbleSeen then 0 else min 256 (p.babbleFree + 1)
            t.port rx.port =
              if run = 256 ∧ s.autoRejoin = true then
                { p with state := .acquiring, position := some rx.start, cycle := some rx.cycle, acquisition := 0, miss := 0
                         strikes := 0, babbleSeen := false, babbleFree := 256 }
              else { p with position := some rx.start, cycle := some rx.cycle, strikes := leaked, babbleSeen := false
                            babbleFree := run })
        ∧ (p.state = .isolated → matched → (∀ pos, p.position = some pos → rx.start ≠ pos + 32 * bits payload 0 6) →
            t.port rx.port = { p with position := some rx.start, cycle := some rx.cycle, strikes := leaked
                                      babbleSeen := false, babbleFree := 0 })
        ∧ (p.state = .isolated → ¬ matched → t.port rx.port = { p with position := none, babbleFree := 0 })
        ∧ (p.state = .loopback → t = { s with out := [] })
        ∧ (p.state = .down → (∃ n, s.slotsOf rx.port = some n ∧ n ≠ bits payload 0 6) → t = { s with out := [] })
        ∧ (p.state ≠ .locked → t.port rx.port.other = s.port rx.port.other ∧ t = { s with out := [], link := t.link }))
  ∧ (∀ (s : State) (rx : Reception) (payload : Word), s.held = false → bits payload 0 6 < 4 ∨ 32 < bits payload 0 6 →
      let p := s.port rx.port
      ∃ t, exec (.marker rx payload) s = .next t
        ∧ (p.state = .down ∨ p.state = .loopback → t = { s with out := [] })
        ∧ (p.state = .acquiring → t.port rx.port = .down p.counters)
        ∧ (p.state = .isolated → t.port rx.port = { p with position := none, babbleFree := 0 })
        ∧ (p.state ≠ .locked → t.port rx.port.other = s.port rx.port.other ∧ t = { s with out := [], link := t.link }))
  ∧ (∀ (s : State) (rx : Reception) (payload : Word) (slot pos : Nat), s.held = false → (s.port rx.port).state = .locked →
      s.slotAt rx.port rx.start = some slot → (s.port rx.port).position = some pos →
      let p := s.port rx.port
      let slots := bits payload 0 6
      let matched := s.slotsOf rx.port = some slots ∧ 4 ≤ slots ∧ slots ≤ 32
      let struck := { p.counters with
        slotConflict := if p.counters.slotConflict = 65535 then 65535 else p.counters.slotConflict + 1 }
      let linkOnly := fun t : State => t.port rx.port.other = s.port rx.port.other ∧ t = { s with out := [], link := t.link }
      (rx.source.toNat = s.partAddress → matched → rx.start = pos + 32 * slots →
        ∃ t, exec (.marker rx payload) s = .next t ∧ linkOnly t ∧ t.link.lastCycle = rx.cycle
          ∧ t.port rx.port = { p with
              position := some rx.start, cycle := some rx.cycle, miss := 0, babbleSeen := false
              strikes := p.strikes - (if p.babbleSeen then 0 else 1) })
      ∧ (rx.source.toNat ≠ s.partAddress → s.ownSlots.contains slot = true →
        ∃ t, exec (.marker rx payload) s = .next t ∧ linkOnly t
          ∧ (matched → rx.start ≠ pos + 32 * slots → t.port rx.port = { p with counters := struck })
          ∧ (¬ matched → t.port rx.port = .down struck)))

/-- An expected position without a MARKER, in ACQUIRING or LOCKED (R146, R147): MARKER_MISSED counts, the cycle position runs on, and
the third consecutive miss takes the port to DOWN with its counters kept. On an ISOLATED port the position runs on and the babble-free
run goes to 0, nothing is counted, and the port stays ISOLATED (R152; that its miss count stays too is log 33). -/
def Obligations.ThirdMissTakesAPortDown : Prop :=
  (∀ (s : State) (side : Side) (pos slots : Nat), s.held = false →
    (s.port side).state = .acquiring ∨ (s.port side).state = .locked → (s.port side).position = some pos →
    s.slotsOf side = some slots →
    let counters := { (s.port side).counters with
      markerMissed := if (s.port side).counters.markerMissed = 65535 then 65535
        else (s.port side).counters.markerMissed + 1 }
    ∃ t, exec (.missedMarker side) s = .next t
      ∧ ((s.port side).miss < 2 → t.port side = { s.port side with
          miss := (s.port side).miss + 1, position := some (pos + 32 * slots), counters := counters
          acquisition := if (s.port side).state = .acquiring then 0 else (s.port side).acquisition })
      ∧ (2 ≤ (s.port side).miss → t.port side = .down counters)
      ∧ t.port side.other = s.port side.other ∧ t.link.lastCycle = s.link.lastCycle
      ∧ t = { s with out := [], link := t.link })
  ∧ (∀ (s : State) (side : Side) (pos slots : Nat), s.held = false → (s.port side).state = .isolated →
      (s.port side).position = some pos → s.slotsOf side = some slots →
      exec (.missedMarker side) s = .next (State.setPort { s with out := [] } side
        { s.port side with position := some (pos + 32 * slots), babbleFree := 0 }))

/-- A babbling slot (R151, R152): a strike up to 15 and babble seen; on a LOCKED port with isolation enabled, a strike that reaches the
limit isolates the port and raises PORT_ISOLATED; an ISOLATED port only sees the babble; a DOWN port or one in LOOPBACK detects none.
That an ISOLATED or ACQUIRING port without a cycle position detects babble too is log 36. -/
def Obligations.BabbleStrikesAndIsolates : Prop :=
  ∀ (s : State) (side : Side), s.held = false →
    let p := s.port side
    ∃ t, exec (.babble side) s = .next t
      ∧ ((p.state = .down ∨ p.state = .loopback) → t = { s with out := [] })
      ∧ (p.state = .isolated → t.port side = { p with babbleSeen := true } ∧ t.notices = s.notices)
      ∧ ((p.state = .acquiring ∨ (p.state = .locked ∧ (s.isolation = false ∨ min 15 (p.strikes + 1) < s.babbleLimit))) →
          t.port side = { p with strikes := min 15 (p.strikes + 1), babbleSeen := true } ∧ t.notices = s.notices)
      ∧ (p.state = .locked → s.isolation = true → s.babbleLimit ≤ min 15 (p.strikes + 1) →
          t.port side = { p with state := .isolated, strikes := min 15 (p.strikes + 1), babbleSeen := true, babbleFree := 0 }
          ∧ t.notices = { s.notices with portIsolated := true })
      ∧ t.port side.other = s.port side.other
      ∧ t = { s with out := [], link := t.link, notices := t.notices }

/-- The four ways Intake turns a PUBLISH frame away or discards it (R129 to R132): each counts 1, saturating, the frame is repeated
all the same, and no point is touched. The publishing station is the enabled entry that holds the frame's source address, of the lowest
index if there were two (R129; log 29). -/
def Obligations.PublicationTurnedAway : Prop :=
  (∀ (s : State) (a : Address),
      let holds := fun i => (s.active.station i).enable = true ∧ (s.active.station i).address = a.toNat
      (∀ i, s.stationOf a = some i ↔ i < 32 ∧ holds i ∧ ∀ j < i, ¬ holds j) ∧ (s.stationOf a = none ↔ ∀ i < 32, ¬ holds i))
  ∧ ∀ (s : State) (rx : Reception) (payload : List Word) (slot : Nat), s.HandsOn rx payload slot →
    let up := fun c : Word => if c = 65535 then 65535 else c + 1
    let base := s.repeated rx 1 payload slot
    (s.stationOf rx.source = none →
      exec (.publish rx payload) s = .next
        { base with intake := { s.intake with unknownSource := up s.intake.unknownSource } })
    ∧ ∀ i, s.stationOf rx.source = some i →
      ((s.active.station i).slot ≠ slot →
        exec (.publish rx payload) s = .next { base with intake := { s.intake with misplaced := up s.intake.misplaced } })
      ∧ ((s.active.station i).slot = slot → (s.station i).lastCycle = some rx.cycle →
        exec (.publish rx payload) s = .next { base with intake := { s.intake with
          stations := s.intake.stations.modify i (fun r => { r with duplicate := up r.duplicate }) } })
      ∧ ((s.active.station i).slot = slot → (s.station i).lastCycle ≠ some rx.cycle → 0 < (s.station i).rejoinLeft →
        i < s.intake.stations.length →
        exec (.publish rx payload) s = .next { base with intake := { s.intake with
          stations := s.intake.stations.modify i (fun r => { r with
            lastCycle := some rx.cycle, rejoinLeft := r.rejoinLeft - 1, rejoinDiscard := up r.rejoinDiscard }) } })

/-- An accepted publication that is no rejoin discard (R115, R131, R133): it is repeated and counted toward the window, and every enabled
point of the station whose word the payload reaches records the word and, unless FORCED, is decoded with the quality of the station's
freshness; every other point is kept, and beyond the points only the service of contingencies may follow: the event is an update of
those of the points that are not FORCED, with the evaluations, confirmations, express serves, closures and take that follow it (R50,
R55, R111). -/
def Obligations.PublicationUpdatesPoints : Prop :=
  ∀ (s : State) (rx : Reception) (payload : List Word) (slot i : Nat), s.HandsOn rx payload slot → s.TablesWhole →
    s.stationOf rx.source = some i → (s.active.station i).slot = slot → (s.station i).lastCycle ≠ some rx.cycle →
    (s.station i).rejoinLeft = 0 →
    ∃ t, exec (.publish rx payload) s = .next t
      ∧ (∀ p < 256,
          let e := s.active.point p
          let w := payload.getD e.offset 0
          t.point p =
            if e.kind ≠ .disabled ∧ e.source = i ∧ e.offset < payload.length then
              if (s.point p).quality = .forced then { s.point p with lastRaw := some w }
              else match e.decode w with
                | none => { s.point p with lastRaw := some w, quality := .invalid, holdStart := none }
                | some v => ⟨v, if (s.station i).freshness ∈ [Freshness.fresh, .unknown] then .good else .suspect, none,
                    some w⟩
            else s.point p)
      ∧ State.ServiceOnly { s.repeated rx 1 payload slot with
          points := t.points
          intake := { s.intake with stations := s.intake.stations.modify i (fun r => { r with
            lastCycle := some rx.cycle, windowCount := min 255 (r.windowCount + 1) }) } } t
      ∧ ∃ updated : List Nat,
          (∀ p, p ∈ updated ↔ p < 256 ∧ (s.active.point p).kind ≠ .disabled ∧ (s.active.point p).source = i
            ∧ (s.active.point p).offset < payload.length ∧ (s.point p).quality ≠ .forced)
          ∧ State.UpdateEvent { s.repeated rx 1 payload slot with
              points := t.points
              intake := { s.intake with stations := s.intake.stations.modify i (fun r => { r with
                lastCycle := some rx.cycle, windowCount := min 255 (r.windowCount + 1) }) } } s.points updated t

/-- R112. An analog word is read as its format says, the raw zero subtracted, the difference multiplied by the gain and divided by
1,024, rounded half away from zero, and clamped; a gain of 0 gives 0.
R113 and R114. A SINGLE point's value is its bit under its polarity; a DOUBLE point's is its pair, with 11 a fault of the
indication. -/
def Obligations.WordsDecodeToValues : Prop :=
  (∀ (e : PointEntry) (w : Word),
      let raw : Int := if e.unsigned then w.toNat else w.toInt
      let exact := roundHalfAway ((raw - e.rawZero) * e.gain) 1024
      (e.kind = .analog → e.decode w = some (.analog (e.scale w)))
      ∧ -32767 ≤ e.scale w ∧ e.scale w ≤ 32767
      ∧ (-32767 ≤ exact → exact ≤ 32767 → e.scale w = exact)
      ∧ (32767 < exact → e.scale w = 32767) ∧ (exact < -32767 → e.scale w = -32767)
      ∧ (e.gain = 0 → e.scale w = 0))
  ∧ (∀ (e : PointEntry) (w : Word),
      (e.kind = .single →
        e.decode w = some (.binary (if w.getLsbD e.bitNumber = e.oneIsClosed then .closed else .opened)))
      ∧ (e.kind = .double →
        e.decode w = match w.getLsbD (e.bitNumber + 1), w.getLsbD e.bitNumber with
          | false, true => some (.binary .opened)
          | true, false => some (.binary .closed)
          | false, false => some (.binary .intermediate)
          | true, true => none))

/-- A frame other than a MARKER, good or damaged, does nothing on a port that is not LOCKED (R146, R149, R152, R154): it is not repeated,
counted, offered or taken.
The three ways a good frame is handled on a LOCKED port (R149): stripped when it is the part's own and counted in SLOT_CONFLICT in an
own slot, a PUBLISH and a REQUEST of any code too, so that neither is offered or taken; and one of a kind of no row of its own is
repeated as received otherwise. So is a frame of kind MARKER whose payload is not one word, and a REQUEST with a payload that is not for
the part, or comes on another port than the timing port. That REQUEST_LOST does not occur with the holder empty is log 1.
A REPEATED_FRAME that carries a MARKER of one word, a PUBLISH or a REQUEST has the effect of the row of that frame (R149; log 13).
A looped frame counts LOOP_GOOD when it returned whole with a correct check word and LOOP_BAD otherwise (R154). -/
def Obligations.GoodFramesRepeatedAndLooped : Prop :=
  (∀ (s : State) (c : Instr) (side : Side) (start : Nat) (words : List Word), s.held = false →
      c.arrival = some (side, start, words) → (∀ rx w, c ≠ .marker rx w ∧ c ≠ .repeatedFrame rx 0 [w]) →
      (s.port side).state ≠ .locked → exec c s = .next { s with out := [] })
  ∧ (∀ (s : State) (c : Instr) (rx : Reception) (kind : BitVec 4) (payload : List Word) (slot : Nat), s.held = false →
      c.frame = some (rx, kind, payload) → (s.port rx.port).state = .locked → s.slotAt rx.port rx.start = some slot →
      payload.length ≤ 24 → (kind ≠ 0 ∨ payload.length ≠ 1) → (c = .requestLost rx payload → s.agent.holder ≠ none) →
      (rx.source.toNat = s.partAddress → exec c s = .next { s with out := [] })
      ∧ (rx.source.toNat ≠ s.partAddress → s.ownSlots.contains slot = true →
        exec c s = .next (State.setPort { s with out := [] } rx.port { s.port rx.port with
          counters := { (s.port rx.port).counters with
            slotConflict := if (s.port rx.port).counters.slotConflict = 65535 then 65535
              else (s.port rx.port).counters.slotConflict + 1 } })))
  ∧ (∀ (s : State) (rx : Reception) (kind : BitVec 4) (payload : List Word) (slot : Nat), s.HandsOn rx payload slot →
      (kind ≠ 0 ∨ payload.length ≠ 1) → kind ≠ 1 →
      (kind = 3 → payload ≠ [] ∧ (s.timingPort ≠ some rx.port ∨ (rx.dest.toNat ≠ s.partAddress
        ∧ (rx.dest ≠ 63 ∨ bits (payload.headD 0) 8 8 ≠ 1)))) →
      exec (.repeatedFrame rx kind payload) s = .next (s.repeated rx kind payload slot))
  ∧ (∀ (s : State) (rx : Reception),
      (∀ w, exec (.repeatedFrame rx 0 [w]) s = exec (.marker rx w) s)
      ∧ (∀ payload, exec (.repeatedFrame rx 1 payload) s = exec (.publish rx payload) s)
      ∧ (∀ code tag args, exec (.repeatedFrame rx 3 (requestPayload code tag args)) s = exec (.unknownRequest rx code tag args) s)
      ∧ ∀ (c : Instr) (v : RequestView), c.request = some v → c.wellFormed = true →
          exec (.repeatedFrame v.rx 3 (requestPayload v.code v.tag v.args)) s = exec c s)
  ∧ (∀ (s : State) (side : Side) (whole : Bool) (words : List Word), s.held = false → (s.port side).state = .loopback →
      let up := fun c : Word => if c = 65535 then 65535 else c + 1
      exec (.loopedFrame side whole words) s = .next (State.setPort { s with out := [] } side { s.port side with
        counters :=
          if damageOf whole words = none then
            { (s.port side).counters with loopGood := up (s.port side).counters.loopGood }
          else { (s.port side).counters with loopBad := up (s.port side).counters.loopBad } }))

/-- A damaged frame on a LOCKED port in a slot that is no own slot counts once (R148): a truncated one goes on padded to its length and
poisoned, one with a bad check word as received; a framing error sends at most two words, how many being a free
value (log 8).
In an own slot each of the three is counted in the same way and not repeated at all (R148). That the start marker of a frame with a
framing error leaves, even malformed, is log 8 too.
A frame whose start marker falls off word time 0 of a slot is a framing error (R140), whatever its words and its kind, a good frame, a
MARKER or a REQUEST too: it is counted, and not offered, taken or used for timing. What is sent of it ends with word time 27 of the slot
its marker falls in, and nothing is sent when that is an own slot (R148, R150; that slot is log 32). That REQUEST_LOST does not occur
with the holder empty is log 1. -/
def Obligations.DamagedFrameCountsOnce : Prop :=
  (∀ (s : State) (side : Side) (start slot : Nat) (whole : Bool) (words : List Word), s.held = false →
    (s.port side).state = .locked → s.slotAt side start = some slot → s.ownSlots.contains slot = false →
    let up := fun c : Word => if c = 65535 then 65535 else c + 1
    let counted := fun f : PortCounters → PortCounters =>
      State.setPort { s with out := [] } side { s.port side with counters := f (s.port side).counters }
    (damageOf whole words = some .badCheck →
      exec (.damagedFrame side start whole words) s = .next
        { counted (fun c => { c with check := up c.check }) with out := s.onward side (some slot) (wholeWords words) })
    ∧ (damageOf whole words = some .truncated →
      exec (.damagedFrame side start whole words) s = .next
        { counted (fun c => { c with truncated := up c.truncated }) with
          out := s.onward side (some slot) (truncatedWords words) })
    ∧ (damageOf whole words = some .framing →
      ∃ sent, sent.length ≤ 2 ∧ sent <+: words ∧ exec (.damagedFrame side start whole words) s = .next
        { counted (fun c => { c with framing := up c.framing }) with
          out := s.onward side (some slot) sent, freeIndex := s.freeIndex + 1 }))
  ∧ (∀ (s : State) (side : Side) (start slot : Nat) (whole : Bool) (words : List Word) (d : Damage), s.held = false →
    (s.port side).state = .locked → s.slotAt side start = some slot → s.ownSlots.contains slot = true →
    damageOf whole words = some d →
    let up := fun c : Word => if c = 65535 then 65535 else c + 1
    exec (.damagedFrame side start whole words) s = .next (State.setPort { s with out := [] } side { s.port side with
      counters := match d with
        | .framing => { (s.port side).counters with framing := up (s.port side).counters.framing }
        | .truncated => { (s.port side).counters with truncated := up (s.port side).counters.truncated }
        | .badCheck => { (s.port side).counters with check := up (s.port side).counters.check } }))
  ∧ (∀ (s : State) (c : Instr) (side : Side) (start pos slots : Nat) (words : List Word), s.held = false →
      c.arrival = some (side, start, words) → (∀ rx payload, c = .requestLost rx payload → s.agent.holder ≠ none) →
      (s.port side).state = .locked → s.slotsOf side = some slots → (s.port side).position = some pos → pos ≤ start →
      let slot := (start - pos) / 32 % slots
      let at' := (start - pos) % 32
      at' ≠ 0 →
      let counted := State.setPort { s with out := [] } side { s.port side with counters := { (s.port side).counters with
        framing := if (s.port side).counters.framing = 65535 then 65535 else (s.port side).counters.framing + 1 } }
      (s.ownSlots.contains slot = true → exec c s = .next counted)
      ∧ (s.ownSlots.contains slot = false → at' ≤ 27 → ∃ sent, sent.length ≤ 2 ∧ sent.length ≤ 27 - at' ∧ sent <+: words
        ∧ exec c s = .next { counted with out := s.onward side (some slot) sent, freeIndex := s.freeIndex + 1 })
      ∧ (s.ownSlots.contains slot = false → 27 < at' → exec c s = .next { counted with freeIndex := s.freeIndex + 1 }))

/-- A truncated frame as repeated has its declared length and fails every receiver's check: its last word is the complement of the
check word correct for the words before it (R148, R182).
A frame's words are the two header words, with their fields as section 11.1 lays them out, the payload, and the check word of all these.
The check word is formed bit by bit, most significant first, in a register that starts at 0 (R182); the poisoned word is the register
before the final inversion. -/
def Obligations.PoisonedFrameFailsTheCheck : Prop :=
  (∀ (kind source length cycle dest spare : Nat) (payload : List Word),
    let w := frameWords (headerWords kind source length cycle dest spare) payload
    w.length = payload.length + 3 ∧ HoldsFields (w.getD 0 0) [(12, 4, kind), (6, 6, source), (0, 6, length)]
    ∧ HoldsFields (w.getD 1 0) [(8, 8, cycle), (2, 6, dest), (0, 2, spare)] ∧ (w.drop 2).take payload.length = payload
    ∧ w.getD (payload.length + 2) 0 = checkWord (w.take (payload.length + 2)))
  ∧ (∀ words : List Word,
    let sent := words.flatMap (fun w => (List.range 16).map (fun i => w.getLsbD (15 - i)))
    let register := sent.foldl (fun (r : Word) b => if r.getLsbD 15 = b then r <<< 1 else (r <<< 1) ^^^ 0x3D65) 0
    checkWord words = ~~~ register ∧ poisonWord words = register)
  ∧ ∀ words : List Word, words ≠ [] → declaredLength (words.headD 0) ≤ 24 →
    (truncatedWords words).length = declaredLength (words.headD 0) + 3
    ∧ (words.length < declaredLength (words.headD 0) + 3 →
        ((truncatedWords words).take words.length).take (declaredLength (words.headD 0) + 2)
          = words.take (declaredLength (words.headD 0) + 2)
        ∧ damageOf true (truncatedWords words) = some .badCheck)
    ∧ ∀ header payload : List Word, header.length = 2 → payload.length ≤ 24 →
        declaredLength (header.headD 0) = payload.length → damageOf true (frameWords header payload) = none

/-! ### Requests -/

/-- A request that is refused changes nothing but the holder (R169, R170, R183): a write from a source that is not permitted is
answered NOT_PERMITTED, before anything else is judged; a payload of the wrong length is answered BAD_ARGUMENT, for every request.
So is an argument out of its range: of LOAD and READ TABLE a kind that is none of the eight, an entry or a run beyond the kind's, or a
count outside 1..20 (R163, R165); of READ STATE an object or first word that it does not have (R180); of READ COUNTERS a first word
beyond 81 (R181); of READ OPERATION LOG a start above 31 or a count outside 1..3 (R179); of PORT CONTROL a port or an action that is
none (R155). That the report length of a refused READ STATE is 0 is log 35. -/
def Obligations.RefusedRequestsChangeNothing : Prop :=
  (∀ (s : State) (c : Instr) (v : RequestView) (slot : Nat), c.request = some v →
    s.Takes v.rx v.code v.tag v.args slot →
    (v.write = true → s.engineerAddress ≠ 63 → s.engineerAddress ≠ v.rx.source.toNat →
      exec c s = .next
        ((s.requestRepeated v.rx v.code v.tag v.args slot).answered v.rx v.code v.tag .notPermitted 0 [] false))
    ∧ ((v.write = false ∨ s.engineerAddress = 63 ∨ s.engineerAddress = v.rx.source.toNat) → v.args.length ≠ v.needs →
      exec c s = .next
        ((s.requestRepeated v.rx v.code v.tag v.args slot).answered v.rx v.code v.tag .badArgument 0 [] false)))
  ∧ (∀ (s : State) (rx : Reception) (tag : Byte) (slot : Nat),
      let bad := fun (code : Byte) (args : List Word) => (.next ((s.requestRepeated rx code tag args slot).answered rx code tag
        .badArgument 0 [] false) : Host.Outcome State Fault Refusal)
      let misfit := fun (w run : Word) => ∀ k, TableKind.ofCode (bits w 8 4) = some k →
        k.entries ≤ bits w 0 8 ∨ bits run 0 8 = 0 ∨ 20 < bits run 0 8 ∨ k.width < bits run 8 8 + bits run 0 8
      (∀ w run data, s.TakesWrite rx 0x04 tag (w :: run :: data) slot → data.length = bits run 0 8 → misfit w run →
        exec (.load rx tag (w :: run :: data)) s = bad 0x04 (w :: run :: data))
      ∧ (∀ w run, s.Takes rx 0x03 tag [w, run] slot → misfit w run → exec (.readTable rx tag [w, run]) s = bad 0x03 [w, run])
      ∧ (∀ w first, s.Takes rx 0x02 tag [w, first] slot →
          (∀ n, [16, 64, 1, 1, 8, 32, 32, 256, 2][bits w 8 8]? = some n → n ≤ bits w 0 8)
            ∨ (∃ words, s.report (bits w 8 8) (bits w 0 8) = some words ∧ words ≠ [] ∧ words.length ≤ first.toNat) →
          exec (.readState rx tag [w, first]) s = bad 0x02 [w, first])
      ∧ (∀ first : Byte, 81 < first.toNat →
          (s.Takes rx 0x0F tag [readCountersWord first false] slot →
            exec (.readCounters rx tag (some first) []) s = bad 0x0F [readCountersWord first false])
          ∧ (s.TakesWrite rx 0x0F tag [readCountersWord first true] slot →
            exec (.readCountersClear rx tag first []) s = bad 0x0F [readCountersWord first true]))
      ∧ (∀ w, s.Takes rx 0x10 tag [w] slot → 31 < bits w 8 8 ∨ bits w 0 8 = 0 ∨ 3 < bits w 0 8 →
          exec (.readOperationLog rx tag [w]) s = bad 0x10 [w])
      ∧ (∀ port : Byte, 2 ≤ port.toNat →
          (s.TakesWrite rx 0x0E tag [portControlWord port 0] slot →
            exec (.portRestart rx tag port []) s = bad 0x0E [portControlWord port 0])
          ∧ (s.TakesWrite rx 0x0E tag [portControlWord port 1] slot →
            exec (.rejoin rx tag port []) s = bad 0x0E [portControlWord port 1])
          ∧ (s.TakesWrite rx 0x0E tag [portControlWord port 2] slot →
            exec (.loopbackOn rx tag port []) s = bad 0x0E [portControlWord port 2])
          ∧ (s.TakesWrite rx 0x0E tag [portControlWord port 3] slot →
            exec (.loopbackOff rx tag port []) s = bad 0x0E [portControlWord port 3]))
      ∧ (∀ port action : Byte, 4 ≤ action.toNat → s.TakesWrite rx 0x0E tag [portControlWord port action] slot →
          exec (.unknownRequest rx 0x0E tag [portControlWord port action]) s = bad 0x0E [portControlWord port action]))

/-- A code that is none of the eighteen is answered UNKNOWN_REQUEST (R170); a REQUEST that finds the holder full is lost, counted and
noticed, and has no reply (R168). That a row whose own effect is
another then does what a lost REQUEST does is log 13. -/
def Obligations.UnknownAndLostRequests : Prop :=
  (∀ (s : State) (rx : Reception) (code tag : Byte) (args : List Word) (slot : Nat), s.Takes rx code tag args slot →
    code = 0 ∨ 0x12 < code.toNat →
    exec (.unknownRequest rx code tag args) s = .next
      ((s.requestRepeated rx code tag args slot).answered rx code tag .unknownRequest 0 [] false))
  ∧ (∀ (s : State) (c : Instr) (v : RequestView) (slot : Nat), c.request = some v →
    s.Reaches v.rx v.code v.tag v.args slot → s.agent.holder ≠ none →
    exec c s = .next { s.requestRepeated v.rx v.code v.tag v.args slot with
      agent := { s.agent with
        requestLost := if s.agent.requestLost = 65535 then 65535 else s.agent.requestLost + 1 }
      notices := { s.notices with requestLost := true } })
  ∧ (∀ (s : State) (rx : Reception) (w : Word) (args : List Word) (slot : Nat), s.HandsOn rx (w :: args) slot →
    s.timingPort = some rx.port → rx.dest.toNat = s.partAddress → s.agent.holder ≠ none →
    exec (.requestLost rx (w :: args)) s = .next { s.repeated rx 3 (w :: args) slot with
      agent := { s.agent with
        requestLost := if s.agent.requestLost = 65535 then 65535 else s.agent.requestLost + 1 }
      notices := { s.notices with requestLost := true } })

/-- The reads answer with the state as it stands at the execution event and change nothing but the holder, and READ STATE the model's
free index (R165, R171, R172, R179, R180, R181; log 11). IDENTIFY is also answered when addressed to 63 (R168). The logic revision is a
free value (log 10).
What the reports hold (R180, section 11.3), for every object of the nine kinds: each field at its words and bits; an OPERATION beyond the
open ones and a LOG RECORD beyond the fill count give an empty report. The counter image has each counter at its place (R181), and a log
summary is the record's (R179). -/
def Obligations.ReadsAnswerFromTheState : Prop :=
  (∀ s : State,
    (∀ i < 16, ∃ w, s.report 0 i = some w ∧ (s.scheme i).Reported s.timeBase w)
    ∧ (∀ i < 64, ∃ w, s.report 1 i = some w ∧ s.ReportsCont i w)
    ∧ (∃ w, s.report 2 0 = some w ∧ s.ReportsEngine w)
    ∧ (∃ w, s.report 3 0 = some w ∧ s.ReportsQueue w)
    ∧ (∀ i < 8, (s.tracker.ops[i]? = none → s.report 4 i = some [])
        ∧ ∀ op, s.tracker.ops[i]? = some op → ∃ w, s.report 4 i = some w ∧ op.Reported 0 0 0 0 w)
    ∧ (∀ i < 32, (s.log.records[i]? = none → s.report 5 i = some [])
        ∧ ∀ r, s.log.records[i]? = some r → ∃ w, s.report 5 i = some w
          ∧ r.op.Reported (if r.outcome = .complete then 1 else 2) r.closeTime r.closeCycle r.seq w)
    ∧ (∀ i < 32, ∃ w, s.report 6 i = some w ∧ s.ReportsStation i w)
    ∧ (∀ i < 256, ∃ w, s.report 7 i = some w ∧ s.ReportsPoint i w)
    ∧ (∀ side i, (side, i) ∈ [(Side.east, 0), (.west, 1)] → ∃ w, s.report 8 i = some w ∧ (s.port side).Reported w)
    ∧ s.CountedBy s.counterImage ∧ ∀ r : LogRecord, r.SummedUp r.summary)
  ∧ ∀ (s : State) (rx : Reception) (tag : Byte) (slot : Nat),
    (s.HandsOn rx (requestPayload 0x01 tag []) slot → s.timingPort = some rx.port →
      rx.dest.toNat = s.partAddress ∨ rx.dest = 63 → s.agent.holder = none →
      exec (.identify rx tag []) s = .next ((s.requestRepeated rx 0x01 tag [] slot).answered rx 0x01 tag .done 0
        [0x4160, Config.logicRevision,
          packWord [(0, 6, s.partAddress), (6, 1, bitNat s.banks.activeB), (8, 2, s.banks.a.status.code),
            (10, 2, s.banks.b.status.code), (12, 1, bitNat s.arming.gateOpen),
            (13, 1, bitNat s.arming.startRequested)]] false))
    ∧ (∀ (w first : Word) (words : List Word), s.Takes rx 0x02 tag [w, first] slot →
      s.report (bits w 8 8) (bits w 0 8) = some words → words = [] ∨ first.toNat < words.length →
      exec (.readState rx tag [w, first]) s = .next
        (State.answered { s.requestRepeated rx 0x02 tag [w, first] slot with freeIndex := s.freeIndex + 1 } rx 0x02 tag
        .done words.length (longWords s.timeBase ++ (words.drop first.toNat).take 20) false))
    ∧ (∀ (w run : Word) (k : TableKind), s.Takes rx 0x03 tag [w, run] slot → TableKind.ofCode (bits w 8 4) = some k →
      bits w 0 8 < k.entries → 1 ≤ bits run 0 8 → bits run 0 8 ≤ 20 → bits run 8 8 + bits run 0 8 ≤ k.width →
      let bank := if bit w 15 then s.banks.b else s.banks.a
      exec (.readTable rx tag [w, run]) s = .next ((s.requestRepeated rx 0x03 tag [w, run] slot).answered rx 0x03 tag
        .done 0 (BitVec.ofNat 16 bank.status.code
          :: (List.range (bits run 0 8)).map (fun j => bank.word k (bits w 0 8) (bits run 8 8 + j))) false))
    ∧ (∀ first : Byte, s.Takes rx 0x0F tag [readCountersWord first false] slot → first.toNat ≤ 81 →
      exec (.readCounters rx tag (some first) []) s = .next
        ((s.requestRepeated rx 0x0F tag [readCountersWord first false] slot).answered rx 0x0F tag .done 0
          ((s.counterImage.drop first.toNat).take 20) false))
    ∧ (∀ w : Word, s.Takes rx 0x10 tag [w] slot → bits w 8 8 ≤ 31 → 1 ≤ bits w 0 8 → bits w 0 8 ≤ 3 →
      exec (.readOperationLog rx tag [w]) s = .next ((s.requestRepeated rx 0x10 tag [w] slot).answered rx 0x10 tag .done 0
        (BitVec.ofNat 16 s.log.records.length
          :: ((s.log.records.drop (bits w 8 8)).take (bits w 0 8)).flatMap LogRecord.summary) false))

/-- LOAD replaces a run of words of one entry image of the shadow bank, which becomes MODIFIED, and touches no other word of either
bank; COPY ACTIVE TO SHADOW makes the shadow equal to the active bank, status and all (R163, R164). No two words of the eight
tables share an address: the address map is the model's own (log 21). -/
def Obligations.LoadAndCopyWriteTheShadow : Prop :=
  (∀ (s : State) (rx : Reception) (tag : Byte) (slot : Nat) (w run : Word) (data : List Word) (k : TableKind),
    s.TakesWrite rx 0x04 tag (w :: run :: data) slot → TableKind.ofCode (bits w 8 4) = some k → bits w 0 8 < k.entries →
    1 ≤ bits run 0 8 → bits run 0 8 ≤ 20 → bits run 8 8 + bits run 0 8 ≤ k.width → data.length = bits run 0 8 →
    s.BanksCanonical →
    let start := k.address (bits w 0 8) (bits run 8 8)
    ∃ t, exec (.load rx tag (w :: run :: data)) s = .next t
      ∧ t = { (s.requestRepeated rx 0x04 tag (w :: run :: data) slot).answered rx 0x04 tag .done 0 [] false with
          banks := t.banks }
      ∧ t.banks.activeB = s.banks.activeB ∧ t.active = s.active ∧ t.shadow.status = .modified
      ∧ ∀ a, t.shadow.words.read a =
          if start ≤ a ∧ a < start + data.length then data.getD (a - start) 0 else s.shadow.words.read a)
  ∧ (∀ (s : State) (rx : Reception) (tag : Byte) (slot : Nat), s.TakesWrite rx 0x05 tag [] slot →
    ∃ t, exec (.copyActiveToShadow rx tag []) s = .next t
      ∧ t = { (s.requestRepeated rx 0x05 tag [] slot).answered rx 0x05 tag .done 0 [] false with banks := t.banks }
      ∧ t.banks.activeB = s.banks.activeB ∧ t.active = s.active ∧ t.shadow = s.active)
  ∧ (∀ (k k' : TableKind) (e e' j j' : Nat), e < k.entries → e' < k'.entries → j < k.width → j' < k'.width →
    k.address e j = k'.address e' j' → k = k' ∧ e = e' ∧ j = j')

/-- COMMIT is refused with BUSY while the engine is SERVING, an operation is open or the queue holds an entry, and answered
VALIDATION_FAILED with the failing check's kind, entry and number when the shadow bank fails one; either way nothing else changes
(R166). A BLANK bank fails check 1 of the Link Table.
A bank fails no check exactly when every entry validation examines lies within its ranges and refers to what it may: the Link Table
(R142), the enabled stations (R125) and points (R108), the actions (R67), the shed list positions (R33), the enabled schemes (R3) and
contingencies, and the express designations (R47). That two equal designations fail even where they name a disabled contingency is
log 18. The check reported is one the bank fails, and no check before it in the order of R166 fails: table by table, entry by entry,
check by check, then contingency check 8 for express A, for express B, and check 9. -/
def Obligations.CommitRefused : Prop :=
  (∀ (s : State) (rx : Reception) (tag : Byte) (slot : Nat), s.TakesWrite rx 0x06 tag [] slot →
    let base := s.requestRepeated rx 0x06 tag [] slot
    (s.engine ≠ none ∨ s.tracker.ops ≠ [] ∨ s.queue.entries ≠ [] →
      exec (.commit rx tag []) s = .next (base.answered rx 0x06 tag .busy 0 [] false))
    ∧ (∀ f, s.engine = none → s.tracker.ops = [] → s.queue.entries = [] → s.shadow.failure = some f →
      exec (.commit rx tag []) s = .next (base.answered rx 0x06 tag .validationFailed 0
        [BitVec.ofNat 16 f.kind.code, BitVec.ofNat 16 f.entry, BitVec.ofNat 16 f.check] false))
    ∧ (s.shadow.status = .blank → s.shadow.words = [] → s.shadow.failure = some ⟨.link, 0, 1⟩))
  ∧ (∀ b : Bank, b.failure = none ↔ b.Passes)
  ∧ ∀ (b : Bank) (f : Failure), b.failure = some f → b.Fails f ∧ ∀ g, b.Fails g → b.place f ≤ b.place g

/-- A successful COMMIT (R5, R6, R42, R49, R110, R127, R143, R166, R167): the banks swap, the new active bank is VALID and the new shadow
unchanged; points, stations, schemes, contingencies and images restart from the new bank, with the hard-trip requests and the
counters kept; the ports go to DOWN when the S, the own slots or the part address in force changes, and are kept otherwise; the gate
opens if the settle interval has ended and START is requested. What S was in force under a BLANK active bank is log 17. -/
def Obligations.CommitSwapsTheBanks : Prop :=
  ∀ (s : State) (rx : Reception) (tag : Byte) (slot : Nat), s.TakesWrite rx 0x06 tag [] slot → s.TablesWhole →
    s.engine = none → s.tracker.ops = [] → s.queue.entries = [] → s.shadow.failure = none →
    let new := s.shadow
    let opened := s.arming.gateOpen || (s.arming.settleEnded && s.arming.startRequested)
    ∃ t, exec (.commit rx tag []) s = .next t
      ∧ t.active = { new with status := .valid } ∧ t.shadow = s.active ∧ t.banks.activeB = !s.banks.activeB
      ∧ t.arming.gateOpen = opened ∧ t.arming.startRequested = s.arming.startRequested
      ∧ t.arming.settleEnded = s.arming.settleEnded
      ∧ t.arming.nextEvaluation = some (s.timeBase + BitVec.ofNat 32 new.params.interval)
      ∧ (∀ i < 16, t.scheme i =
          ⟨if (new.scheme i).enable then (if opened then .disarmed else .gated) else .off, 0, 0, 0, none, 0, 0, 0,
            (s.scheme i).hardTrip, none, none⟩)
      ∧ (∀ p < 256, t.point p = ⟨(new.point p).kind.initial, .invalid, none, none⟩)
      ∧ (∀ i < 32, t.station i =
          ⟨.unknown, 0, s.timeBase, none, 0, (s.station i).duplicate, (s.station i).rejoinDiscard⟩)
      ∧ (∀ c < 64, t.cont c = ⟨.idle, 0, 0, .unknown, false⟩) ∧ t.monitor.lastServed = none
      ∧ t.monitor.imageA = ⟨.invalid, [], []⟩ ∧ t.monitor.imageB = ⟨.invalid, [], []⟩
      ∧ t.monitor.gatedDetection = s.monitor.gatedDetection ∧ t.intake.misplaced = s.intake.misplaced
      ∧ t.intake.unknownSource = s.intake.unknownSource ∧ t.agent.requestLost = s.agent.requestLost
      ∧ (s.linkChanged new = true → ∀ side, t.port side = .down (s.port side).counters)
      ∧ (s.linkChanged new = false → t.link = s.link)
      ∧ (s.active.status ≠ .blank →
          (s.linkChanged new = true ↔ s.active.link.slots ≠ new.link.slots
            ∨ (∃ k, (k ∈ s.active.link.own ∧ k ∉ new.link.own) ∨ (k ∈ new.link.own ∧ k ∉ s.active.link.own))
            ∨ s.active.link.address ≠ new.link.address))
      ∧ t.agent.holder = some ⟨rx.source, [(0x06 : Byte) ++ tag, 0], false⟩ ∧ t.notices = s.notices ∧ t.log = s.log
      ∧ t.tracker = s.tracker ∧ t.queue = s.queue ∧ t.engine = none ∧ t.timeBase = s.timeBase

/-- The start gate (R25 to R28, R120). START sets its flag, and opens the gate when the settle interval has ended and the active bank is
VALID: every GATED scheme goes to DISARMED with its counts 0, every FORCED point is unforced, and beyond that only the service of
contingencies may follow, which can latch a hard-trip request of these schemes and of the OFF ones and does nothing else to them.
CLOSE GATE is refused with BUSY
while work is in flight; taken, it closes the gate, clears the flag and gates every scheme that is not OFF.
The settle interval ends when the time base reaches 2,000 ms, and opens the gate in the same way when START is requested and the
active bank is VALID; otherwise the gate stays as it is (R25). Unforcing at the opening is one update of the points that were FORCED,
with the evaluations and the take that follow it (R50, R111, R120). -/
def Obligations.SettleIntervalAndGate : Prop :=
  let disarmed := fun r : SchemeRec => if r.state = .gated then
    { r with state := .disarmed, armCount := 0, disarmCount := 0, stress := 0, backstop := 0, selection := none } else r
  let opening := fun (agent : AgentState) (s t : State) =>
    t.arming.gateOpen = true ∧ t.arming.startRequested = true ∧ t.arming.settleEnded = true
    ∧ t.points = s.points.map (fun p => if p.quality = .forced then { p with quality := .invalid, holdStart := none } else p)
    ∧ (∀ i, (s.scheme i).state = .gated ∨ (s.scheme i).state = .off →
        t.scheme i = { disarmed (s.scheme i) with hardTrip := (t.scheme i).hardTrip }
        ∧ ((s.scheme i).hardTrip = true → (t.scheme i).hardTrip = true))
    ∧ State.ServiceOnly { s with
        points := t.points
        arming := { s.arming with startRequested := true, gateOpen := true, settleEnded := true } } t
    ∧ (s.TablesWhole → ∃ (updated : List Nat) (u : State),
        (∀ p, p ∈ updated ↔ p < 256 ∧ (s.point p).quality = .forced)
        ∧ State.UpdateEvent { s with
            agent := agent
            points := t.points
            arming := { s.arming with
              startRequested := true, gateOpen := true, settleEnded := true, schemes := s.arming.schemes.map disarmed } }
          s.points updated u
        ∧ t = { u with agent := s.agent })
  (∀ (s : State) (rx : Reception) (tag : Byte) (slot : Nat),
      (s.TakesWrite rx 0x07 tag [] slot →
        let base := (s.requestRepeated rx 0x07 tag [] slot).answered rx 0x07 tag .done 0 [] false
        (s.arming.gateOpen = true ∨ s.arming.settleEnded = false ∨ s.active.status ≠ .valid →
          exec (.start rx tag []) s = .next { base with arming := { s.arming with startRequested := true } })
        ∧ (s.arming.gateOpen = false → s.arming.settleEnded = true → s.active.status = .valid →
          ∃ t, exec (.start rx tag []) s = .next t
            ∧ opening s.agent base t
            ∧ (s.ClosedMeansQuiet → (∀ p ∈ s.points, p.quality ≠ .forced) →
                t = { base with arming := { s.arming with
                  startRequested := true
                  gateOpen := true
                  schemes := s.arming.schemes.map disarmed } })))
      ∧ (s.TakesWrite rx 0x08 tag [] slot →
        let base := s.requestRepeated rx 0x08 tag [] slot
        (s.engine ≠ none ∨ s.tracker.ops ≠ [] ∨ s.queue.entries ≠ [] →
          exec (.closeGate rx tag []) s = .next (base.answered rx 0x08 tag .busy 0 [] false))
        ∧ (s.engine = none → s.tracker.ops = [] → s.queue.entries = [] →
          exec (.closeGate rx tag []) s = .next { base.answered rx 0x08 tag .done 0 [] false with
            arming := { s.arming with
              startRequested := false
              gateOpen := false
              schemes := s.arming.schemes.map (fun r => if r.state = .off then r else
                { r with state := .gated, armCount := 0, disarmCount := 0, stress := 0, backstop := 0, selection := none,
                         resetTimer := none }) } })))
  ∧ (∀ s : State, s.held = false → s.timeBase = 2000 → s.arming.settleEnded = false →
      (s.arming.startRequested = false ∨ s.active.status ≠ .valid ∨ s.arming.gateOpen = true →
        exec .settleIntervalEnd s = .next { s with out := [], arming := { s.arming with settleEnded := true } })
      ∧ (s.arming.startRequested = true → s.active.status = .valid → s.arming.gateOpen = false →
        ∃ t, exec .settleIntervalEnd s = .next t ∧ opening s.agent { s with out := [] } t))

/-- RESET SCHEME, RESTORE MARGIN and RELEASE HARD TRIP (R13, R24, R104), addressed to one scheme or, by 0x00FF, to all: what each does to
the schemes addressed, and that it changes no other scheme and nothing else. RESET SCHEME is refused with BUSY when a scheme
addressed is OPERATING; an index outside its range is answered BAD_ARGUMENT. That the index is the whole word, so that 256..65,535 are
outside its range too, is log 34. -/
def Obligations.SchemeRequests : Prop :=
  ∀ (s : State) (rx : Reception) (tag : Byte) (slot : Nat) (w : Word), s.TablesWhole →
    let mine := fun i : Nat => w = 0x00FF ∨ w.toNat = i
    (s.TakesWrite rx 0x09 tag [w] slot →
      let base := s.requestRepeated rx 0x09 tag [w] slot
      (w ≠ 0x00FF → 16 ≤ w.toNat →
        exec (.resetScheme rx tag [w]) s = .next (base.answered rx 0x09 tag .badArgument 0 [] false))
      ∧ ((∃ i < 16, mine i ∧ (s.scheme i).state = .operating) →
        exec (.resetScheme rx tag [w]) s = .next (base.answered rx 0x09 tag .busy 0 [] false))
      ∧ (w = 0x00FF ∨ w.toNat < 16 → (∀ i < 16, mine i → (s.scheme i).state ≠ .operating) →
        ∃ t, exec (.resetScheme rx tag [w]) s = .next t
          ∧ t = { base.answered rx 0x09 tag .done 0 [] false with
              arming := { s.arming with schemes := t.arming.schemes } }
          ∧ ∀ i < 16, t.scheme i =
              if mine i ∧ (s.scheme i).state ∉ [SchemeState.off, .gated] then
                { s.scheme i with
                  state := .disarmed, armCount := 0, disarmCount := 0, stress := 0, selection := none
                  resetTimer := if (s.scheme i).state = .operated then none else (s.scheme i).resetTimer }
              else s.scheme i))
    ∧ (s.TakesWrite rx 0x0A tag [w] slot →
      let base := s.requestRepeated rx 0x0A tag [w] slot
      (w ≠ 0x00FF → 16 ≤ w.toNat →
        exec (.restoreMargin rx tag [w]) s = .next (base.answered rx 0x0A tag .badArgument 0 [] false))
      ∧ (w = 0x00FF ∨ w.toNat < 16 →
        ∃ t, exec (.restoreMargin rx tag [w]) s = .next t
          ∧ t = { base.answered rx 0x0A tag .done 0 [] false with
              arming := { s.arming with schemes := t.arming.schemes } }
          ∧ ∀ i < 16, t.scheme i =
              if mine i ∧ (s.scheme i).state ≠ .off then { s.scheme i with walk := 0, holdTimer := none, stress := 0 }
              else s.scheme i))
    ∧ (s.TakesWrite rx 0x0B tag [] slot →
      exec (.releaseHardTrip rx tag []) s = .next
        { (s.requestRepeated rx 0x0B tag [] slot).answered rx 0x0B tag .done 0 [] false with
          arming := { s.arming with schemes := s.arming.schemes.map (fun r => { r with hardTrip := false, backstop := 0 }) } })

/-- FORCE POINT and UNFORCE POINT (R118, R119): what each does to the points addressed, that no other point changes, and that beyond the
points only the service of contingencies may follow; a force is refused with REFUSED_GATE while the gate is open. Either is one update
of the point forced, or of the points unforced, with the evaluations and the take that follow it (R50, R111). A value suits an ANALOG
point when it is not −32,768, and a SINGLE or DOUBLE point when it is 0 INTERMEDIATE, 1 OPEN or 2 CLOSED; none suits a disabled one. -/
def Obligations.ForceAndUnforce : Prop :=
  (∀ (w : Word) (v : PointValue),
      PointKind.forceValue .disabled w = none
      ∧ (PointKind.forceValue .analog w = some v ↔ v = .analog w.toInt ∧ -32767 ≤ w.toInt)
      ∧ ∀ kind ∈ [PointKind.single, .double], kind.forceValue w = some v ↔
          (w = 0 ∧ v = .binary .intermediate) ∨ (w = 1 ∧ v = .binary .opened) ∨ (w = 2 ∧ v = .binary .closed))
  ∧ ∀ (s : State) (rx : Reception) (tag : Byte) (slot : Nat) (w : Word), s.TablesWhole →
    (∀ value, s.TakesWrite rx 0x0C tag [w, value] slot →
      let base := s.requestRepeated rx 0x0C tag [w, value] slot
      (s.arming.gateOpen = true →
        exec (.forcePoint rx tag [w, value]) s = .next (base.answered rx 0x0C tag .refusedGate 0 [] false))
      ∧ (s.arming.gateOpen = false → 256 ≤ w.toNat ∨ (s.active.point w.toNat).kind.forceValue value = none →
        exec (.forcePoint rx tag [w, value]) s = .next (base.answered rx 0x0C tag .badArgument 0 [] false))
      ∧ (∀ v, s.arming.gateOpen = false → w.toNat < 256 → (s.active.point w.toNat).kind.forceValue value = some v →
        ∃ t, exec (.forcePoint rx tag [w, value]) s = .next t
          ∧ State.ServiceOnly { base.answered rx 0x0C tag .done 0 [] false with
              points := s.points.modify w.toNat (fun p =>
                { p with value := v, quality := .forced, holdStart := none }) } t
          ∧ ∃ u, State.UpdateEvent { base with
                points := s.points.modify w.toNat (fun p => { p with value := v, quality := .forced, holdStart := none }) }
              s.points [w.toNat] u
            ∧ t = u.answered rx 0x0C tag .done 0 [] false))
    ∧ (s.TakesWrite rx 0x0D tag [w] slot →
      let base := s.requestRepeated rx 0x0D tag [w] slot
      (256 ≤ w.toNat → w ≠ 0xFFFF →
        exec (.unforcePoint rx tag [w]) s = .next (base.answered rx 0x0D tag .badArgument 0 [] false))
      ∧ (w = 0xFFFF ∨ w.toNat < 256 →
        ∃ t, exec (.unforcePoint rx tag [w]) s = .next t
          ∧ (∀ p < 256, t.point p =
              if (w = 0xFFFF ∨ w.toNat = p) ∧ (s.point p).quality = .forced then
                { s.point p with quality := .invalid, holdStart := none }
              else s.point p)
          ∧ State.ServiceOnly { base.answered rx 0x0D tag .done 0 [] false with points := t.points } t
          ∧ ∃ (updated : List Nat) (u : State),
              (∀ p, p ∈ updated ↔ p < 256 ∧ (w = 0xFFFF ∨ w.toNat = p) ∧ (s.point p).quality = .forced)
              ∧ State.UpdateEvent { base with points := t.points } s.points updated u
              ∧ t = u.answered rx 0x0D tag .done 0 [] false))

/-- PORT CONTROL (R153 to R155) on the East (0) or West (1) port; the reply is DONE except where LOOPBACK ON is refused, and nothing but
the link and the holder changes. That a REJOIN keeps the fields R153 does not name is log 16. -/
def Obligations.PortControl : Prop :=
  ∀ (s : State) (rx : Reception) (tag port : Byte) (slot : Nat) (side : Side),
    port = (match side with | .east => 0 | .west => 1) →
    let base := fun action : Byte => s.requestRepeated rx 0x0E tag [portControlWord port action] slot
    let done := fun (action : Byte) (t : State) =>
      t = { (base action).answered rx 0x0E tag .done 0 [] false with link := t.link }
      ∧ t.port side.other = s.port side.other ∧ t.link.lastCycle = s.link.lastCycle
    (s.TakesWrite rx 0x0E tag [portControlWord port 0] slot →
      ∃ t, exec (.portRestart rx tag port []) s = .next t ∧ done 0 t ∧ t.port side = .down (s.port side).counters)
    ∧ (s.TakesWrite rx 0x0E tag [portControlWord port 1] slot →
      ∃ t, exec (.rejoin rx tag port []) s = .next t ∧ done 1 t
        ∧ t.port side = if (s.port side).state = .isolated then
            { s.port side with state := .acquiring, acquisition := 0, miss := 0, strikes := 0, babbleSeen := false }
          else s.port side)
    ∧ (s.TakesWrite rx 0x0E tag [portControlWord port 2] slot →
      (s.arming.gateOpen = true →
        exec (.loopbackOn rx tag port []) s = .next ((base 2).answered rx 0x0E tag .refusedGate 0 [] false))
      ∧ (s.arming.gateOpen = false → s.timingPort = some side → (s.port side.other).state ≠ .locked →
        exec (.loopbackOn rx tag port []) s = .next ((base 2).answered rx 0x0E tag .busy 0 [] false))
      ∧ (s.arming.gateOpen = false → s.timingPort ≠ some side ∨ (s.port side.other).state = .locked →
        ∃ t, exec (.loopbackOn rx tag port []) s = .next t ∧ done 2 t ∧ (t.port side).state = .loopback))
    ∧ (s.TakesWrite rx 0x0E tag [portControlWord port 3] slot →
      ∃ t, exec (.loopbackOff rx tag port []) s = .next t ∧ done 3 t
        ∧ t.port side = if (s.port side).state = .loopback then .down (s.port side).counters else s.port side)

/-- READ COUNTERS with its clear option sets to 0 exactly the counters its reply carries (R181); CLEAR NOTICES clears all seven notices
(R177); a RESTART changes nothing but the holder until its reply has been sent (R173). -/
def Obligations.ClearsAndRestart : Prop :=
  ∀ (s : State) (rx : Reception) (tag : Byte) (slot : Nat),
    (∀ first : Byte, s.TablesWhole → s.TakesWrite rx 0x0F tag [readCountersWord first true] slot → first.toNat ≤ 81 →
      ∃ t, exec (.readCountersClear rx tag first []) s = .next t
        ∧ t.counterImage.length = 82 ∧ s.counterImage.length = 82
        ∧ (∀ i < 82, t.counterImage.getD i 0 =
            if first.toNat ≤ i ∧ i < first.toNat + 20 then 0 else s.counterImage.getD i 0)
        ∧ t.agent.holder = some ⟨rx.source,
            ((0x0F : Byte) ++ tag) :: 0 :: (s.counterImage.drop first.toNat).take 20, false⟩
        ∧ t.arming = s.arming ∧ t.points = s.points ∧ t.queue = s.queue ∧ t.tracker = s.tracker ∧ t.log = s.log
        ∧ t.notices = s.notices ∧ t.banks = s.banks ∧ t.timeBase = s.timeBase
        ∧ (∀ side, t.port side = { s.port side with counters := (t.port side).counters })
        ∧ ∀ i < 32, t.station i = { s.station i with
            duplicate := (t.station i).duplicate, rejoinDiscard := (t.station i).rejoinDiscard })
    ∧ (s.TakesWrite rx 0x11 tag [] slot →
      exec (.clearNotices rx tag []) s = .next
        { (s.requestRepeated rx 0x11 tag [] slot).answered rx 0x11 tag .done 0 [] false with
          notices := ⟨false, false, false, false, false, false, false⟩ })
    ∧ (s.TakesWrite rx 0x12 tag [] slot →
      exec (.restart rx tag []) s = .next
        ((s.requestRepeated rx 0x12 tag [] slot).answered rx 0x12 tag .done 0 [] true))

/-! ### Invariants and whole-machine rules -/

/-- Every invariant below holds right after reset. -/
def Obligations.InvariantsHoldAtReset : Prop :=
  State.reset.BanksCanonical ∧ State.reset.NoForceWhileOpen ∧ State.reset.IdleMeansNonePending
  ∧ State.reset.ServingIsTheEngines ∧ State.reset.ClosedMeansQuiet ∧ State.reset.SelectionWhileArmed
  ∧ State.reset.ResetTimerInOperated ∧ State.reset.QueueBounded ∧ State.reset.TablesBounded
  ∧ State.reset.DownPortsReset ∧ State.reset.PortCountsBounded ∧ State.reset.TablesWhole

/-- Every step keeps both banks in their canonical form. The form is the model's own (log 21). -/
def Obligations.BanksStayCanonical : Prop :=
  ∀ s t : State, s.BanksCanonical → step s = .next t → t.BanksCanonical

/-- With the gate open no point is FORCED, whatever step is taken (R120). -/
def Obligations.NoPointIsForcedWhileOpen : Prop :=
  ∀ s t : State, s.NoForceWhileOpen → step s = .next t → t.NoForceWhileOpen

/-- The pending set holds contingencies only while the engine is SERVING, and the contingency it serves is the one that is SERVING
(R58). -/
def Obligations.ArbiterInvariant : Prop :=
  ∀ s t : State, s.IdleMeansNonePending → s.ServingIsTheEngines → step s = .next t →
    t.IdleMeansNonePending ∧ t.ServingIsTheEngines

/-- While the gate is closed every scheme is OFF or GATED and no work is in flight or waiting (R28, R29, R65). -/
def Obligations.ClosedGateStaysQuiet : Prop :=
  ∀ s t : State, s.ClosedMeansQuiet → s.IdleMeansNonePending → step s = .next t → t.ClosedMeansQuiet

/-- A scheme has a selection record exactly while it is ARMED, and its reset timer runs only in OPERATED (R17 and section 1.2). -/
def Obligations.SchemeRecordsStayConsistent : Prop :=
  ∀ s t : State, s.SelectionWhileArmed → s.ResetTimerInOperated → step s = .next t →
    t.SelectionWhileArmed ∧ t.ResetTimerInOperated

/-- At most 32 live entries, never two for one action; at most 8 open operations and 32 logged records (R75, R87, R178). -/
def Obligations.TablesStayWithinBounds : Prop :=
  ∀ s t : State, s.QueueBounded → s.TablesBounded → step s = .next t → t.QueueBounded ∧ t.TablesBounded

/-- A DOWN port holds the values of R144, and the strike count, miss count, babble-free run and acquisition count of every port stay
within their ranges (section 8.3, R146). -/
def Obligations.PortRecordsStayConsistent : Prop :=
  ∀ s t : State, s.DownPortsReset → s.PortCountsBounded → step s = .next t → t.DownPortsReset ∧ t.PortCountsBounded

/-- The settings change only by a request: every command but the requests and REPEATED_FRAME leaves both banks and the selector as they
are, a reset included (R161); and the gate goes from closed to open only by SETTLE_INTERVAL_END or a request (R25). -/
def Obligations.OnlyRequestsChangeSettings : Prop :=
  ∀ (s t : State) (c : Instr), c.request = none → (∀ rx kind p, c ≠ .repeatedFrame rx kind p) →
    (∀ rx code tag args, c ≠ .unknownRequest rx code tag args) → exec c s = .next t →
    t.banks = s.banks
    ∧ (s.arming.gateOpen = false → t.arming.gateOpen = true → c = .settleIntervalEnd)
end

