-- ==== Sys2Proof/Laws/Bank.lean ====
section
/-! SUPPORT. The bank memory: its canonical form, kept by every write, and read after write (log 21). -/

namespace Sys2Proof.Machine

/-- The canonical form: addresses strictly rising, no listed zero. -/
theorem BankWords.wf_iff (m : BankWords) :
    m.wf = true ↔ m.Pairwise (fun x y => x.1 < y.1) ∧ ∀ e ∈ m, e.2 ≠ 0 := by
  induction m with
  | nil => simp [BankWords.wf]
  | cons x rest ih =>
    obtain ⟨k, w⟩ := x
    cases rest with
    | nil => simp [BankWords.wf]
    | cons y rest' =>
      obtain ⟨k', w'⟩ := y
      simp only [BankWords.wf, Bool.and_eq_true, bne_iff_ne, decide_eq_true_eq, ih]
      simp only [List.pairwise_cons, List.mem_cons, forall_eq_or_imp]
      constructor
      · rintro ⟨⟨hw, hk⟩, ⟨hrest, hp⟩, hne⟩
        exact ⟨⟨⟨hk, fun a ha => lt_trans hk (hrest a ha)⟩, hrest, hp⟩, hw, hne⟩
      · rintro ⟨⟨⟨hk, _⟩, hrest, hp⟩, hw, hne⟩
        exact ⟨⟨hw, hk⟩, ⟨hrest, hp⟩, hne⟩

/-- The addresses listed after a write are those listed before and the one written. -/
theorem BankWords.mem_write_fst {m : BankWords} {a : Nat} {w : Word} {e : Nat × Word} (h : e ∈ m.write a w) :
    e.1 = a ∨ ∃ e' ∈ m, e'.1 = e.1 := by
  induction m with
  | nil =>
    simp only [BankWords.write] at h
    split at h <;> simp_all
  | cons x rest ih =>
    obtain ⟨k, v⟩ := x
    simp only [BankWords.write] at h
    split at h
    · split at h
      · exact .inr ⟨e, h, rfl⟩
      · rcases List.mem_cons.1 h with rfl | h
        · exact .inl rfl
        · exact .inr ⟨e, h, rfl⟩
    · split at h
      · split at h
        · exact .inr ⟨e, List.mem_cons_of_mem _ h, rfl⟩
        · rcases List.mem_cons.1 h with rfl | h
          · exact .inl rfl
          · exact .inr ⟨e, List.mem_cons_of_mem _ h, rfl⟩
      · rcases List.mem_cons.1 h with rfl | h
        · exact .inr ⟨_, List.mem_cons_self, rfl⟩
        · rcases ih h with h | ⟨e', he', h⟩
          · exact .inl h
          · exact .inr ⟨e', List.mem_cons_of_mem _ he', h⟩

/-- A write keeps the canonical form. -/
theorem BankWords.write_wf {m : BankWords} (a : Nat) (w : Word) (h : m.wf = true) : (m.write a w).wf = true := by
  rw [BankWords.wf_iff] at h ⊢
  induction m with
  | nil =>
    simp only [BankWords.write]
    split <;> simp_all
  | cons x rest ih =>
    obtain ⟨k, v⟩ := x
    obtain ⟨hp, hne⟩ := h
    rw [List.pairwise_cons] at hp
    have hrest := ih ⟨hp.2, fun e he => hne e (List.mem_cons_of_mem _ he)⟩
    simp only [BankWords.write]
    split
    · rename_i hlt
      split
      · exact ⟨List.pairwise_cons.2 hp, hne⟩
      · refine ⟨List.pairwise_cons.2 ⟨?_, List.pairwise_cons.2 hp⟩, ?_⟩
        · intro e he
          rcases List.mem_cons.1 he with rfl | he
          · exact hlt
          · exact lt_trans hlt (hp.1 e he)
        · intro e he
          rcases List.mem_cons.1 he with rfl | he
          · assumption
          · exact hne e he
    · split
      · rename_i heq
        split
        · exact ⟨hp.2, fun e he => hne e (List.mem_cons_of_mem _ he)⟩
        · refine ⟨List.pairwise_cons.2 ⟨?_, hp.2⟩, ?_⟩
          · intro e he
            show a < e.1
            rw [heq]
            exact hp.1 e he
          · intro e he
            rcases List.mem_cons.1 he with rfl | he
            · assumption
            · exact hne e (List.mem_cons_of_mem _ he)
      · rename_i hlt hneq
        refine ⟨List.pairwise_cons.2 ⟨?_, hrest.1⟩, ?_⟩
        · intro e he
          rcases BankWords.mem_write_fst he with h | ⟨e', he', h⟩
          · show k < e.1
            omega
          · have := hp.1 e' he'
            show k < e.1
            omega
        · intro e he
          rcases List.mem_cons.1 he with rfl | he
          · exact hne _ List.mem_cons_self
          · exact hrest.2 e he

/-- A run of writes keeps the canonical form. -/
theorem BankWords.writeRun_wf {m : BankWords} (a : Nat) (ws : List Word) (h : m.wf = true) :
    (m.writeRun a ws).wf = true := by
  induction ws generalizing m a with
  | nil => exact h
  | cons w ws ih => exact ih (a + 1) (BankWords.write_wf a w h)

/-- An address below every listed one reads 0. -/
theorem BankWords.read_below {m : BankWords} {a : Nat} (h : ∀ e ∈ m, a < e.1) : m.read a = 0 := by
  cases m with
  | nil => rfl
  | cons x rest =>
    obtain ⟨k, v⟩ := x
    have := h (k, v) List.mem_cons_self
    simp only [BankWords.read]
    rw [if_neg (by omega), if_pos (by omega)]

/-- Reading after a write: the address written reads the word written, every other address as before. -/
theorem BankWords.read_write {m : BankWords} (a b : Nat) (w : Word) (h : m.wf = true) :
    (m.write a w).read b = if b = a then w else m.read b := by
  rw [BankWords.wf_iff] at h
  induction m with
  | nil =>
    simp only [BankWords.write]
    split
    · rename_i hw
      simp [BankWords.read, hw]
    · simp only [BankWords.read, eq_comm (a := a)]
      split <;> simp
  | cons x rest ih =>
    obtain ⟨k, v⟩ := x
    obtain ⟨hp, hne⟩ := h
    rw [List.pairwise_cons] at hp
    have hrest := ih ⟨hp.2, fun e he => hne e (List.mem_cons_of_mem _ he)⟩
    simp only [BankWords.write]
    split
    · rename_i hlt
      split
      · rename_i hw
        by_cases hb : b = a
        · subst hb
          rw [if_pos rfl, hw]
          exact BankWords.read_below (fun e he => by
            rcases List.mem_cons.1 he with rfl | he
            · exact hlt
            · exact lt_trans hlt (hp.1 e he))
        · rw [if_neg hb]
      · by_cases hb : b = a
        · subst hb
          simp [BankWords.read]
        · rw [if_neg hb]
          simp only [BankWords.read]
          rw [if_neg (fun h => hb h.symm)]
          by_cases hba : b < a
          · rw [if_pos hba, if_neg (by omega), if_pos (by omega)]
          · rw [if_neg hba]
    · split
      · rename_i heq
        subst heq
        split
        · rename_i hw
          by_cases hb : b = a
          · subst hb
            rw [if_pos rfl, hw]
            exact BankWords.read_below hp.1
          · rw [if_neg hb]
            simp only [BankWords.read]
            rw [if_neg (fun h => hb h.symm)]
            by_cases hba : b < a
            · rw [if_pos hba]
              exact BankWords.read_below (fun e he => lt_trans hba (hp.1 e he))
            · rw [if_neg hba]
        · by_cases hb : b = a
          · subst hb
            simp [BankWords.read]
          · rw [if_neg hb]
            have hab : ¬ a = b := fun h => hb h.symm
            by_cases hba : b < a
            · simp only [BankWords.read, hab, hba, if_false, if_true]
            · simp only [BankWords.read, hab, hba, if_false]
      · rename_i hlt hneq
        simp only [BankWords.read]
        by_cases hkb : k = b
        · subst hkb
          rw [if_pos rfl, if_neg (fun h => hneq h.symm), if_pos rfl]
        · rw [if_neg hkb, if_neg hkb]
          by_cases hbk : b < k
          · rw [if_pos hbk, if_neg (by omega), if_pos hbk]
          · rw [if_neg hbk, if_neg hbk]
            exact hrest

/-- Reading after a run of writes: the word written there, or as before. -/
theorem BankWords.read_writeRun {m : BankWords} (a b : Nat) (ws : List Word) (h : m.wf = true) :
    (m.writeRun a ws).read b = if a ≤ b ∧ b < a + ws.length then ws.getD (b - a) 0 else m.read b := by
  induction ws generalizing m a with
  | nil =>
    simp only [BankWords.writeRun, List.length_nil]
    rw [if_neg (by omega)]
  | cons w ws ih =>
    rw [BankWords.writeRun, ih (a + 1) (BankWords.write_wf a w h), BankWords.read_write a b w h]
    simp only [List.length_cons]
    by_cases hb : b = a
    · subst hb
      rw [if_neg (by omega), if_pos rfl, if_pos (by omega)]
      simp
    · rw [if_neg hb]
      by_cases hin : a + 1 ≤ b ∧ b < a + 1 + ws.length
      · rw [if_pos hin, if_pos (by omega)]
        obtain ⟨d, rfl⟩ : ∃ d, b = a + 1 + d := ⟨b - (a + 1), by omega⟩
        have h1 : a + 1 + d - (a + 1) = d := by omega
        have h2 : a + 1 + d - a = d + 1 := by omega
        rw [h1, h2, List.getD_cons_succ]
      · rw [if_neg hin, if_neg (by omega)]

/-- The banks of a new part are in canonical form. -/
theorem State.reset_banks_wf :
    State.reset.banks.a.words.wf = true ∧ State.reset.banks.b.words.wf = true := ⟨rfl, rfl⟩

end Sys2Proof.Machine
end

