-- ==== Sys2Proof/Laws/State.lean ====
section
/-! SUPPORT. One lemma per field per setter of State, each true by rfl, so that no proof unfolds a record update. -/

namespace Sys2Proof.Machine

variable (s : State)

@[simp] theorem State.setTimeBase_timeBase (v : Time) : (s.setTimeBase v).timeBase = v := rfl
@[simp] theorem State.setTimeBase_powerHeld (v : Time) : (s.setTimeBase v).powerHeld = s.powerHeld := rfl
@[simp] theorem State.setTimeBase_pinHeld (v : Time) : (s.setTimeBase v).pinHeld = s.pinHeld := rfl
@[simp] theorem State.setTimeBase_link (v : Time) : (s.setTimeBase v).link = s.link := rfl
@[simp] theorem State.setTimeBase_intake (v : Time) : (s.setTimeBase v).intake = s.intake := rfl
@[simp] theorem State.setTimeBase_points (v : Time) : (s.setTimeBase v).points = s.points := rfl
@[simp] theorem State.setTimeBase_arming (v : Time) : (s.setTimeBase v).arming = s.arming := rfl
@[simp] theorem State.setTimeBase_monitor (v : Time) : (s.setTimeBase v).monitor = s.monitor := rfl
@[simp] theorem State.setTimeBase_engine (v : Time) : (s.setTimeBase v).engine = s.engine := rfl
@[simp] theorem State.setTimeBase_queue (v : Time) : (s.setTimeBase v).queue = s.queue := rfl
@[simp] theorem State.setTimeBase_tracker (v : Time) : (s.setTimeBase v).tracker = s.tracker := rfl
@[simp] theorem State.setTimeBase_log (v : Time) : (s.setTimeBase v).log = s.log := rfl
@[simp] theorem State.setTimeBase_agent (v : Time) : (s.setTimeBase v).agent = s.agent := rfl
@[simp] theorem State.setTimeBase_banks (v : Time) : (s.setTimeBase v).banks = s.banks := rfl
@[simp] theorem State.setTimeBase_notices (v : Time) : (s.setTimeBase v).notices = s.notices := rfl
@[simp] theorem State.setTimeBase_out (v : Time) : (s.setTimeBase v).out = s.out := rfl
@[simp] theorem State.setTimeBase_freeIndex (v : Time) : (s.setTimeBase v).freeIndex = s.freeIndex := rfl
@[simp] theorem State.setTimeBase_pending (v : Time) : (s.setTimeBase v).pending = s.pending := rfl

@[simp] theorem State.setPowerHeld_timeBase (v : Bool) : (s.setPowerHeld v).timeBase = s.timeBase := rfl
@[simp] theorem State.setPowerHeld_powerHeld (v : Bool) : (s.setPowerHeld v).powerHeld = v := rfl
@[simp] theorem State.setPowerHeld_pinHeld (v : Bool) : (s.setPowerHeld v).pinHeld = s.pinHeld := rfl
@[simp] theorem State.setPowerHeld_link (v : Bool) : (s.setPowerHeld v).link = s.link := rfl
@[simp] theorem State.setPowerHeld_intake (v : Bool) : (s.setPowerHeld v).intake = s.intake := rfl
@[simp] theorem State.setPowerHeld_points (v : Bool) : (s.setPowerHeld v).points = s.points := rfl
@[simp] theorem State.setPowerHeld_arming (v : Bool) : (s.setPowerHeld v).arming = s.arming := rfl
@[simp] theorem State.setPowerHeld_monitor (v : Bool) : (s.setPowerHeld v).monitor = s.monitor := rfl
@[simp] theorem State.setPowerHeld_engine (v : Bool) : (s.setPowerHeld v).engine = s.engine := rfl
@[simp] theorem State.setPowerHeld_queue (v : Bool) : (s.setPowerHeld v).queue = s.queue := rfl
@[simp] theorem State.setPowerHeld_tracker (v : Bool) : (s.setPowerHeld v).tracker = s.tracker := rfl
@[simp] theorem State.setPowerHeld_log (v : Bool) : (s.setPowerHeld v).log = s.log := rfl
@[simp] theorem State.setPowerHeld_agent (v : Bool) : (s.setPowerHeld v).agent = s.agent := rfl
@[simp] theorem State.setPowerHeld_banks (v : Bool) : (s.setPowerHeld v).banks = s.banks := rfl
@[simp] theorem State.setPowerHeld_notices (v : Bool) : (s.setPowerHeld v).notices = s.notices := rfl
@[simp] theorem State.setPowerHeld_out (v : Bool) : (s.setPowerHeld v).out = s.out := rfl
@[simp] theorem State.setPowerHeld_freeIndex (v : Bool) : (s.setPowerHeld v).freeIndex = s.freeIndex := rfl
@[simp] theorem State.setPowerHeld_pending (v : Bool) : (s.setPowerHeld v).pending = s.pending := rfl

@[simp] theorem State.setPinHeld_timeBase (v : Bool) : (s.setPinHeld v).timeBase = s.timeBase := rfl
@[simp] theorem State.setPinHeld_powerHeld (v : Bool) : (s.setPinHeld v).powerHeld = s.powerHeld := rfl
@[simp] theorem State.setPinHeld_pinHeld (v : Bool) : (s.setPinHeld v).pinHeld = v := rfl
@[simp] theorem State.setPinHeld_link (v : Bool) : (s.setPinHeld v).link = s.link := rfl
@[simp] theorem State.setPinHeld_intake (v : Bool) : (s.setPinHeld v).intake = s.intake := rfl
@[simp] theorem State.setPinHeld_points (v : Bool) : (s.setPinHeld v).points = s.points := rfl
@[simp] theorem State.setPinHeld_arming (v : Bool) : (s.setPinHeld v).arming = s.arming := rfl
@[simp] theorem State.setPinHeld_monitor (v : Bool) : (s.setPinHeld v).monitor = s.monitor := rfl
@[simp] theorem State.setPinHeld_engine (v : Bool) : (s.setPinHeld v).engine = s.engine := rfl
@[simp] theorem State.setPinHeld_queue (v : Bool) : (s.setPinHeld v).queue = s.queue := rfl
@[simp] theorem State.setPinHeld_tracker (v : Bool) : (s.setPinHeld v).tracker = s.tracker := rfl
@[simp] theorem State.setPinHeld_log (v : Bool) : (s.setPinHeld v).log = s.log := rfl
@[simp] theorem State.setPinHeld_agent (v : Bool) : (s.setPinHeld v).agent = s.agent := rfl
@[simp] theorem State.setPinHeld_banks (v : Bool) : (s.setPinHeld v).banks = s.banks := rfl
@[simp] theorem State.setPinHeld_notices (v : Bool) : (s.setPinHeld v).notices = s.notices := rfl
@[simp] theorem State.setPinHeld_out (v : Bool) : (s.setPinHeld v).out = s.out := rfl
@[simp] theorem State.setPinHeld_freeIndex (v : Bool) : (s.setPinHeld v).freeIndex = s.freeIndex := rfl
@[simp] theorem State.setPinHeld_pending (v : Bool) : (s.setPinHeld v).pending = s.pending := rfl

@[simp] theorem State.setLink_timeBase (v : LinkState) : (s.setLink v).timeBase = s.timeBase := rfl
@[simp] theorem State.setLink_powerHeld (v : LinkState) : (s.setLink v).powerHeld = s.powerHeld := rfl
@[simp] theorem State.setLink_pinHeld (v : LinkState) : (s.setLink v).pinHeld = s.pinHeld := rfl
@[simp] theorem State.setLink_link (v : LinkState) : (s.setLink v).link = v := rfl
@[simp] theorem State.setLink_intake (v : LinkState) : (s.setLink v).intake = s.intake := rfl
@[simp] theorem State.setLink_points (v : LinkState) : (s.setLink v).points = s.points := rfl
@[simp] theorem State.setLink_arming (v : LinkState) : (s.setLink v).arming = s.arming := rfl
@[simp] theorem State.setLink_monitor (v : LinkState) : (s.setLink v).monitor = s.monitor := rfl
@[simp] theorem State.setLink_engine (v : LinkState) : (s.setLink v).engine = s.engine := rfl
@[simp] theorem State.setLink_queue (v : LinkState) : (s.setLink v).queue = s.queue := rfl
@[simp] theorem State.setLink_tracker (v : LinkState) : (s.setLink v).tracker = s.tracker := rfl
@[simp] theorem State.setLink_log (v : LinkState) : (s.setLink v).log = s.log := rfl
@[simp] theorem State.setLink_agent (v : LinkState) : (s.setLink v).agent = s.agent := rfl
@[simp] theorem State.setLink_banks (v : LinkState) : (s.setLink v).banks = s.banks := rfl
@[simp] theorem State.setLink_notices (v : LinkState) : (s.setLink v).notices = s.notices := rfl
@[simp] theorem State.setLink_out (v : LinkState) : (s.setLink v).out = s.out := rfl
@[simp] theorem State.setLink_freeIndex (v : LinkState) : (s.setLink v).freeIndex = s.freeIndex := rfl
@[simp] theorem State.setLink_pending (v : LinkState) : (s.setLink v).pending = s.pending := rfl

@[simp] theorem State.setIntake_timeBase (v : IntakeState) : (s.setIntake v).timeBase = s.timeBase := rfl
@[simp] theorem State.setIntake_powerHeld (v : IntakeState) : (s.setIntake v).powerHeld = s.powerHeld := rfl
@[simp] theorem State.setIntake_pinHeld (v : IntakeState) : (s.setIntake v).pinHeld = s.pinHeld := rfl
@[simp] theorem State.setIntake_link (v : IntakeState) : (s.setIntake v).link = s.link := rfl
@[simp] theorem State.setIntake_intake (v : IntakeState) : (s.setIntake v).intake = v := rfl
@[simp] theorem State.setIntake_points (v : IntakeState) : (s.setIntake v).points = s.points := rfl
@[simp] theorem State.setIntake_arming (v : IntakeState) : (s.setIntake v).arming = s.arming := rfl
@[simp] theorem State.setIntake_monitor (v : IntakeState) : (s.setIntake v).monitor = s.monitor := rfl
@[simp] theorem State.setIntake_engine (v : IntakeState) : (s.setIntake v).engine = s.engine := rfl
@[simp] theorem State.setIntake_queue (v : IntakeState) : (s.setIntake v).queue = s.queue := rfl
@[simp] theorem State.setIntake_tracker (v : IntakeState) : (s.setIntake v).tracker = s.tracker := rfl
@[simp] theorem State.setIntake_log (v : IntakeState) : (s.setIntake v).log = s.log := rfl
@[simp] theorem State.setIntake_agent (v : IntakeState) : (s.setIntake v).agent = s.agent := rfl
@[simp] theorem State.setIntake_banks (v : IntakeState) : (s.setIntake v).banks = s.banks := rfl
@[simp] theorem State.setIntake_notices (v : IntakeState) : (s.setIntake v).notices = s.notices := rfl
@[simp] theorem State.setIntake_out (v : IntakeState) : (s.setIntake v).out = s.out := rfl
@[simp] theorem State.setIntake_freeIndex (v : IntakeState) : (s.setIntake v).freeIndex = s.freeIndex := rfl
@[simp] theorem State.setIntake_pending (v : IntakeState) : (s.setIntake v).pending = s.pending := rfl

@[simp] theorem State.setPoints_timeBase (v : List PointRec) : (s.setPoints v).timeBase = s.timeBase := rfl
@[simp] theorem State.setPoints_powerHeld (v : List PointRec) : (s.setPoints v).powerHeld = s.powerHeld := rfl
@[simp] theorem State.setPoints_pinHeld (v : List PointRec) : (s.setPoints v).pinHeld = s.pinHeld := rfl
@[simp] theorem State.setPoints_link (v : List PointRec) : (s.setPoints v).link = s.link := rfl
@[simp] theorem State.setPoints_intake (v : List PointRec) : (s.setPoints v).intake = s.intake := rfl
@[simp] theorem State.setPoints_points (v : List PointRec) : (s.setPoints v).points = v := rfl
@[simp] theorem State.setPoints_arming (v : List PointRec) : (s.setPoints v).arming = s.arming := rfl
@[simp] theorem State.setPoints_monitor (v : List PointRec) : (s.setPoints v).monitor = s.monitor := rfl
@[simp] theorem State.setPoints_engine (v : List PointRec) : (s.setPoints v).engine = s.engine := rfl
@[simp] theorem State.setPoints_queue (v : List PointRec) : (s.setPoints v).queue = s.queue := rfl
@[simp] theorem State.setPoints_tracker (v : List PointRec) : (s.setPoints v).tracker = s.tracker := rfl
@[simp] theorem State.setPoints_log (v : List PointRec) : (s.setPoints v).log = s.log := rfl
@[simp] theorem State.setPoints_agent (v : List PointRec) : (s.setPoints v).agent = s.agent := rfl
@[simp] theorem State.setPoints_banks (v : List PointRec) : (s.setPoints v).banks = s.banks := rfl
@[simp] theorem State.setPoints_notices (v : List PointRec) : (s.setPoints v).notices = s.notices := rfl
@[simp] theorem State.setPoints_out (v : List PointRec) : (s.setPoints v).out = s.out := rfl
@[simp] theorem State.setPoints_freeIndex (v : List PointRec) : (s.setPoints v).freeIndex = s.freeIndex := rfl
@[simp] theorem State.setPoints_pending (v : List PointRec) : (s.setPoints v).pending = s.pending := rfl

@[simp] theorem State.setArming_timeBase (v : ArmingState) : (s.setArming v).timeBase = s.timeBase := rfl
@[simp] theorem State.setArming_powerHeld (v : ArmingState) : (s.setArming v).powerHeld = s.powerHeld := rfl
@[simp] theorem State.setArming_pinHeld (v : ArmingState) : (s.setArming v).pinHeld = s.pinHeld := rfl
@[simp] theorem State.setArming_link (v : ArmingState) : (s.setArming v).link = s.link := rfl
@[simp] theorem State.setArming_intake (v : ArmingState) : (s.setArming v).intake = s.intake := rfl
@[simp] theorem State.setArming_points (v : ArmingState) : (s.setArming v).points = s.points := rfl
@[simp] theorem State.setArming_arming (v : ArmingState) : (s.setArming v).arming = v := rfl
@[simp] theorem State.setArming_monitor (v : ArmingState) : (s.setArming v).monitor = s.monitor := rfl
@[simp] theorem State.setArming_engine (v : ArmingState) : (s.setArming v).engine = s.engine := rfl
@[simp] theorem State.setArming_queue (v : ArmingState) : (s.setArming v).queue = s.queue := rfl
@[simp] theorem State.setArming_tracker (v : ArmingState) : (s.setArming v).tracker = s.tracker := rfl
@[simp] theorem State.setArming_log (v : ArmingState) : (s.setArming v).log = s.log := rfl
@[simp] theorem State.setArming_agent (v : ArmingState) : (s.setArming v).agent = s.agent := rfl
@[simp] theorem State.setArming_banks (v : ArmingState) : (s.setArming v).banks = s.banks := rfl
@[simp] theorem State.setArming_notices (v : ArmingState) : (s.setArming v).notices = s.notices := rfl
@[simp] theorem State.setArming_out (v : ArmingState) : (s.setArming v).out = s.out := rfl
@[simp] theorem State.setArming_freeIndex (v : ArmingState) : (s.setArming v).freeIndex = s.freeIndex := rfl
@[simp] theorem State.setArming_pending (v : ArmingState) : (s.setArming v).pending = s.pending := rfl

@[simp] theorem State.setMonitor_timeBase (v : MonitorState) : (s.setMonitor v).timeBase = s.timeBase := rfl
@[simp] theorem State.setMonitor_powerHeld (v : MonitorState) : (s.setMonitor v).powerHeld = s.powerHeld := rfl
@[simp] theorem State.setMonitor_pinHeld (v : MonitorState) : (s.setMonitor v).pinHeld = s.pinHeld := rfl
@[simp] theorem State.setMonitor_link (v : MonitorState) : (s.setMonitor v).link = s.link := rfl
@[simp] theorem State.setMonitor_intake (v : MonitorState) : (s.setMonitor v).intake = s.intake := rfl
@[simp] theorem State.setMonitor_points (v : MonitorState) : (s.setMonitor v).points = s.points := rfl
@[simp] theorem State.setMonitor_arming (v : MonitorState) : (s.setMonitor v).arming = s.arming := rfl
@[simp] theorem State.setMonitor_monitor (v : MonitorState) : (s.setMonitor v).monitor = v := rfl
@[simp] theorem State.setMonitor_engine (v : MonitorState) : (s.setMonitor v).engine = s.engine := rfl
@[simp] theorem State.setMonitor_queue (v : MonitorState) : (s.setMonitor v).queue = s.queue := rfl
@[simp] theorem State.setMonitor_tracker (v : MonitorState) : (s.setMonitor v).tracker = s.tracker := rfl
@[simp] theorem State.setMonitor_log (v : MonitorState) : (s.setMonitor v).log = s.log := rfl
@[simp] theorem State.setMonitor_agent (v : MonitorState) : (s.setMonitor v).agent = s.agent := rfl
@[simp] theorem State.setMonitor_banks (v : MonitorState) : (s.setMonitor v).banks = s.banks := rfl
@[simp] theorem State.setMonitor_notices (v : MonitorState) : (s.setMonitor v).notices = s.notices := rfl
@[simp] theorem State.setMonitor_out (v : MonitorState) : (s.setMonitor v).out = s.out := rfl
@[simp] theorem State.setMonitor_freeIndex (v : MonitorState) : (s.setMonitor v).freeIndex = s.freeIndex := rfl
@[simp] theorem State.setMonitor_pending (v : MonitorState) : (s.setMonitor v).pending = s.pending := rfl

@[simp] theorem State.setEngine_timeBase (v : Option Snapshot) : (s.setEngine v).timeBase = s.timeBase := rfl
@[simp] theorem State.setEngine_powerHeld (v : Option Snapshot) : (s.setEngine v).powerHeld = s.powerHeld := rfl
@[simp] theorem State.setEngine_pinHeld (v : Option Snapshot) : (s.setEngine v).pinHeld = s.pinHeld := rfl
@[simp] theorem State.setEngine_link (v : Option Snapshot) : (s.setEngine v).link = s.link := rfl
@[simp] theorem State.setEngine_intake (v : Option Snapshot) : (s.setEngine v).intake = s.intake := rfl
@[simp] theorem State.setEngine_points (v : Option Snapshot) : (s.setEngine v).points = s.points := rfl
@[simp] theorem State.setEngine_arming (v : Option Snapshot) : (s.setEngine v).arming = s.arming := rfl
@[simp] theorem State.setEngine_monitor (v : Option Snapshot) : (s.setEngine v).monitor = s.monitor := rfl
@[simp] theorem State.setEngine_engine (v : Option Snapshot) : (s.setEngine v).engine = v := rfl
@[simp] theorem State.setEngine_queue (v : Option Snapshot) : (s.setEngine v).queue = s.queue := rfl
@[simp] theorem State.setEngine_tracker (v : Option Snapshot) : (s.setEngine v).tracker = s.tracker := rfl
@[simp] theorem State.setEngine_log (v : Option Snapshot) : (s.setEngine v).log = s.log := rfl
@[simp] theorem State.setEngine_agent (v : Option Snapshot) : (s.setEngine v).agent = s.agent := rfl
@[simp] theorem State.setEngine_banks (v : Option Snapshot) : (s.setEngine v).banks = s.banks := rfl
@[simp] theorem State.setEngine_notices (v : Option Snapshot) : (s.setEngine v).notices = s.notices := rfl
@[simp] theorem State.setEngine_out (v : Option Snapshot) : (s.setEngine v).out = s.out := rfl
@[simp] theorem State.setEngine_freeIndex (v : Option Snapshot) : (s.setEngine v).freeIndex = s.freeIndex := rfl
@[simp] theorem State.setEngine_pending (v : Option Snapshot) : (s.setEngine v).pending = s.pending := rfl

@[simp] theorem State.setQueue_timeBase (v : QueueState) : (s.setQueue v).timeBase = s.timeBase := rfl
@[simp] theorem State.setQueue_powerHeld (v : QueueState) : (s.setQueue v).powerHeld = s.powerHeld := rfl
@[simp] theorem State.setQueue_pinHeld (v : QueueState) : (s.setQueue v).pinHeld = s.pinHeld := rfl
@[simp] theorem State.setQueue_link (v : QueueState) : (s.setQueue v).link = s.link := rfl
@[simp] theorem State.setQueue_intake (v : QueueState) : (s.setQueue v).intake = s.intake := rfl
@[simp] theorem State.setQueue_points (v : QueueState) : (s.setQueue v).points = s.points := rfl
@[simp] theorem State.setQueue_arming (v : QueueState) : (s.setQueue v).arming = s.arming := rfl
@[simp] theorem State.setQueue_monitor (v : QueueState) : (s.setQueue v).monitor = s.monitor := rfl
@[simp] theorem State.setQueue_engine (v : QueueState) : (s.setQueue v).engine = s.engine := rfl
@[simp] theorem State.setQueue_queue (v : QueueState) : (s.setQueue v).queue = v := rfl
@[simp] theorem State.setQueue_tracker (v : QueueState) : (s.setQueue v).tracker = s.tracker := rfl
@[simp] theorem State.setQueue_log (v : QueueState) : (s.setQueue v).log = s.log := rfl
@[simp] theorem State.setQueue_agent (v : QueueState) : (s.setQueue v).agent = s.agent := rfl
@[simp] theorem State.setQueue_banks (v : QueueState) : (s.setQueue v).banks = s.banks := rfl
@[simp] theorem State.setQueue_notices (v : QueueState) : (s.setQueue v).notices = s.notices := rfl
@[simp] theorem State.setQueue_out (v : QueueState) : (s.setQueue v).out = s.out := rfl
@[simp] theorem State.setQueue_freeIndex (v : QueueState) : (s.setQueue v).freeIndex = s.freeIndex := rfl
@[simp] theorem State.setQueue_pending (v : QueueState) : (s.setQueue v).pending = s.pending := rfl

@[simp] theorem State.setTracker_timeBase (v : TrackerState) : (s.setTracker v).timeBase = s.timeBase := rfl
@[simp] theorem State.setTracker_powerHeld (v : TrackerState) : (s.setTracker v).powerHeld = s.powerHeld := rfl
@[simp] theorem State.setTracker_pinHeld (v : TrackerState) : (s.setTracker v).pinHeld = s.pinHeld := rfl
@[simp] theorem State.setTracker_link (v : TrackerState) : (s.setTracker v).link = s.link := rfl
@[simp] theorem State.setTracker_intake (v : TrackerState) : (s.setTracker v).intake = s.intake := rfl
@[simp] theorem State.setTracker_points (v : TrackerState) : (s.setTracker v).points = s.points := rfl
@[simp] theorem State.setTracker_arming (v : TrackerState) : (s.setTracker v).arming = s.arming := rfl
@[simp] theorem State.setTracker_monitor (v : TrackerState) : (s.setTracker v).monitor = s.monitor := rfl
@[simp] theorem State.setTracker_engine (v : TrackerState) : (s.setTracker v).engine = s.engine := rfl
@[simp] theorem State.setTracker_queue (v : TrackerState) : (s.setTracker v).queue = s.queue := rfl
@[simp] theorem State.setTracker_tracker (v : TrackerState) : (s.setTracker v).tracker = v := rfl
@[simp] theorem State.setTracker_log (v : TrackerState) : (s.setTracker v).log = s.log := rfl
@[simp] theorem State.setTracker_agent (v : TrackerState) : (s.setTracker v).agent = s.agent := rfl
@[simp] theorem State.setTracker_banks (v : TrackerState) : (s.setTracker v).banks = s.banks := rfl
@[simp] theorem State.setTracker_notices (v : TrackerState) : (s.setTracker v).notices = s.notices := rfl
@[simp] theorem State.setTracker_out (v : TrackerState) : (s.setTracker v).out = s.out := rfl
@[simp] theorem State.setTracker_freeIndex (v : TrackerState) : (s.setTracker v).freeIndex = s.freeIndex := rfl
@[simp] theorem State.setTracker_pending (v : TrackerState) : (s.setTracker v).pending = s.pending := rfl

@[simp] theorem State.setLog_timeBase (v : LogState) : (s.setLog v).timeBase = s.timeBase := rfl
@[simp] theorem State.setLog_powerHeld (v : LogState) : (s.setLog v).powerHeld = s.powerHeld := rfl
@[simp] theorem State.setLog_pinHeld (v : LogState) : (s.setLog v).pinHeld = s.pinHeld := rfl
@[simp] theorem State.setLog_link (v : LogState) : (s.setLog v).link = s.link := rfl
@[simp] theorem State.setLog_intake (v : LogState) : (s.setLog v).intake = s.intake := rfl
@[simp] theorem State.setLog_points (v : LogState) : (s.setLog v).points = s.points := rfl
@[simp] theorem State.setLog_arming (v : LogState) : (s.setLog v).arming = s.arming := rfl
@[simp] theorem State.setLog_monitor (v : LogState) : (s.setLog v).monitor = s.monitor := rfl
@[simp] theorem State.setLog_engine (v : LogState) : (s.setLog v).engine = s.engine := rfl
@[simp] theorem State.setLog_queue (v : LogState) : (s.setLog v).queue = s.queue := rfl
@[simp] theorem State.setLog_tracker (v : LogState) : (s.setLog v).tracker = s.tracker := rfl
@[simp] theorem State.setLog_log (v : LogState) : (s.setLog v).log = v := rfl
@[simp] theorem State.setLog_agent (v : LogState) : (s.setLog v).agent = s.agent := rfl
@[simp] theorem State.setLog_banks (v : LogState) : (s.setLog v).banks = s.banks := rfl
@[simp] theorem State.setLog_notices (v : LogState) : (s.setLog v).notices = s.notices := rfl
@[simp] theorem State.setLog_out (v : LogState) : (s.setLog v).out = s.out := rfl
@[simp] theorem State.setLog_freeIndex (v : LogState) : (s.setLog v).freeIndex = s.freeIndex := rfl
@[simp] theorem State.setLog_pending (v : LogState) : (s.setLog v).pending = s.pending := rfl

@[simp] theorem State.setAgent_timeBase (v : AgentState) : (s.setAgent v).timeBase = s.timeBase := rfl
@[simp] theorem State.setAgent_powerHeld (v : AgentState) : (s.setAgent v).powerHeld = s.powerHeld := rfl
@[simp] theorem State.setAgent_pinHeld (v : AgentState) : (s.setAgent v).pinHeld = s.pinHeld := rfl
@[simp] theorem State.setAgent_link (v : AgentState) : (s.setAgent v).link = s.link := rfl
@[simp] theorem State.setAgent_intake (v : AgentState) : (s.setAgent v).intake = s.intake := rfl
@[simp] theorem State.setAgent_points (v : AgentState) : (s.setAgent v).points = s.points := rfl
@[simp] theorem State.setAgent_arming (v : AgentState) : (s.setAgent v).arming = s.arming := rfl
@[simp] theorem State.setAgent_monitor (v : AgentState) : (s.setAgent v).monitor = s.monitor := rfl
@[simp] theorem State.setAgent_engine (v : AgentState) : (s.setAgent v).engine = s.engine := rfl
@[simp] theorem State.setAgent_queue (v : AgentState) : (s.setAgent v).queue = s.queue := rfl
@[simp] theorem State.setAgent_tracker (v : AgentState) : (s.setAgent v).tracker = s.tracker := rfl
@[simp] theorem State.setAgent_log (v : AgentState) : (s.setAgent v).log = s.log := rfl
@[simp] theorem State.setAgent_agent (v : AgentState) : (s.setAgent v).agent = v := rfl
@[simp] theorem State.setAgent_banks (v : AgentState) : (s.setAgent v).banks = s.banks := rfl
@[simp] theorem State.setAgent_notices (v : AgentState) : (s.setAgent v).notices = s.notices := rfl
@[simp] theorem State.setAgent_out (v : AgentState) : (s.setAgent v).out = s.out := rfl
@[simp] theorem State.setAgent_freeIndex (v : AgentState) : (s.setAgent v).freeIndex = s.freeIndex := rfl
@[simp] theorem State.setAgent_pending (v : AgentState) : (s.setAgent v).pending = s.pending := rfl

@[simp] theorem State.setBanks_timeBase (v : BanksState) : (s.setBanks v).timeBase = s.timeBase := rfl
@[simp] theorem State.setBanks_powerHeld (v : BanksState) : (s.setBanks v).powerHeld = s.powerHeld := rfl
@[simp] theorem State.setBanks_pinHeld (v : BanksState) : (s.setBanks v).pinHeld = s.pinHeld := rfl
@[simp] theorem State.setBanks_link (v : BanksState) : (s.setBanks v).link = s.link := rfl
@[simp] theorem State.setBanks_intake (v : BanksState) : (s.setBanks v).intake = s.intake := rfl
@[simp] theorem State.setBanks_points (v : BanksState) : (s.setBanks v).points = s.points := rfl
@[simp] theorem State.setBanks_arming (v : BanksState) : (s.setBanks v).arming = s.arming := rfl
@[simp] theorem State.setBanks_monitor (v : BanksState) : (s.setBanks v).monitor = s.monitor := rfl
@[simp] theorem State.setBanks_engine (v : BanksState) : (s.setBanks v).engine = s.engine := rfl
@[simp] theorem State.setBanks_queue (v : BanksState) : (s.setBanks v).queue = s.queue := rfl
@[simp] theorem State.setBanks_tracker (v : BanksState) : (s.setBanks v).tracker = s.tracker := rfl
@[simp] theorem State.setBanks_log (v : BanksState) : (s.setBanks v).log = s.log := rfl
@[simp] theorem State.setBanks_agent (v : BanksState) : (s.setBanks v).agent = s.agent := rfl
@[simp] theorem State.setBanks_banks (v : BanksState) : (s.setBanks v).banks = v := rfl
@[simp] theorem State.setBanks_notices (v : BanksState) : (s.setBanks v).notices = s.notices := rfl
@[simp] theorem State.setBanks_out (v : BanksState) : (s.setBanks v).out = s.out := rfl
@[simp] theorem State.setBanks_freeIndex (v : BanksState) : (s.setBanks v).freeIndex = s.freeIndex := rfl
@[simp] theorem State.setBanks_pending (v : BanksState) : (s.setBanks v).pending = s.pending := rfl

@[simp] theorem State.setNotices_timeBase (v : Notices) : (s.setNotices v).timeBase = s.timeBase := rfl
@[simp] theorem State.setNotices_powerHeld (v : Notices) : (s.setNotices v).powerHeld = s.powerHeld := rfl
@[simp] theorem State.setNotices_pinHeld (v : Notices) : (s.setNotices v).pinHeld = s.pinHeld := rfl
@[simp] theorem State.setNotices_link (v : Notices) : (s.setNotices v).link = s.link := rfl
@[simp] theorem State.setNotices_intake (v : Notices) : (s.setNotices v).intake = s.intake := rfl
@[simp] theorem State.setNotices_points (v : Notices) : (s.setNotices v).points = s.points := rfl
@[simp] theorem State.setNotices_arming (v : Notices) : (s.setNotices v).arming = s.arming := rfl
@[simp] theorem State.setNotices_monitor (v : Notices) : (s.setNotices v).monitor = s.monitor := rfl
@[simp] theorem State.setNotices_engine (v : Notices) : (s.setNotices v).engine = s.engine := rfl
@[simp] theorem State.setNotices_queue (v : Notices) : (s.setNotices v).queue = s.queue := rfl
@[simp] theorem State.setNotices_tracker (v : Notices) : (s.setNotices v).tracker = s.tracker := rfl
@[simp] theorem State.setNotices_log (v : Notices) : (s.setNotices v).log = s.log := rfl
@[simp] theorem State.setNotices_agent (v : Notices) : (s.setNotices v).agent = s.agent := rfl
@[simp] theorem State.setNotices_banks (v : Notices) : (s.setNotices v).banks = s.banks := rfl
@[simp] theorem State.setNotices_notices (v : Notices) : (s.setNotices v).notices = v := rfl
@[simp] theorem State.setNotices_out (v : Notices) : (s.setNotices v).out = s.out := rfl
@[simp] theorem State.setNotices_freeIndex (v : Notices) : (s.setNotices v).freeIndex = s.freeIndex := rfl
@[simp] theorem State.setNotices_pending (v : Notices) : (s.setNotices v).pending = s.pending := rfl

@[simp] theorem State.setOut_timeBase (v : List Emission) : (s.setOut v).timeBase = s.timeBase := rfl
@[simp] theorem State.setOut_powerHeld (v : List Emission) : (s.setOut v).powerHeld = s.powerHeld := rfl
@[simp] theorem State.setOut_pinHeld (v : List Emission) : (s.setOut v).pinHeld = s.pinHeld := rfl
@[simp] theorem State.setOut_link (v : List Emission) : (s.setOut v).link = s.link := rfl
@[simp] theorem State.setOut_intake (v : List Emission) : (s.setOut v).intake = s.intake := rfl
@[simp] theorem State.setOut_points (v : List Emission) : (s.setOut v).points = s.points := rfl
@[simp] theorem State.setOut_arming (v : List Emission) : (s.setOut v).arming = s.arming := rfl
@[simp] theorem State.setOut_monitor (v : List Emission) : (s.setOut v).monitor = s.monitor := rfl
@[simp] theorem State.setOut_engine (v : List Emission) : (s.setOut v).engine = s.engine := rfl
@[simp] theorem State.setOut_queue (v : List Emission) : (s.setOut v).queue = s.queue := rfl
@[simp] theorem State.setOut_tracker (v : List Emission) : (s.setOut v).tracker = s.tracker := rfl
@[simp] theorem State.setOut_log (v : List Emission) : (s.setOut v).log = s.log := rfl
@[simp] theorem State.setOut_agent (v : List Emission) : (s.setOut v).agent = s.agent := rfl
@[simp] theorem State.setOut_banks (v : List Emission) : (s.setOut v).banks = s.banks := rfl
@[simp] theorem State.setOut_notices (v : List Emission) : (s.setOut v).notices = s.notices := rfl
@[simp] theorem State.setOut_out (v : List Emission) : (s.setOut v).out = v := rfl
@[simp] theorem State.setOut_freeIndex (v : List Emission) : (s.setOut v).freeIndex = s.freeIndex := rfl
@[simp] theorem State.setOut_pending (v : List Emission) : (s.setOut v).pending = s.pending := rfl

@[simp] theorem State.setFreeIndex_timeBase (v : Nat) : (s.setFreeIndex v).timeBase = s.timeBase := rfl
@[simp] theorem State.setFreeIndex_powerHeld (v : Nat) : (s.setFreeIndex v).powerHeld = s.powerHeld := rfl
@[simp] theorem State.setFreeIndex_pinHeld (v : Nat) : (s.setFreeIndex v).pinHeld = s.pinHeld := rfl
@[simp] theorem State.setFreeIndex_link (v : Nat) : (s.setFreeIndex v).link = s.link := rfl
@[simp] theorem State.setFreeIndex_intake (v : Nat) : (s.setFreeIndex v).intake = s.intake := rfl
@[simp] theorem State.setFreeIndex_points (v : Nat) : (s.setFreeIndex v).points = s.points := rfl
@[simp] theorem State.setFreeIndex_arming (v : Nat) : (s.setFreeIndex v).arming = s.arming := rfl
@[simp] theorem State.setFreeIndex_monitor (v : Nat) : (s.setFreeIndex v).monitor = s.monitor := rfl
@[simp] theorem State.setFreeIndex_engine (v : Nat) : (s.setFreeIndex v).engine = s.engine := rfl
@[simp] theorem State.setFreeIndex_queue (v : Nat) : (s.setFreeIndex v).queue = s.queue := rfl
@[simp] theorem State.setFreeIndex_tracker (v : Nat) : (s.setFreeIndex v).tracker = s.tracker := rfl
@[simp] theorem State.setFreeIndex_log (v : Nat) : (s.setFreeIndex v).log = s.log := rfl
@[simp] theorem State.setFreeIndex_agent (v : Nat) : (s.setFreeIndex v).agent = s.agent := rfl
@[simp] theorem State.setFreeIndex_banks (v : Nat) : (s.setFreeIndex v).banks = s.banks := rfl
@[simp] theorem State.setFreeIndex_notices (v : Nat) : (s.setFreeIndex v).notices = s.notices := rfl
@[simp] theorem State.setFreeIndex_out (v : Nat) : (s.setFreeIndex v).out = s.out := rfl
@[simp] theorem State.setFreeIndex_freeIndex (v : Nat) : (s.setFreeIndex v).freeIndex = v := rfl
@[simp] theorem State.setFreeIndex_pending (v : Nat) : (s.setFreeIndex v).pending = s.pending := rfl

@[simp] theorem State.setPending_timeBase (v : List Instr) : (s.setPending v).timeBase = s.timeBase := rfl
@[simp] theorem State.setPending_powerHeld (v : List Instr) : (s.setPending v).powerHeld = s.powerHeld := rfl
@[simp] theorem State.setPending_pinHeld (v : List Instr) : (s.setPending v).pinHeld = s.pinHeld := rfl
@[simp] theorem State.setPending_link (v : List Instr) : (s.setPending v).link = s.link := rfl
@[simp] theorem State.setPending_intake (v : List Instr) : (s.setPending v).intake = s.intake := rfl
@[simp] theorem State.setPending_points (v : List Instr) : (s.setPending v).points = s.points := rfl
@[simp] theorem State.setPending_arming (v : List Instr) : (s.setPending v).arming = s.arming := rfl
@[simp] theorem State.setPending_monitor (v : List Instr) : (s.setPending v).monitor = s.monitor := rfl
@[simp] theorem State.setPending_engine (v : List Instr) : (s.setPending v).engine = s.engine := rfl
@[simp] theorem State.setPending_queue (v : List Instr) : (s.setPending v).queue = s.queue := rfl
@[simp] theorem State.setPending_tracker (v : List Instr) : (s.setPending v).tracker = s.tracker := rfl
@[simp] theorem State.setPending_log (v : List Instr) : (s.setPending v).log = s.log := rfl
@[simp] theorem State.setPending_agent (v : List Instr) : (s.setPending v).agent = s.agent := rfl
@[simp] theorem State.setPending_banks (v : List Instr) : (s.setPending v).banks = s.banks := rfl
@[simp] theorem State.setPending_notices (v : List Instr) : (s.setPending v).notices = s.notices := rfl
@[simp] theorem State.setPending_out (v : List Instr) : (s.setPending v).out = s.out := rfl
@[simp] theorem State.setPending_freeIndex (v : List Instr) : (s.setPending v).freeIndex = s.freeIndex := rfl
@[simp] theorem State.setPending_pending (v : List Instr) : (s.setPending v).pending = v := rfl

end Sys2Proof.Machine
end

