-- ==== Sys2Proof/Laws/Service.lean ====
section
/-! SUPPORT. What the service of contingencies leaves alone: the operations of Tracker.lean and Monitor.lean change the scheme records,
the contingencies, the engine, the queue, the operations, the log, the notices and the free index, and nothing else. -/

namespace Sys2Proof.Machine

/-- The part of the state that no service operation changes. -/
structure Surroundings where
  timeBase : Time
  powerHeld : Bool
  pinHeld : Bool
  link : LinkState
  intake : IntakeState
  points : List PointRec
  agent : AgentState
  banks : BanksState
  out : List Emission
  pending : List Instr
  gateOpen : Bool
  startRequested : Bool
  settleEnded : Bool
  nextEvaluation : Option Time

/-- The part of a state that no service operation changes. -/
def State.surroundings (s : State) : Surroundings :=
  { timeBase := s.timeBase, powerHeld := s.powerHeld, pinHeld := s.pinHeld, link := s.link, intake := s.intake
    points := s.points, agent := s.agent, banks := s.banks, out := s.out, pending := s.pending
    gateOpen := s.arming.gateOpen, startRequested := s.arming.startRequested, settleEnded := s.arming.settleEnded
    nextEvaluation := s.arming.nextEvaluation }

/-- A fold keeps what each of its steps keeps. -/
theorem foldl_keeps {α β γ : Type} (g : α → γ) {f : α → β → α} (h : ∀ a b, g (f a b) = g a) (l : List β) (a : α) :
    g (l.foldl f a) = g a := by
  induction l generalizing a with
  | nil => rfl
  | cons x l ih => rw [List.foldl_cons, ih, h]

variable (s : State)

@[simp] theorem State.surroundings_setMonitor (v : MonitorState) : (s.setMonitor v).surroundings = s.surroundings := rfl
@[simp] theorem State.surroundings_setEngine (v : Option Snapshot) : (s.setEngine v).surroundings = s.surroundings := rfl
@[simp] theorem State.surroundings_setQueue (v : QueueState) : (s.setQueue v).surroundings = s.surroundings := rfl
@[simp] theorem State.surroundings_setTracker (v : TrackerState) : (s.setTracker v).surroundings = s.surroundings := rfl
@[simp] theorem State.surroundings_setLog (v : LogState) : (s.setLog v).surroundings = s.surroundings := rfl
@[simp] theorem State.surroundings_setNotices (v : Notices) : (s.setNotices v).surroundings = s.surroundings := rfl
@[simp] theorem State.surroundings_setFreeIndex (v : Nat) : (s.setFreeIndex v).surroundings = s.surroundings := rfl
@[simp] theorem State.surroundings_raise (f : Notices → Notices) : (s.raise f).surroundings = s.surroundings := rfl
@[simp] theorem State.surroundings_updScheme (i : Nat) (f : SchemeRec → SchemeRec) :
    (s.updScheme i f).surroundings = s.surroundings := rfl
@[simp] theorem State.surroundings_updCont (i : Nat) (f : ContRec → ContRec) :
    (s.updCont i f).surroundings = s.surroundings := rfl
@[simp] theorem State.surroundings_updOp (id : Nat) (f : Operation → Operation) :
    (s.updOp id f).surroundings = s.surroundings := rfl
@[simp] theorem State.surroundings_toOperated (i : Nat) : (s.toOperated i).surroundings = s.surroundings := rfl
@[simp] theorem State.surroundings_removeEntry (a : Nat) : (s.removeEntry a).surroundings = s.surroundings := rfl
@[simp] theorem State.surroundings_logClosed (op : Operation) (o : OpOutcome) :
    (s.logClosed op o).surroundings = s.surroundings := rfl
@[simp] theorem State.surroundings_raiseUntracked : s.raiseUntracked.surroundings = s.surroundings := rfl
@[simp] theorem State.surroundings_allocate (c : Nat) (path : OpPath) (p : Nat) (ph : OpPhase) (taken : List SchemeCopy) :
    (s.allocate c path p ph taken).surroundings = s.surroundings := rfl
@[simp] theorem State.surroundings_served (c : Nat) : (s.served c).surroundings = s.surroundings := rfl

@[simp] theorem State.surroundings_latchHardTrip (i : Nat) : (s.latchHardTrip i).surroundings = s.surroundings := by
  unfold State.latchHardTrip; split <;> rfl

@[simp] theorem State.surroundings_endWork (i : Nat) : (s.endWork i).surroundings = s.surroundings := by
  unfold State.endWork; split <;> rfl

@[simp] theorem State.surroundings_latchDropped (taken : List Nat) (o : Origin) :
    (s.latchDropped taken o).surroundings = s.surroundings := by
  cases o with
  | scheme i p => exact s.surroundings_latchHardTrip i
  | direct => exact foldl_keeps State.surroundings (fun s i => s.surroundings_latchHardTrip i) taken s

@[simp] theorem State.surroundings_applyHand (id p : Nat) (taken : List Nat) (n : Node) (o : HandOutcome) :
    (s.applyHand id p taken n o).surroundings = s.surroundings := by
  cases o <;> simp [State.applyHand]

@[simp] theorem State.surroundings_handIn (id p : Nat) (taken : List Nat) (n : Node) :
    (s.handIn id p taken n).surroundings = s.surroundings := by
  unfold State.handIn; dsimp only; split <;> simp

@[simp] theorem State.surroundings_handIns (id p : Nat) (taken : List Nat) (nodes : List Node) :
    (nodes.foldl (State.handIn id p taken) s).surroundings = s.surroundings :=
  foldl_keeps State.surroundings (fun s n => s.surroundings_handIn id p taken n) nodes s

@[simp] theorem State.surroundings_finishFor (a : Nat) (st : NodeStatus) (refs : List Nat) :
    (s.finishFor a st refs).surroundings = s.surroundings :=
  foldl_keeps State.surroundings (fun s id => s.surroundings_updOp id _) refs s

@[simp] theorem State.surroundings_finishEntry (st : NodeStatus) (e : Entry) :
    (s.finishEntry st e).surroundings = s.surroundings := by simp [State.finishEntry]

@[simp] theorem State.surroundings_confirmUpdated (u : List Nat) : (s.confirmUpdated u).surroundings = s.surroundings :=
  foldl_keeps State.surroundings (fun s e => s.surroundings_finishEntry _ e) _ s

@[simp] theorem State.surroundings_openWork (c : Nat) (path : OpPath) (p : Nat) (ph : OpPhase) (taken : List SchemeCopy) :
    (s.openWork c path p ph taken).surroundings = s.surroundings := by
  unfold State.openWork; split <;> rfl

@[simp] theorem State.surroundings_closeOp (op : Operation) : (s.closeOp op).surroundings = s.surroundings := by
  unfold State.closeOp
  dsimp only
  rw [foldl_keeps State.surroundings (fun s (p : Participation) => s.surroundings_endWork p.scheme),
    State.surroundings_setTracker, State.surroundings_logClosed]
  exact foldl_keeps State.surroundings (fun s (p : Participation) => s.surroundings_latchHardTrip p.scheme) _ s

@[simp] theorem State.surroundings_closeFinished : s.closeFinished.surroundings = s.surroundings :=
  foldl_keeps State.surroundings (fun s op => s.surroundings_closeOp op) _ s

@[simp] theorem State.surroundings_escalate (id scheme : Nat) : (s.escalate id scheme).surroundings = s.surroundings := by
  unfold State.escalate
  split
  · rfl
  · split
    · rfl
    · dsimp only
      split
      · split
        · rfl
        · simp
      · rfl

@[simp] theorem State.surroundings_expireFor (a id : Nat) : (s.expireFor a id).surroundings = s.surroundings := by
  unfold State.expireFor
  split
  · rfl
  · rw [foldl_keeps State.surroundings (fun s i => s.surroundings_escalate id i)]; simp

@[simp] theorem State.surroundings_expireEntry (e : Entry) : (s.expireEntry e).surroundings = s.surroundings := by
  unfold State.expireEntry
  rw [State.surroundings_closeFinished, foldl_keeps State.surroundings (fun s id => s.surroundings_expireFor e.action id)]
  simp

@[simp] theorem State.surroundings_takeSchemes (taken : List SchemeCopy) :
    (s.takeSchemes taken).surroundings = s.surroundings :=
  foldl_keeps State.surroundings (fun s (t : SchemeCopy) => s.surroundings_updScheme t.scheme _) taken s

@[simp] theorem State.surroundings_take (c : Nat) : (s.take c).surroundings = s.surroundings := by simp [State.take]

@[simp] theorem State.surroundings_arbiterTake : s.arbiterTake.surroundings = s.surroundings := by
  unfold State.arbiterTake
  split
  · rfl
  · split <;> simp

@[simp] theorem State.surroundings_completeExpansion (snap : Snapshot) :
    (s.completeExpansion snap).surroundings = s.surroundings := by
  unfold State.completeExpansion
  dsimp only
  simp only [State.surroundings_arbiterTake, State.surroundings_closeFinished, State.surroundings_setEngine,
    State.surroundings_served]
  split <;>
    simp [foldl_keeps State.surroundings (fun (s : State) i => s.surroundings_endWork i)]

@[simp] theorem State.surroundings_serveExpress (c : Nat) (img : Image) :
    (s.serveExpress c img).surroundings = s.surroundings := by
  unfold State.serveExpress
  dsimp only
  simp only [State.surroundings_served, State.surroundings_handIns]
  split <;>
    simp [foldl_keeps State.surroundings (fun (s : State) i => s.surroundings_endWork i)]

@[simp] theorem State.surroundings_completed (c : Nat) : (s.completed c).surroundings = s.surroundings := by
  unfold State.completed
  split
  · rfl
  · split
    · rfl
    · split <;> rfl

theorem State.surroundings_evaluateCont (acc : State × List Nat) (c : Nat) :
    (State.evaluateCont acc c).1.surroundings = acc.1.surroundings := by
  unfold State.evaluateCont
  dsimp only
  split <;> simp

@[simp] theorem State.surroundings_evaluateConts (u : List Nat) : (s.evaluateConts u).1.surroundings = s.surroundings :=
  foldl_keeps (fun acc : State × List Nat => acc.1.surroundings) State.surroundings_evaluateCont _ (s, [])

@[simp] theorem State.surroundings_expressServes (serves : List Nat) :
    (s.expressServes serves).surroundings = s.surroundings := by
  unfold State.expressServes
  dsimp only
  rw [foldl_keeps State.surroundings (fun (s : State) c => s.surroundings_serveExpress c _),
    foldl_keeps State.surroundings (fun (s : State) c => s.surroundings_serveExpress c _)]

theorem State.surroundings_setPoints (p : List PointRec) :
    (s.setPoints p).surroundings = { s.surroundings with points := p } := rfl

/-- Express serves that come first leave the points as they find them. -/
@[simp] theorem State.surroundings_servesFirst (before : List PointRec) (serves : List Nat) :
    (s.servesFirst before serves).surroundings = s.surroundings := by
  simp only [State.servesFirst, State.surroundings_setPoints, State.surroundings_expressServes]
  rfl

@[simp] theorem State.surroundings_confirmAndServe (before : List PointRec) (u serves : List Nat) :
    (s.confirmAndServe before u serves).surroundings = s.surroundings := by
  unfold State.confirmAndServe State.drawConfirmFirst
  split
  · simp
  · dsimp only
    split <;> simp

/-- What follows the updates of an event changes nothing outside the service of contingencies. -/
@[simp] theorem State.surroundings_afterUpdates (before : List PointRec) (u : List Nat) :
    (s.afterUpdates before u).surroundings = s.surroundings := by
  simp [State.afterUpdates]

variable {s}

/-- Equal surroundings are equal fields. -/
theorem State.surroundings_eq {t : State} (h : t.surroundings = s.surroundings) :
    t.timeBase = s.timeBase ∧ t.powerHeld = s.powerHeld ∧ t.pinHeld = s.pinHeld ∧ t.link = s.link ∧ t.intake = s.intake
    ∧ t.points = s.points ∧ t.agent = s.agent ∧ t.banks = s.banks ∧ t.out = s.out ∧ t.pending = s.pending
    ∧ t.arming.gateOpen = s.arming.gateOpen ∧ t.arming.startRequested = s.arming.startRequested
    ∧ t.arming.settleEnded = s.arming.settleEnded ∧ t.arming.nextEvaluation = s.arming.nextEvaluation := by
  simpa [State.surroundings] using h

end Sys2Proof.Machine
end

