-- ==== Sys2Proof/Laws/Effect.lean ====
section
/-! SUPPORT. Everything a command can do to the part's core: the points, the schemes and the gate, the contingencies, the engine, the
queue, the operations, the log and the banks. One case analysis over the commands, for every invariant to use. -/

namespace Sys2Proof.Machine

/-- The part is not held in reset: the event occurs. -/
theorem running_next {s : State} (h : s.held = false) (f : State → State) : running s f = .next (f s.quiet) := by
  simp [running, h]

/-- The two states agree in everything but the time base, the reset inputs, the link, Intake, the agent, the notices and the model's
own fields. -/
structure State.Same (s t : State) : Prop where
  points : t.points = s.points
  arming : t.arming = s.arming
  monitor : t.monitor = s.monitor
  engine : t.engine = s.engine
  queue : t.queue = s.queue
  tracker : t.tracker = s.tracker
  log : t.log = s.log
  banks : t.banks = s.banks

theorem State.Same.refl (s : State) : s.Same s := ⟨rfl, rfl, rfl, rfl, rfl, rfl, rfl, rfl⟩

theorem State.Same.trans {s t u : State} (a : s.Same t) (b : t.Same u) : s.Same u :=
  ⟨b.1.trans a.1, b.2.trans a.2, b.3.trans a.3, b.4.trans a.4, b.5.trans a.5, b.6.trans a.6, b.7.trans a.7, b.8.trans a.8⟩

theorem State.same_quiet (s : State) : s.Same s.quiet := ⟨rfl, rfl, rfl, rfl, rfl, rfl, rfl, rfl⟩

theorem State.same_setLink (s : State) (l : LinkState) : s.Same (s.setLink l) := ⟨rfl, rfl, rfl, rfl, rfl, rfl, rfl, rfl⟩

theorem State.same_emit (s : State) (e : Emission) : s.Same (s.emit e) := ⟨rfl, rfl, rfl, rfl, rfl, rfl, rfl, rfl⟩

theorem State.same_reply (s : State) (q : Request) (r : Result) (n : Nat) (d : List Word) (b : Bool) :
    s.Same (s.reply q r n d b) := ⟨rfl, rfl, rfl, rfl, rfl, rfl, rfl, rfl⟩

theorem State.same_done (s : State) (q : Request) (d : List Word) : s.Same (s.done q d) :=
  ⟨rfl, rfl, rfl, rfl, rfl, rfl, rfl, rfl⟩

theorem State.same_repeatWords (s : State) (side : Side) (slot : Option Nat) (words : List Word) :
    s.Same (s.repeatWords side slot words) := by
  unfold State.repeatWords
  split
  · exact .refl s
  · exact .refl s
  all_goals exact s.same_emit _

theorem State.same_repeatBroken (s : State) (side : Side) (slot : Option Nat) (at' : Nat) (words : List Word) :
    s.Same (s.repeatBroken side slot at' words) := by
  unfold State.repeatBroken
  dsimp only
  split
  · refine State.Same.trans ?_ (State.same_repeatWords _ _ _ _)
    exact ⟨rfl, rfl, rfl, rfl, rfl, rfl, rfl, rfl⟩
  · exact ⟨rfl, rfl, rfl, rfl, rfl, rfl, rfl, rfl⟩

theorem State.same_framingError (s : State) (side : Side) (slot : Option Nat) (at' : Nat) (words : List Word) :
    s.Same (s.framingError side slot at' words) := by
  unfold State.framingError
  dsimp only
  split
  · refine State.Same.trans ?_ (State.same_repeatBroken _ _ _ _ _)
    exact ⟨rfl, rfl, rfl, rfl, rfl, rfl, rfl, rfl⟩
  · exact ⟨rfl, rfl, rfl, rfl, rfl, rfl, rfl, rfl⟩

theorem State.same_offSlot (s : State) (side : Side) (start : Nat) (words : List Word) :
    s.Same (s.offSlot side start words) := by
  unfold State.offSlot
  split <;> exact s.same_framingError _ _ _ _

theorem State.same_damagedInSlot (s : State) (side : Side) (slot : Nat) (words : List Word) (d : Damage) :
    s.Same (s.damagedInSlot side slot words d) := by
  cases d with
  | framing => exact s.same_framingError _ _ _ _
  | truncated | badCheck =>
    unfold State.damagedInSlot
    dsimp only
    split
    · refine State.Same.trans ?_ (State.same_repeatWords _ _ _ _)
      exact ⟨rfl, rfl, rfl, rfl, rfl, rfl, rfl, rfl⟩
    · exact ⟨rfl, rfl, rfl, rfl, rfl, rfl, rfl, rfl⟩

/-- What the reception of a good frame can do: something to the link alone, or the repetition and then the hand-on. -/
theorem State.receiveGood_cases (s : State) (rx : Reception) (kind : BitVec 4) (payload : List Word) (f : Nat → State → State) :
    s.Same (s.receiveGood rx kind payload f)
    ∨ ∃ slot u, s.Same u ∧ u.agent = s.agent ∧ s.receiveGood rx kind payload f = f slot u := by
  unfold State.receiveGood
  split
  · split
    · exact .inl (s.same_offSlot _ _ _)
    · rename_i slot _
      split
      · unfold State.goodInSlot
        split
        · exact .inl (.refl s)
        · exact .inl ⟨rfl, rfl, rfl, rfl, rfl, rfl, rfl, rfl⟩
        · refine .inr ⟨slot, _, s.same_repeatWords _ _ _, ?_, rfl⟩
          unfold State.repeatWords; split <;> rfl
      · exact .inl (s.same_damagedInSlot _ _ _ _)
  · exact .inl (.refl s)

theorem State.same_goodInSlot (s : State) (rx : Reception) (kind : BitVec 4) (payload : List Word) (slot : Nat) :
    s.Same (s.goodInSlot rx kind payload slot (fun s => s)) := by
  unfold State.goodInSlot
  split
  · exact .refl s
  · exact ⟨rfl, rfl, rfl, rfl, rfl, rfl, rfl, rfl⟩
  · exact s.same_repeatWords _ _ _

theorem State.same_timeMarker (s : State) (side : Side) (start : Nat) (cycle : Byte) (slots : Nat) :
    s.Same (s.timeMarker side start cycle slots) := by
  unfold State.timeMarker
  dsimp only
  split
  · exact .refl s
  all_goals
    split
    · exact ⟨rfl, rfl, rfl, rfl, rfl, rfl, rfl, rfl⟩
    · first
        | exact .refl s
        | (split <;> exact ⟨rfl, rfl, rfl, rfl, rfl, rfl, rfl, rfl⟩)

theorem State.same_receiveMarker (s : State) (rx : Reception) (payload : Word) : s.Same (s.receiveMarker rx payload) := by
  unfold State.receiveMarker
  dsimp only
  split
  · split
    · exact s.same_offSlot _ _ _
    · exact State.Same.trans (s.same_goodInSlot _ _ _ _) (State.same_timeMarker _ _ _ _ _)
  · exact s.same_timeMarker _ _ _ _

theorem State.same_missMarker (s : State) (side : Side) : s.Same (s.missMarker side) := by
  unfold State.missMarker
  dsimp only
  split
  · exact .refl s
  · split
    · exact .refl s
    · exact .refl s
    · exact ⟨rfl, rfl, rfl, rfl, rfl, rfl, rfl, rfl⟩
    all_goals split <;> exact ⟨rfl, rfl, rfl, rfl, rfl, rfl, rfl, rfl⟩

theorem State.same_babbleSlot (s : State) (side : Side) : s.Same (s.babbleSlot side) := by
  unfold State.babbleSlot
  dsimp only
  split
  · exact .refl s
  · exact .refl s
  · exact ⟨rfl, rfl, rfl, rfl, rfl, rfl, rfl, rfl⟩
  · exact ⟨rfl, rfl, rfl, rfl, rfl, rfl, rfl, rfl⟩
  · split <;> exact ⟨rfl, rfl, rfl, rfl, rfl, rfl, rfl, rfl⟩

theorem State.same_receiveDamaged (s : State) (side : Side) (start : Nat) (whole : Bool) (words : List Word) :
    s.Same (s.receiveDamaged side start whole words) := by
  unfold State.receiveDamaged
  split
  · split
    · exact s.same_offSlot _ _ _
    · split
      · exact .refl s
      · exact s.same_damagedInSlot _ _ _ _
  · exact .refl s

theorem State.same_receiveLooped (s : State) (side : Side) (whole : Bool) (words : List Word) :
    s.Same (s.receiveLooped side whole words) := by
  unfold State.receiveLooped
  split
  · split <;> exact ⟨rfl, rfl, rfl, rfl, rfl, rfl, rfl, rfl⟩
  · exact .refl s

theorem State.same_sendOn (slot : Nat) (words : List Word) (s : State) (tx : Side) : s.Same (State.sendOn slot words s tx) := by
  unfold State.sendOn
  split
  · exact .refl s
  · split <;> exact ⟨rfl, rfl, rfl, rfl, rfl, rfl, rfl, rfl⟩

theorem State.same_sendOwn (s : State) (slot : Nat) (words : List Word) : s.Same (s.sendOwn slot words) :=
  State.Same.trans (State.same_sendOn slot words s .east) (State.same_sendOn slot words _ .west)

theorem State.same_sendWaiting (s : State) (tx : Side) (start : Nat) : s.Same (s.sendWaiting tx start) := by
  unfold State.sendWaiting
  split
  · exact .refl s
  · dsimp only
    split
    · exact .refl s
    · split <;> exact ⟨rfl, rfl, rfl, rfl, rfl, rfl, rfl, rfl⟩

theorem State.same_loseRequest (s : State) : s.Same s.loseRequest := ⟨rfl, rfl, rfl, rfl, rfl, rfl, rfl, rfl⟩

/-- The command is a request, or a frame that may be one. -/
def isRequest (c : Instr) : Prop :=
  c.request.isSome = true ∨ (∃ rx kind p, c = .repeatedFrame rx kind p) ∨ ∃ rx code tag args, c = .unknownRequest rx code tag args

/-- What a command does to the core of the part: from `u` to the indexed state. -/
inductive Effect (c : Instr) (u : State) : State → Prop where
  | none : Effect c u u
  | reset : Effect c u u.resetLive
  | resetPower : Effect c u (u.resetLive.setLog .empty)
  | evaluate : Effect c u u.evaluate
  | holdExpiry (i : Nat) : Effect c u (u.updScheme i (fun r => { r with holdTimer := .none }))
  | resetExpiry (i : Nat) : (u.scheme i).state = .operated →
      Effect c u (u.updScheme i (fun r => { r.calm .disarmed with resetTimer := .none }))
  | settle : c = .settleIntervalEnd → Effect c u (u.setArming { u.arming with settleEnded := true }).tryOpenGate
  | hold (i : Nat) : Effect c u (u.holdPoints i)
  | stale (i : Nat) : Effect c u (u.updPoint i (PointRec.toStale (u.active.point i)))
  | expire (e : Entry) : e ∈ u.queue.entries → Effect c u (u.expireEntry e)
  | complete (snap : Snapshot) : u.engine = some snap → Effect c u (u.completeExpansion snap)
  | trip : u.tripEntries ≠ [] → Effect c u (u.sendTrip u.tripEntries)
  | publish (i : Nat) (fr : Freshness) (payload : List Word) :
      Effect c u ((u.publishPoints i fr payload).afterUpdates u.points (u.updatedBy i payload))
  | load (a : Nat) (d : List Word) : isRequest c → Effect c u (u.loadShadow a d)
  | copy : isRequest c → Effect c u (u.setShadow u.active)
  | commit : isRequest c → u.workInFlight = false → u.shadow.failure = .none → Effect c u u.commitBanks
  | start : isRequest c → Effect c u (u.setArming { u.arming with startRequested := true }).tryOpenGate
  | close : isRequest c → u.workInFlight = false → Effect c u u.closeGate
  | resetSchemes (l : List Nat) : isRequest c → (∀ i ∈ l, (u.scheme i).state ≠ .operating) →
      Effect c u (l.foldl (fun s i => s.updScheme i SchemeRec.resetScheme) u)
  | restoreMargin (l : List Nat) : isRequest c →
      Effect c u (l.foldl (fun s i => s.updScheme i SchemeRec.restoreMargin) u)
  | release : isRequest c → Effect c u (u.mapSchemes (fun r => { r with hardTrip := false, backstop := 0 }))
  | force (i : Nat) (v : PointValue) : isRequest c → u.arming.gateOpen = false → Effect c u (u.force i v)
  | unforce (f : Nat → Bool) : isRequest c → Effect c u (u.unforce f)
  | clear (f : Nat → Bool) : isRequest c → Effect c u (u.clearCounters f)

/-- A command goes from one state to another by one of the effects, with only the link, Intake, the agent, the notices and the model's
own fields changed before and after it. -/
def Does (c : Instr) (s t : State) : Prop := ∃ u v, s.Same u ∧ Effect c u v ∧ v.Same t

theorem Does.same {c : Instr} {s t : State} (h : s.Same t) : Does c s t := ⟨s, s, .refl s, .none, h⟩

theorem Does.effect {c : Instr} {s t : State} (h : Effect c s t) : Does c s t := ⟨s, t, .refl s, h, .refl t⟩

theorem Does.before {c : Instr} {r s t : State} (h : r.Same s) (d : Does c s t) : Does c r t :=
  let ⟨u, v, a, e, b⟩ := d
  ⟨u, v, h.trans a, e, b⟩

theorem Does.after {c : Instr} {s t u : State} (d : Does c s t) (h : t.Same u) : Does c s u :=
  let ⟨x, v, a, e, b⟩ := d
  ⟨x, v, a, e, b.trans h⟩

theorem Does.replied {c : Instr} {s t : State} (d : Effect c s t) (q : Request) (w : List Word) : Does c s (t.done q w) :=
  (Does.effect d).after (t.same_done q w)

theorem Does.refused {c : Instr} (s : State) (q : Request) (r : Result) (n : Nat) (d : List Word) (b : Bool) :
    Does c s (s.reply q r n d b) := .same (s.same_reply q r n d b)

theorem Does.guarded {c : Instr} {s : State} {q : Request} {w : Bool} {n : Nat} {body : State → State} (h : Does c s (body s)) :
    Does c s (s.guarded q w n body) := by
  unfold State.guarded
  split
  · exact .refused _ _ _ _ _ _
  · split
    · exact .refused _ _ _ _ _ _
    · exact h

theorem Does.onPort {c : Instr} {s : State} {q : Request} {body : Side → State → State} (h : ∀ side, Does c s (body side s)) :
    Does c s (s.onPort q body) := by
  unfold State.onPort
  refine .guarded ?_
  split
  · exact .refused _ _ _ _ _ _
  · exact h _

variable {c : Instr}

theorem does_identify (s : State) (q : Request) : Does c s (s.doIdentify q) := .guarded (.same (s.same_done _ _))

theorem does_readState (s : State) (q : Request) : Does c s (s.doReadState q) := by
  refine .guarded ?_
  split
  · exact .refused _ _ _ _ _ _
  · dsimp only
    split
    · exact .refused _ _ _ _ _ _
    · exact .same ⟨rfl, rfl, rfl, rfl, rfl, rfl, rfl, rfl⟩

theorem does_readTable (s : State) (q : Request) : Does c s (s.doReadTable q) := by
  refine .guarded ?_
  dsimp only
  split
  · exact .refused _ _ _ _ _ _
  · exact .same (s.same_done _ _)

theorem does_load (hc : isRequest c) (s : State) (q : Request) : Does c s (s.doLoad q) := by
  unfold State.doLoad
  dsimp only
  refine .guarded ?_
  split
  · exact .refused _ _ _ _ _ _
  · exact .replied (.load _ _ hc) _ _

theorem does_copy (hc : isRequest c) (s : State) (q : Request) : Does c s (s.doCopy q) := .guarded (.replied (.copy hc) _ _)

theorem does_commit (hc : isRequest c) (s : State) (q : Request) : Does c s (s.doCommit q) := by
  refine .guarded ?_
  split
  · exact .refused _ _ _ _ _ _
  · rename_i hw
    split
    · exact .refused _ _ _ _ _ _
    · rename_i hf
      exact .replied (.commit hc (by simpa using hw) hf) _ _

theorem does_start (hc : isRequest c) (s : State) (q : Request) : Does c s (s.doStart q) := .guarded (.replied (.start hc) _ _)

theorem does_closeGate (hc : isRequest c) (s : State) (q : Request) : Does c s (s.doCloseGate q) := by
  refine .guarded ?_
  split
  · exact .refused _ _ _ _ _ _
  · rename_i hw
    exact .replied (.close hc (by simpa using hw)) _ _

theorem does_resetScheme (hc : isRequest c) (s : State) (q : Request) : Does c s (s.doResetScheme q) := by
  refine .guarded ?_
  split
  · exact .refused _ _ _ _ _ _
  · split
    · exact .refused _ _ _ _ _ _
    · rename_i h
      refine .replied (.resetSchemes _ hc ?_) _ _
      simpa using h

theorem does_restoreMargin (hc : isRequest c) (s : State) (q : Request) : Does c s (s.doRestoreMargin q) := by
  refine .guarded ?_
  split
  · exact .refused _ _ _ _ _ _
  · exact .replied (.restoreMargin _ hc) _ _

theorem does_releaseHardTrip (hc : isRequest c) (s : State) (q : Request) : Does c s (s.doReleaseHardTrip q) :=
  .guarded (.replied (.release hc) _ _)

theorem does_forcePoint (hc : isRequest c) (s : State) (q : Request) : Does c s (s.doForcePoint q) := by
  refine .guarded ?_
  dsimp only
  split
  · exact .refused _ _ _ _ _ _
  · rename_i hg
    split
    · exact .refused _ _ _ _ _ _
    · split
      · exact .refused _ _ _ _ _ _
      · exact .replied (.force _ _ hc (by simpa using hg)) _ _

theorem does_unforcePoint (hc : isRequest c) (s : State) (q : Request) : Does c s (s.doUnforcePoint q) := by
  refine .guarded ?_
  dsimp only
  split
  · exact .replied (.unforce _ hc) _ _
  · split
    · exact .refused _ _ _ _ _ _
    · exact .replied (.unforce _ hc) _ _

theorem does_portRestart (s : State) (q : Request) : Does c s (s.doPortRestart q) :=
  .onPort fun _ => .same ⟨rfl, rfl, rfl, rfl, rfl, rfl, rfl, rfl⟩

theorem does_rejoin (s : State) (q : Request) : Does c s (s.doRejoin q) := by
  refine .onPort fun side => .same ?_
  split <;> exact ⟨rfl, rfl, rfl, rfl, rfl, rfl, rfl, rfl⟩

theorem does_loopbackOn (s : State) (q : Request) : Does c s (s.doLoopbackOn q) := by
  refine .onPort fun side => .same ?_
  split
  · exact s.same_reply _ _ _ _ _
  · split
    · exact s.same_reply _ _ _ _ _
    · exact ⟨rfl, rfl, rfl, rfl, rfl, rfl, rfl, rfl⟩

theorem does_loopbackOff (s : State) (q : Request) : Does c s (s.doLoopbackOff q) := by
  refine .onPort fun side => .same ?_
  split <;> exact ⟨rfl, rfl, rfl, rfl, rfl, rfl, rfl, rfl⟩

theorem does_readCounters (s : State) (q : Request) : Does c s (s.doReadCounters q) := by
  refine .guarded ?_
  dsimp only
  split
  · exact .refused _ _ _ _ _ _
  · exact .same (s.same_done _ _)

theorem does_readCountersClear (hc : isRequest c) (s : State) (q : Request) : Does c s (s.doReadCountersClear q) := by
  refine .guarded ?_
  dsimp only
  split
  · exact .refused _ _ _ _ _ _
  · exact .replied (.clear _ hc) _ _

theorem does_readLog (s : State) (q : Request) : Does c s (s.doReadLog q) := by
  refine .guarded ?_
  dsimp only
  split
  · exact .refused _ _ _ _ _ _
  · exact .same (s.same_done _ _)

theorem does_clearNotices (s : State) (q : Request) : Does c s (s.doClearNotices q) :=
  .guarded (.same ⟨rfl, rfl, rfl, rfl, rfl, rfl, rfl, rfl⟩)

theorem does_restart (s : State) (q : Request) : Does c s (s.doRestart q) := .guarded (.refused _ _ _ _ _ _)

theorem does_portControl (s : State) (q : Request) : Does c s (s.doPortControl q) := by
  unfold State.doPortControl
  split
  · exact does_portRestart s q
  · exact does_rejoin s q
  · exact does_loopbackOn s q
  · exact does_loopbackOff s q
  · exact .guarded (.refused _ _ _ _ _ _)

/-- Whatever its code, a request taken has one of the effects. -/
theorem does_execute (hc : isRequest c) (s : State) (q : Request) : Does c s (s.execute q) := by
  unfold State.execute
  split
  · exact does_identify s q
  · exact does_readState s q
  · exact does_readTable s q
  · exact does_load hc s q
  · exact does_copy hc s q
  · exact does_commit hc s q
  · exact does_start hc s q
  · exact does_closeGate hc s q
  · exact does_resetScheme hc s q
  · exact does_restoreMargin hc s q
  · exact does_releaseHardTrip hc s q
  · exact does_forcePoint hc s q
  · exact does_unforcePoint hc s q
  · exact does_portControl s q
  · split
    · exact does_readCountersClear hc s q
    · exact does_readCounters s q
  · exact does_readLog s q
  · exact does_clearNotices s q
  · exact does_restart s q
  · exact .refused _ _ _ _ _ _

theorem does_takeRequest {s : State} {port : Side} {dest : Address} {code : Byte} {body : State → State} (h : Does c s (body s)) :
    Does c s (State.takeRequest port dest code body s) := by
  unfold State.takeRequest
  split
  · split
    · exact .same s.same_loseRequest
    · exact h
  · exact .same (.refl s)

theorem does_receiveGood {s : State} {rx : Reception} {kind : BitVec 4} {payload : List Word} {f : Nat → State → State}
    (h : ∀ slot u, u.agent = s.agent → Does c u (f slot u)) : Does c s (s.receiveGood rx kind payload f) := by
  rcases s.receiveGood_cases rx kind payload f with a | ⟨slot, u, a, b, e⟩
  · exact .same a
  · rw [e]; exact .before a (h slot u b)

theorem does_receiveRequest {s : State} {rx : Reception} {code tag : Byte} {args : List Word} {body : Request → State → State}
    (h : ∀ (u : State) q, Does c u (body q u)) : Does c s (s.receiveRequest rx code tag args body) :=
  does_receiveGood fun _ u _ => does_takeRequest (h u _)

theorem does_countPublication (s : State) (i : Nat) (payload : List Word) : Does c s (s.countPublication i payload) := by
  unfold State.countPublication
  dsimp only
  generalize hu : s.updStation i _ = u
  have e : s.updatedBy i payload = u.updatedBy i payload := by rw [← hu]; rfl
  rw [e]
  refine .before (s := u) ?_ (.effect (.publish i _ payload))
  rw [← hu]
  exact ⟨rfl, rfl, rfl, rfl, rfl, rfl, rfl, rfl⟩

theorem does_offer (s : State) (source : Address) (slot : Nat) (cycle : Byte) (payload : List Word) :
    Does c s (s.offer source slot cycle payload) := by
  unfold State.offer
  split
  · exact .same ⟨rfl, rfl, rfl, rfl, rfl, rfl, rfl, rfl⟩
  · split
    · unfold State.offerInSlot
      split
      · exact .same ⟨rfl, rfl, rfl, rfl, rfl, rfl, rfl, rfl⟩
      · dsimp only
        split
        · exact .same ⟨rfl, rfl, rfl, rfl, rfl, rfl, rfl, rfl⟩
        · rename_i i _ _ _ _
          exact .before (s := s.updStation i _) ⟨rfl, rfl, rfl, rfl, rfl, rfl, rfl, rfl⟩ (does_countPublication _ _ _)
    · exact .same ⟨rfl, rfl, rfl, rfl, rfl, rfl, rfl, rfl⟩

theorem does_handPayload (hc : isRequest c) (s : State) (rx : Reception) (payload : List Word) :
    Does c s (State.handPayload rx payload s) := by
  unfold State.handPayload
  dsimp only
  split
  · exact Does.before (s := s.setFreeIndex (s.freeIndex + 1)) ⟨rfl, rfl, rfl, rfl, rfl, rfl, rfl, rfl⟩
      (does_takeRequest (does_execute hc _ _))
  · exact does_takeRequest (does_execute hc _ _)

theorem does_handPayload_full (s : State) (h : s.agent.holder.isSome = true) (rx : Reception) (payload : List Word) :
    Does c s (State.handPayload rx payload s) := by
  have taken : ∀ (u : State) port dest code body, u.agent.holder.isSome = true →
      u.Same (State.takeRequest port dest code body u) := by
    intro u port dest code body hu
    unfold State.takeRequest
    split
    · exact u.same_loseRequest
    · exact .refl u
  unfold State.handPayload
  dsimp only
  split
  · refine .same (State.Same.trans (t := s.setFreeIndex (s.freeIndex + 1)) ?_ (taken _ _ _ _ _ h))
    exact ⟨rfl, rfl, rfl, rfl, rfl, rfl, rfl, rfl⟩
  · exact .same (taken _ _ _ _ _ h)

theorem does_compose (s : State) (slot : Nat) : Does c s (s.compose slot) := by
  unfold State.compose
  split
  · rename_i e rest h
    have hs := s.same_sendOwn slot (s.ownFrame 2 63 (tripPayload (e :: rest)))
    generalize s.sendOwn slot (s.ownFrame 2 63 (tripPayload (e :: rest))) = u at hs
    have ht : u.tripEntries = e :: rest := by rw [← h]; unfold State.tripEntries; rw [hs.queue]
    rw [← ht]
    exact .before hs (.effect (.trip (by rw [ht]; simp)))
  · split
    · exact .same ((s.same_sendOwn _ _).trans ⟨rfl, rfl, rfl, rfl, rfl, rfl, rfl, rfl⟩)
    · exact .same (s.same_sendOwn _ _)

/-- Everything a command can do to the core. -/
theorem exec_does (c : Instr) (s t : State) (h : exec c s = .next t) : Does c s t := by
  have run : ∀ f : State → State, (∀ u, Does c u (f u)) → running s f = .next t → Does c s t := by
    intro f hf h
    unfold running at h
    rw [Host.Outcome.next.injEq] at h
    subst h
    split
    · exact .same s.same_quiet
    · exact .before s.same_quiet (hf _)
  have req : ∀ (hc : isRequest c) rx code tag args (body : Request → State → State),
      (∀ (u : State) q, Does c u (body q u)) →
      running s (fun s => s.receiveRequest rx code tag args body) = .next t → Does c s t :=
    fun _ rx code tag args body hb h => run _ (fun u => does_receiveRequest hb) h
  cases c with
  | powerOnReset p =>
    cases p <;> simp only [exec, execPowerOnReset, Host.Outcome.next.injEq] at h <;> subst h
    · exact (Does.effect .resetPower).after ⟨rfl, rfl, rfl, rfl, rfl, rfl, rfl, rfl⟩
    · split
      · exact (Does.effect .resetPower).after ⟨rfl, rfl, rfl, rfl, rfl, rfl, rfl, rfl⟩
      · exact .same s.same_quiet
  | resetPin p =>
    cases p <;> simp only [exec, execResetPin, Host.Outcome.next.injEq] at h <;> subst h
    · exact (Does.effect .reset).after ⟨rfl, rfl, rfl, rfl, rfl, rfl, rfl, rfl⟩
    · split
      · exact (Does.effect .reset).after ⟨rfl, rfl, rfl, rfl, rfl, rfl, rfl, rfl⟩
      · exact .same s.same_quiet
  | timeBaseTick =>
    simp only [exec, execTimeBaseTick] at h
    refine run _ (fun u => ?_) h
    exact .same ⟨rfl, rfl, rfl, rfl, rfl, rfl, rfl, rfl⟩
  | armingEvaluation =>
    simp only [exec, execArmingEvaluation] at h
    refine run _ (fun u => ?_) h
    split
    · exact .effect .evaluate
    · exact .same (.refl _)
  | holdTimerExpiry i =>
    simp only [exec, execHoldTimerExpiry] at h
    refine run _ (fun u => ?_) h
    split
    · exact .effect (.holdExpiry i)
    · exact .same (.refl _)
  | resetTimerExpiry i =>
    simp only [exec, execResetTimerExpiry] at h
    refine run _ (fun u => ?_) h
    split
    · rename_i hh; exact .effect (.resetExpiry i hh.2)
    · exact .same (.refl _)
  | settleIntervalEnd =>
    simp only [exec, execSettleIntervalEnd] at h
    refine run _ (fun u => ?_) h
    split
    · exact .effect (.settle rfl)
    · exact .same (.refl _)
  | windowEnd i =>
    simp only [exec, execWindowEnd] at h
    refine run _ (fun u => ?_) h
    split
    · unfold State.endWindow
      dsimp only
      split
      · exact Does.before (s := u.updStation i _) ⟨rfl, rfl, rfl, rfl, rfl, rfl, rfl, rfl⟩ (.effect (.hold i))
      · exact .same ⟨rfl, rfl, rfl, rfl, rfl, rfl, rfl, rfl⟩
    · exact .same (.refl _)
  | staleChange i =>
    simp only [exec, execStaleChange] at h
    refine run _ (fun u => ?_) h
    split
    · exact .effect (.stale i)
    · exact .same (.refl _)
  | entryExpiry a =>
    simp only [exec, execEntryExpiry] at h
    refine run _ (fun u => ?_) h
    split
    · exact .same (.refl _)
    · rename_i e he
      split
      · exact .effect (.expire e (List.mem_of_find?_eq_some he))
      · exact .same (.refl _)
  | expansionCompletion =>
    simp only [exec, execExpansionCompletion] at h
    refine run _ (fun u => ?_) h
    split
    · exact .same (.refl _)
    · rename_i snap he; exact .effect (.complete snap he)
  | ownSlotStart n =>
    simp only [exec, execOwnSlotStart] at h
    refine run _ (fun u => ?_) h
    split
    · exact .same (.refl _)
    · exact does_compose _ _
  | waitingCopySend tx n =>
    simp only [exec, execWaitingCopySend] at h
    refine run _ (fun u => ?_) h
    exact .same (u.same_sendWaiting _ _)
  | slotEndRestart =>
    simp only [exec, execSlotEndRestart] at h
    refine run _ (fun u => ?_) h
    split
    · exact .effect .reset
    · exact .same (.refl _)
  | marker rx p =>
    simp only [exec, execMarker] at h
    refine run _ (fun u => ?_) h
    exact .same (u.same_receiveMarker _ _)
  | missedMarker side =>
    simp only [exec, execMissedMarker] at h
    refine run _ (fun u => ?_) h
    exact .same (u.same_missMarker _)
  | babble side =>
    simp only [exec, execBabble] at h
    refine run _ (fun u => ?_) h
    exact .same (u.same_babbleSlot _)
  | publish rx p =>
    simp only [exec, execPublish] at h
    refine run _ (fun u => ?_) h
    exact does_receiveGood fun _ v _ => does_offer _ _ _ _ _
  | repeatedFrame rx kind p =>
    simp only [exec, execRepeatedFrame] at h
    refine run _ (fun u => ?_) h
    split
    · exact .same (u.same_receiveMarker _ _)
    · exact does_receiveGood fun _ v _ => does_offer _ _ _ _ _
    · exact does_receiveGood fun _ v _ => does_handPayload (.inr (.inl ⟨_, _, _, rfl⟩)) _ _ _
    · exact does_receiveGood fun _ v _ => .same (.refl _)
  | damagedFrame side n w ws =>
    simp only [exec, execDamagedFrame] at h
    refine run _ (fun u => ?_) h
    exact .same (u.same_receiveDamaged _ _ _ _)
  | loopedFrame side w ws =>
    simp only [exec, execLoopedFrame] at h
    refine run _ (fun u => ?_) h
    exact .same (u.same_receiveLooped _ _ _)
  | requestLost rx p =>
    simp only [exec, execRequestLost] at h
    refine run _ (fun u => ?_) h
    split
    · rename_i hh
      exact does_receiveGood fun _ v hv => does_handPayload_full _ (by rw [hv]; exact hh) _ _
    · exact .same (.refl _)
  | unknownRequest rx code tag args =>
    exact req (.inr (.inr ⟨_, _, _, _, rfl⟩)) _ _ _ _ _ (fun u q => does_execute (.inr (.inr ⟨_, _, _, _, rfl⟩)) u q) h
  | identify rx tag args => exact req (.inl rfl) _ _ _ _ _ does_identify h
  | readState rx tag args => exact req (.inl rfl) _ _ _ _ _ does_readState h
  | readTable rx tag args => exact req (.inl rfl) _ _ _ _ _ does_readTable h
  | load rx tag args => exact req (.inl rfl) _ _ _ _ _ (does_load (.inl rfl)) h
  | copyActiveToShadow rx tag args => exact req (.inl rfl) _ _ _ _ _ (does_copy (.inl rfl)) h
  | commit rx tag args => exact req (.inl rfl) _ _ _ _ _ (does_commit (.inl rfl)) h
  | start rx tag args => exact req (.inl rfl) _ _ _ _ _ (does_start (.inl rfl)) h
  | closeGate rx tag args => exact req (.inl rfl) _ _ _ _ _ (does_closeGate (.inl rfl)) h
  | resetScheme rx tag args => exact req (.inl rfl) _ _ _ _ _ (does_resetScheme (.inl rfl)) h
  | restoreMargin rx tag args => exact req (.inl rfl) _ _ _ _ _ (does_restoreMargin (.inl rfl)) h
  | releaseHardTrip rx tag args => exact req (.inl rfl) _ _ _ _ _ (does_releaseHardTrip (.inl rfl)) h
  | forcePoint rx tag args => exact req (.inl rfl) _ _ _ _ _ (does_forcePoint (.inl rfl)) h
  | unforcePoint rx tag args => exact req (.inl rfl) _ _ _ _ _ (does_unforcePoint (.inl rfl)) h
  | portRestart rx tag port extra => exact req (.inl rfl) _ _ _ _ _ does_portRestart h
  | rejoin rx tag port extra => exact req (.inl rfl) _ _ _ _ _ does_rejoin h
  | loopbackOn rx tag port extra => exact req (.inl rfl) _ _ _ _ _ does_loopbackOn h
  | loopbackOff rx tag port extra => exact req (.inl rfl) _ _ _ _ _ does_loopbackOff h
  | readCounters rx tag first extra =>
    exact req (.inl (by cases first <;> rfl)) _ _ _ _ _ does_readCounters h
  | readCountersClear rx tag first extra => exact req (.inl rfl) _ _ _ _ _ (does_readCountersClear (.inl rfl)) h
  | readOperationLog rx tag args => exact req (.inl rfl) _ _ _ _ _ does_readLog h
  | clearNotices rx tag args => exact req (.inl rfl) _ _ _ _ _ does_clearNotices h
  | restart rx tag args => exact req (.inl rfl) _ _ _ _ _ does_restart h

/-- Everything a step can do to the core: nothing, or what the command at the front of the queue does. -/
theorem step_does {s t : State} (h : step s = .next t) : t = s ∨ ∃ c, Does c s t := by
  unfold step at h
  split at h
  · rw [Host.Outcome.next.injEq] at h; exact .inl h.symm
  · rename_i c rest hp
    exact .inr ⟨c, .before (s := s.setPending rest) ⟨rfl, rfl, rfl, rfl, rfl, rfl, rfl, rfl⟩ (exec_does _ _ _ h)⟩

/-- A property of the core that every effect keeps is kept by every step. -/
theorem step_keeps {P : State → Prop} (same : ∀ s t : State, s.Same t → P s → P t)
    (effect : ∀ c (u v : State), Effect c u v → P u → P v) {s t : State} (h : step s = .next t) (hp : P s) : P t := by
  rcases step_does h with h | ⟨c, u, v, a, e, b⟩
  · rw [h]; exact hp
  · exact same _ _ b (effect c u v e (same _ _ a hp))

end Sys2Proof.Machine
end

