-- ==== Sys2Proof/Laws/Evaluation.lean ====
section
/-! SUPPORT. What the shared operations of the reset, the windows, the selection, the arming evaluation and the
arbiter do, each said once. -/

namespace Sys2Proof.Machine

/-- Two states with the same fields are the same. -/
theorem State.ext_fields {s t : State} (h0 : s.timeBase = t.timeBase) (h1 : s.powerHeld = t.powerHeld) (h2 : s.pinHeld =
    t.pinHeld) (h3 : s.link = t.link) (h4 : s.intake = t.intake) (h5 : s.points = t.points) (h6 : s.arming = t.arming) (h7 :
    s.monitor = t.monitor) (h8 : s.engine = t.engine) (h9 : s.queue = t.queue) (h10 : s.tracker = t.tracker) (h11 : s.log =
    t.log) (h12 : s.agent = t.agent) (h13 : s.banks = t.banks) (h14 : s.notices = t.notices) (h15 : s.out = t.out) (h16 :
    s.freeIndex = t.freeIndex) (h17 : s.pending = t.pending) : s = t := by
  cases s; cases t; simp_all

/-- An element of a constant list. -/
theorem getD_replicate {α} (n i : Nat) (h : i < n) (x d : α) : (List.replicate n x).getD i d = x := by
  simp [List.getD, h]

/-- The element a list is modified at. -/
theorem getD_modify_self {α} (l : List α) (i : Nat) (h : i < l.length) (f : α →
    α) (d : α) : (l.modify i f).getD i d = f (l.getD i d) := by
  simp [List.getD, h]

/-- Every other element of a modified list. -/
theorem getD_modify_ne {α} (l : List α) (i j : Nat) (h : i ≠ j) (f : α → α) (d : α) :
    (l.modify i f).getD j d = l.getD j d := by
  simp [List.getD, h]

/-- An element of a list mapped with its index. -/
theorem getD_mapIdx {α} (l : List α) (i : Nat) (h : i < l.length) (f : Nat → α →
    α) (d : α) : (l.mapIdx f).getD i d = f i (l.getD i d) := by
  simp [List.getD, h]

/-- A property every step of a fold keeps. -/
theorem foldl_pres {α β} (P : α → Prop) {f : α → β → α} (h : ∀ a b, P a →
    P (f a b)) (l : List β) (a : α) (ha : P a) : P (l.foldl f a) := by
  induction l generalizing a with
  | nil => exact ha
  | cons x l ih => exact ih _ (h _ _ ha)

/-- A modification that keeps a feature of every element keeps the list of the features. -/
theorem map_modify_keep {α β} (g : α → β) (f : α → α) (h : ∀ a, g (f a) = g a) (l : List α) (i : Nat) :
    (l.modify i f).map g =
    l.map g := by
  apply List.ext_getElem
  · simp
  · intro n h1 h2; simp [List.getElem_modify]; split <;> simp [h]

/-- What resetLive leaves in every block (R144 and the owners' rules). -/
theorem resetLive_leaves (s : State) : s.ResetLeaves s.resetLive := by
  unfold State.ResetLeaves
  refine ⟨rfl, rfl, rfl, ?_, rfl, by rfl, rfl, ?_, rfl, rfl, ?_, ?_, rfl, rfl, rfl, ?_,
   ?_, rfl, rfl, rfl, rfl, rfl, rfl, rfl, rfl, rfl, ?_, ?_⟩
  · intro side; cases side <;> rfl
  · intro i hi
    exact getD_replicate 32 i hi _ _
  · intro i hi
    simp [State.point, State.resetLive, Bank.freshPoints, hi, PointRec.fresh, List.getD]
  · intro i hi
    simp [State.scheme, State.resetLive, hi, SchemeRec.fresh, List.getD, Bank.schemeState]
  · simp [State.resetLive, State.valid]
  · intro i hi
    exact getD_replicate 64 i hi _ _
  · simp [State.hardTripLine, State.resetLive, SchemeRec.fresh]
  · simp [State.operatedAlarm, State.resetLive, SchemeRec.fresh, Bank.schemeState]
    intro x hx; split <;> simp

/-- The usable qualities (R8). -/
theorem Quality.usable_iff (q : Quality) : q.usable = true ↔ q ∈ [Quality.good, .suspect, .held, .forced] :=
    by cases q <;> simp [Quality.usable]

/-- The fresh qualities (R51). -/
theorem Quality.fresh_iff (q : Quality) : q.fresh = true ↔ q ∈ [Quality.good, .suspect, .forced] := by
  cases q <;> simp [Quality.fresh]

/-- The qualities of a usable input under each policy (R8). -/
theorem Quality.usableInput_iff (l : Bool) (q : Quality) : q.usableInput l = true
    ↔ q ∈ [Quality.good, .suspect, .held, .forced] ∨ (q = .stale ∧ l = true) := by
  cases q <;> simp [Quality.usableInput, Quality.usable]

/-- A point that reads OPEN with fresh quality (R51, R92). -/
theorem readsOpen_iff (p : PointRec) : p.readsOpen = true ↔ p.value = .binary .opened
    ∧ p.quality ∈ [Quality.good, .suspect, .forced] := by
  unfold PointRec.readsOpen; rw [Bool.and_eq_true, beq_iff_eq, Quality.fresh_iff]

/-- A window end that falls now. -/
theorem exec_windowEnd {s : State} {i : Fin 32} (h : s.held = false) (he : (s.active.station i).enable = true)
    (hw : (s.station i).windowStart + BitVec.ofNat 32 (s.active.station i).window = s.timeBase) :
    exec (.windowEnd i) s = .next (s.quiet.endWindow i) := by
  show running s _ = _
  rw [running_next h]
  have : (s.quiet.active.station i).enable = true
      ∧ (s.quiet.station i).windowStart + BitVec.ofNat 32 (s.quiet.active.station i).window = s.quiet.timeBase := ⟨he, hw⟩
  simp only [this, and_self, if_true]

/-- A station's record after its window end (R135, R136). -/
theorem endWindow_station {s : State} {i : Nat} (h : i < s.intake.stations.length) :
    (s.endWindow i).station i = { s.station i with
      freshness := (s.active.station i).judge (s.station i).windowCount
      windowCount := 0
      windowStart := s.timeBase
      rejoinLeft := if ((s.active.station i).judge (s.station i).windowCount = .silent
          ∧ (s.station i).freshness ≠ .silent) then (s.active.station i).discards else (s.station i).rejoinLeft } := by
  unfold State.endWindow
  dsimp only
  have : ∀ t : State, (t.holdPoints i).station i = t.station i := fun _ => rfl
  split
  all_goals
    first | rw [this] | skip
    simp only [State.station, State.updStation, State.setIntake]
    rw [getD_modify_self _ _ h]
    simp_all [State.station]
    try tauto

/-- A prefix adds up to no more than the whole. -/
theorem sum_take_le {α} (f : α → Nat) (l : List α) (k : Nat) : ((l.take k).map f).sum ≤ (l.map f).sum := by
  conv_rhs => rw [← List.take_append_drop k l, List.map_append, List.sum_append]
  omega

/-- What the selection walk returns from position `k` on, with what it has taken before; it stops with the addition that reaches the
requirement or fills the 8 places, and the continuation position is then the last position plus 1 (R37). -/
theorem selectionWalk_spec (el : Nat → Option Nat) (req : Nat) :
    ∀ (n k : Nat) (items : List SelItem) (total : Nat),
      items.length < 8 → total < req →
      items.Pairwise (fun x y => x.position < y.position) →
      (∀ x ∈ items, x.position < k ∧ el x.position = some x.amount) →
      total = (items.map SelItem.amount).sum →
      (∀ p a, p < k → el p = some a → ⟨p, a⟩ ∈ items) →
      k + n = 16 →
      let r := selectionWalk el req ((List.range' k n)) items total
      r.1.length ≤ 8 ∧ r.2.2 ≤ 16 ∧ r.1.Pairwise (fun x y => x.position < y.position)
      ∧ (∀ x ∈ r.1, x.position < r.2.2 ∧ el x.position = some x.amount)
      ∧ r.2.1 = (r.1.map SelItem.amount).sum
      ∧ (∀ p a, p < r.2.2 → el p = some a → ⟨p, a⟩ ∈ r.1)
      ∧ (r.2.2 < 16 → req ≤ r.2.1 ∨ r.1.length = 8)
      ∧ (∀ k < r.1.length, ((r.1.take k).map SelItem.amount).sum < req)
      ∧ (req ≤ r.2.1 ∨ r.1.length = 8 → ∃ last, r.1.getLast? = some last ∧ r.2.2 = last.position + 1)
      ∧ (r.2.1 < req → r.1.length < 8 → r.2.2 = 16) := by
  intro n
  induction n with
  | zero =>
    intro k items total h1 h2 h3 h4 h5 h6 h7
    have : k = 16 := by omega
    subst this
    simp only [List.range'_zero, selectionWalk]
    refine ⟨by omega, le_refl _, h3, h4, h5, h6, fun h => absurd h (lt_irrefl _), fun j _ => ?_, fun h => by omega, fun _ _ => trivial⟩
    have := sum_take_le SelItem.amount items j
    omega
  | succ n ih =>
    intro k items total h1 h2 h3 h4 h5 h6 h7
    simp only [List.range'_succ, selectionWalk]
    cases he : el k with
    | none =>
      simp only
      refine ih (k + 1) items total h1 h2 h3 (fun x hx => ⟨by have := (h4 x hx).1; omega, (h4 x hx).2⟩) h5 ?_ (by omega)
      intro p a hp ha
      rcases Nat.lt_succ_iff_lt_or_eq.1 hp with h | h
      · exact h6 p a h ha
      · subst h; rw [he] at ha; cases ha
    | some a =>
      have g3 : (items ++ [(⟨k, a⟩ : SelItem)]).Pairwise (fun x y => x.position < y.position) := by
        rw [List.pairwise_append]
        refine ⟨h3, List.pairwise_singleton _ _, fun x hx y hy => ?_⟩
        simp only [List.mem_singleton] at hy; subst hy; exact (h4 x hx).1
      have g4 : ∀ x ∈ items ++ [(⟨k, a⟩ : SelItem)], x.position < k + 1 ∧ el x.position = some x.amount := by
        intro x hx
        rcases List.mem_append.1 hx with hx | hx
        · exact ⟨by have := (h4 x hx).1; omega, (h4 x hx).2⟩
        · simp only [List.mem_singleton] at hx; subst hx; exact ⟨Nat.lt_succ_self k, he⟩
      have g5 : total + a = ((items ++ [(⟨k, a⟩ : SelItem)]).map SelItem.amount).sum := by simp [h5]
      have g6 : ∀ p b, p < k + 1 → el p = some b → (⟨p, b⟩ : SelItem) ∈ items ++ [⟨k, a⟩] := by
        intro p b hp hb
        rcases Nat.lt_succ_iff_lt_or_eq.1 hp with h | h
        · exact List.mem_append_left _ (h6 p b h hb)
        · subst h; rw [he] at hb; cases hb; simp
      simp only
      split
      · rename_i hc
        refine ⟨by simp; omega, (by omega : k + 1 ≤ 16), g3, g4, g5, g6, fun _ => ?_, fun j hj => ?_, fun _ => ⟨_,
            List.getLast?_concat, rfl⟩, fun hx hy => ?_⟩
        · rcases hc with hc | hc
          · exact .inl hc
          · right; simp; omega
        · have hj : j ≤ items.length := by simp at hj; omega
          simp only [List.take_append_of_le_length hj]
          have := sum_take_le SelItem.amount items j
          omega
        · exfalso
          simp at hx hy
          omega
      · rename_i hc
        refine ih (k + 1) _ _ ?_ ?_ g3 g4 g5 g6 (by omega)
        · simp; omega
        · omega

/-- What the replacement search over positions `k` to `k + n − 1` finds (R41). -/
theorem firstEligible_spec (el : Nat → Option Nat) : ∀ (n k : Nat),
    (∀ j a, firstEligible el (List.range' k n) = some (j, a) ↔
      k ≤ j ∧ j < k + n ∧ el j = some a ∧ ∀ i, k ≤ i → i < j → el i = none)
    ∧ (firstEligible el (List.range' k n) = none ↔ ∀ j, k ≤ j → j < k + n → el j = none) := by
  intro n
  induction n with
  | zero => intro k; constructor
            · intro j a; simp [firstEligible]; omega
            · simp [firstEligible]; omega
  | succ n ih =>
    intro k
    simp only [List.range'_succ, firstEligible]
    cases he : el k with
    | none =>
      simp only
      obtain ⟨i1, i2⟩ := ih (k+1)
      constructor
      · intro j a
        rw [i1]
        constructor
        · rintro ⟨h1, h2, h3, h4⟩
          refine ⟨by omega, by omega, h3, fun i hi hj => ?_⟩
          rcases Nat.eq_or_lt_of_le hi with h | h
          · subst h; exact he
          · exact h4 i h hj
        · rintro ⟨h1, h2, h3, h4⟩
          have : k ≠ j := by rintro rfl; rw [he] at h3; cases h3
          exact ⟨by omega, by omega, h3, fun i hi hj => h4 i (by omega) hj⟩
      · rw [i2]
        constructor
        · intro h j h1 h2
          rcases Nat.eq_or_lt_of_le h1 with h' | h'
          · subst h'; exact he
          · exact h j h' (by omega)
        · intro h j h1 h2; exact h j (by omega) (by omega)
    | some b =>
      simp only
      constructor
      · intro j a
        constructor
        · intro h; cases h; exact ⟨le_refl _, by omega, he, fun i h1 h2 => absurd h1 (by omega)⟩
        · rintro ⟨h1, h2, h3, h4⟩
          rcases Nat.eq_or_lt_of_le h1 with h | h
          · subst h; rw [he] at h3; cases h3; rfl
          · have := h4 k (le_refl _) h; rw [he] at this; cases this
      · constructor
        · intro h; cases h
        · intro h; have := h k (le_refl _) (by omega); rw [he] at this; cases this

/-- An evaluation of one scheme changes its record and two notices. -/
theorem evaluateScheme_eq (s : State) (i : Nat) : s.evaluateScheme i = { s with
    arming := { s.arming with schemes := s.arming.schemes.modify i (fun _ => (s.evaluatedScheme i).1) }
    notices := { s.notices with
      marginWalked := s.notices.marginWalked || (s.evaluatedScheme i).2.1
      backstop := s.notices.backstop || (s.evaluatedScheme i).2.2 } } := rfl

/-- What an evaluation makes of a scheme depends on its record, the points, the banks, the queue and the time alone. -/
theorem evaluatedScheme_congr {s t : State} (i : Nat) (h1 : t.scheme i = s.scheme i) (h2 : t.points = s.points) (h3 : t.banks =
    s.banks)
   (h4 : t.queue = s.queue) (h5 : t.timeBase = s.timeBase) : t.evaluatedScheme i = s.evaluatedScheme i := by
  have ha : t.active = s.active := by unfold State.active; rw [h3]
  have hp : t.point = s.point := by funext p; unfold State.point; rw [h2]
  have hl : t.liveEntry = s.liveEntry := by funext p; unfold State.liveEntry; rw [h4]
  have hq : t.formQ = s.formQ := by funext e; unfold State.formQ; rw [hp]
  have hb : t.blocked = s.blocked := by funext e; unfold State.blocked; rw [hp]
  have he : t.candidateEligible = s.candidateEligible := by funext e; unfold State.candidateEligible; rw [hp, hl]
  have he : t.eligible = s.eligible := by funext l p; unfold State.eligible; rw [hp, ha, he]
  have hs : t.select = s.select := by funext l p; unfold State.select; rw [he, h5]
  have hst : t.armingStages = s.armingStages := by funext e q r; unfold State.armingStages; rw [hs]; unfold State.after; rw [h5]
  have hev : t.evaluateStages = s.evaluateStages := by funext e f r; unfold State.evaluateStages; rw [hst, hb]
  unfold State.evaluatedScheme
  rw [h1, ha, hq, hev]

/-- After the evaluations of the schemes below `n`, each of them as evaluated on the state before the event (R7). -/
theorem evaluate_schemes_spec (s : State) (hl : s.arming.schemes.length = 16) : ∀ (n : Nat), n ≤ 16 →
    let t := (List.range n).foldl State.evaluateScheme s
    t = { s with
      arming := { s.arming with schemes := t.arming.schemes }
      notices := { s.notices with marginWalked := t.notices.marginWalked, backstop := t.notices.backstop } }
    ∧ t.arming.schemes.length = 16
    ∧ (∀ i < 16, t.scheme i = if i < n then (s.evaluatedScheme i).1 else s.scheme i)
    ∧ (t.notices.marginWalked = true ↔ s.notices.marginWalked = true ∨ ∃ i < n, (s.evaluatedScheme i).2.1 = true)
    ∧ (t.notices.backstop = true ↔ s.notices.backstop = true ∨ ∃ i < n, (s.evaluatedScheme i).2.2 = true) := by
  intro n
  induction n with
  | zero => intro _; exact ⟨rfl, hl, fun i _ => by simp, by simp, by simp⟩
  | succ n ih =>
    intro hn
    obtain ⟨h1, h2, h3, h4, h5⟩ := ih (by omega)
    simp only [List.range_succ, List.foldl_append, List.foldl_cons, List.foldl_nil]
    generalize (List.range n).foldl State.evaluateScheme s = t at h1 h2 h3 h4 h5 ⊢
    have he : t.evaluatedScheme n = s.evaluatedScheme n := by
      refine evaluatedScheme_congr n ?_ ?_ ?_ ?_ ?_
      · rw [h3 n (by omega)]; simp
      all_goals (rw [h1])
    rw [evaluateScheme_eq, he]
    refine ⟨?_, ?_, ?_, ?_, ?_⟩
    · rw [h1]
    · simp [h2]
    · intro i hi
      by_cases hin : i = n
      · subst hin
        simp only [State.scheme]
        rw [getD_modify_self _ _ (by omega)]; simp
      · simp only [State.scheme]
        rw [getD_modify_ne _ _ _ (Ne.symm hin)]
        have := h3 i hi
        simp only [State.scheme] at this
        rw [this]
        have : (i < n + 1) = (i < n) := by simp; omega
        simp [this]
    · simp only [Bool.or_eq_true, h4]
      constructor
      · rintro ((h | ⟨i, hi, h⟩) | h)
        · exact .inl h
        · exact .inr ⟨i, by omega, h⟩
        · exact .inr ⟨n, by omega, h⟩
      · rintro (h | ⟨i, hi, h⟩)
        · exact .inl (.inl h)
        · rcases Nat.lt_succ_iff_lt_or_eq.1 hi with h' | h'
          · exact .inl (.inr ⟨i, h', h⟩)
          · subst h'; exact .inr h
    · simp only [Bool.or_eq_true, h5]
      constructor
      · rintro ((h | ⟨i, hi, h⟩) | h)
        · exact .inl h
        · exact .inr ⟨i, by omega, h⟩
        · exact .inr ⟨n, by omega, h⟩
      · rintro (h | ⟨i, hi, h⟩)
        · exact .inl (.inl h)
        · rcases Nat.lt_succ_iff_lt_or_eq.1 hi with h' | h'
          · exact .inl (.inr ⟨i, h', h⟩)
          · subst h'; exact .inr h

/-- Persistence keeps Q. -/
theorem persist_q (e q) (r : SchemeRec) : (r.persist e q).q = r.q := by
  unfold SchemeRec.persist
  repeat' split
  all_goals rfl

/-- Walk-down keeps Q. -/
theorem walkDown_q (e x q) (r : SchemeRec) : (r.walkDown e x q).1.q = r.q := by
  unfold SchemeRec.walkDown
  dsimp only
  repeat' split
  all_goals rfl

/-- The stages keep Q. -/
theorem armingStages_q (s : State) (e q) (r : SchemeRec) : (s.armingStages e q r).1.q = r.q := by
  unfold State.armingStages
  dsimp only
  split
  · exact (persist_q _ _ _).trans (walkDown_q _ _ _ _)
  · exact (persist_q _ _ _).trans (walkDown_q _ _ _ _)

/-- The backstop keeps Q. -/
theorem runBackstop_q (e f) (r : SchemeRec) : (r.runBackstop e f).1.q = r.q := by
  unfold SchemeRec.runBackstop
  dsimp only
  split <;> rfl

/-- Q after an evaluation: the Q formed, or the old one (R10). -/
theorem evaluateStages_q (s : State) (e f) (r : SchemeRec) : (s.evaluateStages e f r).1.q = f.getD r.q := by
  unfold State.evaluateStages
  dsimp only
  repeat' split
  all_goals first | rfl | exact armingStages_q _ _ _ _

/-- What the backstop leaves alone (R18). -/
theorem runBackstop_keeps (e f) (r : SchemeRec) : let t := (r.runBackstop e f).1
    t.state = r.state ∧ t.armCount = r.armCount ∧ t.disarmCount = r.disarmCount ∧ t.stress = r.stress
    ∧ t.selection = r.selection
    ∧ t.walk = r.walk ∧ t.holdTimer = r.holdTimer ∧ (r.hardTrip = true → t.hardTrip = true) := by
  unfold SchemeRec.runBackstop
  dsimp only
  split <;> simp
  intro h; exact .inl h

/-- What walk-down does (R11): a step moves W, starts the hold timer and clears the stress count; without one only the stress count
changes. -/
theorem walkDown_spec (e : SchemeEntry) (x : Time) (q : Int) (o : SchemeRec) :
    let stepped := e.walkEnable = true ∧ e.stressLevel < q ∧ 1 ≤ o.stress ∧ o.holdTimer = none
    ((o.walkDown e x q).2 = true ↔ stepped)
    ∧ (stepped → (o.walkDown e x q).1
        = { o with walk := min (o.walk + e.step) (e.armLevel - e.floor), holdTimer := some x, stress := 0 })
    ∧ (¬ stepped → (o.walkDown e x q).1 = { o with
        stress := if e.walkEnable = true then (if e.stressLevel < q then min 2 (o.stress + 1) else 0) else o.stress }) := by
  unfold SchemeRec.walkDown
  have key : min 2 (o.stress + 1) = 2 ↔ 1 ≤ o.stress := by omega
  by_cases h1 : e.walkEnable = true <;> by_cases h2 : e.stressLevel < q <;> by_cases h3 : o.holdTimer = none <;>
    by_cases h4 : 1 ≤ o.stress <;> simp [h1, h2, h3, h4, key] <;> (rw [← h3])

/-- The only fields walk-down changes. -/
theorem walkDown_keeps (e : SchemeEntry) (x : Time) (q : Int) (o : SchemeRec) :
    ∃ w st ht, (o.walkDown e x q).1 = { o with walk := w, stress := st, holdTimer := ht } := by
  obtain ⟨-, h1, h2⟩ := walkDown_spec e x q o
  by_cases h : e.walkEnable = true ∧ e.stressLevel < q ∧ 1 ≤ o.stress ∧ o.holdTimer = none
  · exact ⟨_, _, _, h1 h⟩
  · exact ⟨o.walk, _, o.holdTimer, h2 h⟩

/-- The fold that keeps the better of two returns a best element, the first of its rank. -/
theorem foldl_best_spec (f : Nat → Nat) : ∀ (l : List Nat) (b : Option Nat),
    l.Pairwise (· < ·) → (∀ x, b = some x → ∀ y ∈ l, x < y) →
    let r := l.foldl (fun best c => match best with | none => some c | some b => if f b < f c then some c else some b) b
    (r = none ↔ b = none ∧ l = []) ∧ ∀ c, r = some c → (c ∈ l ∨ b = some c) ∧
       ∀ c', (c' ∈ l ∨ b = some c') → c' ≠ c → f c' < f c ∨ (f c' = f c ∧ c < c') := by
  intro l
  induction l with
  | nil =>
    intro b _ _
    refine ⟨by simp, fun c hc => ⟨.inr hc, fun c' hc' hne => ?_⟩⟩
    rcases hc' with h | h
    · cases h
    · have hc : b = some c := hc
      rw [hc] at h; cases h; exact absurd rfl hne
  | cons x l ih =>
    intro b hl hb
    rw [List.pairwise_cons] at hl
    simp only [List.foldl_cons]
    cases b with
    | none =>
      have := ih (some x) hl.2 (by rintro y ⟨⟩ z hz; exact hl.1 z hz)
      refine ⟨?_, ?_⟩
      · rw [this.1]; simp
      · intro c hc
        obtain ⟨a1, a2⟩ := this.2 c hc
        refine ⟨?_, ?_⟩
        · rcases a1 with h | h
          · exact .inl (List.mem_cons_of_mem _ h)
          · cases h; exact .inl List.mem_cons_self
        · intro c' hc' hne
          rcases hc' with h | h
          · rcases List.mem_cons.1 h with rfl | h
            · exact a2 c' (.inr rfl) hne
            · exact a2 c' (.inl h) hne
          · cases h
    | some b =>
      have hbx := hb b rfl x List.mem_cons_self
      simp only
      by_cases hf : f b < f x
      · rw [if_pos hf]
        have := ih (some x) hl.2 (by rintro y ⟨⟩ z hz; exact hl.1 z hz)
        refine ⟨?_, ?_⟩
        · rw [this.1]; simp
        · intro c hc
          obtain ⟨a1, a2⟩ := this.2 c hc
          have hxc : f x ≤ f c := by
            by_cases hxc : x = c
            · rw [hxc]
            · rcases a2 x (.inr rfl) hxc with h | h <;> omega
          refine ⟨?_, ?_⟩
          · rcases a1 with h | h
            · exact .inl (List.mem_cons_of_mem _ h)
            · cases h; exact .inl List.mem_cons_self
          · intro c' hc' hne
            rcases hc' with h | h
            · rcases List.mem_cons.1 h with rfl | h
              · exact a2 c' (.inr rfl) hne
              · exact a2 c' (.inl h) hne
            · cases h; left; omega
      · rw [if_neg hf]
        have := ih (some b) hl.2 (by rintro y ⟨⟩ z hz; exact lt_trans hbx (hl.1 z hz))
        refine ⟨?_, ?_⟩
        · rw [this.1]; simp
        · intro c hc
          obtain ⟨a1, a2⟩ := this.2 c hc
          refine ⟨?_, ?_⟩
          · rcases a1 with h | h
            · exact .inl (List.mem_cons_of_mem _ h)
            · exact .inr h
          · intro c' hc' hne
            rcases hc' with h | h
            · rcases List.mem_cons.1 h with rfl | h
              · by_cases hbc : b = c
                · subst hbc; omega
                · rcases a2 b (.inr rfl) hbc with h | h
                  · left; omega
                  · rcases a1 with h' | h'
                    · have := hl.1 c h'
                      omega
                    · cases h'; exact absurd rfl hbc
              · exact a2 c' (.inl h) hne
            · exact a2 c' (.inr h) hne

/-- The pending set is in ascending index. -/
theorem pendingSet_pairwise (s : State) : s.pendingSet.Pairwise (· < ·) := by
  unfold State.pendingSet
  exact List.Pairwise.filter _ List.pairwise_lt_range

/-- Membership in the pending set (R58). -/
theorem mem_pendingSet (s : State) (c : Nat) : c ∈ s.pendingSet ↔ c < 64 ∧ (s.cont c).state = .pending := by
  simp [State.pendingSet]

/-- The pending set depends on which contingencies are PENDING alone. -/
theorem pendingSet_congr {s t : State} (h : ∀ c < 64, ((t.cont c).state = .pending
    ↔ (s.cont c).state = .pending)) : t.pendingSet = s.pendingSet := by
  unfold State.pendingSet
  apply List.filter_congr
  intro c hc
  rw [List.mem_range] at hc
  rw [Bool.eq_iff_iff, beq_iff_eq, beq_iff_eq]
  exact h c hc

/-- The contingency an update names. -/
theorem updCont_self {s : State} {i : Nat} (h : i < s.monitor.conts.length) (f : ContRec →
    ContRec) : (s.updCont i f).cont i = f (s.cont i) :=
  getD_modify_self _ _ h _ _

/-- Every other contingency. -/
theorem updCont_ne {s : State} {i j : Nat} (h : i ≠ j) (f : ContRec → ContRec) : (s.updCont i f).cont j = s.cont j :=
  getD_modify_ne _ _ _ h _ _

end Sys2Proof.Machine
end

