-- ==== Sys2Proof/Laws/Reception.lean ====
section
/-! SUPPORT. What the shared operations of the link and of the Engineering Agent do, each said once. -/

namespace Sys2Proof.Machine

/-- What one transmitter does with an own frame (R158). -/
theorem sendOn_eq (s : State) (slot : Nat) (words : List Word) (tx : Side) : State.sendOn slot words s tx = { s with
    out := s.out ++ (if s.sendsNow tx then [⟨tx, (s.port tx).state == .loopback, some slot, words⟩] else [])
    link := { s.link with waiting := s.link.waiting ++ (if s.sendsLater tx then [⟨tx, slot, words⟩] else []) } } := by
  unfold State.sendOn State.sendsNow State.sendsLater State.copyWaits
  by_cases h : (s.port tx).state = .isolated
  · simp [h]
  · by_cases h2 : ((s.port tx.other).state == .locked && s.timingPort != some tx.other) = true
    · rw [if_neg h, if_pos h2]
      have : ((s.port tx).state != .isolated) = true := by simp [h]
      rw [h2, this]
      simp; rfl
    · rw [if_neg h, if_neg h2]
      have : ((s.port tx).state != .isolated) = true := by simp [h]
      rw [Bool.not_eq_true] at h2
      rw [h2, this]
      simp; rfl

/-- What both transmitters do with an own frame (R158). -/
theorem sendOwn_quiet (s : State) (slot : Nat) (words : List Word) : s.quiet.sendOwn slot words = s.ownSent slot words := by
  unfold State.sendOwn
  simp only [List.foldl_cons, List.foldl_nil]
  rw [sendOn_eq, sendOn_eq]
  unfold State.ownSent
  have e1 : ∀ tx, s.quiet.sendsNow tx = s.sendsNow tx := fun _ => rfl
  have e2 : ∀ tx, s.quiet.sendsLater tx = s.sendsLater tx := fun _ => rfl
  apply State.ext_fields <;> try rfl
  · show ({ s.link with waiting := (s.link.waiting ++ if s.sendsLater .east then _ else _) ++ (if s.sendsLater .west then _ else _)
      } : LinkState) = _
    cases h1 : s.sendsLater .east <;> cases h2 : s.sendsLater .west <;> simp [List.filter, h1, h2]
  · show ([] ++ if s.sendsNow .east then _ else _) ++ (if s.sendsNow .west then _ else _) = _
    cases h1 : s.sendsNow .east <;> cases h2 : s.sendsNow .west <;> simp only [List.filter, h1, h2] <;> rfl

/-- An own slot that starts now. -/
theorem exec_ownSlotStart {s : State} {start slot : Nat} (h : s.held = false) (hs : s.ownSlotAt start = some slot) :
    exec (.ownSlotStart start) s = .next (s.quiet.compose slot) := by
  simp only [exec, execOwnSlotStart]
  rw [running_next h]
  have : s.quiet.ownSlotAt start = some slot := hs
  simp only [this]

/-- The entries a TRIP frame carries are live and have repeats remaining (R82). -/
theorem tripEntries_mem (s : State) : ∀ e ∈ s.tripEntries, e ∈ s.queue.entries ∧ 0 < e.repeats := by
  intro e he
  have := List.mem_of_mem_take he
  simp only [List.mem_flatMap, List.mem_filter, Bool.and_eq_true, decide_eq_true_eq] at this
  obtain ⟨p, _, h1, h2, _⟩ := this
  exact ⟨h1, h2⟩

/-- The port that is set. -/
theorem port_setPort_self (l : LinkState) (side : Side) (p : PortRec) : (l.setPort side p).port side = p := by cases side <;> rfl

/-- The other port. -/
theorem port_setPort_other (l : LinkState) (side : Side) (p : PortRec) : (l.setPort side p).port side.other =
    l.port side.other := by cases side <;> rfl

/-- The port that is not set. -/
theorem port_setPort_ne (l : LinkState) (side side' : Side) (p : PortRec) (h : side ≠ side') : (l.setPort side p).port side' =
    l.port side' := by cases side <;> cases side' <;> simp at h ⊢ <;> rfl

/-- Setting a port keeps the last cycle number. -/
theorem setPort_lastCycle (l : LinkState) (side : Side) (p : PortRec) : (l.setPort side p).lastCycle = l.lastCycle :=
    by cases side <;> rfl

/-- A change of timing port keeps the ports. -/
theorem retime_port (l b : LinkState) (t : Option Side) (side : Side) : (l.retime b t).port side = l.port side :=
    by cases side <;> rfl

/-- And the last cycle number. -/
theorem retime_lastCycle (l b : LinkState) (t : Option Side) : (l.retime b t).lastCycle = l.lastCycle := rfl

/-- Everything a change of a port's record does. -/
theorem changePort_spec (s : State) (side took p) : let t := s.changePort side took p
    t.port side = p ∧ t.port side.other = s.port side.other ∧ t.link.lastCycle = s.link.lastCycle
        ∧ t = { s with link := t.link } := by
  refine ⟨?_, ?_, ?_, rfl⟩
  · show (LinkState.retime _ _ _).port side = p; rw [retime_port, port_setPort_self]
  · show (LinkState.retime _ _ _).port side.other = _; rw [retime_port, port_setPort_other]; rfl
  · show (LinkState.retime _ _ _).lastCycle = _; rw [retime_lastCycle, setPort_lastCycle]

/-- Everything the take of a MARKER does. -/
theorem takeMarker_spec (s : State) (side cycle p) : let t := s.takeMarker side cycle p
    t.port side = p ∧ t.port side.other = s.port side.other ∧ t.link.lastCycle = cycle ∧ t = { s with link := t.link } := by
  obtain ⟨a, b, c, d⟩ := changePort_spec s side true p
  refine ⟨?_, ?_, rfl, rfl⟩
  · rw [← a]; unfold State.takeMarker; cases side <;> rfl
  · rw [← b]; unfold State.takeMarker; cases side <;> rfl

/-- Everything a setting of a port's record does. -/
theorem setPort_spec (s : State) (side p) : let t := s.setPort side p
    t.port side = p ∧ t.port side.other = s.port side.other ∧ t.link.lastCycle = s.link.lastCycle
    ∧ t = { s with link := t.link } :=
  ⟨port_setPort_self _ _ _, port_setPort_other _ _ _, setPort_lastCycle _ _ _, rfl⟩

/-- What the repeater puts on the other transmitter (R150). -/
theorem repeatWords_quiet (s : State) (side slot words) : s.quiet.repeatWords side slot words =
    { s with out := s.onward side slot words } := by
  unfold State.repeatWords State.onward
  have : (s.quiet.port side.other).state = (s.port side.other).state := rfl
  rw [this]
  cases (s.port side.other).state <;> rfl

/-- A frame of another source outside the own slots is repeated (R149). -/
theorem passage_repeated {s : State} {rx : Reception} {slot : Nat} (h1 : rx.source.toNat ≠ s.partAddress) (h2 :
    s.ownSlots.contains slot = false) : s.passage rx.source slot = .repeated := by
  unfold State.passage; rw [if_neg h1, h2]; simp

/-- A good frame that is handed on, in its slot. -/
theorem goodInSlot_quiet {s : State} {rx : Reception} {payload slot} (kind f) (h : s.HandsOn rx payload slot) :
    s.quiet.goodInSlot rx kind payload slot f = f (s.repeated rx kind payload slot) := by
  unfold State.goodInSlot
  have : s.quiet.passage rx.source slot = .repeated := passage_repeated (s := s) h.2.2.2.2.1 h.2.2.2.1
  rw [this]
  simp only
  rw [repeatWords_quiet]; rfl

/-- A good frame that is handed on. -/
theorem receiveGood_quiet {s : State} {rx : Reception} {payload slot} (kind f) (h : s.HandsOn rx payload slot) :
    s.quiet.receiveGood rx kind payload f = f slot (s.repeated rx kind payload slot) := by
  unfold State.receiveGood
  have h1 : (s.quiet.port rx.port).state = .locked := h.2.1
  have h2 : s.quiet.slotAt rx.port rx.start = some slot := h.2.2.1
  rw [if_pos h1, h2]
  simp only
  rw [if_pos h.2.2.2.2.2, goodInSlot_quiet _ _ h]

/-- Repeating a frame keeps S. -/
theorem slotsOf_repeated (s : State) (rx kind payload slot side) : (s.repeated rx kind payload slot).slotsOf side =
    s.slotsOf side := rfl

/-- A PUBLISH frame that is handed on is offered to Intake (R128). -/
theorem exec_publish {s : State} {rx : Reception} {payload slot} (h : s.HandsOn rx payload slot) :
    exec (.publish rx payload) s = .next ((s.repeated rx 1 payload slot).offer rx.source slot rx.cycle payload) := by
  simp only [exec, execPublish]
  rw [running_next h.1, receiveGood_quiet _ _ h]

/-- A counter goes up by 1 and stops at 65,535. -/
theorem satInc_eq (c : Word) : satInc c = if c = 65535 then 65535 else c + 1 := rfl

/-- A good frame of a kind without a row of its own. -/
theorem exec_repeatedFrame {s : State} {rx : Reception} {kind payload} (h : s.held = false) (h0 : kind ≠ 0) (h1 : kind ≠ 1) (h3 :
    kind ≠ 3) :
   exec (.repeatedFrame rx kind payload) s = .next (s.quiet.receiveGood rx kind payload (fun _ s => s)) := by
  simp only [exec, execRepeatedFrame]
  rw [running_next h]
  have k0 : kind.toNat ≠ 0 := fun h => h0 (by apply BitVec.eq_of_toNat_eq; simpa using h)
  have k1 : kind.toNat ≠ 1 := fun h => h1 (by apply BitVec.eq_of_toNat_eq; simpa using h)
  have k3 : kind.toNat ≠ 3 := fun h => h3 (by apply BitVec.eq_of_toNat_eq; simpa using h)
  generalize kind.toNat = k at *
  rcases k with _ | _ | _ | _ | k
  · exact absurd rfl k0
  · exact absurd rfl k1
  · rfl
  · exact absurd rfl k3
  · rfl

/-- A REQUEST that reaches the agent is lost on a full holder and executed otherwise (R168). -/
theorem receiveRequest_reaches {s : State} {rx code tag args slot} (h : s.Reaches rx code tag args slot) (body) :
    running s (fun s => s.receiveRequest rx code tag args body) =
     .next (if s.agent.holder.isSome then (s.requestRepeated rx code tag args slot).loseRequest
         else body (requestOf rx code tag args) (s.requestRepeated rx code tag args slot)) := by
  rw [running_next h.1.1]
  unfold State.receiveRequest
  rw [receiveGood_quiet _ _ h.1]
  unfold State.takeRequest
  rw [if_pos]
  · rfl
  · refine ⟨h.2.1, ?_⟩
    unfold State.screens
    rw [Bool.or_eq_true]
    left
    rw [beq_iff_eq]; exact h.2.2

/-- A REQUEST that is taken is executed. -/
theorem receiveRequest_takes {s : State} {rx code tag args slot} (h : s.Takes rx code tag args slot) (body) :
    running s (fun s => s.receiveRequest rx code tag args body) =
     .next (body (requestOf rx code tag args) (s.requestRepeated rx code tag args slot)) := by
  rw [receiveRequest_reaches h.1, h.2]; rfl

/-- A permitted source (R169). -/
theorem permits_of {s : State} {rx code tag args slot} (h : s.engineerAddress = 63 ∨ s.engineerAddress = rx.source.toNat) :
   (s.requestRepeated rx code tag args slot).permits (requestOf rx code tag args).source = true := by
  show (s.engineerAddress == 63 || s.engineerAddress == rx.source.toNat) = true
  simpa using h

/-- A request that is permitted and of the right length is carried out (R170). -/
theorem guarded_ok {s : State} {q : Request} {w n body} (hp : w = false ∨ s.permits q.source = true) (hl : q.len = 1 + n) :
    s.guarded q w n body = body s := by
  unfold State.guarded
  rw [if_neg, if_neg]
  · omega
  · rcases hp with h | h <;> simp [h]

/-- A permitted write of the right length. -/
theorem guarded_write {s : State} {rx code tag args slot} (h : s.TakesWrite rx code tag args slot) {n body} (hl : args.length = n) :
   (s.requestRepeated rx code tag args slot).guarded (requestOf rx code tag args) true n body =
       body (s.requestRepeated rx code tag args slot) :=
  guarded_ok (.inr (permits_of h.2)) (by show args.length + 1 = _; omega)

/-- A read of the right length. -/
theorem guarded_read {s : State} {rx code tag args slot} {n body} (hl : args.length = n) :
   (s.requestRepeated rx code tag args slot).guarded (requestOf rx code tag args) false n body =
       body (s.requestRepeated rx code tag args slot) :=
  guarded_ok (.inl rfl) (by show args.length + 1 = _; omega)

/-- Each request command is the reception of its frame, guarded by its permission and length. -/
theorem exec_request {c : Instr} {v : RequestView} (hv : c.request = some v) : ∃ body, (∀ s, exec c s =
    running s (fun s => s.receiveRequest v.rx v.code v.tag v.args body)) ∧
    ∃ f, ∀ (t : State), body (requestOf v.rx v.code v.tag v.args) t = t.guarded (requestOf v.rx v.code v.tag v.args)
        v.write v.needs f := by
  have ha : ∀ rx code tag args, (requestOf rx code tag args).arg 2 = args.getD 1 0 := fun _ _ _ _ => rfl
  cases c <;> simp only [Instr.request, reduceCtorEq, Option.some.injEq] at hv
  case readCounters rx tag first extra =>
    cases first with
    | none => simp only [Option.some.injEq] at hv; subst hv; exact ⟨_, fun s => rfl, _, fun t => rfl⟩
    | some f => simp only [Option.some.injEq] at hv; subst hv; exact ⟨_, fun s => rfl, _, fun t => rfl⟩
  all_goals
    subst hv
    exact ⟨_, fun s => rfl, _, fun t => rfl⟩

/-- A reply is the state with the answer in the holder. -/
theorem reply_eq (s : State) (rx code tag args) (r : Result) (n : Nat) (d : List Word) (b : Bool) :
    s.reply (requestOf rx code tag args) r n d b = s.answered rx code tag r n d b := rfl

/-- The upper byte of a word. -/
theorem bits_append_hi (a b : Byte) : bits (a ++ b : Word) 8 8 = a.toNat := by
  unfold bits
  rw [BitVec.toNat_append]
  have := a.isLt; have := b.isLt
  rw [Nat.shiftLeft_eq, Nat.shiftRight_eq_div_pow]
  have e : (a.toNat * 2 ^ 8 ||| b.toNat) = a.toNat * 2^8 + b.toNat := by
    rw [← Nat.shiftLeft_eq, Nat.shiftLeft_add_eq_or_of_lt (by omega)]
  rw [e]; omega

/-- The lower byte of a word. -/
theorem bits_append_lo (a b : Byte) : bits (a ++ b : Word) 0 8 = b.toNat := by
  unfold bits
  rw [BitVec.toNat_append]
  have := a.isLt; have := b.isLt
  rw [Nat.shiftLeft_eq, Nat.shiftRight_eq_div_pow]
  have e : (a.toNat * 2 ^ 8 ||| b.toNat) = a.toNat * 2^8 + b.toNat := by
    rw [← Nat.shiftLeft_eq, Nat.shiftLeft_add_eq_or_of_lt (by omega)]
  rw [e]; omega

/-- No two tables overlap. -/
theorem TableKind.extents_disjoint : ∀ k k' : TableKind, k ≠ k' →
    (k.base + k.entries * k.width ≤ k'.base ∨ k'.base + k'.entries * k'.width ≤ k.base)
    := by
  intro k k'; cases k <;> cases k' <;> simp [TableKind.base, TableKind.entries, TableKind.width]

/-- Work in flight (R28). -/
theorem workInFlight_iff (s : State) :
    s.workInFlight = true ↔ s.engine ≠ none ∨ s.tracker.ops ≠ [] ∨ s.queue.entries ≠ [] := by
  unfold State.workInFlight
  rw [Bool.or_eq_true, Bool.or_eq_true, Option.isSome_iff_ne_none]
  simp [or_assoc]

/-- A valid slot count matches a port that is not DOWN exactly when it is the S in force (R145). -/
theorem markerMatches_iff {s : State} {side : Side} {n : Nat} (h4 : 4 ≤ n) (h32 : n ≤ 32) (h : (s.port side).state ≠ .down) :
    s.markerMatches side n = decide (s.slotsOf side = some n) := by
  unfold State.markerMatches
  cases hs : s.slotsOf side with
  | none => simp [h]
  | some m => simp [h4, h32, Bool.beq_eq_decide_eq]

/-- The expected position is one cycle period on (R146). -/
theorem expects_iff (p : PortRec) (n start : Nat) : (p.expects (some n) start = true) ↔ ∃ pos, p.position = some pos ∧
    start = pos + 32 * n := by
  unfold PortRec.expects
  cases h : p.position with
  | none => simp
  | some pos => simp; exact eq_comm

/-- A MARKER elsewhere. -/
theorem expects_false {p : PortRec} {o : Option Nat} {n start : Nat} (ho : o = some n)
    (h : ∀ pos, p.position = some pos → start ≠ pos + 32 * n) : p.expects o start = false := by
  rw [Bool.eq_false_iff, ho]
  intro h'
  obtain ⟨pos, h1, h2⟩ := (expects_iff _ _ _).1 h'
  exact h pos h1 h2

/-- A MARKER at the expected position. -/
theorem expects_true {p : PortRec} {o : Option Nat} {n start pos : Nat} (ho : o = some n)
    (h : p.position = some pos) (he : start = pos + 32 * n) : p.expects o start = true := by
  rw [ho]; exact (expects_iff _ _ _).2 ⟨pos, h, he⟩

/-- The leak of a strike at a taken MARKER (R151). -/
theorem leaked_eq (p : PortRec) : (if p.babbleSeen then p.strikes else p.strikes - 1) = p.strikes - (if p.babbleSeen then 0 else 1) := by
  cases p.babbleSeen <;> simp

/-- Counting a damaged frame does not change which frames are repeated (R148). -/
theorem passes_quiet {s : State} {side : Side} {slot : Nat} (ho : s.ownSlots.contains slot = false) : ∀ f,
    (s.quiet.countPort side f).passes (some slot) = true := by
  intro f
  unfold State.passes
  have : (s.quiet.countPort side f).ownSlots = s.ownSlots := by
    unfold State.ownSlots State.countPort State.setPort State.timingPort
    generalize hq : ({ s.quiet.port side with counters := f (s.quiet.port side).counters } : PortRec) = q
    have hp : ∀ x, ((s.quiet.setLink (s.quiet.link.setPort side q)).port x).adoptedS = (s.port x).adoptedS := by
      subst hq; intro x; cases side <;> cases x <;> rfl
    have ht : (s.quiet.setLink (s.quiet.link.setPort side q)).link.timingPort = s.link.timingPort := by
      subst hq; cases side <;> rfl
    rw [ht]
    simp only [hp]
    rfl
  rw [this]
  simp only [ho]; rfl

/-- Repeating after a count leaves the count and the words sent. -/
theorem repeat_counted (s : State) (side : Side) (slot : Nat) (f) (g : Nat) (w) :
    ((s.quiet.countPort side f).setFreeIndex g).repeatWords side (some slot) w =
      { State.setPort { s with out := [] } side { s.port side with counters := f (s.port side).counters } with
        out := s.onward side (some slot) w, freeIndex := g } := by
  unfold State.repeatWords State.onward
  have e : (((s.quiet.countPort side f).setFreeIndex g).port side.other).state = (s.port side.other).state := by cases side <;> rfl
  rw [e]
  cases (s.port side.other).state <;> rfl

end Sys2Proof.Machine
end

