-- ==== Sys2Proof/Laws/Copies.lean ====
section
/-! SUPPORT. Waiting copies of own frames: what may drop one and what keeps it (R158). -/

namespace Sys2Proof.Machine

/-- From `s` to `t` no copy has been added, and one that waits still has the transmitter's timing source it had (R158). -/
def CopiesKept (s t : State) : Prop :=
  (∀ w ∈ t.link.waiting, w ∈ s.link.waiting)
  ∧ (t.timingPort ≠ s.timingPort → t.link.waiting = [])
  ∧ ∀ w ∈ t.link.waiting, (s.port w.tx.other).state = .locked → (t.port w.tx.other).state = .locked

/-- The relation composes. -/
theorem CopiesKept.trans {s u t : State} (h : CopiesKept s u) (k : CopiesKept u t) : CopiesKept s t := by
  refine ⟨fun w hw => h.1 w (k.1 w hw), fun hne => ?_, fun w hw hl => k.2.2 w hw (h.2.2 w (k.1 w hw) hl)⟩
  by_cases h1 : t.timingPort = u.timingPort
  · have := h.2.1 (by rw [← h1]; exact hne)
    rw [List.eq_nil_iff_forall_not_mem]
    intro w hw
    have := k.1 w hw
    rw [h.2.1 (by rw [← h1]; exact hne)] at this
    cases this
  · exact k.2.1 h1

/-- The timing port depends on the port states alone (R156). -/
theorem timingPort_states {s t : State} (h : ∀ side, (t.port side).state = (s.port side).state) : t.timingPort = s.timingPort := by
  have h1 : t.link.east.state = s.link.east.state := h .east
  have h2 : t.link.west.state = s.link.west.state := h .west
  unfold State.timingPort LinkState.timingPort
  rw [h1, h2]

/-- Port states kept and no copy added. -/
theorem CopiesKept.same {s t : State} (h : ∀ side, (t.port side).state = (s.port side).state) (hw : ∀ w ∈ t.link.waiting,
    w ∈ s.link.waiting) : CopiesKept s t :=
  ⟨hw, fun hne => absurd (timingPort_states h) hne, fun w _ hl => by rw [h]; exact hl⟩

/-- Ports kept and no copy added. -/
theorem CopiesKept.ofPorts {z : State} {s t : State} (h : CopiesKept z s) (e : t.port = s.port) (hw : ∀ w ∈ t.link.waiting,
    w ∈ s.link.waiting) : CopiesKept z t := CopiesKept.trans h (CopiesKept.same (fun side => by rw [e]) hw)
/-- Link kept. -/
theorem CopiesKept.link {z : State} {s t : State} (h : CopiesKept z s)
    (e : t.link = s.link) : CopiesKept z t := CopiesKept.ofPorts h (by unfold State.port; rw [e]) (by rw [e]; exact fun w hw => hw)

/-- A record of a port whose state is kept. -/
theorem CopiesKept.setPort {z : State} {s : State} (side p) (h : CopiesKept z s) (hp : p.state =
    (s.port side).state) : CopiesKept z (s.setPort side p) := by
  refine CopiesKept.trans h (CopiesKept.same (fun side' => ?_) (fun w hw => ?_))
  · cases side <;> cases side' <;> first | exact hp | rfl
  · cases side <;> exact hw

/-- An event that may change a port state drops the copies R158 says. -/
theorem CopiesKept.changePort {z : State} {s : State} (side took p) (h : CopiesKept z s) : CopiesKept z (s.changePort side took p) := by
  have e : (s.changePort side took p).timingPort = (s.link.setPort side p).timingPort := by cases side <;> rfl
  refine CopiesKept.trans h ⟨fun w hw => ?_, fun hne => ?_, fun w hw _ => ?_⟩
  · have hw : w ∈ List.filter _ (s.link.setPort side p).waiting := hw
    rw [List.mem_filter] at hw
    have := hw.1
    cases side <;> exact this
  · show List.filter _ (s.link.setPort side p).waiting = []
    rw [List.filter_eq_nil_iff]
    intro w _
    rw [e] at hne
    have : decide (s.link.timingPort = (s.link.setPort side p).timingPort) = false := by
      rw [decide_eq_false_iff_not]; exact fun h => hne h.symm
    rw [this]; simp
  · have hw : w ∈ List.filter _ (s.link.setPort side p).waiting := hw
    rw [List.mem_filter] at hw
    have := hw.2
    rw [Bool.and_eq_true, beq_iff_eq] at this
    have h2 := this.2
    generalize w.tx.other = sd at *
    cases side <;> cases sd <;> exact h2

end Sys2Proof.Machine
end

