-- ==== Sys2Proof/Laws/Fields.lean ====
section
/-! SUPPORT. What a word built from fields holds, and the words of a run and of a 32-bit quantity. -/

namespace Sys2Proof.Machine

/-- The fields lie in a word, and no two of them overlap. -/
def fieldsFit : List (Nat × Nat × Nat) → Bool
  | [] => true
  | f :: rest => decide (f.1 + f.2.1 ≤ 16) && rest.all (fun g => decide (f.1 + f.2.1 ≤ g.1) || decide (g.1 + g.2.1 ≤ f.1))
    && fieldsFit rest

/-- The bits a field sets in a word. -/
theorem field_bit (f : Nat × Nat × Nat) (i : Nat) (hi : i < 16) :
    (BitVec.ofNat 16 ((f.2.2 % 2 ^ f.2.1) <<< f.1)).getLsbD i
      = (decide (f.1 ≤ i) && decide (i < f.1 + f.2.1) && f.2.2.testBit (i - f.1)) := by
  rw [BitVec.getLsbD_ofNat, Nat.testBit_shiftLeft, Nat.testBit_mod_two_pow]
  by_cases h : f.1 ≤ i
  · have e : (i - f.1 < f.2.1) = (i < f.1 + f.2.1) := by rw [eq_iff_iff]; omega
    simp [hi, h, e]
  · simp [h]

/-- The bits of a word built from fields that do not overlap. -/
theorem packFold_bit : ∀ (L : List (Nat × Nat × Nat)) (acc : Nat), fieldsFit L = true →
    (∀ f ∈ L, ∀ i < 16, f.1 ≤ i → i < f.1 + f.2.1 → (BitVec.ofNat 16 acc).getLsbD i = false) → ∀ i < 16,
    (BitVec.ofNat 16 (L.foldl (fun acc f => acc + (f.2.2 % 2 ^ f.2.1) <<< f.1) acc)).getLsbD i
      = ((BitVec.ofNat 16 acc).getLsbD i
        || L.any (fun f => decide (f.1 ≤ i) && decide (i < f.1 + f.2.1) && f.2.2.testBit (i - f.1)))
  | [], acc, _, _, i, _ => by simp
  | f :: L, acc, hL, hacc, i, hi => by
    simp only [fieldsFit, Bool.and_eq_true, List.all_eq_true, Bool.or_eq_true, decide_eq_true_eq] at hL
    obtain ⟨⟨h1, h2⟩, h3⟩ := hL
    have hz : BitVec.ofNat 16 acc &&& BitVec.ofNat 16 ((f.2.2 % 2 ^ f.2.1) <<< f.1) = 0#16 := by
      apply BitVec.eq_of_getLsbD_eq
      intro j hj
      rw [BitVec.getLsbD_and, field_bit f j hj, BitVec.getLsbD_zero]
      by_cases h : f.1 ≤ j ∧ j < f.1 + f.2.1
      · rw [hacc f List.mem_cons_self j hj h.1 h.2, Bool.false_and]
      · have : (decide (f.1 ≤ j) && decide (j < f.1 + f.2.1)) = false := by
          rw [Bool.eq_false_iff]; intro x; rw [Bool.and_eq_true, decide_eq_true_eq, decide_eq_true_eq] at x; exact h x
        rw [this]; simp
    have hs : ∀ j < 16, (BitVec.ofNat 16 (acc + (f.2.2 % 2 ^ f.2.1) <<< f.1)).getLsbD j
        = ((BitVec.ofNat 16 acc).getLsbD j || (decide (f.1 ≤ j) && decide (j < f.1 + f.2.1) && f.2.2.testBit (j - f.1))) := by
      intro j hj
      rw [BitVec.ofNat_add, BitVec.add_eq_or_of_and_eq_zero _ _ hz, BitVec.getLsbD_or, field_bit f j hj]
    rw [List.foldl_cons, packFold_bit L _ h3 ?_ i hi, hs i hi, List.any_cons, Bool.or_assoc]
    intro g hg j hj hj1 hj2
    rw [hs j hj, hacc g (List.mem_cons_of_mem _ hg) j hj hj1 hj2, Bool.false_or]
    have hd : ¬ (f.1 ≤ j ∧ j < f.1 + f.2.1) := by
      rcases h2 g hg with h | h <;> omega
    have : (decide (f.1 ≤ j) && decide (j < f.1 + f.2.1)) = false := by
      rw [Bool.eq_false_iff]; intro x; rw [Bool.and_eq_true, decide_eq_true_eq, decide_eq_true_eq] at x; exact hd x
    rw [this, Bool.false_and]

/-- Two fields of a word of fields that do not overlap, one of which holds a bit, are one field. -/
theorem fieldsFit_unique : ∀ {L : List (Nat × Nat × Nat)}, fieldsFit L = true → ∀ f ∈ L, f.1 + f.2.1 ≤ 16 ∧
    ∀ g ∈ L, ∀ i, f.1 ≤ i → i < f.1 + f.2.1 → g.1 ≤ i → i < g.1 + g.2.1 → g = f
  | x :: L, hL, f, hf => by
    simp only [fieldsFit, Bool.and_eq_true, List.all_eq_true, Bool.or_eq_true, decide_eq_true_eq] at hL
    obtain ⟨⟨h1, h2⟩, h3⟩ := hL
    rcases List.mem_cons.1 hf with rfl | hf'
    · refine ⟨h1, fun g hg i a b c d => ?_⟩
      rcases List.mem_cons.1 hg with rfl | hg
      · rfl
      · rcases h2 g hg with h | h <;> omega
    · obtain ⟨k1, k2⟩ := fieldsFit_unique h3 f hf'
      refine ⟨k1, fun g hg i a b c d => ?_⟩
      rcases List.mem_cons.1 hg with rfl | hg
      · rcases h2 f hf' with h | h <;> omega
      · exact k2 g hg i a b c d

/-- A bit of a field of a word. -/
theorem bits_testBit (w : Word) (lo n i : Nat) : (bits w lo n).testBit i = (decide (i < n) && w.getLsbD (lo + i)) := by
  unfold bits
  rw [Nat.testBit_mod_two_pow, Nat.testBit_shiftRight, BitVec.testBit_toNat]

/-- A word built from fields that do not overlap holds each of them. -/
theorem packWord_holds {L : List (Nat × Nat × Nat)} (h : fieldsFit L = true) : HoldsFields (packWord L) L := by
  intro f hf
  obtain ⟨hb, hu⟩ := fieldsFit_unique h f hf
  apply Nat.eq_of_testBit_eq
  intro i
  rw [bits_testBit, Nat.testBit_mod_two_pow]
  by_cases hi : i < f.2.1
  · simp only [hi, decide_true, Bool.true_and]
    unfold packWord
    rw [packFold_bit L 0 h (fun _ _ _ _ _ _ => by simp) (f.1 + i) (by omega)]
    rw [show (BitVec.ofNat 16 0).getLsbD (f.1 + i) = false by simp, Bool.false_or, Bool.eq_iff_iff, List.any_eq_true]
    constructor
    · rintro ⟨g, hg, hx⟩
      simp only [Bool.and_eq_true, decide_eq_true_eq] at hx
      have := hu g hg (f.1 + i) (by omega) (by omega) hx.1.1 hx.1.2
      subst this
      simpa using hx.2
    · intro hx
      refine ⟨f, hf, ?_⟩
      simp only [Bool.and_eq_true, decide_eq_true_eq]
      exact ⟨⟨by omega, by omega⟩, by simpa using hx⟩
  · simp [hi]

/-- Some of the fields of a word built from fields that do not overlap, each given by its value. -/
theorem packWord_holds_some {L M : List (Nat × Nat × Nat)} (h : fieldsFit L = true) (hM : ∀ f ∈ M, f ∈ L) :
    HoldsFields (packWord L) M :=
  fun f hf => packWord_holds h f (hM f hf)

/-- A one-bit field of a word built from fields that do not overlap. -/
theorem packWord_getLsbD {L : List (Nat × Nat × Nat)} (h : fieldsFit L = true) {i : Nat} {b : Bool} (hf : (i, 1, bitNat b) ∈ L) :
    (packWord L).getLsbD i = b := by
  have e := packWord_holds h _ hf
  have t := bits_testBit (packWord L) i 1 0
  simp only [] at e
  rw [e] at t
  have : (bitNat b % 2 ^ 1).testBit 0 = b := by cases b <;> rfl
  rw [this] at t
  simpa using t.symm

/-- A flag as a number. -/
theorem bitNat_eq (b : Bool) : bitNat b = b.toNat := by cases b <;> rfl

/-- The two words of a 32-bit quantity make it. -/
theorem long_longWords (v : BitVec 32) : (v.extractLsb' 16 16 ++ v.extractLsb' 0 16 : BitVec 32) = v := by
  apply BitVec.eq_of_getLsbD_eq
  intro i hi
  rw [BitVec.getLsbD_append]
  by_cases h : i < 16
  · simp [h]
  · simp only [h, if_false]
    rw [BitVec.getLsbD_extractLsb']
    have : 16 + (i - 16) = i := by omega
    rw [this]
    have : i - 16 < 16 := by omega
    simp [this]

end Sys2Proof.Machine
end

