-- ==== Sys2Proof/Laws/Validation.lean ====
section
/-! SUPPORT. Validation, table by table: the checks of an entry hold exactly when the entry lies within its ranges. -/

namespace Sys2Proof.Machine

/-- A field of `n` bits is below 2^n. -/
theorem bits_lt (w : Word) (lo n : Nat) : bits w lo n < 2 ^ n := Nat.mod_lt _ (by positivity)

/-- No check is false exactly when all are true. -/
theorem firstFalse_none (l : List Bool) : ∀ n, firstFalse n l = none ↔ ∀ b ∈ l, b = true := by
  induction l with
  | nil => intro n; simp [firstFalse]
  | cons b l ih => intro n; cases b <;> simp [firstFalse, ih]

/-- An entry fails no check exactly when every check holds. -/
theorem runChecks_none (k : TableKind) (e : Nat) (l : List Bool) : runChecks k e l = none ↔ ∀ b ∈ l, b = true := by
  unfold runChecks; rw [Option.map_eq_none_iff]; exact firstFalse_none _ _

/-- A table fails no check exactly when every entry examined passes. -/
theorem overEntries_none (k : TableKind) (x : Nat → Bool) (f : Nat → List Bool) :
    overEntries k x f = none ↔ ∀ i < k.entries, x i = true → ∀ b ∈ f i, b = true := by
  unfold overEntries
  simp only [List.findSome?_eq_none_iff, List.mem_range]
  constructor
  · intro h i hi hx
    have := h i hi
    rw [if_pos hx] at this
    exact (runChecks_none _ _ _).1 this
  · intro h i hi
    by_cases hx : x i = true
    · rw [if_pos hx]; exact (runChecks_none _ _ _).2 (h i hi hx)
    · rw [if_neg hx]

/-- A range check. -/
theorem within_iff (lo hi n : Int) : within lo hi n = true ↔ lo ≤ n ∧ n ≤ hi := by
  unfold within; simp

/-- The point is an enabled binary point. -/
theorem isBinary_iff (b : Bank) (p : Nat) : b.binaryPoint p = true ↔ b.IsBinary p := by
  unfold Bank.binaryPoint PointEntry.isBinary Bank.IsBinary; simp

/-- A point reference that is NONE or binary. -/
theorem binaryOrNone_iff (b : Bank) (o : Option Nat) : b.binaryOrNone o = true ↔ ∀ p, o = some p → b.IsBinary p := by
  unfold Bank.binaryOrNone
  cases o <;> simp [isBinary_iff]

/-- Following next ends within `n` actions exactly when the last action of the chain has none (R67). -/
theorem chainEnds_iff (b : Bank) : ∀ n a, b.chainEnds n a = true ↔ ∃ last, (b.chainFrom n a).getLast? = some last ∧
    (b.action last).next = none := by
  intro n
  induction n with
  | zero => intro a; simp [Bank.chainEnds, Bank.chainFrom]
  | succ n ih =>
    intro a
    unfold Bank.chainEnds Bank.chainFrom
    cases h : (b.action a).next with
    | none => simp [h]
    | some x =>
      simp only
      rw [ih x]
      cases n with
      | zero => simp [Bank.chainFrom, h]
      | succ m =>
        have : ∃ l, b.chainFrom (m + 1) x = x :: l := ⟨_, rfl⟩
        obtain ⟨l, hl⟩ := this
        rw [hl]
        simp [List.getLast?_cons_cons]

/-- The Link Table and the Bank Parameters (R142, R166). -/
theorem link_iff (b : Bank) : ((∀ x ∈ b.linkChecks, x = true) ∧ ∀ x ∈ b.paramsChecks, x = true) ↔ b.LinkPasses := by
  unfold Bank.linkChecks Bank.paramsChecks
  simp only [List.forall_mem_cons, within_iff, List.all_eq_true, decide_eq_true_eq, Option.all_eq_true]
  constructor
  · rintro ⟨⟨h1, h2, h3, h4, h5, h6, h7, -⟩, h8, h9, h10, -⟩
    refine ⟨by omega, by omega, ⟨fun k hk => ?_, h4⟩, by omega, by omega, by omega, ?_⟩
    · have := h3 k hk; omega
    · rintro c (h | h)
      · have := h9 c h; omega
      · have := h10 c h; omega
  · intro h
    obtain ⟨h1, h2, h3, h4, h5, h6, h7⟩ := h
    refine ⟨⟨by omega, by omega, fun k hk => ?_, h3.2, by omega, by omega, by omega, by simp⟩, by omega, fun c hc => ?_,
        fun c hc => ?_, by simp⟩
    · have := h3.1 k hk; omega
    · have := h7 c (.inl hc); omega
    · have := h7 c (.inr hc); omega

/-- No enabled station of lower index has the property. -/
theorem lowerStation_iff (b : Bank) (i : Nat) (p) : (!b.lowerStation i p) = true ↔ ∀ j < i, (b.station j).enable = true →
    p (b.station j) = false := by
  unfold Bank.lowerStation
  simp [List.any_eq_false]

/-- A Station Table entry (R125). -/
theorem station_iff (b : Bank) (i : Nat) : (∀ x ∈ b.stationChecks i, x = true) ↔ b.StationPasses i := by
  unfold Bank.stationChecks
  simp only [List.forall_mem_cons, within_iff, lowerStation_iff]
  have hmin : (b.station i).minimum < 256 := bits_lt _ _ 8
  constructor
  · rintro ⟨h1, h2, h3, h4, h5, h6, h7, h8, h9, -⟩
    refine ⟨⟨by omega, by simpa using h2⟩, ⟨by omega, by omega, by simpa using h5⟩,
        fun j hj he => ⟨by simpa using h3 j hj he, by simpa using h6 j hj he⟩, by omega, by omega, by omega⟩
  · rintro ⟨h1, h2, h3, h4, h5, h6⟩
    refine ⟨by omega, by simpa using h1.2, fun j hj he => by simpa using (h3 j hj he).1, by omega, by simpa using h2.2.2,
        fun j hj he => by simpa using (h3 j hj he).2, by omega, by omega, by omega, by simp⟩

/-- An enabled Point Table entry (R108). -/
theorem point_iff (b : Bank) (i : Nat) (hi : (b.point i).kind ≠ .disabled) : (∀ x ∈ b.pointChecks i, x = true) ↔ b.PointPasses i := by
  unfold Bank.pointChecks PointEntry.enabled
  simp only [List.forall_mem_cons, within_iff]
  have hb : (b.point i).bitNumber < 16 := bits_lt _ _ 4
  cases hk : (b.point i).kind with
  | disabled => exact absurd hk hi
  | analog =>
    constructor
    · rintro ⟨h1, h2, h3, _, _, h4, h5, _⟩
      exact ⟨h1, by omega, by omega, fun _ => ⟨by simpa using h4, by simpa [within_iff, Option.all_eq_true] using h5⟩, by simp [hk]⟩
    · rintro ⟨h1, h2, h3, h4, _⟩
      exact ⟨h1, by omega, by omega, by simp, by simp, by simpa using (h4 hk).1, by simpa [within_iff,
          Option.all_eq_true] using (h4 hk).2, by simp, by simp, by simp⟩
  | single =>
    constructor
    · rintro ⟨h1, h2, h3, _⟩
      exact ⟨h1, by omega, by omega, by simp [hk], by simp [hk]⟩
    · rintro ⟨h1, h2, h3, h4, _⟩
      exact ⟨h1, by omega, by omega, by simp, by simp, by simp, by simp, by simp; omega, by simp, by simp⟩
  | double =>
    constructor
    · rintro ⟨h1, h2, h3, _, _, _, _, _, h9, _⟩
      exact ⟨h1, by omega, by omega, by simp [hk], fun _ => by simp at h9; omega⟩
    · rintro ⟨h1, h2, h3, h4, h5⟩
      have := h5 hk
      exact ⟨h1, by omega, by omega, by simp, by simp, by simp, by simp, by simp, by simp; omega, by simp⟩

/-- An Action Table entry (R67). -/
theorem action_iff (b : Bank) (i : Nat) : (∀ x ∈ b.actionChecks i, x = true) ↔ b.ActionPasses i := by
  unfold Bank.actionChecks
  simp only [List.forall_mem_cons, within_iff, binaryOrNone_iff, chainEnds_iff]
  have ho : (b.action i).output < 16 := bits_lt _ _ 4
  have hn : ∀ n, (b.action i).next = some n → n < 128 := by
    intro n h
    unfold Bank.action at h
    simp only at h
    split at h
    · cases h
    · injection h with h; rw [← h]; exact bits_lt _ _ 7
  constructor
  · rintro ⟨h1, h2, h3, h4, h5, h6, h7, -⟩
    refine ⟨?_, h3, by omega, by omega, h7⟩
    simpa using h1
  · rintro ⟨h1, h2, h3, h4, h5⟩
    refine ⟨by simpa using h1, by omega, h2, by omega, by omega, ?_, h5, by simp⟩
    simp only [Option.all_eq_true, within_iff]
    intro n h; have := hn n h; omega

/-- A held position of a shed list (R33). -/
theorem shed_iff (b : Bank) (l p : Nat) (c : CandidateEntry) : (∀ x ∈ b.shedChecks l p c, x = true) ↔ b.CandidatePasses l p c := by
  unfold Bank.shedChecks
  simp only [List.forall_mem_cons, within_iff, isBinary_iff]
  have hh : (!b.headTaken l p c.head) = true ↔ ∀ j < p, ∀ c', b.candidate l j = some c' → c'.head ≠ c.head := by
    unfold Bank.headTaken
    simp [Option.any_eq_false]
  rw [hh]
  unfold Bank.analogPoint
  constructor
  · rintro ⟨h1, h2, h3, h4, h5, h6, -⟩
    exact ⟨⟨by omega, by rw [← Option.isSome_iff_ne_none]; exact h2⟩, h3, by simpa using h4, by omega, h6⟩
  · rintro ⟨h1, h2, h3, h4, h5⟩
    exact ⟨by omega, by rw [Option.isSome_iff_ne_none]; exact h1.2, h2, by simpa using h3, by omega, h5, by simp⟩

/-- A Scheme Table entry (R3). -/
theorem scheme_iff (b : Bank) (i : Nat) : (∀ x ∈ b.schemeChecks i, x = true) ↔ b.SchemePasses i := by
  unfold Bank.schemeChecks
  simp only [List.forall_mem_cons, within_iff, binaryOrNone_iff, levelFits, Bool.and_eq_true, decide_eq_true_eq]
  have h7 : (b.scheme i).armNeeded < 16 := bits_lt _ _ 4
  have h8 : (b.scheme i).disarmNeeded < 16 := bits_lt _ _ 4
  have h10 : (b.scheme i).holdCode < 4 := bits_lt _ _ 2
  have h11 : (b.scheme i).sensitivity < 1024 := bits_lt _ _ 10
  constructor
  · rintro ⟨a1, a2, a3, a4, a5, a6, a7, a8, a9, a10, a11, a12, a13, a14, a15, a16, a17, -⟩
    refine ⟨⟨by simpa using a1, fun x hx => ?_⟩, ?_, a5, a6, by omega, by omega, by omega, ?_, by omega, a16, by omega⟩
    · simp only [List.all_eq_true, within_iff] at a2 a3
      have e1 := a2 x hx
      unfold Bank.analogPoint at e1
      exact ⟨by simpa using e1, a3 x hx⟩
    · simp only [List.forall_mem_cons]
      exact ⟨a4.1.1.1.1, a4.1.1.1.2, a4.1.1.2, a4.1.2, a4.2, by simp⟩
    · intro l hl
      simp only [Option.all_eq_true, within_iff] at a14
      have := a14 l hl; omega
  · rintro ⟨a1, a2, a3, a4, a5, a6, a7, a8, a9, a10, a11⟩
    simp only [List.forall_mem_cons] at a2
    refine ⟨by simpa using a1.1, ?_, ?_, ⟨⟨⟨⟨a2.1, a2.2.1⟩, a2.2.2.1⟩, a2.2.2.2.1⟩, a2.2.2.2.2.1⟩, a3, a4, by omega,
        by omega, by omega, by omega, by omega, by omega, by omega, ?_, by omega, a10, by omega, by simp⟩
    · simp only [List.all_eq_true, Bank.analogPoint]
      intro x hx; simpa using (a1.2 x hx).1
    · simp only [List.all_eq_true, within_iff]
      intro x hx; exact (a1.2 x hx).2
    · simp only [Option.all_eq_true, within_iff]
      intro l hl; have := a8 l hl; omega

/-- A Contingency Table entry (R47). -/
theorem cont_iff (b : Bank) (i : Nat) (hx : b.params.expressA = some i ∨ b.params.expressB = some i → (b.cont i).priority = 3) :
    (∀ x ∈ b.contChecks i, x = true) ↔ b.ContPasses i := by
  unfold Bank.contChecks
  simp only [List.forall_mem_cons, within_iff, List.all_eq_true, isBinary_iff, decide_eq_true_eq]
  have h5 : (b.cont i).rearmCount < 16 := bits_lt _ _ 4
  have h6 : (b.cont i).priority < 4 := bits_lt _ _ 2
  constructor
  · rintro ⟨a1, a2, a3, a4, a5, a6, a7, -⟩
    refine ⟨⟨by simpa using a1, a2, a3⟩, by omega, by omega, ?_, hx⟩
    intro h hh
    simp only [Option.all_eq_true, within_iff] at a7
    have := a7 h hh; omega
  · rintro ⟨a1, a2, a3, a4, a5⟩
    refine ⟨by simpa using a1.1, a1.2.1, a1.2.2, by omega, by omega, by omega, ?_, by simp⟩
    simp only [Option.all_eq_true, within_iff]
    intro h hh; have := a4 h hh; omega

/-- An express designation passes when it names a disabled contingency or one of priority 3 (R47). -/
theorem designationCheck_none (b : Bank) (d : Option Nat) : b.designationCheck d = none ↔ ∀ c, d = some c →
    (b.cont c).enable = true → (b.cont c).priority = 3 := by
  unfold Bank.designationCheck
  cases d with
  | none => simp
  | some c => simp

/-- The express designations (R47). -/
theorem designationChecks_none (b : Bank) : b.designationChecks = none ↔
    (∀ c, b.params.expressA = some c ∨ b.params.expressB = some c → (b.cont c).enable = true → (b.cont c).priority = 3)
    ∧ ∀ c, b.params.expressA = some c → b.params.expressB ≠ some c := by
  unfold Bank.designationChecks
  simp only [Option.or_eq_none_iff, designationCheck_none]
  constructor
  · rintro ⟨⟨h1, h2⟩, h3⟩
    refine ⟨fun c hc => hc.elim (h1 c) (h2 c), fun c hc hb => ?_⟩
    rw [hc] at h3; simp [hb] at h3
  · rintro ⟨h1, h2⟩
    refine ⟨⟨fun c hc => h1 c (.inl hc), fun c hc => h1 c (.inr hc)⟩, ?_⟩
    cases ha : b.params.expressA with
    | none => rfl
    | some c => simp [h2 c ha]

/-- The shed lists (R33). -/
theorem shedFailure_none (b : Bank) : b.shedFailure = none ↔ ∀ l < 16, ∀ p < 16, ∀ c, b.candidate l p = some c →
    b.CandidatePasses l p c := by
  unfold Bank.shedFailure
  simp only [List.findSome?_eq_none_iff, List.mem_range]
  constructor
  · intro h l hl p hp c hc
    have := h (16 * l + p) (by omega)
    rw [show (16 * l + p) / 16 = l by omega, show (16 * l + p) % 16 = p by omega, hc] at this
    exact (shed_iff _ _ _ _).1 ((runChecks_none _ _ _).1 this)
  · intro h i hi
    cases hc : b.candidate (i / 16) (i % 16) with
    | none => rfl
    | some c => exact (runChecks_none _ _ _).2 ((shed_iff _ _ _ _).2 (h _ (by omega) _ (by omega) c hc))

end Sys2Proof.Machine
end

