-- ==== Sys2Proof/Laws/FirstFailure.lean ====
section
/-! SUPPORT. Which failing check a validation reports: the first, table by table, entry by entry, check by check (R166). -/

namespace Sys2Proof.Machine

/-- `o` is the failure of least place among those of `p`; it is none when there is none. -/
def IsFirst (place : Failure → Nat) (o : Option Failure) (p : Failure → Prop) : Prop :=
  (o = none → ∀ f, ¬ p f) ∧ ∀ f, o = some f → p f ∧ ∀ g, p g → place f ≤ place g

/-- One validation after another. -/
theorem IsFirst.or {place o o' p p'} (h : IsFirst place o p) (h' : IsFirst place o' p')
    (hle : ∀ f g, p f → p' g → place f ≤ place g) : IsFirst place (o.or o') (fun f => p f ∨ p' f) := by
  cases o with
  | none =>
    refine ⟨fun e f hf => hf.elim (h.1 rfl f) (h'.1 e f), fun f e => ⟨.inr (h'.2 f e).1, fun g hg => ?_⟩⟩
    exact hg.elim (fun hg => absurd hg (h.1 rfl g)) ((h'.2 f e).2 g)
  | some x =>
    refine ⟨fun e => by simp at e, fun f e => ?_⟩
    simp only [Option.some_or, Option.some.injEq] at e
    subst e
    refine ⟨.inl (h.2 x rfl).1, fun g hg => hg.elim ((h.2 x rfl).2 g) (hle x g (h.2 x rfl).1)⟩

/-- The same failures under another description. -/
theorem IsFirst.congr {place o p p'} (h : IsFirst place o p) (hp : ∀ f, p f ↔ p' f) : IsFirst place o p' := by
  have : p = p' := funext fun f => propext (hp f)
  exact this ▸ h

/-- Validations over a list, in its order. -/
theorem IsFirst.findSome {place} {f : Nat → Option Failure} {p : Nat → Failure → Prop} (hf : ∀ i, IsFirst place (f i) (p i))
    : ∀ l : List Nat, l.Pairwise (fun i j => ∀ x y, p i x → p j y → place x ≤ place y) →
      IsFirst place (l.findSome? f) (fun x => ∃ i ∈ l, p i x)
  | [], _ => ⟨fun _ x h => by simp at h, fun x h => by simp at h⟩
  | i :: l, hl => by
    rw [List.pairwise_cons] at hl
    have ih := IsFirst.findSome hf l hl.2
    have e : (i :: l).findSome? f = (f i).or (l.findSome? f) := by
      rw [List.findSome?_cons]; cases f i <;> rfl
    rw [e]
    refine ((hf i).or ih ?_).congr (fun x => by simp)
    rintro x y hx ⟨j, hj, hy⟩
    exact hl.1 j hj x y hx hy

/-- The place of the first false check. -/
theorem firstFalse_first : ∀ (bs : List Bool) (ps : List Prop), List.Forall₂ (fun b p => b = true ↔ p) bs ps → ∀ n,
    (firstFalse n bs = none → ∀ (k : Nat) (p : Prop), ps[k]? = some p → p)
    ∧ ∀ m, firstFalse n bs = some m → n ≤ m ∧ (∃ p : Prop, ps[m - n]? = some p ∧ ¬ p) ∧
        ∀ (k : Nat) (p : Prop), ps[k]? = some p → ¬ p → m ≤ n + k
  | [], [], _, n => ⟨fun _ k p h => by simp at h, fun m h => by simp [firstFalse] at h⟩
  | b :: bs, p :: ps, h, n => by
    rw [List.forall₂_cons] at h
    obtain ⟨hb, h⟩ := h
    have ih := firstFalse_first bs ps h (n + 1)
    unfold firstFalse
    cases b with
    | true =>
      simp only [if_true]
      have hp : p := hb.1 rfl
      refine ⟨fun e k q hq => ?_, fun m e => ?_⟩
      · cases k with
        | zero => simp at hq; rw [← hq]; exact hp
        | succ k => exact ih.1 e k q (by simpa using hq)
      · obtain ⟨h1, ⟨q, h2, h3⟩, h4⟩ := ih.2 m e
        refine ⟨by omega, ⟨q, ?_, h3⟩, fun k r hr hn => ?_⟩
        · rw [show m - n = (m - (n + 1)) + 1 by omega]; simpa using h2
        · cases k with
          | zero => simp at hr; rw [← hr] at hn; exact absurd hp hn
          | succ k => have := h4 k r (by simpa using hr) hn; omega
    | false =>
      have hp : ¬ p := fun hp => Bool.false_ne_true (hb.2 hp)
      simp only [Bool.false_eq_true, if_false]
      refine ⟨fun e => by simp at e, fun m e => ?_⟩
      simp only [Option.some.injEq] at e
      subst e
      exact ⟨le_refl _, ⟨p, by simp, hp⟩, fun k r _ _ => by omega⟩

/-- The failures of one entry's checks. -/
def EntryFails (k : TableKind) (entry : Nat) (asked : List Prop) (f : Failure) : Prop :=
  f.kind = k ∧ f.entry = entry ∧ 1 ≤ f.check ∧ ∃ p, asked[f.check - 1]? = some p ∧ ¬ p

/-- The checks of one entry report the first that fails. -/
theorem runChecks_first {place : Failure → Nat} {k : TableKind} {entry : Nat} {checks : List Bool} {asked : List Prop}
    (h : List.Forall₂ (fun b p => b = true ↔ p) checks asked)
    (hp : ∀ n m, 1 ≤ n → n ≤ m → m ≤ asked.length → place ⟨k, entry, n⟩ ≤ place ⟨k, entry, m⟩) :
    IsFirst place (runChecks k entry checks) (EntryFails k entry asked) := by
  obtain ⟨h1, h2⟩ := firstFalse_first checks asked h 1
  unfold runChecks
  constructor
  · intro e f ⟨_, _, _, p, hpf, hn⟩
    exact hn (h1 (by simpa using e) _ p hpf)
  · intro f e
    simp only [Option.map_eq_some_iff] at e
    obtain ⟨m, hm, rfl⟩ := e
    obtain ⟨a, b, c⟩ := h2 m hm
    refine ⟨⟨rfl, rfl, a, b⟩, ?_⟩
    rintro ⟨k', e', n⟩ ⟨rfl, rfl, hn, p, hpf, hnp⟩
    dsimp only at hn hpf
    have := c _ p hpf hnp
    have hl : n - 1 < asked.length := by
      by_contra hh
      rw [List.getElem?_eq_none (by omega)] at hpf
      cases hpf
    exact hp m n a (by omega) (by omega)

/-- The place of a numbered check of an entry (R166). -/
theorem place_plain (b : Bank) (k : TableKind) (e n : Nat) (h : k = .contingency → n ≤ 7) :
    b.place ⟨k, e, n⟩ = k.stage * 65536 + e * 32 + n := by
  unfold Bank.place
  rw [if_neg, if_neg]
  · rintro ⟨h1, h2⟩; dsimp only at h1 h2; have := h h1; omega
  · rintro ⟨h1, h2⟩; dsimp only at h1 h2; have := h h1; omega

/-- At most 17 checks an entry (R3). -/
theorem requirements_length (b : Bank) (k : TableKind) (e : Nat) : (b.requirements k e).length ≤ 17 ∧ (k = .contingency →
    (b.requirements k e).length = 7) := by
  cases k <;> unfold Bank.requirements <;> simp
  cases b.candidate (e / 16) (e % 16) <;> simp

/-- The failures of a table. -/
def Bank.TableFails (b : Bank) (k : TableKind) (f : Failure) : Prop :=
  ∃ i ∈ List.range k.entries, b.Examined k i ∧ EntryFails k i (b.requirements k i) f

/-- The place of a failing check of an entry. -/
theorem EntryFails.place {b : Bank} {k : TableKind} {i : Nat} {f : Failure} (h : EntryFails k i (b.requirements k i) f) :
    b.place f = k.stage * 65536 + i * 32 + f.check ∧ 1 ≤ f.check ∧ f.check ≤ 17 := by
  obtain ⟨h1, h2, h3, p, h4, _⟩ := h
  obtain ⟨l1, l2⟩ := requirements_length b k i
  have hl : f.check - 1 < (b.requirements k i).length := by
    by_contra hh
    rw [List.getElem?_eq_none (by omega)] at h4
    cases h4
  refine ⟨?_, h3, by omega⟩
  subst h1 h2
  exact place_plain b f.kind f.entry f.check (fun e => by have := l2 e; omega)

/-- A table reports its first failing check, entry by entry (R166). -/
theorem table_first (b : Bank) (k : TableKind) (o : Nat → Option Failure) (checks : Nat → List Bool)
    (ho : ∀ i, (b.Examined k i ∧ o i = runChecks k i (checks i) ∧ List.Forall₂ (fun b p => b = true ↔ p) (checks i) (b.requirements k i))
      ∨ (o i = none ∧ ∀ f, ¬ (b.Examined k i ∧ EntryFails k i (b.requirements k i) f))) :
    IsFirst b.place ((List.range k.entries).findSome? o) (b.TableFails k) := by
  refine IsFirst.findSome (p := fun i f => b.Examined k i ∧ EntryFails k i (b.requirements k i) f) (fun i => ?_) _ ?_
  · rcases ho i with ⟨h1, h2, h3⟩ | ⟨h1, h2⟩
    · rw [h2]
      refine (runChecks_first h3 ?_).congr (fun f => by simp [h1])
      intro n m _ hnm hm
      obtain ⟨_, l2⟩ := requirements_length b k i
      rw [place_plain b k i n (fun e => by have := l2 e; omega), place_plain b k i m (fun e => by have := l2 e; omega)]
      omega
    · rw [h1]
      exact ⟨fun _ f hf => h2 f hf, fun f e => by simp at e⟩
  · refine List.pairwise_lt_range.imp ?_
    intro i j hij x y hx hy
    have a := hx.2.place; have c := hy.2.place
    rw [a.1, c.1]; omega

/-- At most 256 entries a table. -/
theorem entries_le (k : TableKind) : k.entries ≤ 256 := by cases k <;> decide

/-- A table's failures fall within its stage (R166). -/
theorem TableFails.place {b : Bank} {k : TableKind} {f : Failure} (h : b.TableFails k f) :
    k.stage * 65536 < b.place f ∧ b.place f < (k.stage + 1) * 65536 := by
  obtain ⟨i, hi, _, h⟩ := h
  have := h.place
  have hl := entries_le k
  rw [List.mem_range] at hi
  omega

/-- Each check holds exactly when what it asks does. -/
abbrev Agree (checks : List Bool) (asked : List Prop) : Prop := List.Forall₂ (fun (b : Bool) (p : Prop) => b = true ↔ p) checks asked

/-- A range of naturals. -/
theorem within_nat (lo hi n : Nat) : within lo hi n = true ↔ lo ≤ n ∧ n ≤ hi := by
  rw [within_iff]; omega

/-- A range from 0. -/
theorem within_zero (hi n : Nat) : within 0 hi n = true ↔ n ≤ hi := by
  rw [within_iff]; omega

/-- A reference within its range, or none. -/
theorem all_within_zero (hi : Nat) (o : Option Nat) : (o.all (fun n : Nat => within 0 hi n)) = true ↔ ∀ n, o = some n → n ≤ hi := by
  simp only [Option.all_eq_true, within_iff]
  constructor
  · intro h n hn; have := h n hn; omega
  · intro h n hn; have := h n hn; omega

/-- The Link Table (R142). -/
theorem link_agree (b : Bank) : Agree b.linkChecks (b.requirements .link 0) := by
  refine .cons (within_nat 4 32 _) (.cons (within_nat 1 4 _) (.cons ?_ (.cons ?_ (.cons (within_zero 62 _) (.cons (within_zero 63 _)
    (.cons (within_nat 1 15 _) .nil))))))
  · simp only [List.all_eq_true, within_iff]
    constructor
    · intro h k hk; have := h k hk; omega
    · intro h k hk; have := h k hk; omega
  · exact decide_eq_true_iff

/-- The Bank Parameters (R166). -/
theorem params_agree (b : Bank) : Agree b.paramsChecks (b.requirements .params 0) :=
  .cons (within_nat 4 100 _) (.cons (all_within_zero 63 _) (.cons (all_within_zero 63 _) .nil))

/-- The Station Table (R125). -/
theorem station_agree (b : Bank) (i : Nat) : Agree (b.stationChecks i) (b.requirements .station i) := by
  refine .cons (within_zero 62 _) (.cons bne_iff_ne (.cons ?_ (.cons ?_ (.cons ?_ (.cons ?_ (.cons (within_nat 10 2000 _)
    (.cons (within_nat 1 255 _) (.cons (within_zero 3 _) .nil))))))))
  · rw [lowerStation_iff]; simp only [beq_eq_false_iff_ne]
  · rw [within_iff]; omega
  · simp
  · rw [lowerStation_iff]; simp only [beq_eq_false_iff_ne]

/-- The Point Table (R108). -/
theorem point_agree (b : Bank) (i : Nat) : Agree (b.pointChecks i) (b.requirements .point i) := by
  refine .cons Iff.rfl (.cons (within_zero 23 _) (.cons (within_zero 60000 _) (.cons ?_ (.cons (by simp) (.cons ?_ (.cons ?_ (.cons ?_
    (.cons ?_ .nil))))))))
  · unfold PointEntry.enabled; exact bne_iff_ne
  · cases (b.point i).kind <;> simp
  · cases (b.point i).kind <;> simp [Option.all_eq_true, within_iff]
  · cases (b.point i).kind <;> simp
  · cases (b.point i).kind <;> simp
    omega

/-- The Action Table (R67). -/
theorem action_agree (b : Bank) (i : Nat) : Agree (b.actionChecks i) (b.requirements .action i) := by
  refine .cons (by simp) (.cons (within_zero 15 _) (.cons (binaryOrNone_iff b _) (.cons (within_nat 2 500 _) (.cons (within_nat 1 4 _)
    (.cons (all_within_zero 127 _) (.cons (chainEnds_iff b 8 i) .nil))))))

/-- The Shed Lists (R33). -/
theorem shed_agree (b : Bank) (i : Nat) (c : CandidateEntry) (h : b.candidate (i / 16) (i % 16) = some c) :
    Agree (b.shedChecks (i / 16) (i % 16) c) (b.requirements .shed i) := by
  simp only [Bank.requirements, h]
  refine .cons (within_zero 127 _) (.cons ?_ (.cons (isBinary_iff b _) (.cons ?_ (.cons (within_zero 60000 _) (.cons ?_ .nil)))))
  · exact Option.isSome_iff_ne_none
  · unfold Bank.analogPoint; exact beq_iff_eq
  · unfold Bank.headTaken; simp [Option.any_eq_false]

/-- The Scheme Table (R3). -/
theorem scheme_agree (b : Bank) (i : Nat) : Agree (b.schemeChecks i) (b.requirements .scheme i) := by
  refine .cons (by simp) (.cons ?_ (.cons ?_ (.cons ?_ (.cons decide_eq_true_iff (.cons (within_iff _ _ _) (.cons (within_nat 1 15 _)
    (.cons (within_nat 1 15 _) (.cons (within_nat 1 5000 _) (.cons (within_zero 3 _) (.cons (within_zero 1023 _) (.cons
        (within_zero 60000 _)
    (.cons (within_zero 60000 _) (.cons (all_within_zero 15 _) (.cons (within_zero 4 _) (.cons (binaryOrNone_iff b _)
    (.cons (within_zero 600 _) .nil))))))))))))))))
  · simp [Bank.analogPoint]
  · simp [within_iff]
  · simp only [levelFits, within_iff, Bool.and_eq_true, List.forall_mem_cons, and_assoc]
    simp

/-- The Contingency Table (R47). -/
theorem cont_agree (b : Bank) (i : Nat) : Agree (b.contChecks i) (b.requirements .contingency i) := by
  refine .cons (by simp) (.cons ?_ (.cons decide_eq_true_iff (.cons (within_nat 1 4 _) (.cons (within_nat 1 15 _)
    (.cons (within_zero 3 _) (.cons (all_within_zero 127 _) .nil))))))
  · simp [isBinary_iff]

/-- A table of one entry (R166). -/
theorem one_first (b : Bank) (k : TableKind) (he : k.entries = 1) (hx : b.Examined k 0) (checks : List Bool)
    (h : Agree checks (b.requirements k 0)) :
    IsFirst b.place (runChecks k 0 checks) (b.TableFails k) := by
  refine (runChecks_first h ?_).congr (fun f => ?_)
  · intro n m _ hnm hm
    obtain ⟨_, l2⟩ := requirements_length b k 0
    rw [place_plain b k 0 n (fun e => by have := l2 e; omega), place_plain b k 0 m (fun e => by have := l2 e; omega)]
    omega
  · unfold Bank.TableFails
    rw [he]
    constructor
    · intro h; exact ⟨0, by simp, hx, h⟩
    · rintro ⟨i, hi, _, h⟩
      have : i = 0 := by simpa using hi
      subst this; exact h

/-- A table of entries that may be disabled (R166). -/
theorem over_first (b : Bank) (k : TableKind) (x : Nat → Bool) (hx : ∀ i, x i = true ↔ b.Examined k i) (checks : Nat → List Bool)
    (h : ∀ i, Agree (checks i) (b.requirements k i)) : IsFirst b.place (overEntries k x checks) (b.TableFails k) := by
  refine table_first b k _ checks (fun i => ?_)
  by_cases hi : x i = true
  · left; exact ⟨(hx i).1 hi, by rw [if_pos hi], h i⟩
  · right; exact ⟨by rw [if_neg hi], fun f hf => hi ((hx i).2 hf.1)⟩

/-- The Shed Lists (R33, R166). -/
theorem shed_first (b : Bank) : IsFirst b.place b.shedFailure (b.TableFails .shed) := by
  refine table_first b .shed _ (fun i =>
    (b.candidate (i / 16) (i % 16)).elim [] (b.shedChecks (i / 16) (i % 16))) (fun i => ?_)
  cases hc : b.candidate (i / 16) (i % 16) with
  | none =>
    right
    refine ⟨by simp, fun f hf => ?_⟩
    obtain ⟨_, _, _, _, p, hp, _⟩ := hf
    simp [Bank.requirements, hc] at hp
  | some c => left; exact ⟨trivial, by simp, shed_agree b i c hc⟩

end Sys2Proof.Machine
end

