-- ==== Sys2Proof/Laws/Frames.lean ====
section
/-! SUPPORT. The station of a publication, the words of a TRIP frame, and a REPEATED_FRAME that carries a REQUEST. -/

namespace Sys2Proof.Machine

/-- The publishing station of an address (R129). -/
theorem stationOf_spec (s : State) (a : Address) :
      let holds := fun i => (s.active.station i).enable = true ∧ (s.active.station i).address = a.toNat
      (∀ i, s.stationOf a = some i ↔ i < 32 ∧ holds i ∧ ∀ j < i, ¬ holds j) ∧ (s.stationOf a = none ↔ ∀ i < 32, ¬ holds i) := by
  intro holds
  have hb : ∀ i, ((s.active.station i).enable && (s.active.station i).address == a.toNat) = true ↔ holds i := by
    intro i; simp [holds]
  have hn : ∀ i, (!((s.active.station i).enable && (s.active.station i).address == a.toNat)) = true ↔ ¬ holds i := by
    intro i; rw [← hb, Bool.not_eq_true', Bool.not_eq_true]
  unfold State.stationOf
  constructor
  · intro i
    rw [List.find?_range_eq_some]
    simp only [hb, hn, List.mem_range]
    constructor
    · rintro ⟨h1, h2, h3⟩; exact ⟨h2, h1, h3⟩
    · rintro ⟨h1, h2, h3⟩; exact ⟨h2, h1, h3⟩
  · rw [List.find?_range_eq_none]
    simp only [hn]

/-- Two words a command (R84). -/
theorem commandWords_length (l : List Entry) : (l.flatMap Entry.commandWords).length = 2 * l.length := by
  induction l with
  | nil => rfl
  | cons e l ih => simp only [List.flatMap_cons, List.length_append, ih, List.length_cons]; simp [Entry.commandWords]; omega

/-- Where the words of a command stand (R84). -/
theorem commandWords_getD : ∀ (l : List Entry) (i : Nat) (e : Entry), l[i]? = some e →
    (l.flatMap Entry.commandWords).getD (2 * i) 0 = packWord [(10, 6, e.destination), (6, 4, e.output), (4, 2, e.priority),
        (2, 2, e.sent)]
    ∧ (l.flatMap Entry.commandWords).getD (2 * i + 1) 0 = packWord [(8, 8, e.refs.min?.getD 0), (0, 7, e.action)]
  | x :: l, 0, e, h => by
    simp at h; subst h; exact ⟨rfl, rfl⟩
  | x :: l, i + 1, e, h => by
    have := commandWords_getD l i e (by simpa using h)
    have e1 : 2 * (i + 1) = 2 * i + 2 := by omega
    have e2 : 2 * (i + 1) + 1 = 2 * i + 1 + 2 := by omega
    rw [e2, e1]
    exact this

/-- The fields of the first word of a command (section 11.1). -/
theorem commandWord_first_fields (d o p n : Nat) (h1 : d < 64) (h2 : o < 16) (h3 : p < 4) (h4 : n < 4) :
    let w := packWord [(10, 6, d), (6, 4, o), (4, 2, p), (2, 2, n)]
    bits w 10 6 = d ∧ bits w 6 4 = o ∧ bits w 4 2 = p ∧ bits w 2 2 = n := by
  unfold packWord bits
  simp only [List.foldl_cons, List.foldl_nil, BitVec.toNat_ofNat, Nat.shiftLeft_eq, Nat.shiftRight_eq_div_pow]
  norm_num
  omega

/-- The fields of the second word of a command (section 11.1). -/
theorem commandWord_second_fields (r a : Nat) (h1 : r < 256) (h2 : a < 128) :
    let w := packWord [(8, 8, r), (0, 7, a)]
    bits w 0 7 = a ∧ bits w 8 8 = r := by
  unfold packWord bits
  simp only [List.foldl_cons, List.foldl_nil, BitVec.toNat_ofNat, Nat.shiftLeft_eq, Nat.shiftRight_eq_div_pow]
  norm_num
  omega

/-- An S outside 4..32 matches no port (R145). -/
theorem markerMatches_outOfRange {s : State} {side : Side} {n : Nat} (h : n < 4 ∨ 32 < n) : s.markerMatches side n = false := by
  unfold State.markerMatches
  cases s.slotsOf side with
  | none => rcases h with h | h <;> simp <;> intros <;> omega
  | some m => simp; intros; omega

/-- A REPEATED_FRAME that carries a REQUEST hands it to the agent (R149). -/
theorem exec_repeatedFrame_request (s : State) (rx : Reception) (code tag : Byte) (args : List Word) :
    exec (.repeatedFrame rx 3 (requestPayload code tag args)) s = running s
        (fun s => s.receiveRequest rx code tag args State.execute) := by
  show running s (fun s => s.receiveGood rx 3 (requestPayload code tag args) (fun _ s => s.handPayload rx
      (requestPayload code tag args))) = _
  congr 1
  funext s
  unfold State.receiveRequest
  congr 1
  funext _ s
  unfold State.handPayload requestPayload
  have e1 : (code ++ tag : Word).extractLsb' 8 8 = code := by
    apply BitVec.eq_of_toNat_eq
    rw [BitVec.extractLsb'_toNat]
    have := bits_append_hi code tag
    unfold bits at this
    rw [this]
  have e2 : (code ++ tag : Word).extractLsb' 0 8 = tag := by
    apply BitVec.eq_of_toNat_eq
    rw [BitVec.extractLsb'_toNat]
    have := bits_append_lo code tag
    unfold bits at this
    rw [this]
  simp only [List.isEmpty_cons, Bool.false_eq_true, if_false, State.requestWord, e1, e2, List.drop_one, List.tail_cons, List.length_cons]
  rfl

/-- A command that brings a good frame other than a valid MARKER is the reception of that frame; REQUEST_LOST with the holder empty is no
event. -/
theorem exec_frame {c : Instr} {s : State} {rx : Reception} {kind : BitVec 4} {payload : List Word} (h : s.held = false)
    (hc : c.frame = some (rx, kind, payload)) (hk : kind ≠ 0 ∨ payload.length ≠ 1) :
    (c = .requestLost rx payload ∧ s.agent.holder = none ∧ exec c s = .next s.quiet)
      ∨ ∃ f, exec c s = .next (s.quiet.receiveGood rx kind payload f) := by
  have req : ∀ v : RequestView, c.request = some v → c.frame = c.request.map (fun v => (v.rx, 3, requestPayload v.code v.tag v.args)) →
      ∃ f, exec c s = .next (s.quiet.receiveGood rx kind payload f) := by
    intro v hv he
    obtain ⟨body, hb, _⟩ := exec_request hv
    rw [he, hv] at hc
    simp only [Option.map_some, Option.some.injEq, Prod.mk.injEq] at hc
    obtain ⟨rfl, rfl, rfl⟩ := hc
    exact ⟨_, by rw [hb, running_next h]; rfl⟩
  cases hv : c.request with
  | some v =>
    refine .inr (req v hv ?_)
    cases c <;> first | rfl | (simp only [Instr.request, reduceCtorEq] at hv)
  | none =>
    cases c
    case marker => simp only [Instr.frame, Option.some.injEq, Prod.mk.injEq] at hc; obtain ⟨rfl, rfl, rfl⟩ := hc; simp at hk
    case publish =>
      simp only [Instr.frame, Option.some.injEq, Prod.mk.injEq] at hc; obtain ⟨rfl, rfl, rfl⟩ := hc
      exact .inr ⟨_, by simp only [exec, execPublish]; rw [running_next h]⟩
    case requestLost =>
      simp only [Instr.frame, Option.some.injEq, Prod.mk.injEq] at hc; obtain ⟨rfl, rfl, rfl⟩ := hc
      simp only [exec, execRequestLost]
      rw [running_next h]
      cases hh : s.agent.holder with
      | none =>
        have : s.quiet.agent.holder = none := hh
        exact .inl ⟨trivial, by simp, by rw [this]; rfl⟩
      | some _ =>
        have : s.quiet.agent.holder.isSome = true := by show s.agent.holder.isSome = true; rw [hh]; rfl
        exact .inr ⟨_, by rw [if_pos this]⟩
    case unknownRequest =>
      simp only [Instr.frame, Option.some.injEq, Prod.mk.injEq] at hc; obtain ⟨rfl, rfl, rfl⟩ := hc
      exact .inr ⟨_, by simp only [exec, execUnknownRequest]; rw [running_next h]; rfl⟩
    case repeatedFrame =>
      simp only [Instr.frame, Option.some.injEq, Prod.mk.injEq] at hc; obtain ⟨rfl, rfl, rfl⟩ := hc
      refine .inr ?_
      simp only [exec, execRepeatedFrame]
      rw [running_next h]
      split
      · rename_i hz
        exact absurd (BitVec.eq_of_toNat_eq hz) (hk.resolve_right (by simp))
      all_goals exact ⟨_, rfl⟩
    case readCounters rx' tag first extra => cases first <;> simp [Instr.request] at hv
    all_goals first
      | (simp only [Instr.request, reduceCtorEq] at hv; done)
      | (simp only [Instr.frame, Instr.request, Option.map_none, reduceCtorEq] at hc)

/-- A good frame on a port that is not LOCKED does nothing (R149). -/
theorem receiveGood_unlocked {s : State} {rx : Reception} (h : (s.port rx.port).state ≠ .locked) (kind payload f) :
    s.receiveGood rx kind payload f = s := by
  unfold State.receiveGood; rw [if_neg h]

/-- A good frame in a slot of a LOCKED port (R149). -/
theorem receiveGood_inSlot {s : State} {rx : Reception} {payload : List Word} {slot : Nat} (h : (s.port rx.port).state = .locked)
    (hs : s.slotAt rx.port rx.start = some slot) (hl : payload.length ≤ 24) (kind f) :
    s.receiveGood rx kind payload f = s.goodInSlot rx kind payload slot (f slot) := by
  unfold State.receiveGood
  rw [if_pos h, hs]
  simp only
  rw [if_pos hl]

/-- A good frame off a slot of a LOCKED port is a framing error (R140, R148). -/
theorem receiveGood_offSlot {s : State} {rx : Reception} (h : (s.port rx.port).state = .locked) (hs : s.slotAt rx.port rx.start = none)
    (kind payload f) : s.receiveGood rx kind payload f = s.offSlot rx.port rx.start (receivedWords rx kind payload) := by
  unfold State.receiveGood
  rw [if_pos h, hs]

/-- A command whose frame arrives brings a damaged frame or a good one. -/
theorem arrival_cases (c : Instr) (side start words) (hc : c.arrival = some (side, start, words)) :
    (∃ whole, c = .damagedFrame side start whole words) ∨ ∃ rx kind payload, c.frame = some (rx, kind, payload)
      ∧ side = rx.port ∧ start = rx.start ∧ words = receivedWords rx kind payload := by
  by_cases hd : ∃ a b w d, c = .damagedFrame a b w d
  · obtain ⟨a, b, w, d, rfl⟩ := hd
    simp only [Instr.arrival, Option.some.injEq, Prod.mk.injEq] at hc
    obtain ⟨rfl, rfl, rfl⟩ := hc
    exact .inl ⟨w, rfl⟩
  · right
    have : c.arrival = c.frame.map (fun f => (f.1.port, f.1.start, receivedWords f.1 f.2.1 f.2.2)) := by
      cases c <;> first | rfl | exact absurd ⟨_, _, _, _, rfl⟩ hd
    rw [this, Option.map_eq_some_iff] at hc
    obtain ⟨⟨rx, kind, payload⟩, h1, h2⟩ := hc
    simp only [Prod.mk.injEq] at h2
    obtain ⟨rfl, rfl, rfl⟩ := h2
    exact ⟨rx, kind, payload, h1, rfl, rfl, rfl⟩

/-- A good frame that is a valid MARKER is brought by MARKER, or by REPEATED_FRAME with the same effect (log 13). -/
theorem frame_marker {c : Instr} {rx payload} (hc : c.frame = some (rx, 0, payload)) (hl : payload.length = 1) :
    ∃ w, payload = [w] ∧ (c = .marker rx w ∨ c = .repeatedFrame rx 0 [w]) := by
  obtain ⟨w, rfl⟩ := List.length_eq_one_iff.1 hl
  refine ⟨w, rfl, ?_⟩
  cases c
  case marker => simp [Instr.frame] at hc; left; rw [hc.1, hc.2]
  case repeatedFrame => simp [Instr.frame] at hc; right; rw [hc.1, hc.2.1, hc.2.2]; rfl
  case publish => simp [Instr.frame] at hc
  case requestLost => simp [Instr.frame] at hc
  case unknownRequest => simp [Instr.frame] at hc
  case readCounters _ _ first _ => cases first <;> simp [Instr.frame, Instr.request] at hc
  all_goals (simp [Instr.frame, Instr.request] at hc)

/-- A good frame that is stripped, or counted in SLOT_CONFLICT (R149). -/
theorem goodInSlot_turned {s : State} {rx : Reception} {kind : BitVec 4} {payload : List Word} {slot : Nat} (f) :
    (rx.source.toNat = s.partAddress → s.goodInSlot rx kind payload slot f = s)
    ∧ (rx.source.toNat ≠ s.partAddress → s.ownSlots.contains slot = true →
      s.goodInSlot rx kind payload slot f = s.countPort rx.port (fun c => { c with slotConflict := satInc c.slotConflict })) := by
  refine ⟨fun hs => ?_, fun hs ho => ?_⟩
  · have : s.passage rx.source slot = .stripped := by unfold State.passage; rw [if_pos hs]
    unfold State.goodInSlot; rw [this]
  · have : s.passage rx.source slot = .conflict := by unfold State.passage; rw [if_neg hs, if_pos ho]
    unfold State.goodInSlot; rw [this]

/-- Whether a frame with a framing error is repeated, after it has been counted (R148). -/
theorem passes_counted {s : State} {side : Side} {slot : Nat} {b : Bool} (ho : s.ownSlots.contains slot = b) : ∀ f,
    (s.quiet.countPort side f).passes (some slot) = !b := by
  intro f
  unfold State.passes
  have : (s.quiet.countPort side f).ownSlots = s.ownSlots := by
    unfold State.ownSlots State.countPort State.setPort State.timingPort
    generalize hq : ({ s.quiet.port side with counters := f (s.quiet.port side).counters } : PortRec) = q
    have hp : ∀ x, ((s.quiet.setLink (s.quiet.link.setPort side q)).port x).adoptedS = (s.port x).adoptedS := by
      subst hq; intro x; cases side <;> cases x <;> rfl
    have ht : (s.quiet.setLink (s.quiet.link.setPort side q)).link.timingPort = s.link.timingPort := by
      subst hq; cases side <;> rfl
    rw [ht]
    simp only [hp]
    rfl
  simp only [this, ho]

/-- The check register, bit by bit over all words sent (R182). -/
theorem checkRegister_bits (words : List Word) : checkRegister words =
    (words.flatMap (fun w => (List.range 16).map (fun i => w.getLsbD (15 - i)))).foldl
      (fun (r : Word) b => if r.getLsbD 15 = b then r <<< 1 else (r <<< 1) ^^^ 0x3D65) 0 := by
  have hb : ∀ (r : Word) b, checkBit r b = if r.getLsbD 15 = b then r <<< 1 else (r <<< 1) ^^^ 0x3D65 := by
    intro r b
    unfold checkBit
    have : r.msb = r.getLsbD 15 := rfl
    rw [this]
    cases r.getLsbD 15 <;> cases b <;> rfl
  have hw : ∀ (r w : Word), checkStep r w = ((List.range 16).map (fun i => w.getLsbD (15 - i))).foldl
      (fun (r : Word) b => if r.getLsbD 15 = b then r <<< 1 else (r <<< 1) ^^^ 0x3D65) r := by
    intro r w
    unfold checkStep
    simp only [← hb]
    rfl
  unfold checkRegister
  generalize (0 : Word) = r
  induction words generalizing r with
  | nil => rfl
  | cons w l ih => rw [List.foldl_cons, ih, hw, List.flatMap_cons, List.foldl_append]

end Sys2Proof.Machine
end

