-- ==== Sys2Proof/Laws/Operations.lean ====
section
/-! SUPPORT. What the shared operations of a service do, each said once: takes, hand-ins, ids, finishing, closures. -/

namespace Sys2Proof.Machine

/-- An inserted operation makes the table one longer. -/
theorem insertOp_length (op : Operation) (l : List Operation) : (insertOp op l).length = l.length + 1 := by
  induction l with
  | nil => rfl
  | cons x l ih => simp only [insertOp]; split <;> simp [ih]

/-- The schemes of a list that are ARMED, with their records (R70). -/
theorem mem_armedOf (s : State) (l : List Nat) (i : Nat) (r : SelRecord) :
    (⟨i, r⟩ : SchemeCopy) ∈ s.armedOf l ↔ i ∈ l ∧ (s.scheme i).state = .armed ∧ (s.scheme i).selection = some r := by
  unfold State.armedOf
  rw [List.mem_filterMap]
  constructor
  · rintro ⟨j, hj, h⟩
    split at h
    · rename_i h'
      cases hs : (s.scheme j).selection with
      | none => rw [hs] at h; cases h
      | some r' => rw [hs] at h; simp at h; obtain ⟨rfl, rfl⟩ := h; exact ⟨hj, h', hs⟩
    · cases h
  · rintro ⟨h1, h2, h3⟩
    exact ⟨i, h1, by simp [h2, h3]⟩

/-- The schemes of a contingency's mask. -/
theorem mem_schemes (e : ContEntry) (i : Nat) : i ∈ e.schemes ↔ i < 16 ∧ bit e.mask i = true := by
  simp [ContEntry.schemes]

/-- The ARMED schemes of an ascending list come in ascending order (R43, R70). -/
theorem armedOf_pairwise (s : State) (l : List Nat) (h : l.Pairwise (· < ·)) : (s.armedOf l).Pairwise
    (fun x y => x.scheme < y.scheme) := by
  unfold State.armedOf
  rw [List.pairwise_filterMap]
  refine h.imp ?_
  intro a b hab x hx y hy
  have key : ∀ c z, (if (s.scheme c).state = .armed then (s.scheme c).selection.map (fun r => (⟨c,
      r⟩ : SchemeCopy)) else none) = some z → z.scheme = c := by
    intro c z hz
    split at hz
    · rw [Option.map_eq_some_iff] at hz
      obtain ⟨r, _, rfl⟩ := hz; rfl
    · cases hz
  rw [key a x hx, key b y hy]; exact hab

/-- A scheme mask is read in ascending index. -/
theorem schemes_pairwise (e : ContEntry) : e.schemes.Pairwise (· < ·) := List.Pairwise.filter _ List.pairwise_lt_range

/-- A chain starts at its head, goes on by next, and ends after `n` actions at the latest (R66). -/
theorem chainFrom_spec (b : Bank) : ∀ n h, (b.chainFrom n h).length ≤ n ∧ (0 < n → (b.chainFrom n h)[0]? = some h)
    ∧ ∀ k a, (b.chainFrom n h)[k]? = some a → k + 1 < n → (b.chainFrom n h)[k + 1]? = (b.action a).next := by
  intro n
  induction n with
  | zero => intro h; simp [Bank.chainFrom]
  | succ n ih =>
    intro h
    unfold Bank.chainFrom
    cases hn : (b.action h).next with
    | none =>
      refine ⟨by simp, by simp, ?_⟩
      intro k a ha hk
      cases k with
      | zero => simp at ha; subst ha; simp [hn]
      | succ k => simp at ha
    | some x =>
      obtain ⟨h1, h2, h3⟩ := ih x
      refine ⟨by simp; omega, by simp, ?_⟩
      intro k a ha hk
      cases k with
      | zero =>
        simp at ha; subst ha
        simp only [Nat.zero_add, List.getElem?_cons_succ]
        rw [h2 (by omega), hn]
      | succ k =>
        simp only [List.getElem?_cons_succ] at ha ⊢
        exact h3 k a ha (by omega)

/-- What a copy of an ARMED scheme says of it. -/
theorem armedOf_scheme_mem (s : State) (l : List Nat) (t : SchemeCopy) (h : t ∈ s.armedOf l) :
   t.scheme ∈ l ∧ (s.scheme t.scheme).state = .armed ∧ (s.scheme t.scheme).selection = some t.record := by
  exact (mem_armedOf s l t.scheme t.record).1 h

/-- Taking schemes changes scheme records alone. -/
theorem takeSchemes_eq (taken : List SchemeCopy) : ∀ s : State, s.takeSchemes taken =
    { s with arming := { s.arming with schemes := (s.takeSchemes taken).arming.schemes } } := by
  induction taken with
  | nil => intro s; rfl
  | cons x l ih =>
    intro s
    have h : s.takeSchemes (x :: l) = (s.updScheme x.scheme (fun r => r.calm .operating)).takeSchemes l := rfl
    rw [h]
    conv_lhs => rw [ih]
    rfl

/-- Counts cleared twice are cleared. -/
theorem calm_calm (r : SchemeRec) (x : SchemeState) : (r.calm x).calm x = r.calm x := rfl

/-- What taking schemes leaves in each scheme (R21). -/
theorem takeSchemes_scheme (taken : List SchemeCopy) : ∀ (s : State) (i : Nat), i < s.arming.schemes.length →
    (s.takeSchemes taken).scheme i = if (∃ t ∈ taken, t.scheme = i) then (s.scheme i).calm .operating else s.scheme i := by
  induction taken with
  | nil => intro s i _; simp [State.takeSchemes]
  | cons x l ih =>
    intro s i hi
    have h : s.takeSchemes (x :: l) = (s.updScheme x.scheme (fun r => r.calm .operating)).takeSchemes l := rfl
    rw [h, ih]
    · by_cases hx : x.scheme = i
      · subst hx
        have : (s.updScheme x.scheme (fun r => r.calm .operating)).scheme x.scheme = (s.scheme x.scheme).calm .operating :=
          getD_modify_self _ _ hi _ _
        rw [this]; simp [calm_calm]
      · have : (s.updScheme x.scheme (fun r => r.calm .operating)).scheme i = s.scheme i :=
          getD_modify_ne _ _ _ hx _ _
        rw [this]; simp [hx]
    · simpa [State.updScheme] using hi

/-- Taking schemes keeps their number. -/
theorem takeSchemes_length (taken : List SchemeCopy) (s : State) : (s.takeSchemes taken).arming.schemes.length =
    s.arming.schemes.length :=
  foldl_keeps (fun s : State => s.arming.schemes.length) (fun s t => by simp [State.updScheme]) taken s

/-- A new operation id is not 0. -/
theorem newId_pos (s : State) : 1 ≤ s.newId := by
  have h : ∀ l n id, 1 ≤ id → 1 ≤ freeId l n id := by
    intro l n
    induction n with
    | zero => intro id h; exact h
    | succ n ih =>
      intro id h
      simp only [freeId]
      split
      · apply ih; unfold nextId; split <;> omega
      · exact h
  apply h; unfold nextId; split <;> omega

/-- Work has id 0 exactly when 8 operations are open (R71). -/
theorem workId_zero (s : State) : s.workId = 0 ↔ 8 ≤ s.tracker.ops.length := by
  unfold State.workId State.canTrack
  have := newId_pos s
  split
  · rename_i h; simp at h; omega
  · rename_i h; simp at h; omega

/-- What hand-ins leave alone. -/
structure HandKeeps where
  states : List (SchemeState × Option SelRecord × Option Time × Nat × Nat × Nat)
  log : LogState
  monitor : MonitorState
  engine : Option Snapshot
  lastId : Nat
  ids : List (Nat × Nat × OpPhase)
  untracked : Bool
  gate : Bool
  len : Nat

/-- The features of a state that hand-ins leave alone. -/
def State.handKeeps (s : State) : HandKeeps := 
  ⟨s.arming.schemes.map (fun r => (r.state, r.selection, r.resetTimer, r.armCount, r.disarmCount,
    r.stress)), s.log, s.monitor, s.engine, s.tracker.lastId,
  s.tracker.ops.map (fun o => (o.id, o.contingency, o.phase)), s.notices.untrackedOperation, s.arming.gateOpen,
      s.arming.schemes.length⟩

/-- A latched request keeps them. -/
theorem handKeeps_latchHardTrip (s : State) (i : Nat) : State.handKeeps (s.latchHardTrip i) = State.handKeeps s := by
  unfold State.latchHardTrip
  split
  · simp only [State.handKeeps, State.updScheme, State.setArming]
    rw [map_modify_keep (fun r : SchemeRec => (r.state, r.selection, r.resetTimer, r.armCount, r.disarmCount, r.stress))
        (fun r => { r with hardTrip := true }) (fun a => rfl)]
    simp
  · rfl

/-- Recording a hand-in keeps an operation's id, contingency and phase. -/
theorem record_id (op : Operation) (n : Node) (o : HandOutcome) : (op.record n o).id = op.id
    ∧ (op.record n o).contingency = op.contingency ∧ (op.record n o).phase = op.phase := by
  unfold Operation.record
  dsimp only
  split <;> exact ⟨rfl, rfl, rfl⟩

/-- A hand-in keeps them. -/
theorem handKeeps_handIn (id p : Nat) (taken : List Nat) (s : State) (n : Node) :
    (State.handIn id p taken s n).handKeeps = s.handKeeps := by
  have h1 : ∀ o, State.handKeeps (s.applyHand id p taken n o) = State.handKeeps s := by
    intro o
    cases o with
    | dropped =>
      simp only [State.applyHand]
      unfold State.latchDropped
      split
      · exact (handKeeps_latchHardTrip _ _).trans rfl
      · exact (foldl_keeps State.handKeeps handKeeps_latchHardTrip taken _).trans rfl
    | _ => rfl
  unfold State.handIn
  dsimp only
  split
  · exact h1 _
  · rw [← h1 (s.handOutcome id n.action)]
    simp only [State.handKeeps, State.updOp, State.setTracker, List.map_map]
    congr 1
    apply List.map_congr_left
    intro o _
    simp only [Function.comp]
    split
    · have := record_id o n (s.handOutcome id n.action); rw [this.1, this.2.1, this.2.2]
    · rfl

/-- A list of hand-ins keeps them. -/
theorem handKeeps_handIns (id p : Nat) (taken : List Nat) (l : List Node) (s : State) :
    (l.foldl (State.handIn id p taken) s).handKeeps = s.handKeeps :=
  foldl_keeps State.handKeeps (fun s n => handKeeps_handIn id p taken s n) l s

/-- So every scheme keeps its state. -/
theorem handKeeps_state {s t : State} (h : t.handKeeps = s.handKeeps) (i : Nat) (hi : i < s.arming.schemes.length) :
    (t.scheme i).state =
    (s.scheme i).state := by
  have h1 := congrArg HandKeeps.states h
  have h2 := congrArg HandKeeps.len h
  simp only [State.handKeeps] at h1 h2
  have := congrArg (fun l => l[i]?) h1
  simp only [List.getElem?_map] at this
  simp only [State.scheme, List.getD]
  rw [List.getElem?_eq_getElem hi, List.getElem?_eq_getElem (by omega)] at this ⊢
  simp at this
  simp [this.1]

/-- The outstanding count after a hand-in (R90). -/
theorem record_outstanding (op : Operation) (n : Node) (o : HandOutcome) : (op.record n o).outstanding =
    op.outstanding + o.counts := by
  unfold Operation.record; dsimp only; split <;> rfl

/-- OVERFLOW after a hand-in (R79). -/
theorem record_overflow (op : Operation) (n : Node) (o : HandOutcome) : (op.record n o).overflow =
    (op.overflow || o == HandOutcome.dropped) := by
  unfold Operation.record; dsimp only; split <;> rfl

/-- What ending the work of a list of schemes does (R22). -/
theorem endWork_spec (l : List Nat) : ∀ (s : State), (∀ i ∈ l, i < s.arming.schemes.length) →
   let t := l.foldl State.endWork s
   t = { s with arming := { s.arming with schemes := t.arming.schemes } } ∧ t.arming.schemes.length = s.arming.schemes.length ∧
   ∀ i < s.arming.schemes.length, t.scheme i = if i ∈ l ∧ (s.scheme i).state = .operating then { s.scheme i with
    state := .operated
    resetTimer := if (s.active.scheme i).resetDelay = 0 then none else some (s.after ((s.active.scheme i).resetDelay * 1000))
        } else s.scheme i := by
  induction l with
  | nil => intro s _; exact ⟨rfl, rfl, fun i _ => by simp⟩
  | cons x l ih =>
    intro s hl
    simp only [List.foldl_cons]
    have e0 : s.endWork x = { s with arming := { s.arming with schemes := (s.endWork x).arming.schemes } } := by
      unfold State.endWork; split <;> rfl
    have e1 : (s.endWork x).arming.schemes.length = s.arming.schemes.length := by
      unfold State.endWork; split
      · simp [State.toOperated, State.updScheme]
      · rfl
    obtain ⟨a, b, c⟩ := ih (s.endWork x) (by rw [e1]; intro i hi; exact hl i (List.mem_cons_of_mem _ hi))
    have hx := hl x List.mem_cons_self
    have hs : ∀ i, (s.endWork x).scheme i = if i = x ∧ (s.scheme i).state = .operating then { s.scheme i with
        state := .operated
        resetTimer := if (s.active.scheme i).resetDelay = 0 then none else some (s.after ((s.active.scheme i).resetDelay * 1000))
            } else s.scheme i := by
      intro i
      unfold State.endWork
      by_cases hi : i = x
      · subst hi
        by_cases ho : (s.scheme i).state = .operating
        · rw [if_pos ho, if_pos ⟨rfl, ho⟩]
          exact getD_modify_self _ _ hx _ _
        · rw [if_neg ho, if_neg (fun h => ho h.2)]
      · by_cases ho' : (s.scheme x).state = .operating
        · rw [if_pos ho', if_neg (fun h => hi h.1)]
          exact getD_modify_ne _ _ _ (Ne.symm hi) _ _
        · rw [if_neg ho', if_neg (fun h => hi h.1)]
    refine ⟨?_, b.trans e1, fun i hi => ?_⟩
    · generalize List.foldl State.endWork (s.endWork x) l = t at a
      rw [a]
      generalize s.endWork x = u at e0
      rw [e0]
    · rw [c i (by rw [e1]; exact hi), hs]
      have ha : (s.endWork x).active = s.active := by rw [e0]; rfl
      have hb : (s.endWork x).after = s.after := by rw [e0]; rfl
      rw [ha, hb]
      by_cases ho : (s.scheme i).state = .operating
      · by_cases hix : i = x
        · subst hix; simp [ho]
        · by_cases hil : i ∈ l <;> simp [hix, ho, hil]
      · simp [ho]

/-- What latching a list of schemes does (R19). -/
theorem latchHardTrip_spec (l : List Nat) : ∀ s : State, let t := l.foldl State.latchHardTrip s
    t = { s with arming := { s.arming with schemes := t.arming.schemes } } ∧ t.arming.schemes.length = s.arming.schemes.length
    ∧ ∀ i < s.arming.schemes.length, t.scheme i = if i ∈ l ∧ (s.active.scheme i).hardTripEnable =
        true then { s.scheme i with hardTrip := true } else s.scheme i := by
  induction l with
  | nil => intro s; exact ⟨rfl, rfl, fun i _ => by simp⟩
  | cons x l ih =>
    intro s
    simp only [List.foldl_cons]
    have e0 : s.latchHardTrip x = { s with arming := { s.arming with schemes := (s.latchHardTrip x).arming.schemes } } := by
      unfold State.latchHardTrip; split <;> rfl
    have e1 : (s.latchHardTrip x).arming.schemes.length = s.arming.schemes.length := by
      unfold State.latchHardTrip; split
      · simp [State.updScheme]
      · rfl
    obtain ⟨a, b, c⟩ := ih (s.latchHardTrip x)
    have hs : ∀ i < s.arming.schemes.length, (s.latchHardTrip x).scheme i = if i = x
        ∧ (s.active.scheme i).hardTripEnable = true then { s.scheme i with hardTrip := true } else s.scheme i := by
      intro i hl
      unfold State.latchHardTrip
      by_cases hi : i = x
      · subst hi
        by_cases ho : (s.active.scheme i).hardTripEnable = true
        · rw [if_pos ho, if_pos ⟨rfl, ho⟩]
          exact getD_modify_self _ _ hl _ _
        · rw [if_neg ho, if_neg (fun h => ho h.2)]
      · by_cases ho' : (s.active.scheme x).hardTripEnable = true
        · rw [if_pos ho', if_neg (fun h => hi h.1)]
          exact getD_modify_ne _ _ _ (Ne.symm hi) _ _
        · rw [if_neg ho', if_neg (fun h => hi h.1)]
    refine ⟨?_, b.trans e1, fun i hi => ?_⟩
    · generalize List.foldl State.latchHardTrip (s.latchHardTrip x) l = t at a
      rw [a]
      generalize s.latchHardTrip x = u at e0
      rw [e0]
    · rw [c i (by rw [e1]; exact hi), hs i hi]
      have ha : (s.latchHardTrip x).active = s.active := by rw [e0]; rfl
      rw [ha]
      by_cases ho : (s.active.scheme i).hardTripEnable = true
      · by_cases hix : i = x
        · subst hix; simp [ho]
        · by_cases hil : i ∈ l <;> simp [hix, ho, hil]
      · simp [ho]

/-- The id `k` places further in the cycle (R88). -/
def iterId : Nat → Nat → Nat
  | 0, id => id
  | k+1, id => iterId k (nextId id)

/-- The cycle of ids in closed form. -/
theorem iterId_eq (k : Nat) : ∀ id, 1 ≤ id → id ≤ 255 → iterId k id = (id - 1 + k) % 255 + 1 := by
  induction k with
  | zero => intro id h1 h2; simp [iterId]; omega
  | succ k ih =>
    intro id h1 h2
    simp only [iterId]
    unfold nextId
    split
    · rw [ih 1 (by omega) (by omega)]; omega
    · rw [ih _ (by omega) (by omega)]; congr 2; omega

/-- A search that ends at an open id has met only open ids. -/
theorem freeId_mem (l : List Nat) (n : Nat) : ∀ id, freeId l n id ∈ l → ∀ k ≤ n, iterId k id ∈ l := by
  induction n with
  | zero => intro id h k State.handKeeps; have : k = 0 := by omega
            subst this; exact h
  | succ n ih =>
    intro id h k State.handKeeps
    simp only [freeId] at h
    split at h
    · rename_i hc
      cases k with
      | zero => exact by simpa [iterId] using hc
      | succ k => exact ih _ h k (by omega)
    · rename_i hc; simp at hc; exact absurd h hc

/-- The search keeps to 1..255. -/
theorem freeId_range (l : List Nat) (n : Nat) :
    ∀ id, 1 ≤ id → id ≤ 255 → 1 ≤ freeId l n id ∧ freeId l n id ≤ 255 := by
  induction n with
  | zero => intro id h h'; exact ⟨h, h'⟩
  | succ n ih =>
    intro id h h'
    simp only [freeId]
    split
    · apply ih <;> (unfold nextId; split <;> omega)
    · exact ⟨h, h'⟩

/-- The search for a free id stops at the first that is not open (R88). -/
theorem freeId_first (l : List Nat) (n : Nat) : ∀ id, ∃ d ≤ n, freeId l n id = iterId d id ∧ ∀ j < d, iterId j id ∈ l := by
  induction n with
  | zero => intro id; exact ⟨0, le_refl _, rfl, fun j hj => absurd hj (Nat.not_lt_zero _)⟩
  | succ n ih =>
    intro id
    simp only [freeId]
    split
    · rename_i hc
      obtain ⟨d, h1, h2, h3⟩ := ih (nextId id)
      refine ⟨d + 1, by omega, h2, fun j hj => ?_⟩
      cases j with
      | zero => simpa [iterId] using hc
      | succ j => exact h3 j (by omega)
    · exact ⟨0, by omega, rfl, fun j hj => absurd hj (Nat.not_lt_zero _)⟩

/-- A new id is not open (R88). -/
theorem newId_fresh (s : State) (h : s.tracker.ops.length < 8) (hl : s.tracker.lastId ≤ 255) :
    s.newId ∉ s.tracker.ops.map Operation.id := by
  intro hm
  unfold State.newId at hm
  have hn1 : 1 ≤ nextId s.tracker.lastId ∧ nextId s.tracker.lastId ≤ 255 := by unfold nextId; split <;> omega
  have := freeId_mem _ _ _ hm
  have hnd : ((List.range 10).map (fun k => iterId k (nextId s.tracker.lastId))).Nodup := by
    rw [List.nodup_map_iff_inj_on List.nodup_range]
    intro x hx y hy he
    rw [List.mem_range] at hx hy
    rw [iterId_eq _ _ hn1.1 hn1.2, iterId_eq _ _ hn1.1 hn1.2] at he
    omega
  have hsub : ((List.range 10).map (fun k => iterId k (nextId s.tracker.lastId))) ⊆ s.tracker.ops.map Operation.id := by
    intro x hx
    rw [List.mem_map] at hx
    obtain ⟨k, State.handKeeps, rfl⟩ := hx
    rw [List.mem_range] at State.handKeeps
    exact this k (by omega)
  have := (List.Nodup.subperm hnd hsub).length_le
  simp at this
  omega

/-- A participation that latches at closure (R101). -/
theorem isShort_iff (p : Participation) : p.isShort = true ↔ ∃ x, p.taken = some x ∧ x.closeOutcome ≠ .covered := by
  unfold Participation.isShort
  cases p.taken <;> simp

/-- When an operation is COMPLETE (R101). -/
theorem outcome_iff (op : Operation) : op.outcome = .complete ↔
    (∀ p ∈ op.parts, ∀ x, p.taken = some x → x.closeOutcome = .covered)
      ∧ ∀ d ∈ op.direct, d.status ≠ .expired ∧ d.status ≠ .dropped := by
  unfold Operation.outcome
  split
  · rename_i h
    simp only [reduceCtorEq, false_iff]
    rintro ⟨h1, h2⟩
    simp only [Bool.or_eq_true, List.any_eq_true, isShort_iff, beq_iff_eq] at h
    rcases h with ⟨p, hp, x, hx, hc⟩ | ⟨d, hd, hc⟩
    · exact hc (h1 p hp x hx)
    · rcases hc with hc | hc
      · exact (h2 d hd).1 hc
      · exact (h2 d hd).2 hc
  · rename_i h
    simp only [true_iff]
    simp only [Bool.or_eq_true, List.any_eq_true, isShort_iff, beq_iff_eq, not_or, not_exists, not_and, not_not] at h
    exact ⟨h.1, fun d hd => h.2 d hd⟩

/-- The log after a closure (R101, R178). -/
def State.closureLog (s : State) (op : Operation) : LogState :=
  { records := (⟨{ op with parts := op.parts.map Participation.close }, op.outcome, s.timeBase, s.cycleNumber, s.log.nextSeq⟩
      :: s.log.records).take 32
    nextSeq := s.log.nextSeq + 1 }

/-- Everything a closure does (R101). -/
theorem closeOp_spec (s : State) (op : Operation) (hp : ∀ p ∈ op.parts, p.taken.isSome = true →
    p.scheme < s.arming.schemes.length) :
   let t := s.closeOp op
   t = { s with
      arming := { s.arming with schemes := t.arming.schemes }
      log := t.log
      tracker := { s.tracker with ops := s.tracker.ops.filter (fun o => o.id != op.id) } }
   ∧ t.log = s.closureLog op
   ∧ t.arming.schemes.length = s.arming.schemes.length
   ∧ ∀ i < s.arming.schemes.length, t.scheme i =
      (let r := if i ∈ (op.parts.filter Participation.isShort).map Participation.scheme
          ∧ (s.active.scheme i).hardTripEnable = true then { s.scheme i with hardTrip := true } else s.scheme i
      if i ∈ (op.parts.filter (fun p => p.taken.isSome)).map Participation.scheme ∧ (s.scheme i).state = .operating then
       { r with
        state := .operated
        resetTimer := if (s.active.scheme i).resetDelay = 0 then none else some (s.after ((s.active.scheme i).resetDelay * 1000))
            } else r) := by
  dsimp only
  have e1 : (op.parts.filter Participation.isShort).foldl (fun s p => s.latchHardTrip p.scheme) s =
      ((op.parts.filter Participation.isShort).map Participation.scheme).foldl State.latchHardTrip s := by
    rw [List.foldl_map]
  have e2 : ∀ s, (op.parts.filter (fun p => p.taken.isSome)).foldl (fun s p => s.endWork p.scheme) s =
      ((op.parts.filter (fun p => p.taken.isSome)).map Participation.scheme).foldl State.endWork s := by
    intro s; rw [List.foldl_map]
  unfold State.closeOp
  dsimp only
  rw [e1, e2]
  obtain ⟨a, b, c⟩ := latchHardTrip_spec ((op.parts.filter Participation.isShort).map Participation.scheme) s
  generalize ((op.parts.filter Participation.isShort).map Participation.scheme).foldl State.latchHardTrip s = u at *
  generalize hv : (u.logClosed { op with parts := op.parts.map Participation.close } op.outcome).setTracker
    { (u.logClosed { op with parts := op.parts.map Participation.close } op.outcome).tracker with
      ops := (u.logClosed { op with parts := op.parts.map Participation.close } op.outcome).tracker.ops.filter
        (fun o => o.id != op.id) } = v
  have hv1 : v.arming = u.arming := by rw [← hv]; rfl
  obtain ⟨a', b', c'⟩ := endWork_spec ((op.parts.filter (fun p => p.taken.isSome)).map Participation.scheme) v (by
    rw [hv1, b]
    intro i hi
    simp only [List.mem_map, List.mem_filter] at hi
    obtain ⟨p, ⟨h1, h2⟩, rfl⟩ := hi
    exact hp p h1 h2)
  generalize ((op.parts.filter (fun p => p.taken.isSome)).map Participation.scheme).foldl State.endWork v = t at *
  have hlog : t.log = s.closureLog op := by
    rw [a', ← hv]
    show LogState.mk ((⟨{ op with parts := op.parts.map Participation.close }, op.outcome, u.timeBase, u.cycleNumber,
        u.log.nextSeq⟩ :: u.log.records).take 32) (u.log.nextSeq + 1) = _
    rw [a]; rfl
  have harm : t.arming = { s.arming with schemes := t.arming.schemes } := by
    have := congrArg State.arming a'
    rw [hv1] at this
    have h2 := congrArg State.arming a
    dsimp only at this h2
    rw [h2] at this
    exact this
  refine ⟨?_, hlog, by rw [b', hv1, b], fun i hi => ?_⟩
  · apply State.ext_fields <;> first | rfl | exact harm | (rw [a', ← hv]; show _ = _; rw [a]; rfl)
  · rw [c' i (by rw [hv1, b]; exact hi)]
    have h1 : v.scheme i = u.scheme i := by unfold State.scheme; rw [hv1]
    have h2 : v.active = s.active := by rw [← hv]; show u.active = _; rw [a]; rfl
    have h3 : v.after = s.after := by rw [← hv]; show u.after = _; rw [a]; rfl
    rw [h1, h2, h3, c i hi]
    by_cases hx : i ∈ (op.parts.filter Participation.isShort).map Participation.scheme ∧ (s.active.scheme i).hardTripEnable = true
    · simp only [hx, if_true, and_self]
    · simp only [hx, if_false]

/-- The parts a closure leaves alone, and what it writes to the log and the table. -/
theorem closeOp_keeps (s : State) (op : Operation) : (s.closeOp op).queue = s.queue ∧ (s.closeOp op).monitor = s.monitor
    ∧ (s.closeOp op).engine = s.engine ∧ (s.closeOp op).notices = s.notices
   ∧ (s.closeOp op).tracker = { s.tracker with ops := s.tracker.ops.filter (fun o => o.id != op.id) }
   ∧ (s.closeOp op).log = s.closureLog op
   ∧ (s.closeOp op).freeIndex = s.freeIndex := by
  have latchk : ∀ (l : List Participation) (s : State), l.foldl (fun s p => s.latchHardTrip p.scheme) s =
      { s with arming := { s.arming with schemes := (l.foldl (fun s p => s.latchHardTrip p.scheme) s).arming.schemes } } := by
    intro l s
    have := (latchHardTrip_spec (l.map Participation.scheme) s).1
    rw [List.foldl_map] at this
    exact this
  have endk : ∀ (l : List Participation) (s : State), l.foldl (fun s p => s.endWork p.scheme) s =
      { s with arming := (l.foldl (fun s p => s.endWork p.scheme) s).arming } := by
    intro l
    induction l with
    | nil => intro s; rfl
    | cons x l ih =>
      intro s
      simp only [List.foldl_cons]
      have h := ih (s.endWork x.scheme)
      have e0 : s.endWork x.scheme = { s with arming := (s.endWork x.scheme).arming } := by
        unfold State.endWork; split <;> rfl
      generalize l.foldl (fun s p => s.endWork p.scheme) (s.endWork x.scheme) = t at h
      rw [h]
      generalize s.endWork x.scheme = u at e0
      rw [e0]
  unfold State.closeOp
  dsimp only
  generalize hu : (op.parts.filter Participation.isShort).foldl (fun s p => s.latchHardTrip p.scheme) s = u
  have hu' := latchk (op.parts.filter Participation.isShort) s
  rw [hu] at hu'
  rw [endk]
  have hc : u.cycleNumber = s.cycleNumber := by rw [hu']; rfl
  refine ⟨?_, ?_, ?_, ?_, ?_, ?_, ?_⟩
  · show u.queue = _; rw [hu']
  · show u.monitor = _; rw [hu']
  · show u.engine = _; rw [hu']
  · show u.notices = _; rw [hu']
  · show TrackerState.mk (u.tracker.ops.filter _) u.tracker.lastId = _; rw [hu']
  · show LogState.mk ((⟨{ op with parts := op.parts.map Participation.close }, op.outcome, u.timeBase, u.cycleNumber,
      u.log.nextSeq⟩ :: u.log.records).take 32) (u.log.nextSeq + 1) = _
    rw [hc, hu']; rfl
  · show u.freeIndex = _; rw [hu']

/-- With every tracked operation waiting, nothing closes. -/
theorem closeFinished_nil {s : State} (h : ∀ op ∈ s.tracker.ops, op.phase = .tracking →
    op.outstanding ≠ 0) : s.closeFinished = s := by
  unfold State.closeFinished
  have : s.tracker.ops.filter Operation.finished = [] := by
    rw [List.filter_eq_nil_iff]
    intro op ho
    simp only [Operation.finished, Bool.and_eq_true, beq_iff_eq, not_and]
    exact h op ho
  rw [this]; rfl

/-- The parts closures leave alone. -/
theorem closeFinished_keeps (s : State) : s.closeFinished.queue = s.queue ∧ s.closeFinished.monitor = s.monitor
    ∧ s.closeFinished.engine = s.engine ∧ s.closeFinished.notices = s.notices ∧ s.closeFinished.freeIndex = s.freeIndex :=
  have h := foldl_keeps (fun t : State => (t.queue, t.monitor, t.engine, t.notices, t.freeIndex)) (f :=
      State.closeOp) (fun s op => by
    obtain ⟨a, b, c, d, _, _, e⟩ := closeOp_keeps s op
    simp only [a, b, c, d, e]) (s.tracker.ops.filter Operation.finished) s
  by
    unfold State.closeFinished
    simp only [Prod.mk.injEq] at h
    exact h

/-- A live entry is in the queue under its action. -/
theorem liveEntry_some {s : State} {a : Nat} {e : Entry} (h : s.liveEntry a = some e) : e ∈ s.queue.entries ∧ e.action = a := by
  unfold State.liveEntry at h
  exact ⟨List.mem_of_find?_eq_some h, by simpa using List.find?_some h⟩

/-- An entry expiry that falls now. -/
theorem exec_entryExpiry {s : State} {a : Fin 128} {e : Entry} (h : s.held = false) (he : s.liveEntry a = some e) (hd :
    e.deadline = s.timeBase) :
    exec (.entryExpiry a) s = .next (s.quiet.expireEntry e) := by
  simp only [exec, execEntryExpiry]
  rw [running_next h]
  have he' : s.quiet.liveEntry a = some e := he
  have hd' : e.deadline = s.quiet.timeBase := hd
  simp only [he', hd', if_true]

/-- With the surroundings kept, only the service of contingencies changed. -/
theorem serviceOnly_of {s t : State} (h : t.surroundings = s.surroundings) : State.ServiceOnly s t := by
  obtain ⟨h1, h2, h3, h4, h5, h6, h7, h8, h9, h10, h11, h12, h13, h14⟩ := State.surroundings_eq h
  unfold State.ServiceOnly
  apply State.ext_fields <;> first | rfl | assumption | skip
  show t.arming = _
  rcases ht : t.arming with ⟨a, b, c, d, e⟩
  rw [ht] at h11 h12 h13 h14
  simp only at h11 h12 h13 h14
  rw [h11, h12, h13, h14]

/-- A take makes its contingency SERVING and changes the Monitor in nothing else (R70). -/
theorem take_monitor (s : State) (c : Nat) : (s.take c).monitor =
    { s.monitor with conts := s.monitor.conts.modify c (fun r => { r with state := .serving }) } := by
  unfold State.take
  dsimp only
  show MonitorState.mk (List.modify ((s.openWork c _ _ _ _).takeSchemes _).monitor.conts c _)
      ((s.openWork c _ _ _ _).takeSchemes _).monitor.lastServed ((s.openWork c _ _ _ _).takeSchemes _).monitor.imageA
      ((s.openWork c _ _ _ _).takeSchemes _).monitor.imageB ((s.openWork c _ _ _ _).takeSchemes _).monitor.gatedDetection = _
  rw [takeSchemes_eq]
  dsimp only
  have : ∀ path p ph tk, (s.openWork c path p ph tk).monitor = s.monitor := by
    intro path p ph tk; unfold State.openWork; split <;> rfl
  rw [this]

/-- What opening work leaves alone. -/
theorem openWork_keeps (s : State) (c path p ph tk) : (s.openWork c path p ph tk).queue = s.queue
    ∧ (s.openWork c path p ph tk).arming = s.arming ∧ (s.openWork c path p ph tk).monitor = s.monitor
  ∧ (s.openWork c path p ph tk).engine = s.engine ∧ (s.openWork c path p ph tk).log = s.log
      ∧ (s.openWork c path p ph tk).freeIndex = s.freeIndex := by
  unfold State.openWork; split <;> exact ⟨rfl, rfl, rfl, rfl, rfl, rfl⟩

/-- A take leaves the queue alone. -/
theorem take_queue (s : State) (c : Nat) : (s.take c).queue = s.queue := by
  unfold State.take
  dsimp only
  show ((s.openWork c _ _ _ _).takeSchemes _).queue = _
  rw [takeSchemes_eq]; exact (openWork_keeps _ _ _ _ _ _).1

/-- So does the arbiter. -/
theorem arbiterTake_queue (s : State) : s.arbiterTake.queue = s.queue := by
  unfold State.arbiterTake
  split
  · rfl
  · split
    · rfl
    · exact take_queue _ _

/-- Each entry after a hand-in was there or is the one it made. -/
theorem applyHand_queue (id p taken) (s : State) (n : Node) (o : HandOutcome) : ∀ e ∈ (s.applyHand id p taken n o).queue.entries,
   (∃ e' ∈ s.queue.entries, e'.action = e.action) ∨ (o = .entered ∧ e.action = n.action) := by
  intro e he
  cases o with
  | entered =>
    simp only [State.applyHand, State.setQueue, List.mem_append, List.mem_singleton] at he
    rcases he with he | rfl
    · exact .inl ⟨e, he, rfl⟩
    · exact .inr ⟨rfl, rfl⟩
  | merged b =>
    simp only [State.applyHand, State.setQueue, List.mem_map] at he
    obtain ⟨e', he', rfl⟩ := he
    left; refine ⟨e', he', ?_⟩
    split <;> rfl
  | alreadyOpen => exact .inl ⟨e, he, rfl⟩
  | dropped =>
    have : (s.applyHand id p taken n .dropped).queue = s.queue := by
      simp only [State.applyHand, State.latchDropped]
      split
      · unfold State.latchHardTrip; split <;> rfl
      · exact (foldl_keeps State.queue (fun s i => by unfold State.latchHardTrip; split <;> rfl) taken _).trans rfl
    rw [this] at he
    exact .inl ⟨e, he, rfl⟩

/-- An entry a hand-in makes waits on a point that does not read OPEN (R78). -/
theorem handIn_queue (id p taken) (s : State) (n : Node) : ∀ e ∈ (State.handIn id p taken s n).queue.entries,
   (∃ e' ∈ s.queue.entries, e'.action = e.action) ∨ (s.confirmOpen n.action = false ∧ e.action = n.action) := by
  intro e he
  have he' : e ∈ (s.applyHand id p taken n (s.handOutcome id n.action)).queue.entries := by
    unfold State.handIn at he; dsimp only at he; split at he <;> exact he
  rcases applyHand_queue _ _ _ _ _ _ e he' with h | ⟨h, h'⟩
  · exact .inl h
  · refine .inr ⟨?_, h'⟩
    unfold State.handOutcome at h
    split at h
    · cases h
    · split at h
      · cases h
      · rename_i h2; simpa using h2

/-- Finishing the waiting nodes leaves the queue alone. -/
theorem finishFor_queue (a st refs) (s : State) : (s.finishFor a st refs).queue = s.queue :=
  foldl_keeps State.queue (f := fun s id => s.updOp id (Operation.finish a st)) (fun _ _ => rfl) refs s

/-- A finished entry leaves the queue. -/
theorem finishEntry_queue (st : NodeStatus) (s : State) (e : Entry) : (s.finishEntry st e).queue =
    { s.queue with entries := s.queue.entries.filter (fun x => x.action != e.action) } := by
  unfold State.finishEntry; rw [finishFor_queue]; rfl

/-- Finished entries leave the queue. -/
theorem finishEntries_queue (st : NodeStatus) (l : List Entry) : ∀ (s : State), (l.foldl (State.finishEntry st) s).queue =
    { s.queue with entries := s.queue.entries.filter (fun x => l.all (fun e => x.action != e.action)) } := by
  induction l with
  | nil => intro s; simp
  | cons x l ih =>
    intro s
    simp only [List.foldl_cons]
    rw [ih, finishEntry_queue]
    simp only [List.filter_filter]
    congr 1
    apply List.filter_congr
    intro y _
    simp [Bool.and_comm]

end Sys2Proof.Machine
end

