-- ==== Sys2Proof/Laws/Records.lean ====
section
/-! SUPPORT. What hand-ins and finishing entries leave in the records of operations and in the queue, each said once. -/

namespace Sys2Proof.Machine

/-- The head status a hand-in outcome leaves, from the one before (R90, R91). -/
def HandOutcome.headTo : HandOutcome → HeadStatus → HeadStatus
  | .entered, h | .merged _, h => h
  | .alreadyOpen, _ => .confirmed
  | .dropped, _ => .dropped

/-- What a hand-in outcome credits of a head's amount (R91). -/
def HandOutcome.credit : HandOutcome → Nat → Nat
  | .alreadyOpen, n => n
  | _, _ => 0

/-- The sum over a filtered list. -/
theorem sum_filter_map {α} (p : α → Bool) (f : α → Nat) (l : List α) :
    ((l.filter p).map f).sum = (l.map (fun a => if p a = true then f a else 0)).sum := by
  induction l with
  | nil => rfl
  | cons x l ih =>
    rw [List.filter_cons]
    by_cases h : p x = true
    · rw [if_pos h]; simp [ih, h]
    · rw [if_neg h]; simp [ih, h]

/-- Recording a hand-in is noting the node under its outcome (R90, R91). -/
theorem record_noted (op : Operation) (n : Node) (o : HandOutcome) : op.record n o =
    { op.noted n (HandOutcome.headTo o) o.status (HandOutcome.credit o) with
      outstanding := op.outstanding + o.counts, overflow := op.overflow || o == HandOutcome.dropped } := by
  have h0 : ∀ (x : TakenPart) p, x.record p n.action o = { x with
            candidates := x.candidates.map (fun c =>
              if c.position = p then c.noted n.action (HandOutcome.headTo o c.headStatus) o.status else c)
            confirmed := x.confirmed + (x.candidates.map (fun c =>
              if c.position = p ∧ n.action = c.head then (HandOutcome.credit o) c.amount else 0)).sum } := by
    intro x p
    unfold TakenPart.record
    rw [sum_filter_map]
    congr 1
    · apply List.map_congr_left
      intro c _
      split
      · unfold Candidate.record Candidate.noted
        split
        · cases o <;> rfl
        · rfl
      · rfl
    · congr 2
      apply List.map_congr_left
      intro c _
      unfold Candidate.recordAmount
      by_cases h1 : c.position = p <;> by_cases h2 : n.action = c.head <;> cases o <;> simp [h1, h2, HandOutcome.credit]
  unfold Operation.record Operation.noted
  dsimp only
  cases n.origin with
  | direct => rfl
  | scheme i p =>
    dsimp only
    congr 1
    apply List.map_congr_left
    intro part _
    split
    · unfold Participation.update
      congr 1
      congr 1
      funext x
      exact h0 x p
    · rfl

/-- Finishing an action settles it, with the head status and the credit its status has (R93, R95, R96). -/
theorem finish_settled_gen (op : Operation) (a : Nat) (status : NodeStatus) (head : HeadStatus) (credit : Nat → Nat)
    (h1 : ∀ c : Candidate, c.waitsOn a = true → (Candidate.finish a status c).headStatus = head)
    (h2 : ∀ n, (if status = .confirmed then n else 0) = credit n) :
    op.finish a status = op.settled a head status credit := by
  have hw : ∀ c : Candidate, c.waitsOn a = true ↔ c.head = a ∧ c.headStatus = .outstanding := by
    intro c; simp [Candidate.waitsOn]
  unfold Operation.finish Operation.settled
  congr 1
  apply List.map_congr_left
  intro part _
  unfold Participation.update
  congr 1
  congr 1
  funext x
  unfold TakenPart.finish
  congr 1
  · apply List.map_congr_left
    intro c _
    have := h1 c
    by_cases hc : c.waitsOn a = true
    · have e := this hc
      have hc' := (hw c).1 hc
      have : Candidate.finish a status c = { c with
          headStatus := (Candidate.finish a status c).headStatus
          aux := c.aux.map (NodeItem.finish a status) } := rfl
      rw [this, e, if_pos hc']; rfl
    · have hc' : ¬ (c.head = a ∧ c.headStatus = .outstanding) := fun h => hc ((hw c).2 h)
      rw [if_neg hc']
      unfold Candidate.finish
      rw [if_neg hc]; rfl
  · congr 1
    by_cases hst : status = .confirmed
    · rw [if_pos hst, sum_filter_map]
      congr 1
      apply List.map_congr_left
      intro c _
      have := h2 c.amount
      rw [if_pos hst] at this
      rw [← this]
      simp only [hw]
    · rw [if_neg hst]
      have : ∀ n, credit n = 0 := fun n => by rw [← h2, if_neg hst]
      simp [this]

/-- CONFIRMED credits each head's amount (R93). -/
theorem finish_confirmed (op : Operation) (a : Nat) : op.finish a .confirmed = op.settled a .confirmed .confirmed (fun n => n) :=
  finish_settled_gen op a _ _ _ (fun c h => by simp [Candidate.finish, h]) (fun n => by simp)

/-- SENT finishes no head and credits nothing (R95). -/
theorem finish_sent (op : Operation) (a : Nat) : op.finish a .sent = op.settled a .outstanding .sent (fun _ => 0) :=
  finish_settled_gen op a _ _ _ (fun c h => by simp [Candidate.finish, h]; simp [Candidate.waitsOn] at h; exact h.2) (fun n => by simp)

/-- EXPIRED fails the heads and credits nothing (R96). -/
theorem finish_expired (op : Operation) (a : Nat) : op.finish a .expired = op.settled a .failed .expired (fun _ => 0) :=
  finish_settled_gen op a _ _ _ (fun c h => by simp [Candidate.finish, h]) (fun n => by simp)

/-- Finishing an action over a reference set changes each operation of the set once. -/
theorem finishFor_ops (a : Nat) (st : NodeStatus) (refs : List Nat) (hn : refs.Nodup) : ∀ s : State, s.finishFor a st refs =
    { s with tracker := { s.tracker with ops := s.tracker.ops.map (fun o => if o.id ∈ refs then o.finish a st else o) } } := by
  induction refs with
  | nil => intro s; simp [State.finishFor]
  | cons x l ih =>
    intro s
    have hx := List.nodup_cons.1 hn
    show State.finishFor a st l (s.updOp x (Operation.finish a st)) = _
    rw [ih hx.2]
    show ({ s with tracker := { s.tracker with ops := (s.tracker.ops.map _).map _ } } : State) = _
    rw [List.map_map]
    refine congrArg (fun l => ({ s with tracker := { s.tracker with ops := l } } : State)) ?_
    apply List.map_congr_left
    intro o _
    simp only [Function.comp]
    by_cases h1 : o.id = x
    · have h2 : (Operation.finish a st o).id ∉ l := by
        show o.id ∉ l
        rw [h1]; exact hx.1
      rw [if_pos h1, if_neg h2, if_pos (by rw [h1]; exact List.mem_cons_self)]
    · rw [if_neg h1]
      by_cases h2 : o.id ∈ l
      · rw [if_pos h2, if_pos (List.mem_cons_of_mem _ h2)]
      · rw [if_neg h2, if_neg (by simp [h1, h2])]

/-- The schemes an expiry fails a candidate of (R96). -/
theorem failing_spec (op : Operation) (a i : Nat) : i ∈ op.failing a ↔ ∃ part ∈ op.parts, part.scheme = i ∧ ∃ x, part.taken = some x
        ∧ ∃ c ∈ x.candidates, c.head = a ∧ c.headStatus = .outstanding := by
  unfold Operation.failing
  rw [List.mem_map]
  constructor
  · rintro ⟨part, hp, rfl⟩
    rw [List.mem_filter] at hp
    obtain ⟨h1, h2⟩ := hp
    refine ⟨part, h1, rfl, ?_⟩
    cases ht : part.taken with
    | none => rw [ht] at h2; cases h2
    | some x =>
      rw [ht] at h2
      simp only [List.any_eq_true] at h2
      obtain ⟨c, hc, hw⟩ := h2
      exact ⟨x, rfl, c, hc, by simpa [Candidate.waitsOn] using hw⟩
  · rintro ⟨part, h1, rfl, x, hx, c, hc, hh, hs⟩
    refine ⟨part, ?_, rfl⟩
    rw [List.mem_filter]
    refine ⟨h1, ?_⟩
    rw [hx]
    simp only [List.any_eq_true]
    exact ⟨c, hc, by simp [Candidate.waitsOn, hh, hs]⟩

/-- A hand-in's effect on the queue is its outcome's (R77 to R80). -/
theorem handIn_queue_eq (id p : Nat) (taken : List Nat) (s : State) (n : Node) :
    (State.handIn id p taken s n).queue = (s.applyHand id p taken n (s.handOutcome id n.action)).queue := by
  unfold State.handIn
  dsimp only
  split <;> rfl

/-- The hard-trip latches of a dropped node leave the queue alone. -/
theorem latchDropped_queue (s : State) (taken : List Nat) (o : Origin) : (s.latchDropped taken o).queue = s.queue := by
  have h : ∀ (s : State) i, (s.latchHardTrip i).queue = s.queue := by intro s i; unfold State.latchHardTrip; split <;> rfl
  cases o with
  | scheme i p => exact h s i
  | direct => exact foldl_keeps State.queue h taken s

/-- The queue after a hand-in depends on the queue, the points, the banks and the time alone. -/
theorem handIn_queue_congr (id p : Nat) (tk : List Nat) (n : Node) {s t : State} (h1 : t.queue = s.queue) (h2 : t.points = s.points)
    (h3 : t.banks = s.banks) (h4 : t.timeBase = s.timeBase) :
    (State.handIn id p tk t n).queue = (State.handIn id p tk s n).queue := by
  have ha : t.active = s.active := by unfold State.active; rw [h3]
  have ho : t.handOutcome id n.action = s.handOutcome id n.action := by
    unfold State.handOutcome State.liveEntry State.confirmOpen State.point; rw [h1, h2, ha]
  rw [handIn_queue_eq, handIn_queue_eq, ho]
  cases s.handOutcome id n.action with
  | merged _ => simp only [State.applyHand]; show QueueState.mk _ _ = QueueState.mk _ _; rw [h1]
  | alreadyOpen => exact h1
  | dropped => simp only [State.applyHand, latchDropped_queue]; exact h1
  | entered =>
    simp only [State.applyHand]
    show QueueState.mk _ _ = QueueState.mk _ _
    unfold State.newEntry State.after
    rw [h1, ha, h4]

/-- The same for a list of hand-ins. -/
theorem handIns_queue_congr (id p : Nat) (tk : List Nat) (l : List Node) : ∀ {s t : State}, t.queue = s.queue → t.points = s.points →
    t.banks = s.banks → t.timeBase = s.timeBase →
    (l.foldl (State.handIn id p tk) t).queue = (l.foldl (State.handIn id p tk) s).queue := by
  induction l with
  | nil => intro s t h _ _ _; exact h
  | cons x l ih =>
    intro s t h1 h2 h3 h4
    have a := State.surroundings_eq (s.surroundings_handIn id p tk x)
    have b := State.surroundings_eq (t.surroundings_handIn id p tk x)
    rw [List.foldl_cons, List.foldl_cons]
    refine ih (handIn_queue_congr id p tk x h1 h2 h3 h4) ?_ ?_ ?_
    · rw [a.2.2.2.2.2.1, b.2.2.2.2.2.1, h2]
    · rw [a.2.2.2.2.2.2.2.1, b.2.2.2.2.2.2.2.1, h3]
    · rw [a.1, b.1, h4]

/-- From `s` to `t` nothing but the service of contingencies has changed; every entry but that of action `a` has stood through it, and an
entry of `a` is one made since (R96). -/
structure EntriesStand (s t : State) (a : Nat) : Prop where
  surr : t.surroundings = s.surroundings
  monitor : t.monitor = s.monitor
  engine : t.engine = s.engine
  old : ∀ x ∈ s.queue.entries, x.action ≠ a → ∃ y ∈ t.queue.entries, y.action = x.action ∧ y.order = x.order
            ∧ y.sent = x.sent ∧ y.repeats = x.repeats ∧ y.deadline = x.deadline ∧ y.state = x.state
  new : ∀ y ∈ t.queue.entries, y.action = a → y.sent = 0 ∧ y.state = .waiting
            ∧ y.deadline = s.timeBase + BitVec.ofNat 32 (s.active.action a).timeout

/-- Only the queue matters besides. -/
theorem EntriesStand.queue {s t u : State} {a} (h : EntriesStand s t a) (h1 : u.surroundings = t.surroundings)
    (h2 : u.monitor = t.monitor) (h3 : u.engine = t.engine) (h4 : u.queue = t.queue) : EntriesStand s u a :=
  ⟨h1.trans h.surr, h2.trans h.monitor, h3.trans h.engine, by rw [h4]; exact h.old, by rw [h4]; exact h.new⟩

/-- A hand-in keeps it. -/
theorem EntriesStand.handIn {s t : State} {a} (h : EntriesStand s t a) (id p tk n) : EntriesStand s (State.handIn id p tk t n) a := by
  have hk := handKeeps_handIn id p tk t n
  have hs := State.surroundings_eq h.surr
  refine ⟨(t.surroundings_handIn id p tk n).trans h.surr, (congrArg HandKeeps.monitor hk).trans h.monitor,
      (congrArg HandKeeps.engine hk).trans h.engine, ?_, ?_⟩
  · intro x hx hxa
    obtain ⟨y, hy, hp⟩ := h.old x hx hxa
    rw [handIn_queue_eq]
    cases t.handOutcome id n.action with
    | merged b =>
      simp only [State.applyHand]
      refine ⟨_, List.mem_map_of_mem hy, ?_⟩
      split <;> exact hp
    | alreadyOpen => exact ⟨y, hy, hp⟩
    | dropped => simp only [State.applyHand, latchDropped_queue]; exact ⟨y, hy, hp⟩
    | entered => exact ⟨y, List.mem_append_left _ hy, hp⟩
  · intro y hy hya
    rw [handIn_queue_eq] at hy
    cases ho : t.handOutcome id n.action with
    | merged b =>
      rw [ho] at hy
      simp only [State.applyHand] at hy
      obtain ⟨z, hz, rfl⟩ := List.mem_map.1 hy
      by_cases he : z.action = n.action
      · simp only [he, if_true] at hya ⊢
        have hza : z.action = a := hya
        exact h.new z hz hza
      · simp only [he, if_false] at hya ⊢
        exact h.new z hz hya
    | alreadyOpen => rw [ho] at hy; exact h.new y hy hya
    | dropped => rw [ho] at hy; simp only [State.applyHand, latchDropped_queue] at hy; exact h.new y hy hya
    | entered =>
      rw [ho] at hy
      simp only [State.applyHand] at hy
      rcases List.mem_append.1 hy with hy | hy
      · exact h.new y hy hya
      · rw [List.mem_singleton] at hy
        subst hy
        have hna : n.action = a := hya
        refine ⟨rfl, rfl, ?_⟩
        show t.timeBase + BitVec.ofNat 32 (t.active.action n.action).timeout = _
        have : t.active = s.active := by unfold State.active; rw [hs.2.2.2.2.2.2.2.1]
        rw [this, hs.1, hna]

/-- An escalation keeps it. -/
theorem EntriesStand.escalate {s t : State} {a} (h : EntriesStand s t a) (id i) : EntriesStand s (t.escalate id i) a := by
  unfold State.escalate
  split
  · exact h
  · split
    · exact h
    · dsimp only
      split
      · split
        · exact h
        · refine foldl_pres (fun u => EntriesStand s u a) (fun u n hu => hu.handIn _ _ _ n) _ _ (h.queue (by simp) rfl rfl rfl)
      · exact h

/-- The expiry for one operation keeps it. -/
theorem EntriesStand.expireFor {s t : State} {a b} (h : EntriesStand s t a) (id) : EntriesStand s (t.expireFor b id) a := by
  unfold State.expireFor
  split
  · exact h
  · exact foldl_pres (fun u => EntriesStand s u a) (fun u n hu => hu.escalate _ n) _ _ (h.queue (by simp) rfl rfl rfl)

end Sys2Proof.Machine
end

