-- ==== Sys2Proof/Laws/Reports.lean ====
section
/-! SUPPORT. What STATUS frames, READ STATE reports, the counter image and log summaries show, said once. -/

namespace Sys2Proof.Machine

/-- A STATUS payload shows the state (R175). -/
theorem statusPayload_shown (s : State) : s.ShownBy s.statusPayload where
  length := by simp [State.statusPayload]
  flags := by
    show HoldsFields s.statusFlags _
    have e : timingCode s.timingPort = [none, some Side.east, some .west].idxOf s.timingPort := by
      rcases s.timingPort with _ | _ | _ <;> rfl
    simp only [← e, ← bitNat_eq]
    refine packWord_holds_some rfl (fun f hf => ?_)
    simp only [List.mem_cons, List.not_mem_nil, or_false] at hf ⊢
    tauto
  hardTripLine := by
    show s.statusFlags.getLsbD 2 = true ↔ _
    have e : s.statusFlags.getLsbD 2 = s.hardTripLine := by
      refine packWord_getLsbD rfl ?_
      simp
    rw [e]
    unfold State.hardTripLine State.blank
    simp [and_assoc]
  alarmLine := by
    show s.statusFlags.getLsbD 3 = true ↔ _
    have e : s.statusFlags.getLsbD 3 = s.operatedAlarm := by
      refine packWord_getLsbD rfl ?_
      simp
    rw [e]
    unfold State.operatedAlarm
    simp
  schemes := by
    have e : ∀ st : SchemeState, schemeStates.idxOf st = st.code := by intro st; cases st <;> rfl
    have k : ∀ n, HoldsFields (s.statusSchemes n) [(0, 4, (s.scheme n).state.code), (4, 4, (s.scheme (n + 1)).state.code),
     (8, 4, (s.scheme (n + 2)).state.code), (12, 4, (s.scheme (n + 3)).state.code)] := fun n => packWord_holds rfl
    have g : ∀ j < 4, s.statusPayload.getD (1 + j) 0 = s.statusSchemes (4 * j) := by
      intro j hj; interval_cases j <;> rfl
    intro i hi f hf
    rw [List.mem_singleton] at hf
    subst hf
    rw [g (i / 4) (by omega), e]
    have hr : i % 4 < 4 := by omega
    have hd : i = 4 * (i / 4) + i % 4 := by omega
    generalize i / 4 = a at *
    generalize i % 4 = b at *
    subst hd
    interval_cases b <;> exact k (4 * a) _ (by simp)
  engine := by
    have e : ((List.range 64).filter (fun c => decide ((s.cont c).state = .pending))) = s.pendingSet := by
      unfold State.pendingSet
      congr 1
    rw [e, ← bitNat_eq]
    exact packWord_holds rfl
  ports := by
    have e : ∀ st : PortState, portStates.idxOf st = st.code := by intro st; cases st <;> rfl
    rw [e, e]
    exact packWord_holds rfl
  work := packWord_holds rfl
  figures := by
    intro i hi
    have g : s.statusPayload.getD (8 + i) 0 = intWord (statusQ (s.scheme i).q) := by
      interval_cases i <;> rfl
    rw [g]
    unfold intWord statusQ clampAnalog clamp
    generalize roundHalfAway (s.scheme i).q 10 = x
    rw [BitVec.toInt_ofInt, Int.bmod_def]
    split <;> omega

/-- The 32-bit quantity of two words that are its own. -/
theorem longAt_eq {w : List Word} {i : Nat} {v : BitVec 32} (h : w.getD i 0 = v.extractLsb' 16 16)
    (h' : w.getD (i + 1) 0 = v.extractLsb' 0 16) : longAt w i = v := by
  unfold longAt; rw [h, h']; exact long_longWords v

/-- Where the words of a run of equal length stand in a report. -/
theorem flatMap_words {α : Type} (f : α → List Word) (n : Nat) (hf : ∀ x, (f x).length = n) : ∀ (l : List α),
    (l.flatMap f).length = n * l.length
    ∧ ∀ j x, l[j]? = some x → ∀ k < n, (l.flatMap f).getD (n * j + k) 0 = (f x).getD k 0
  | [] => ⟨by simp, fun j x h => by simp at h⟩
  | y :: l => by
    obtain ⟨h1, h2⟩ := flatMap_words f n hf l
    refine ⟨by rw [List.flatMap_cons, List.length_append, hf, h1, List.length_cons]; ring, fun j x h k hk => ?_⟩
    rw [List.flatMap_cons, List.getD_eq_getElem?_getD, List.getD_eq_getElem?_getD]
    cases j with
    | zero =>
      simp at h; subst h
      rw [Nat.mul_zero, Nat.zero_add, List.getElem?_append_left (by rw [hf]; exact hk)]
    | succ j =>
      rw [List.getElem?_append_right (by rw [hf]; nlinarith), hf, show n * (j + 1) + k - n = n * j + k by
        rw [Nat.mul_succ]; omega]
      have := h2 j x (by simpa using h) k hk
      rw [List.getD_eq_getElem?_getD, List.getD_eq_getElem?_getD] at this
      exact this

/-- The SCHEME report (R180). -/
theorem schemeReport_shown (s : State) (i : Nat) : (s.scheme i).Reported s.timeBase (s.schemeReport i) := by
  have e : ∀ st : SchemeState, schemeStates.idxOf st = st.code := by intro st; cases st <;> rfl
  constructor
  · rw [e]; exact packWord_holds rfl
  · rw [← bitNat_eq, ← bitNat_eq]; exact packWord_holds rfl
  · exact longAt_eq rfl rfl
  · exact longAt_eq rfl rfl
  · exact longAt_eq rfl rfl
  · exact longAt_eq rfl rfl
  · intro h
    unfold State.schemeReport
    dsimp only
    split
    · exact absurd ‹_› h
    · rfl
  · intro sel h1 h2
    have hw : s.schemeReport i = ([packWord [(0, 4, (s.scheme i).state.code), (4, 4, (s.scheme i).armCount),
        (8, 4, (s.scheme i).disarmCount), (12, 2, (s.scheme i).stress), (14, 2, (s.scheme i).backstop)],
      packWord [(0, 1, bitNat (s.scheme i).hardTrip), (3, 1, bitNat (s.scheme i).selection.isSome)]]
      ++ intLong (s.scheme i).walk ++ intLong (s.scheme i).q ++ s.remaining (s.scheme i).holdTimer
      ++ s.remaining (s.scheme i).resetTimer) ++ sel.words := by
      unfold State.schemeReport
      simp only [h1, h2]
    rw [hw]
    obtain ⟨l1, l2⟩ := flatMap_words (fun i : SelItem => [BitVec.ofNat 16 i.position, BitVec.ofNat 16 i.amount]) 2 (fun _ => rfl)
      sel.items
    refine ⟨?_, rfl, ?_, longAt_eq rfl rfl, longAt_eq rfl rfl, fun j x hx => ?_⟩
    · have hl : sel.words.length = 6 + 2 * sel.items.length := by
        unfold SelRecord.words; rw [List.length_append, l1]; rfl
      rw [List.length_append, hl]
      show 10 + _ = _
      omega
    · have e' : ∀ o : SelOutcome, [SelOutcome.none, .covered, .short].idxOf o = o.code := by intro o; cases o <;> rfl
      rw [e']; exact packWord_holds rfl
    · rw [show 16 + 2 * j = 2 * j + 0 + 16 by omega, show 17 + 2 * j = 2 * j + 1 + 16 by omega]
      exact ⟨l2 j x hx 0 (by omega), l2 j x hx 1 (by omega)⟩

/-- The CONTINGENCY report (R180). -/
theorem contReport_shown (s : State) (c : Nat) : s.ReportsCont c (s.contReport c) := by
  have e1 : ∀ x : ContState, [ContState.idle, .confirming, .pending, .serving, .served].idxOf x = x.code := by
    intro x; cases x <;> rfl
  have e2 : ∀ x : Combined, [Combined.unknown, .false, .true].idxOf x = x.code := by intro x; cases x <;> rfl
  refine ⟨rfl, ?_, ?_⟩
  · rw [e1, e2, ← bitNat_eq]; exact packWord_holds rfl
  · show (if s.isExpressA c then (1 : Word) else if s.isExpressB c then 2 else 0) = _
    unfold State.isExpressA State.isExpressB
    simp only [Bool.and_eq_true, beq_iff_eq]

/-- A word of the pending set in the ENGINE report. -/
theorem pendingWord_bit (s : State) (first i : Nat) (hi : i < 16) :
    (s.pendingWord first).getLsbD i = ((s.cont (first + i)).state == .pending) := by
  refine packWord_getLsbD rfl ?_
  rw [List.mem_map]
  exact ⟨i, List.mem_range.2 hi, rfl⟩

/-- The ENGINE report (R180). -/
theorem engineReport_shown (s : State) : s.ReportsEngine s.engineReport := by
  constructor
  · rw [← bitNat_eq]; exact packWord_holds rfl
  · intro c hc
    have g : ∀ j < 4, s.engineReport.getD (4 - j) 0 = s.pendingWord (16 * j) := by
      intro j hj; interval_cases j <;> rfl
    rw [g (c / 16) (by omega), pendingWord_bit _ _ _ (by omega), show 16 * (c / 16) + c % 16 = c by omega, beq_iff_eq]
  · intro h
    unfold State.engineReport
    rw [h]; rfl
  · intro snap h
    have hw : s.engineReport = [packWord [(15, 1, bitNat s.engine.isSome), (0, 7, s.monitor.lastServed.getD 127)],
      s.pendingWord 48, s.pendingWord 32, s.pendingWord 16, s.pendingWord 0,
      packWord [(8, 8, snap.opId), (0, 6, snap.contingency)]] ++ longWords snap.takeTime := by
      unfold State.engineReport
      rw [h]; rfl
    rw [hw]
    exact ⟨rfl, packWord_holds rfl, longAt_eq rfl rfl⟩

/-- The TRIP QUEUE report (R180). -/
theorem queueReport_shown (s : State) : s.ReportsQueue s.queueReport := by
  obtain ⟨l1, l2⟩ := flatMap_words s.entryWords 9 (fun _ => rfl) s.queue.entries
  refine ⟨?_, rfl, fun j e he => ?_⟩
  · show (_ :: _).length = _
    rw [List.length_cons, l1]; omega
  · have g : ∀ k < 9, s.queueReport.getD (1 + k + 9 * j) 0 = (s.entryWords e).getD k 0 := by
      intro k hk
      rw [← l2 j e he k hk, show 1 + k + 9 * j = 9 * j + k + 1 by omega]
      rfl
    have e1 : ∀ x : EntryState, [EntryState.waiting, .sending, .await].idxOf x = x.code := by intro x; cases x <;> rfl
    refine ⟨?_, ?_, g 2 (by omega), ?_, fun k hk => ?_⟩
    · rw [show 1 + 9 * j = 1 + 0 + 9 * j by omega, g 0 (by omega), e1]; exact packWord_holds rfl
    · rw [show 2 + 9 * j = 1 + 1 + 9 * j by omega, g 1 (by omega)]; exact packWord_holds rfl
    · refine longAt_eq ?_ ?_
      · rw [show 4 + 9 * j = 1 + 3 + 9 * j by omega, g 3 (by omega)]; rfl
      · rw [show 4 + 9 * j + 1 = 1 + 4 + 9 * j by omega, g 4 (by omega)]; rfl
    · rw [show 6 + k + 9 * j = 1 + (5 + k) + 9 * j by omega, g (5 + k) (by omega)]
      interval_cases k <;> exact packWord_holds rfl

/-- The words of a participation (R180). -/
theorem participationWords_shown (u : Nat → UnstatedFields) (p : Participation) : p.Reported (p.words u) := by
  have e2 : ∀ x, [none, some PartOutcome.covered, some .short, some .failed].idxOf x = PartOutcome.code x := by
    intro x; rcases x with _ | _ | _ | _ <;> rfl
  cases hp : p.taken with
  | none =>
    have hw : p.words u = [packWord [(0, 4, p.scheme), (8, 3, (u p.scheme).skippedReplacements.toNat),
        (11, 5, (u p.scheme).skippedContinuation.toNat)], (u p.scheme).skippedRequirement]
        ++ longWords (u p.scheme).skippedConfirmed ++ [0] := by
      unfold Participation.words; rw [hp]
    have hz : packWord [(0, 4, p.scheme), (8, 3, (u p.scheme).skippedReplacements.toNat),
        (11, 5, (u p.scheme).skippedContinuation.toNat)] = packWord [(0, 4, p.scheme), (4, 1, 0), (5, 2, 0),
        (8, 3, (u p.scheme).skippedReplacements.toNat), (11, 5, (u p.scheme).skippedContinuation.toNat)] := by
      unfold packWord; simp
    rw [hw]
    refine ⟨?_, fun _ => ⟨rfl, ?_, rfl⟩, fun t h => (by rw [hp] at h; cases h), fun t j c h => (by rw [hp] at h; cases h)⟩
    · rw [hp]
      show HoldsFields (packWord _) _
      rw [hz]
      exact packWord_holds_some rfl (fun f hf => by simp at hf ⊢; tauto)
    · show HoldsFields (packWord _) _
      rw [hz]
      exact packWord_holds_some rfl (fun f hf => by simp at hf ⊢; tauto)
  | some t =>
    have hw : p.words u = ([packWord [(0, 4, p.scheme), (4, 1, 1), (5, 2, PartOutcome.code t.outcome), (8, 3, t.replacements),
          (11, 5, t.continuation)], BitVec.ofNat 16 t.requirement] ++ longWords (BitVec.ofNat 32 t.confirmed)
        ++ [BitVec.ofNat 16 t.candidates.length]) ++ t.candidates.flatMap Candidate.words := by
      unfold Participation.words; rw [hp]
    obtain ⟨l1, l2⟩ := flatMap_words Candidate.words 3 (fun _ => rfl) t.candidates
    rw [hw]
    refine ⟨?_, fun h => (by rw [hp] at h; cases h), fun t' h => ?_, fun t' j c h hc => ?_⟩
    · rw [hp]
      exact packWord_holds_some rfl (fun f hf => by simp at hf ⊢; tauto)
    · rw [hp] at h; cases h
      refine ⟨?_, ?_, rfl, longAt_eq rfl rfl, rfl⟩
      · rw [List.length_append, l1]; rfl
      · rw [e2]; exact packWord_holds_some rfl (fun f hf => by simp at hf ⊢; tauto)
    · rw [hp] at h; cases h
      have g : ∀ k < 3, (([packWord [(0, 4, p.scheme), (4, 1, 1), (5, 2, PartOutcome.code t.outcome), (8, 3, t.replacements),
          (11, 5, t.continuation)], BitVec.ofNat 16 t.requirement] ++ longWords (BitVec.ofNat 32 t.confirmed)
        ++ [BitVec.ofNat 16 t.candidates.length]) ++ t.candidates.flatMap Candidate.words).getD (5 + k + 3 * j) 0
          = c.words.getD k 0 := by
        intro k hk
        rw [← l2 j c hc k hk, show 5 + k + 3 * j = 3 * j + k + 1 + 1 + 1 + 1 + 1 by omega]
        rfl
      have e3 : ∀ x : HeadStatus, [HeadStatus.outstanding, .confirmed, .failed, .dropped].idxOf x = x.code := by
        intro x; cases x <;> rfl
      have e4 : ∀ st : NodeStatus, ∀ n, nodeStatuses.idxOf st = n →
          c.aux.countP (fun i => decide (nodeStatuses.idxOf i.status = n)) = c.tally st := by
        intro st n hn
        unfold Candidate.tally
        congr 1
        funext i
        subst hn
        cases i.status <;> cases st <;> rfl
      refine ⟨?_, g 1 (by omega), ?_⟩
      · rw [show 5 + 3 * j = 5 + 0 + 3 * j by omega, g 0 (by omega), e3]; exact packWord_holds rfl
      · rw [show 7 + 3 * j = 5 + 2 + 3 * j by omega, g 2 (by omega)]
        intro f hf
        obtain ⟨k, hk, rfl⟩ := List.mem_map.1 hf
        rw [List.mem_range] at hk
        have h5 : HoldsFields (c.words.getD 2 0) [(0, 3, c.tally .outstanding), (3, 3, c.tally .confirmed), (6, 3, c.tally .sent),
            (9, 3, c.tally .expired), (12, 3, c.tally .dropped)] := packWord_holds rfl
        interval_cases k
        · rw [e4 .outstanding 0 rfl]; exact h5 _ (by simp)
        · rw [e4 .confirmed 1 rfl]; exact h5 _ (by simp)
        · rw [e4 .sent 2 rfl]; exact h5 _ (by simp)
        · rw [e4 .expired 3 rfl]; exact h5 _ (by simp)
        · rw [e4 .dropped 4 rfl]; exact h5 _ (by simp)

/-- The words of an OPERATION and of a LOG RECORD report (R180). -/
theorem operationWords_shown (u : Nat → UnstatedFields) (op : Operation) (outcome : Option OpOutcome) (closeTime : Time)
    (closeCycle : Byte) (seq : Word) : op.Reported (OpOutcome.code outcome) closeTime closeCycle seq
      (op.words u outcome (longWords closeTime ++ [closeCycle.setWidth 16, seq])) := by
  have e1 : bitNat (op.path == .express) = [OpPath.ordinary, .express].idxOf op.path := by cases op.path <;> rfl
  have e2 : bitNat (op.phase == .tracking) = [OpPhase.expanding, .tracking].idxOf op.phase := by cases op.phase <;> rfl
  have e3 : ∀ x : NodeStatus, x.code = nodeStatuses.idxOf x := by intro x; cases x <;> rfl
  obtain ⟨l1, l2⟩ := flatMap_words (fun i : NodeItem => [packWord [(0, 7, i.action), (8, 3, i.status.code)]]) 1 (fun _ => rfl) op.direct
  have em : op.direct.map (fun i => packWord [(0, 7, i.action), (8, 3, i.status.code)])
      = op.direct.flatMap (fun i => [packWord [(0, 7, i.action), (8, 3, i.status.code)]]) := by
    induction op.direct with
    | nil => rfl
    | cons x l ih => simp [List.flatMap_cons, ih]
  constructor
  · rw [← e1]; exact packWord_holds rfl
  · rw [← e2, ← bitNat_eq]; exact packWord_holds rfl
  · rfl
  · exact ⟨longAt_eq rfl rfl, rfl⟩
  · exact ⟨longAt_eq rfl rfl, rfl, rfl⟩
  · refine ⟨rfl, fun j item hj => ?_⟩
    have hlt : j < op.direct.length := by
      by_contra h
      rw [List.getElem?_eq_none (by omega)] at hj; cases hj
    have g : (op.words u outcome (longWords closeTime ++ [closeCycle.setWidth 16, seq])).getD (11 + j) 0
        = packWord [(0, 7, item.action), (8, 3, item.status.code)] := by
      rw [show 11 + j = j + 1 + 1 + 1 + 1 + 1 + 1 + 1 + 1 + 1 + 1 + 1 by omega]
      show ((op.direct.map (fun i => packWord [(0, 7, i.action), (8, 3, i.status.code)])) ++ op.parts.flatMap
        (Participation.words u)).getD j 0 = _
      rw [List.getD_eq_getElem?_getD, List.getElem?_append_left (by rw [List.length_map]; exact hlt), List.getElem?_map, hj]
      rfl
    rw [g, ← e3]
    exact packWord_holds rfl
  · refine ⟨op.parts.map (Participation.words u), ?_, List.length_map _, fun j p run hp hr => ?_⟩
    · rw [show 11 + op.direct.length = op.direct.length + 1 + 1 + 1 + 1 + 1 + 1 + 1 + 1 + 1 + 1 + 1 by omega]
      show ((op.direct.map (fun i => packWord [(0, 7, i.action), (8, 3, i.status.code)])) ++ op.parts.flatMap
        (Participation.words u)).drop op.direct.length = _
      rw [List.drop_left' (by rw [List.length_map]), List.flatMap_def]
    · rw [List.getElem?_map, hp] at hr
      cases hr
      exact participationWords_shown u p

/-- The STATION report (R139, R180). -/
theorem stationReport_shown (s : State) (i : Nat) : s.ReportsStation i (s.stationReport i) := by
  have e1 : ∀ x : Freshness, [Freshness.unknown, .fresh, .degraded, .silent].idxOf x = x.code := by intro x; cases x <;> rfl
  refine ⟨?_, ?_, ?_, fun c hc => ?_, rfl, ?_, rfl, rfl⟩
  · rfl
  · rw [← bitNat_eq]; exact packWord_holds rfl
  · rw [e1, ← bitNat_eq]; exact packWord_holds_some rfl (fun f hf => by simp at hf ⊢; tauto)
  · have : ((s.station i).lastCycle.getD (Config.unstated s.freeIndex 0).stationCycle) = c := by rw [hc]; rfl
    rw [← this]
    exact packWord_holds_some rfl (fun f hf => by simp at hf ⊢; tauto)
  · refine (longAt_eq rfl rfl).trans ?_
    cases (s.active.station i).enable <;> simp

/-- The POINT report (R123, R180). -/
theorem pointReport_shown (s : State) (i : Nat) : s.ReportsPoint i (s.pointReport i) := by
  have e1 : ∀ x : PointKind, [PointKind.disabled, .analog, .single, .double].idxOf x = x.code := by intro x; cases x <;> rfl
  have e2 : ∀ x : Quality, [Quality.invalid, .good, .suspect, .held, .stale, .forced].idxOf x = x.code := by
    intro x; cases x <;> rfl
  refine ⟨rfl, ?_, fun h => ?_, ?_, longAt_eq rfl rfl, fun x hx => ?_⟩
  · rw [e1, e2, ← bitNat_eq]; exact packWord_holds_some rfl (fun f hf => by simp at hf ⊢; tauto)
  · have : (s.active.point i).unitField (Config.unstated s.freeIndex 0) = (s.active.point i).unit := by
      unfold PointEntry.unitField; rw [h]
    rw [← this]
    exact packWord_holds_some rfl (fun f hf => by simp at hf ⊢; tauto)
  · show intWord (s.point i).value.number = _
    cases (s.point i).value with
    | analog n => rfl
    | binary b => cases b <;> rfl
  · show (s.point i).lastRaw.getD _ = x
    rw [hx]; rfl

/-- The PORT report (R180). -/
theorem portReport_shown (s : State) (side : Side) : (s.port side).Reported (s.portReport side) := by
  have e1 : ∀ st : PortState, portStates.idxOf st = st.code := by intro st; cases st <;> rfl
  refine ⟨rfl, ?_, ?_, fun c hc => ?_, ?_⟩
  · rw [e1]; exact packWord_holds rfl
  · rw [← bitNat_eq]; exact packWord_holds_some rfl (fun f hf => by simp at hf ⊢; tauto)
  · have : ((s.port side).cycle.getD (Config.unstated s.freeIndex 0).portCycle) = c := by rw [hc]; rfl
    rw [← this]
    exact packWord_holds_some rfl (fun f hf => by simp at hf ⊢; tauto)
  · rw [← bitNat_eq]; exact packWord_holds rfl

/-- The counter image (R181). -/
theorem counterImage_counted (s : State) : s.CountedBy s.counterImage := by
  obtain ⟨l1, l2⟩ := flatMap_words (fun i => [(s.station i).duplicate, (s.station i).rejoinDiscard]) 2 (fun _ => rfl) (List.range 32)
  refine ⟨?_, fun side first h => ?_, ⟨rfl, rfl, rfl, rfl⟩, fun i hi => ?_⟩
  · unfold State.counterImage
    rw [List.length_append, l1]; rfl
  · simp only [List.mem_cons, Prod.mk.injEq, List.not_mem_nil, or_false] at h
    rcases h with ⟨rfl, rfl⟩ | ⟨rfl, rfl⟩ <;> rfl
  · have hi' : (List.range 32)[i]? = some i := by rw [List.getElem?_range hi]
    have g : ∀ k < 2, s.counterImage.getD (18 + k + 2 * i) 0 = [(s.station i).duplicate, (s.station i).rejoinDiscard].getD k 0 := by
      intro k hk
      rw [← l2 i i hi' k hk, List.getD_eq_getElem?_getD, List.getD_eq_getElem?_getD]
      unfold State.counterImage
      rw [List.getElem?_append_right (by show 18 ≤ _; omega)]
      show (_ : List Word)[18 + k + 2 * i - 18]?.getD 0 = _
      rw [show 18 + k + 2 * i - 18 = 2 * i + k by omega]
    exact ⟨g 0 (by omega), g 1 (by omega)⟩

/-- A log summary (R179). -/
theorem summary_shown (r : LogRecord) : r.SummedUp r.summary := by
  have e1 : bitNat (r.op.path == .express) = [OpPath.ordinary, .express].idxOf r.op.path := by cases r.op.path <;> rfl
  have e2 : bitNat (r.outcome == .incomplete) = [OpOutcome.complete, .incomplete].idxOf r.outcome := by cases r.outcome <;> rfl
  refine ⟨rfl, rfl, ?_, ?_, longAt_eq rfl rfl, ?_⟩
  · rw [← e1]; exact packWord_holds rfl
  · rw [← e2, ← bitNat_eq]; exact packWord_holds rfl
  · show r.duration.toNat = _
    unfold LogRecord.duration
    dsimp only
    split
    · show 65535 = _; omega
    · rw [BitVec.toNat_ofNat]; omega

end Sys2Proof.Machine
end

