-- ==== Sys2Proof/Laws/Tables.lean ====
section
/-! SUPPORT. The Operation Table and the reference sets under the operations of a service, and the points a service reads. -/

namespace Sys2Proof.Machine

/-- Where an operation is inserted in a table (R87). -/
theorem insertOp_split (op : Operation) : ∀ l : List Operation, ∃ lower higher, l = lower ++ higher ∧
    insertOp op l = lower ++ op :: higher
    ∧ (∀ x ∈ lower, x.id ≤ op.id) ∧ ∀ x ∈ higher.head?, op.id < x.id := by
  intro l
  induction l with
  | nil => exact ⟨[], [], rfl, rfl, by simp, by simp⟩
  | cons y l ih =>
    by_cases h : op.id < y.id
    · refine ⟨[], y :: l, rfl, ?_, by simp, by simpa using h⟩
      simp [insertOp, h]
    · obtain ⟨lo, hi, h1, h2, h3, h4⟩ := ih
      refine ⟨y :: lo, hi, by simp [h1], ?_, ?_, h4⟩
      · simp [insertOp, h, h2]
      · intro x hx
        rcases List.mem_cons.mp hx with rfl | hx
        · omega
        · exact h3 x hx

/-- What an allocation makes of the Operation Table (R88, R89). -/
theorem allocate_spec (s : State) (c : Nat) (path : OpPath) (priority : Nat) (phase : OpPhase) (taken : List SchemeCopy) :
    ∃ op : Operation, op.Opened s c path priority phase taken ∧ s.tracker.Gains op (s.allocate c path priority phase taken).tracker := by
  refine ⟨{ id := s.newId, contingency := c, path := path, priority := priority, phase := phase, takeTime := s.timeBase
            takeCycle := s.cycleNumber, parts := s.participations (s.active.cont c).schemes taken, direct := []
            outstanding := 0, overflow := false }, ⟨rfl, rfl, ?_, ?_, ?_⟩, ?_⟩
  rotate_left 3
  · obtain ⟨lo, hi, h1, h2, h3, h4⟩ := insertOp_split _ s.tracker.ops
    exact ⟨lo, hi, h1, by rw [← h2]; rfl, h3, h4⟩
  · unfold State.participations
    rw [List.map_map]
    conv_rhs => rw [← List.map_id ((List.range 16).filter _)]
    apply List.map_congr_left
    intro i _
    simp only [Function.comp]
    split <;> rfl
  · intro p hp copy hf
    simp only [State.participations, List.mem_map] at hp
    obtain ⟨i, hi, rfl⟩ := hp
    revert hf
    split
    · next h => intro hf; rw [h] at hf; cases hf
    · next t h => intro hf; dsimp only at hf; rw [h] at hf; cases hf; rfl
  · intro p hp hn
    simp only [State.participations, List.mem_map] at hp
    obtain ⟨i, hi, rfl⟩ := hp
    split at *
    · rfl
    · next t h =>
      have h1 := List.mem_of_find?_eq_some h
      have h2 := List.find?_some h
      exact absurd (by simpa using h2) (hn t h1)

/-- With fewer than 8 operations open, work is tracked (R88). -/
theorem openWork_tracked {s : State} (h : s.tracker.ops.length < 8) (c path priority phase taken) :
    s.openWork c path priority phase taken = s.allocate c path priority phase taken := by
  unfold State.openWork State.canTrack
  rw [if_pos (by simpa using h)]

/-- A hand-in's record in the Operation Table (R90, R91). -/
theorem handIn_tracker_eq (id p : Nat) (tk : List Nat) (s : State) (n : Node) : (State.handIn id p tk s n).tracker =
    if id = 0 then s.tracker else { s.tracker with ops := s.tracker.ops.map (fun o =>
      if o.id = id then o.record n (s.handOutcome id n.action) else o) } := by
  have h : ∀ (s : State) i, (s.latchHardTrip i).tracker = s.tracker := by intro s i; unfold State.latchHardTrip; split <;> rfl
  have ha : ∀ o, (s.applyHand id p tk n o).tracker = s.tracker := by
    intro o
    cases o with
    | merged _ => rfl
    | alreadyOpen => rfl
    | entered => rfl
    | dropped =>
      simp only [State.applyHand]
      unfold State.latchDropped
      cases n.origin with
      | scheme i p => exact h _ i
      | direct => exact foldl_keeps State.tracker h tk _
  unfold State.handIn
  dsimp only
  split
  · exact ha _
  · unfold State.updOp State.setTracker
    dsimp only
    rw [ha]

/-- The Operation Table after hand-ins depends on the table, the queue, the points, the banks and the time alone. -/
theorem handIns_tracker_congr (id p : Nat) (tk : List Nat) (l : List Node) : ∀ {s t : State}, t.queue = s.queue → t.points = s.points →
    t.banks = s.banks → t.timeBase = s.timeBase → t.tracker = s.tracker →
    (l.foldl (State.handIn id p tk) t).tracker = (l.foldl (State.handIn id p tk) s).tracker := by
  induction l with
  | nil => intro s t _ _ _ _ h; exact h
  | cons x l ih =>
    intro s t h1 h2 h3 h4 h5
    have a := State.surroundings_eq (s.surroundings_handIn id p tk x)
    have b := State.surroundings_eq (t.surroundings_handIn id p tk x)
    rw [List.foldl_cons, List.foldl_cons]
    refine ih (handIn_queue_congr id p tk x h1 h2 h3 h4) ?_ ?_ ?_ ?_
    · rw [a.2.2.2.2.2.1, b.2.2.2.2.2.1, h2]
    · rw [a.2.2.2.2.2.2.2.1, b.2.2.2.2.2.2.2.1, h3]
    · rw [a.1, b.1, h4]
    · have hac : t.active = s.active := by unfold State.active; rw [h3]
      have ho : t.handOutcome id x.action = s.handOutcome id x.action := by
        unfold State.handOutcome State.liveEntry State.confirmOpen State.point; rw [h1, h2, hac]
      rw [handIn_tracker_eq, handIn_tracker_eq, h5, ho]

/-- A closure takes its operation out of the table (R101). -/
theorem closeOp_tracker (s : State) (op : Operation) : (s.closeOp op).tracker =
    { s.tracker with ops := s.tracker.ops.filter (fun o => o.id != op.id) } := by
  have h : ∀ (s : State) i, (s.latchHardTrip i).tracker = s.tracker := by intro s i; unfold State.latchHardTrip; split <;> rfl
  have hw : ∀ (s : State) i, (s.endWork i).tracker = s.tracker := by intro s i; unfold State.endWork; split <;> rfl
  unfold State.closeOp
  dsimp only
  rw [foldl_keeps State.tracker (fun (s : State) (p : Participation) => hw s p.scheme)]
  show TrackerState.mk (State.tracker _ |>.ops.filter _) _ = _
  have := foldl_keeps State.tracker (fun (s : State) (p : Participation) => h s p.scheme) (op.parts.filter Participation.isShort) s
  show TrackerState.mk ((State.tracker (List.foldl _ s _)).ops.filter _) (State.tracker (List.foldl _ s _)).lastId = _
  rw [this]

/-- Closures take their operations out of the table (R99, R101). -/
theorem closeOps_tracker (l : List Operation) : ∀ s : State, (l.foldl State.closeOp s).tracker =
    { s.tracker with ops := s.tracker.ops.filter (fun o => l.all (fun x => x.id != o.id)) } := by
  induction l with
  | nil =>
    intro s
    have : s.tracker.ops.filter (fun _ => true) = s.tracker.ops := List.filter_eq_self.mpr (by simp)
    simp [this]
  | cons x l ih =>
    intro s
    rw [List.foldl_cons, ih, closeOp_tracker]
    simp only [List.filter_filter, List.all_cons]
    congr 1
    apply List.filter_congr
    intro o _
    have : (o.id != x.id) = (x.id != o.id) := by simp only [bne]; rw [Bool.beq_comm]
    rw [this, Bool.and_comm]

/-- An operation with nothing left to wait for (R99). -/
theorem finished_iff (o : Operation) : o.finished = true ↔ o.phase = .tracking ∧ o.outstanding = 0 := by simp [Operation.finished]

/-- The Operation Table at the end of an event (R99). -/
theorem mem_closeFinished (s : State) (o : Operation) : o ∈ s.closeFinished.tracker.ops ↔ o ∈ s.tracker.ops
    ∧ ∀ x ∈ s.tracker.ops, x.phase = .tracking → x.outstanding = 0 → x.id ≠ o.id := by
  unfold State.closeFinished
  rw [closeOps_tracker]
  simp only [List.mem_filter, List.all_eq_true, bne_iff_ne, finished_iff]
  constructor
  · rintro ⟨h1, h2⟩; exact ⟨h1, fun x hx a b => h2 x ⟨hx, a, b⟩⟩
  · rintro ⟨h1, h2⟩; exact ⟨h1, fun x hx => h2 x hx.1 hx.2.1 hx.2.2⟩

/-- The closures at the end of an event (R99). -/
theorem closeFinished_eq (s : State) :
    s.closeFinished = (s.tracker.ops.filter (fun o => o.phase = .tracking ∧ o.outstanding = 0)).foldl State.closeOp s := by
  unfold State.closeFinished
  congr 1
  apply List.filter_congr
  intro o _
  have := finished_iff o
  by_cases h : o.finished = true
  · simp only [h]; symm; simpa using this.mp h
  · have hn : ¬ (o.phase = .tracking ∧ o.outstanding = 0) := fun e => h (this.mpr e)
    simp only [Bool.not_eq_true] at h; rw [h]; symm; simpa using hn

/-- An id joins a reference set once (R77). -/
theorem mem_insertRef (id : Nat) : ∀ (l : List Nat) x, x ∈ insertRef id l ↔ x = id ∨ x ∈ l
  | [], x => by simp [insertRef]
  | y :: l, x => by
    have := mem_insertRef id l x
    unfold insertRef
    split
    · next h => subst h; simp
    · split
      · simp
      · simp [this]; tauto

/-- The ascending order of a reference set is kept (R77). -/
theorem insertRef_pairwise (id : Nat) : ∀ l : List Nat, l.Pairwise (· < ·) → (insertRef id l).Pairwise (· < ·)
  | [], _ => by simp [insertRef]
  | y :: l, h => by
    unfold insertRef
    obtain ⟨h1, h2⟩ := List.pairwise_cons.mp h
    split
    · exact h
    · next hne =>
      split
      · next hlt =>
        refine List.pairwise_cons.mpr ⟨?_, h⟩
        intro z hz
        rcases List.mem_cons.mp hz with rfl | hz
        · exact hlt
        · have := h1 z hz; omega
      · next hnl =>
        refine List.pairwise_cons.mpr ⟨?_, insertRef_pairwise id l h2⟩
        intro z hz
        rcases (mem_insertRef id l z).mp hz with rfl | hz
        · omega
        · exact h1 z hz

/-- The confirm point of an action reads OPEN with fresh quality (R78). -/
theorem confirmOpen_iff (s : State) (a : Nat) : s.confirmOpen a = true ↔ ∃ p, (s.active.action a).confirm = some p
    ∧ (s.point p).value = .binary .opened ∧ (s.point p).quality ∈ [Quality.good, .suspect, .forced] := by
  unfold State.confirmOpen
  cases (s.active.action a).confirm with
  | none => simp
  | some p => simp only [readsOpen_iff]; simp

/-- A blocking point is in effect (R8). -/
theorem blocked_iff (s : State) (e : SchemeEntry) : s.blocked e = true ↔ ∃ p, e.blocking = some p
    ∧ (s.point p).value = .binary .opened ∧ (s.point p).quality ∈ [Quality.good, .suspect, .forced] := by
  unfold State.blocked
  cases e.blocking with
  | none => simp
  | some p => simp only [readsOpen_iff]; simp

end Sys2Proof.Machine
end

