-- ==== Sys2Proof/Laws/Timing.lean ====
section
/-! SUPPORT. The timing port and the running of own slots: what an event without a MARKER leaves of them, and what a MARKER makes of
them (R156). -/

namespace Sys2Proof.Machine

/-- From `s` to `t` no port has become LOCKED, and own slots run exactly when they did and the timing port is the same (R156). -/
def TimingKept (s t : State) : Prop :=
  (∀ side, (t.port side).state = .locked → (s.port side).state = .locked)
  ∧ (t.link.ownSlotsRun = true → s.link.ownSlotsRun = true ∧ t.timingPort = s.timingPort)
  ∧ (t.timingPort = s.timingPort → t.timingPort ≠ none → s.link.ownSlotsRun = true → t.link.ownSlotsRun = true)

/-- The timing port is East while it is LOCKED, otherwise West while it is (R156). -/
theorem timingPort_eq (s : State) : s.timingPort = if (s.port .east).state = .locked then some .east
    else if (s.port .west).state = .locked then some .west else none := by
  unfold State.timingPort LinkState.timingPort State.port LinkState.port
  cases h : s.link.east.state <;> cases h' : s.link.west.state <;> rfl

/-- A timing port that is one before and after was one throughout, when no port has become LOCKED meanwhile. -/
theorem timingPort_between {s u t : State} (h : ∀ side, (u.port side).state = .locked → (s.port side).state = .locked)
    (k : ∀ side, (t.port side).state = .locked → (u.port side).state = .locked) (he : t.timingPort = s.timingPort)
    (hn : t.timingPort ≠ none) : u.timingPort = s.timingPort := by
  rw [timingPort_eq] at he hn ⊢
  rw [timingPort_eq s] at he ⊢
  have h1 := h .east; have h2 := h .west; have k1 := k .east; have k2 := k .west
  by_cases a : (t.port .east).state = .locked
  · rw [if_pos a, if_pos (h1 (k1 a))] at he
    rw [if_pos (k1 a), if_pos (h1 (k1 a))]
  · rw [if_neg a] at he hn
    by_cases b : (t.port .west).state = .locked
    · rw [if_pos b] at he
      by_cases c : (s.port .east).state = .locked
      · rw [if_pos c] at he; cases he
      · rw [if_neg c, if_neg (fun x => c (h1 x)), if_pos (k2 b), if_pos (h2 (k2 b))]
    · rw [if_neg b] at hn; exact absurd rfl hn

/-- The relation composes. -/
theorem TimingKept.trans {s u t : State} (h : TimingKept s u) (k : TimingKept u t) : TimingKept s t := by
  refine ⟨fun side x => h.1 side (k.1 side x), fun x => ?_, fun he hn hs => ?_⟩
  · obtain ⟨a, b⟩ := k.2.1 x
    obtain ⟨c, d⟩ := h.2.1 a
    exact ⟨c, b.trans d⟩
  · have := timingPort_between h.1 k.1 he hn
    exact k.2.2 (he.trans this.symm) hn (h.2.2 this (by rw [this, ← he]; exact hn) hs)

/-- Port states kept, and own slots running as they were. -/
theorem TimingKept.same {s t : State} (h : ∀ side, (t.port side).state = (s.port side).state)
    (hr : t.link.ownSlotsRun = s.link.ownSlotsRun) : TimingKept s t :=
  ⟨fun side x => by rw [← h]; exact x, fun x => ⟨by rw [← hr]; exact x, timingPort_states h⟩, fun _ _ x => by rw [hr]; exact x⟩

/-- Ports kept, and own slots running as they were. -/
theorem TimingKept.ofPorts {z s t : State} (h : TimingKept z s) (e : t.port = s.port)
    (hr : t.link.ownSlotsRun = s.link.ownSlotsRun) : TimingKept z t := h.trans (.same (fun side => by rw [e]) hr)

/-- Link kept. -/
theorem TimingKept.link {z s t : State} (h : TimingKept z s) (e : t.link = s.link) : TimingKept z t :=
  h.ofPorts (by unfold State.port; rw [e]) (by rw [e])

/-- A record of a port whose state is kept. -/
theorem TimingKept.setPort {z s : State} (side p) (h : TimingKept z s) (hp : p.state = (s.port side).state) :
    TimingKept z (s.setPort side p) := by
  refine h.trans (.same (fun side' => ?_) ?_)
  · cases side <;> cases side' <;> first | exact hp | rfl
  · cases side <;> rfl

/-- Own slots after an event that may change a port state or takes a MARKER on it: they run when that MARKER came on the timing port, or
when they ran and the timing port is the same (R156). -/
theorem changePort_ownSlotsRun (s : State) (side : Side) (took : Bool) (p : PortRec) :
    (s.changePort side took p).link.ownSlotsRun = true ↔ (took = true ∧ (s.changePort side took p).timingPort = some side)
      ∨ ((s.changePort side took p).timingPort = s.timingPort ∧ s.timingPort ≠ none ∧ s.link.ownSlotsRun = true) := by
  have e : (s.changePort side took p).timingPort = (s.link.setPort side p).timingPort := by cases side <;> rfl
  have r : (s.changePort side took p).link.ownSlotsRun =
      (((s.link.setPort side p).timingPort.isSome && (if took then some side else none) == (s.link.setPort side p).timingPort)
        || (decide (s.link.timingPort = (s.link.setPort side p).timingPort) && s.link.ownSlotsRun
          && (s.link.setPort side p).timingPort.isSome)) := rfl
  have f : s.timingPort = s.link.timingPort := rfl
  rw [r, e, f]
  generalize (s.link.setPort side p).timingPort = a
  generalize s.link.timingPort = b
  cases took <;> cases side <;> rcases a with _ | _ | _ <;> rcases b with _ | _ | _ <;> simp

/-- An event that may take a port out of LOCKED and brings none into it, and takes no MARKER. -/
theorem TimingKept.changePort {z s : State} (side p) (h : TimingKept z s) (hp : p.state = .locked → (s.port side).state = .locked) :
    TimingKept z (s.changePort side false p) := by
  have r := changePort_ownSlotsRun s side false p
  simp only [Bool.false_eq_true, false_and, false_or] at r
  refine h.trans ⟨fun side' x => ?_, fun x => ?_, fun he hn hs => ?_⟩
  · cases side <;> cases side' <;> first | exact hp x | exact x
  · exact ⟨(r.1 x).2.2, (r.1 x).1⟩
  · exact r.2 ⟨he, by rw [← he]; exact hn, hs⟩

/-- What the take of a MARKER makes of own slots (R156). -/
theorem takeMarker_ownSlotsRun (s : State) (side : Side) (cycle : Byte) (p : PortRec) :
    (s.takeMarker side cycle p).link.ownSlotsRun = true ↔ (s.takeMarker side cycle p).timingPort = some side
      ∨ ((s.takeMarker side cycle p).timingPort = s.timingPort ∧ s.timingPort ≠ none ∧ s.link.ownSlotsRun = true) := by
  have := changePort_ownSlotsRun s side true p
  simp only [true_and] at this
  exact this

/-- What a MARKER makes of the timing port and of own slots (R156): at a change of timing port own slots run exactly when the MARKER came
on the new one; with the same timing port they go on, and one that starts them came on it. -/
def MarkerTiming (side : Side) (s t : State) : Prop :=
  (t.timingPort ≠ s.timingPort → (t.link.ownSlotsRun = true ↔ t.timingPort = some side))
  ∧ ∀ p, s.timingPort = some p → t.timingPort = some p → (s.link.ownSlotsRun = true → t.link.ownSlotsRun = true)
    ∧ (t.link.ownSlotsRun = true → s.link.ownSlotsRun = true ∨ p = side)

/-- A MARKER that is taken. -/
theorem MarkerTiming.take (s : State) (side cycle p) : MarkerTiming side s (s.takeMarker side cycle p) := by
  have r := takeMarker_ownSlotsRun s side cycle p
  refine ⟨fun hne => ⟨fun x => ?_, fun x => r.2 (.inl x)⟩, fun q h h' => ⟨fun x => ?_, fun x => ?_⟩⟩
  · exact (r.1 x).resolve_right (fun y => hne y.1)
  · exact r.2 (.inr ⟨h'.trans h.symm, by rw [h]; simp, x⟩)
  · rcases r.1 x with y | y
    · rw [h'] at y; cases y; exact .inr rfl
    · exact .inl y.2.2

/-- A MARKER that is not taken, on a port that is then not LOCKED or with every port state as it was. -/
theorem MarkerTiming.kept {s t : State} {side : Side} (h : TimingKept s t)
    (hl : t.timingPort ≠ s.timingPort → (t.port side).state ≠ .locked) : MarkerTiming side s t := by
  refine ⟨fun hne => ⟨fun x => absurd (h.2.1 x).2 hne, fun x => ?_⟩, fun q k k' => ⟨fun x => ?_, fun x => .inl (h.2.1 x).1⟩⟩
  · exfalso
    have hl := hl hne
    rw [timingPort_eq] at x
    cases side
    · rw [if_neg hl] at x; split at x <;> cases x
    · rw [if_neg hl] at x; split at x <;> cases x
  · exact h.2.2 (k'.trans k.symm) (by rw [k']; simp) x

/-- What a MARKER's use for timing makes of the timing port and of own slots (R156). -/
theorem timeMarker_timing (s : State) (side : Side) (start : Nat) (cycle : Byte) (slots : Nat) :
    MarkerTiming side s (s.timeMarker side start cycle slots) := by
  have refl : MarkerTiming side s s := .kept (.same (fun _ => rfl) rfl) (fun h => absurd rfl h)
  have down : MarkerTiming side s (s.portDown side) :=
    .kept (TimingKept.changePort side _ (.same (fun _ => rfl) rfl) (fun h => by cases h)) (fun _ h => by
      have e : (s.portDown side).port side = (s.port side).toDown := (changePort_spec s side false _).1
      rw [e] at h; cases h)
  unfold State.timeMarker
  dsimp only
  split
  · exact refl
  · split
    · exact .take _ _ _ _
    · exact refl
  · split
    · exact down
    · split <;> exact .take _ _ _ _
  · split
    · exact down
    · split
      · exact .take _ _ _ _
      · exact refl
  · split
    · refine .kept (TimingKept.setPort side _ (.same (fun _ => rfl) rfl) rfl) (fun h => absurd ?_ h)
      exact timingPort_states (fun side' => by cases side <;> cases side' <;> rfl)
    · split <;> exact .take _ _ _ _

/-- A MARKER on a LOCKED timing port at its expected position starts own slots, or keeps them running (R147, R156). -/
theorem timeMarker_runs {s : State} {side : Side} {start pos slots : Nat} (cycle : Byte) (ht : s.timingPort = some side)
    (hs : s.slotsOf side = some slots) (h4 : 4 ≤ slots) (h32 : slots ≤ 32) (hp : (s.port side).position = some pos)
    (he : start = pos + 32 * slots) :
    (s.timeMarker side start cycle slots).timingPort = some side
      ∧ (s.timeMarker side start cycle slots).link.ownSlotsRun = true := by
  have hl : (s.port side).state = .locked := by
    rw [timingPort_eq] at ht
    split at ht
    · cases ht; assumption
    · split at ht
      · cases ht; assumption
      · cases ht
  have hm : s.markerMatches side slots = true := by
    rw [markerMatches_iff h4 h32 (by rw [hl]; simp), hs]; simp
  have hx := expects_true (p := s.port side) hs hp he
  have e : s.timeMarker side start cycle slots
      = s.takeMarker side cycle { (s.port side).takeMarker start cycle with miss := 0 } := by
    unfold State.timeMarker
    simp only [hl, hm, hx, Bool.not_true, Bool.false_eq_true, if_false, if_true]
  rw [e]
  have t : (s.takeMarker side cycle { (s.port side).takeMarker start cycle with miss := 0 }).timingPort = some side := by
    rw [← ht]
    refine timingPort_states (fun side' => ?_)
    by_cases h : side' = side
    · subst h; rw [(takeMarker_spec s side' cycle _).1]; rfl
    · have : side' = side.other := by cases side <;> cases side' <;> first | rfl | exact absurd rfl h
      subst this
      rw [(takeMarker_spec s side cycle _).2.1]
  exact ⟨t, (takeMarker_ownSlotsRun _ _ _ _).2 (.inl t)⟩

/-- When an own slot starts at a word time (R140, R156, R157). -/
theorem ownSlotAt_iff (s : State) (start slot : Nat) : s.ownSlotAt start = some slot ↔ ∃ side pos slots, s.timingPort = some side
      ∧ s.link.ownSlotsRun = true ∧ (s.port side).position = some pos ∧ s.slotsOf side = some slots ∧ pos ≤ start
      ∧ (start - pos) % 32 = 0 ∧ slot = (start - pos) / 32 % slots ∧ slot ∈ s.ownSlots := by
  unfold State.ownSlotAt
  cases ht : s.timingPort with
  | none => simp
  | some t =>
    simp only [Option.some.injEq, exists_and_left, exists_eq_left']
    by_cases hr : s.link.ownSlotsRun = true
    · rw [if_pos hr]
      unfold State.slotAt State.slotHolding
      cases hs : s.slotsOf t with
      | none => simp
      | some n =>
        cases hp : (s.port t).position with
        | none => simp [slotHolding]
        | some pos =>
          by_cases hle : pos ≤ start
          · simp only [slotHolding, hle, if_true, hr, true_and, Option.some.injEq, exists_eq_left']
            generalize hm : (start - pos) % 32 = m
            cases m with
            | zero =>
              simp only [List.contains_iff_mem]
              by_cases hc : (start - pos) / 32 % n ∈ s.ownSlots
              · simp only [hc, if_true, Option.some.injEq, true_and]
                constructor
                · rintro rfl; exact ⟨rfl, hc⟩
                · rintro ⟨rfl, _⟩; rfl
              · simp only [hc, if_false, true_and]
                constructor
                · intro h; cases h
                · rintro ⟨rfl, h⟩; exact absurd h hc
            | succ m => simp
          · simp [slotHolding, hle]
    · simp [hr]

end Sys2Proof.Machine
end

