-- ==== Sys2Proof/Laws/Updates.lean ====
section
/-! SUPPORT. What follows an update of points: the evaluations, the express serves, the confirmations and the take (R50, R55). -/

namespace Sys2Proof.Machine

/-- Two changes of one element are one. -/
theorem modify_modify {α} (f g : α → α) : ∀ (l : List α) (i : Nat), (l.modify i f).modify i g = l.modify i (fun a => g (f a))
  | [], i => by cases i <;> rfl
  | x :: l, 0 => rfl
  | x :: l, i + 1 => by simp [modify_modify f g l i]

/-- What the evaluation of one contingency that is due leaves in its record (R52 to R57, R65). -/
def State.afterJudged (s : State) (c : Nat) : ContRec :=
  if (s.judged c).2 = false then (s.judged c).1
  else if s.arming.gateOpen = false then { (s.judged c).1 with state := .served, rearm := 0 }
  else if s.servesExpress c then (s.judged c).1 else { (s.judged c).1 with state := .pending }

/-- The image of the contingency is OVERSIZE. -/
def State.oversized (s : State) (c : Nat) : Bool := (s.expressImage c).any (fun img => img.status == .oversize)

/-- What a completed confirmation leaves, field by field (R55, R65). -/
theorem completed_eq (s : State) (c : Nat) : s.completed c =
    { s with
      monitor := { s.monitor with
        conts := s.monitor.conts.modify c (fun r =>
          if s.arming.gateOpen = false then { r with state := .served, rearm := 0 }
          else if s.servesExpress c then r else { r with state := .pending })
        gatedDetection := if !s.arming.gateOpen then satInc s.monitor.gatedDetection else s.monitor.gatedDetection }
      notices := { s.notices with expressFallback := s.notices.expressFallback || (s.arming.gateOpen && s.oversized c) } } := by
  have hid : ∀ (l : List ContRec), l.modify c (fun r => r) = l := fun l => List.modify_id c l
  unfold State.completed State.servesExpress State.oversized
  cases hg : s.arming.gateOpen
  · simp [State.updCont, State.setMonitor]
  · simp only [Bool.not_true, Bool.false_eq_true, if_false, Bool.true_and, reduceCtorEq]
    cases hi : s.expressImage c with
    | none => simp [State.updCont, State.setMonitor]
    | some img =>
      cases hs : img.status <;> simp [hs, State.updCont, State.setMonitor, State.raise, State.setNotices, hid,
        show (ImageStatus.invalid == .oversize) = false from rfl, show (ImageStatus.valid == .oversize) = false from rfl]

/-- What the evaluation of one contingency leaves, field by field (R51 to R57, R65). -/
theorem evaluateCont_eq (s : State) (acc : List Nat) (c : Nat) : State.evaluateCont (s, acc) c =
    ({ s with
        monitor := { s.monitor with
          conts := s.monitor.conts.modify c (fun _ => s.afterJudged c)
          gatedDetection := if (s.judged c).2 && !s.arming.gateOpen then satInc s.monitor.gatedDetection
            else s.monitor.gatedDetection }
        notices := { s.notices with
          expressFallback := s.notices.expressFallback || ((s.judged c).2 && (s.arming.gateOpen && s.oversized c)) } },
      if (s.judged c).2 && s.servesExpress c then acc ++ [c] else acc) := by
  unfold State.evaluateCont
  simp only [show (s.cont c).due (s.active.cont c) (s.condition (s.active.cont c)) = s.judged c from rfl]
  unfold State.afterJudged
  generalize hj : s.judged c = j
  obtain ⟨r, b⟩ := j
  cases b
  · simp [State.updCont, State.setMonitor]
  · simp only [if_true, Bool.true_and, Bool.true_eq_false, if_false, completed_eq]
    refine Prod.ext ?_ rfl
    show _ = _
    simp only [State.updCont, State.setMonitor, modify_modify]
    rfl

/-- A saturating counter, as a number. -/
theorem toNat_satInc (w : Word) : (satInc w).toNat = min 65535 (w.toNat + 1) := by
  unfold satInc
  split
  · next h => subst h; decide
  · next h =>
    have : w.toNat ≠ 65535 := fun e => h (BitVec.eq_of_toNat_eq (by simpa using e))
    have := w.isLt
    rw [BitVec.toNat_add]; simp; omega

/-- The evaluations of different contingencies do not touch one another: what a fold of them leaves. -/
theorem evaluateConts_fold (l : List Nat) : ∀ (s : State) (acc : List Nat), l.Nodup → (∀ c ∈ l, c < s.monitor.conts.length) →
    let r := l.foldl State.evaluateCont (s, acc)
    (∀ c, c ∉ l → r.1.cont c = s.cont c) ∧ (∀ c ∈ l, r.1.cont c = s.afterJudged c)
    ∧ r.2 = acc ++ l.filter (fun c => (s.judged c).2 && s.servesExpress c)
    ∧ r.1.monitor.gatedDetection.toNat = min 65535 (s.monitor.gatedDetection.toNat
        + (l.filter (fun c => (s.judged c).2 && !s.arming.gateOpen)).length)
    ∧ (r.1.notices.expressFallback = true ↔ s.notices.expressFallback = true
        ∨ ∃ c ∈ l, (s.judged c).2 = true ∧ s.arming.gateOpen = true ∧ s.oversized c = true)
    ∧ r.1 = { s with
        monitor := { s.monitor with conts := r.1.monitor.conts, gatedDetection := r.1.monitor.gatedDetection }
        notices := { s.notices with expressFallback := r.1.notices.expressFallback } } := by
  induction l with
  | nil =>
    intro s acc hn hc
    have := s.monitor.gatedDetection.isLt
    refine ⟨fun _ _ => rfl, by simp, by simp, ?_, by simp, rfl⟩
    simp only [List.foldl_nil, List.filter_nil, List.length_nil]; omega
  | cons c l ih =>
    intro s acc hn hc
    obtain ⟨hcl, hnl⟩ := List.nodup_cons.mp hn
    have hlen : c < s.monitor.conts.length := hc c (by simp)
    simp only [List.foldl_cons, evaluateCont_eq]
    generalize hs1 : ({ s with
        monitor := { s.monitor with
          conts := s.monitor.conts.modify c (fun _ => s.afterJudged c)
          gatedDetection := if (s.judged c).2 && !s.arming.gateOpen then satInc s.monitor.gatedDetection
            else s.monitor.gatedDetection }
        notices := { s.notices with
          expressFallback := s.notices.expressFallback || ((s.judged c).2 && (s.arming.gateOpen && s.oversized c)) } } : State) = s1
    have hself : s1.cont c = s.afterJudged c := by
      subst hs1; exact getD_modify_self _ _ hlen _ _
    have hne : ∀ d, d ≠ c → s1.cont d = s.cont d := by
      intro d hd; subst hs1; exact getD_modify_ne _ _ _ (Ne.symm hd) _ _
    have hx : ∀ d, s1.servesExpress d = s.servesExpress d := by intro d; subst hs1; rfl
    have ho : ∀ d, s1.oversized d = s.oversized d := by intro d; subst hs1; rfl
    have hg : s1.arming = s.arming := by subst hs1; rfl
    have hj : ∀ d, d ≠ c → s1.judged d = s.judged d := by
      intro d hd
      unfold State.judged
      rw [hne d hd]
      subst hs1; rfl
    have haj : ∀ d, d ≠ c → s1.afterJudged d = s.afterJudged d := by
      intro d hd; unfold State.afterJudged; rw [hj d hd, hx, hg]
    have hlen1 : s1.monitor.conts.length = s.monitor.conts.length := by subst hs1; simp
    have hnl' : ∀ d ∈ l, d ≠ c := fun d hd e => hcl (e ▸ hd)
    have IH := ih s1 (if (s.judged c).2 && s.servesExpress c then acc ++ [c] else acc) hnl
      (fun d hd => by rw [hlen1]; exact hc d (by simp [hd]))
    obtain ⟨i1, i2, i3, i4, i5, i6⟩ := IH
    have hfil : ∀ (p q : Nat → Bool), (∀ d ∈ l, p d = q d) → l.filter p = l.filter q := fun p q h => List.filter_congr h
    refine ⟨?_, ?_, ?_, ?_, ?_, ?_⟩
    · intro d hd
      simp only [List.mem_cons, not_or] at hd
      rw [i1 d hd.2, hne d hd.1]
    · intro d hd
      rcases List.mem_cons.mp hd with rfl | hd
      · rw [i1 d hcl, hself]
      · rw [i2 d hd, haj d (hnl' d hd)]
    · rw [i3, hfil _ (fun d => (s.judged d).2 && s.servesExpress d) (fun d hd => by rw [hj d (hnl' d hd), hx])]
      simp only [List.filter_cons]
      split <;> simp
    · rw [i4, hfil _ (fun d => (s.judged d).2 && !s.arming.gateOpen) (fun d hd => by rw [hj d (hnl' d hd), hg])]
      have : s1.monitor.gatedDetection = if (s.judged c).2 && !s.arming.gateOpen then satInc s.monitor.gatedDetection
            else s.monitor.gatedDetection := by subst hs1; rfl
      rw [this]
      simp only [List.filter_cons]
      split
      · rw [toNat_satInc]; simp only [List.length_cons]; omega
      · rfl
    · rw [i5]
      have : s1.notices.expressFallback = (s.notices.expressFallback || ((s.judged c).2 && (s.arming.gateOpen && s.oversized c))) := by
        subst hs1; rfl
      rw [this]
      simp only [Bool.or_eq_true, Bool.and_eq_true, List.mem_cons, hg, ho]
      constructor
      · rintro ((h | h) | ⟨d, hd, h⟩)
        · exact .inl h
        · exact .inr ⟨c, .inl rfl, h⟩
        · rw [hj d (hnl' d hd)] at h; exact .inr ⟨d, .inr hd, h⟩
      · rintro (h | ⟨d, rfl | hd, h⟩)
        · exact .inl (.inl h)
        · exact .inl (.inr h)
        · refine .inr ⟨d, hd, ?_⟩; rw [hj d (hnl' d hd)]; exact h
    · generalize List.foldl State.evaluateCont _ l = r at *
      rw [i6]; subst hs1; rfl

/-- The contingencies due are those an update makes due (R50). -/
theorem mem_dueConts (s : State) (updated : List Nat) (c : Nat) : c ∈ s.dueConts updated ↔ s.Evaluates updated c := by
  simp [State.dueConts, State.Evaluates]

/-- A confirmation is left to the express serve with the gate open and a VALID image (R55). -/
theorem servesExpress_iff (s : State) (c : Nat) : s.servesExpress c = true ↔ s.arming.gateOpen = true
    ∧ ∃ img, s.expressImage c = some img ∧ img.status = .valid := by
  unfold State.servesExpress
  cases s.expressImage c <;> simp

/-- What the evaluations of an update leave (R50 to R57, R65). -/
theorem evaluateConts_spec (s : State) (updated : List Nat) (h : s.monitor.conts.length = 64) :
    s.Evaluated updated (s.evaluateConts updated).1 (s.evaluateConts updated).2 := by
  have hp : (s.dueConts updated).Pairwise (· < ·) := List.Pairwise.filter _ List.pairwise_lt_range
  have hn : (s.dueConts updated).Nodup := hp.imp (fun h => Nat.ne_of_lt h)
  have hb : ∀ c ∈ s.dueConts updated, c < s.monitor.conts.length := fun c hc => by rw [h]; exact ((mem_dueConts _ _ _).mp hc).1
  obtain ⟨i1, i2, i3, i4, i5, i6⟩ := evaluateConts_fold _ s [] hn hb
  have hserves : ∀ c, c ∈ (s.evaluateConts updated).2 ↔ s.Evaluates updated c ∧ (s.judged c).2 = true ∧ s.servesExpress c = true := by
    intro c
    show c ∈ (List.foldl State.evaluateCont (s, []) (s.dueConts updated)).2 ↔ _
    rw [i3]; simp [mem_dueConts]
  refine ⟨fun c hc => i1 c (fun hm => hc ((mem_dueConts _ _ _).mp hm)), ?_, ?_, ⟨?_, ?_⟩, ?_, ?_, i6⟩
  · intro c hc hj
    have := i2 c ((mem_dueConts _ _ _).mpr hc)
    rw [State.afterJudged, if_pos hj] at this
    exact this
  · intro c hc hj
    have := i2 c ((mem_dueConts _ _ _).mpr hc)
    rw [State.afterJudged, if_neg (by simp [hj])] at this
    rw [show (s.evaluateConts updated).1.cont c = _ from this]
    have hcs := hserves c
    by_cases hg : s.arming.gateOpen = false
    · simp [hg]
    · rw [if_neg hg, if_neg hg]
      by_cases hx : s.servesExpress c = true
      · rw [if_pos hx, if_pos (hcs.mpr ⟨hc, hj, hx⟩)]
      · rw [if_neg hx, if_neg (fun hm => hx (hcs.mp hm).2.2)]
  · show (List.foldl State.evaluateCont (s, []) (s.dueConts updated)).2.Pairwise _
    rw [i3]; simpa using hp.filter _
  · intro c
    rw [hserves c, servesExpress_iff]
  · refine ⟨(s.dueConts updated).filter (fun c => (s.judged c).2 && !s.arming.gateOpen), hn.filter _, ?_, i4⟩
    intro c; simp [mem_dueConts]
  · show (List.foldl State.evaluateCont (s, []) (s.dueConts updated)).1.notices.expressFallback = true ↔ _
    rw [i5]
    have ho : ∀ c, s.oversized c = true ↔ ∃ img, s.expressImage c = some img ∧ img.status = .oversize := by
      intro c; unfold State.oversized; cases s.expressImage c <;> simp
    simp only [mem_dueConts, ho]
    constructor
    · rintro (h | ⟨c, h1, h2, h3, h4⟩)
      · exact .inl h
      · exact .inr ⟨h3, c, h1, h2, h4⟩
    · rintro (h | ⟨h3, c, h1, h2, h4⟩)
      · exact .inl h
      · exact .inr ⟨c, h1, h2, h3, h4⟩

/-- A point as it stood before the event, if the event has left it reading OPEN. -/
theorem beforeOpening_eq (a b : PointRec) : a.beforeOpening b =
    if a.value = .binary .opened ∧ a.quality ∈ [Quality.good, .suspect, .forced] then b else a := by
  unfold PointRec.beforeOpening
  have := readsOpen_iff a
  by_cases h : a.readsOpen = true
  · rw [if_pos h, if_pos (this.mp h)]
  · rw [if_neg h, if_neg (fun e => h (this.mpr e))]

/-- All that follows an update of points in one event (R50, R55, R59, R92, R99, R111). -/
theorem afterUpdates_spec (s : State) (before : List PointRec) (updated : List Nat) (h : s.monitor.conts.length = 64) :
    s.UpdateEvent before updated (s.afterUpdates before updated) := by
  refine ⟨_, _, evaluateConts_spec s updated h, ?_, ?_⟩
  · intro hs
    simp [State.afterUpdates, State.confirmAndServe, hs]
  · intro hs
    have he : ((s.evaluateConts updated).2).isEmpty = false := by simpa using hs
    simp only [State.afterUpdates, State.confirmAndServe, he, Bool.false_eq_true, if_false]
    cases hd : (s.evaluateConts updated).1.drawConfirmFirst.1
    · right
      simp only [Bool.false_eq_true, if_false, State.servesFirst]
      rw [show PointRec.beforeOpening = fun a b => if a.value = .binary .opened ∧
          a.quality ∈ [Quality.good, .suspect, .forced] then b else a
        from by funext a b; exact beforeOpening_eq a b]
      rfl
    · left; rfl

end Sys2Proof.Machine
end

