-- ==== Sys2Proof/Tests/Slice0.lean ====
section
/-! SUPPORT. Tests: an ill-formed term for each check of WellFormed, the spec's worked cases, one step of every command on a small
configured part, and for every statement with hypotheses a state and operands that meet them. -/

set_option Elab.async false

namespace Sys2Proof.Tests

open Sys2Proof.Machine

/-! ### WellFormed: each check refuses an ill-formed term -/

/-- A reception on the East port at the start of slot 14, from station 9. -/
def rx : Reception := ⟨.east, 448, 9, 117, 63, 0⟩

theorem test_payload_above_24_refused :
    (Instr.publish rx (List.replicate 25 0)).wellFormed = false ∧ (Instr.publish rx (List.replicate 24 0)).wellFormed = true := by
  decide
theorem test_lost_payload_above_24_refused : (Instr.requestLost rx (List.replicate 25 0)).wellFormed = false := by decide
theorem test_received_above_27_refused :
    (Instr.damagedFrame .east 0 true (List.replicate 28 0)).wellFormed = false
    ∧ (Instr.loopedFrame .east true (List.replicate 28 0)).wellFormed = false
    ∧ (Instr.loopedFrame .east true (List.replicate 27 0)).wellFormed = true := by decide
theorem test_arguments_above_23_refused :
    (Instr.load rx 0 (List.replicate 24 0)).wellFormed = false
    ∧ (Instr.load rx 0 (List.replicate 23 0)).wellFormed = true := by decide
theorem test_extra_above_22_refused : (Instr.portRestart rx 0 0 (List.replicate 23 0)).wellFormed = false := by decide
theorem test_repeated_publish_refused : (Instr.repeatedFrame rx 1 [0]).wellFormed = false := by decide
theorem test_repeated_marker_refused : (Instr.repeatedFrame rx 0 [0]).wellFormed = false := by decide
theorem test_repeated_marker_of_two_words_accepted : (Instr.repeatedFrame rx 0 [0, 0]).wellFormed = true := by decide
theorem test_unknown_request_with_a_known_code_refused :
    (Instr.unknownRequest rx 0x12 0 []).wellFormed = false ∧ (Instr.unknownRequest rx 0x13 0 []).wellFormed = true
    ∧ (Instr.unknownRequest rx 0 0 []).wellFormed = true := by decide
theorem test_read_counters_without_word_1_refuses_extra :
    (Instr.readCounters rx 0 none [0]).wellFormed = false ∧ (Instr.readCounters rx 0 none []).wellFormed = true := by decide

/-- No row of the table has bits, so no word spells a command. -/
theorem test_no_word_spells_a_command : decodeTableWord 16 0 = none ∧ decodeTableWord 0 0 = none := ⟨rfl, rfl⟩

/-! ### The spec's worked cases -/

/-- A scheme entry with the given requirement settings. -/
def requirementOf (q limit : Int) (k bias cap : Nat) : Nat :=
  ({ enable := true, inputs := [], armLevel := 0, stressLevel := 0, floor := 0, backstopLevel := 0, limit := limit, hysteresis := 0,
     armNeeded := 1, disarmNeeded := 1, holdCode := 0, escalation := 0, lenient := false, walkEnable := false,
     backstopEnable := false, step := 1, hardTripEnable := false, sensitivity := k, shedList := none, bias := bias, cap := cap,
     blocking := none, resetDelay := 0 } : SchemeEntry).requirement q

/-- The nine rows of section 2.2.1 (R31). -/
theorem test_requirement_cases :
    requirementOf 28450 25000 320 500 60000 = 4813 ∧ requirementOf 24000 25000 320 500 60000 = 500
    ∧ requirementOf 24000 25000 320 0 60000 = 0 ∧ requirementOf 25001 25000 1 0 60000 = 1
    ∧ requirementOf 25512 25000 256 0 60000 = 512 ∧ requirementOf 28450 25000 320 500 400 = 400
    ∧ requirementOf 30000 25000 0 700 60000 = 700 ∧ requirementOf 30000 25000 320 500 0 = 0
    ∧ requirementOf 1048544 (-1000000) 1023 60000 60000 = 60000 := by decide

/-- An analog point entry. -/
def analogEntry (unsigned : Bool) (rawZero gain : Int) : PointEntry :=
  ⟨.analog, 6, unsigned, 0, 0, 300, rawZero, gain, none, 0, false⟩

/-- The nine rows of section 6.8.1 (R112). -/
theorem test_scaling_cases :
    (analogEntry false 0 2560).decode 0x2EE0 = some (.analog 30000)
    ∧ (analogEntry true 0 1024).decode 0xEA60 = some (.analog 32767)
    ∧ (analogEntry false 0 512).decode 0x0003 = some (.analog 2)
    ∧ (analogEntry false 0 512).decode 0xFFFD = some (.analog (-2))
    ∧ (analogEntry false 0 100).decode 0x0005 = some (.analog 0)
    ∧ (analogEntry false 200 (-1024)).decode 0x03E8 = some (.analog (-800))
    ∧ (analogEntry true 32767 1024).decode 0x9C40 = some (.analog 7233)
    ∧ (analogEntry false 0 1024).decode 0x8000 = some (.analog (-32767))
    ∧ (analogEntry true (-32768) (-32768)).decode 0xFFFF = some (.analog (-32767)) := by decide

/-- R10's worked case: 142,408 divided by 16 is 8,900.5, which rounds to 8,901; and its mirror. -/
theorem test_round_half_away : roundHalfAway 142408 16 = 8901 ∧ roundHalfAway (-142408) 16 = -8901 := by decide

/-- STATUS reports Q divided by 10 (R175): 8,901 gives 890, 8,905 gives 891, and the range is clamped. -/
theorem test_status_q : statusQ 8901 = 890 ∧ statusQ 8905 = 891 ∧ statusQ (-1048544) = -32767 := by decide

/-- R163's and section 11's worked case: action 24, and the two argument words of its LOAD. -/
theorem test_action_image :
    let b : Bank := ⟨.modified, BankWords.writeRun [] (TableKind.action.address 24 0) [0x3C90, 0x81C9, 0x0028]⟩
    b.action 24 = ⟨15, 2, 2, some 201, none, 40⟩ := by decide +kernel
theorem test_load_argument_words :
    TableKind.ofCode (bits 0x0618 8 4) = some .action ∧ bits 0x0618 0 8 = 24 ∧ bits 0x0003 8 8 = 0 ∧ bits 0x0003 0 8 = 3 := by
  decide

/-- The 3,303 words of a bank (section 9.1): the last word of the last table. -/
theorem test_bank_size : TableKind.contingency.address 63 4 + 1 = 3303 := by decide

/-- The check word of R182 is linear apart from its last inversion: one set bit at the end leaves the polynomial itself. -/
theorem test_check_word_of_one : checkWord [0x0001] = ~~~ 0x3D65 ∧ checkWord [] = 0xFFFF := by decide +kernel

/-- The known value of this polynomial's check over the nine bytes "123456789", final inversion included: 0xC2B7 (from the published
catalogue of check polynomials, outside the spec). -/
theorem test_check_word_of_nine_bytes :
    ~~~ ([false, false, true, true, true, false, false, true].foldl checkBit
      ([0x3132, 0x3334, 0x3536, 0x3738].foldl checkStep 0)) = 0xC2B7 := by decide +kernel

/-- A DOUBLE point's codes (R114) on bits 5 and 4. -/
theorem test_double_codes :
    let e : PointEntry := ⟨.double, 6, false, 0, 7, 1000, 4, 0, none, 4, false⟩
    e.decode 0x0010 = some (.binary .opened) ∧ e.decode 0x0020 = some (.binary .closed)
    ∧ e.decode 0x0000 = some (.binary .intermediate) ∧ e.decode 0x0030 = none := by decide

/-- Section 2.9.1: eligible positions 0, 2 and 4 of a list, requirement 4,813. -/
theorem test_selection_normal :
    selectionWalk (fun p => if p = 0 then some 1820 else if p = 2 then some 950 else if p = 4 then some 2210 else none) 4813
      (List.range 16) [] 0 = ([⟨0, 1820⟩, ⟨2, 950⟩, ⟨4, 2210⟩], 4980, 5) := by decide

/-- Section 2.9.2: ten units of 1,000; the eighth place ends the walk, and the replacement searches go on from 8, 9 and 10. -/
theorem test_selection_place_limit :
    (selectionWalk (fun p => if p < 10 then some 1000 else none) 9000 (List.range 16) [] 0).2 = (8000, 8)
    ∧ firstEligible (fun p => if p < 10 then some 1000 else none) ((List.range 16).drop 8) = some (8, 1000)
    ∧ firstEligible (fun p => if p < 10 then some 1000 else none) ((List.range 16).drop 10) = none := by decide

/-- Section 2.9.3: amounts 700, 0 and 1,100 against 2,500; the walk ends at 16. -/
theorem test_selection_short :
    selectionWalk (fun p => if p = 1 then some 700 else if p = 3 then some 0 else if p = 8 then some 1100 else none) 2500
      (List.range 16) [] 0 = ([⟨1, 700⟩, ⟨3, 0⟩, ⟨8, 1100⟩], 1800, 16) := by decide

/-- The cycle of operation ids (R88): 255 is followed by 1, and an open id is passed over. -/
theorem test_next_id : nextId 254 = 255 ∧ nextId 255 = 1 ∧ freeId [255, 1] 9 (nextId 254) = 2 := by decide

/-! ### A configured part -/

/-- An entry image written into a bank's words. -/
def image (k : TableKind) (entry : Nat) (words : List Word) (m : BankWords) : BankWords := m.writeRun (k.address entry 0) words

/-- Scheme 3 of section 1.5: inputs 40 × 16 and 41 × 8, A_set 9,000, S_top 8,500, A_floor 8,000, backstop 9,800, L 8,000, H 300,
Na 3, Nd 2, 60 s, escalation 2, walk-down and backstop enabled, Δ 250, hard trip enabled, k 320, list 2, B 500, cap 60,000, reset
delay 10 s. -/
def scheme3 : List Word :=
  [0x2810, 0x2908, 0x0080, 0x0080, 0x0080, 0x0080, 0x0080, 0x0080, 0, 9000, 0, 8500, 0, 8000, 0, 9800, 0, 8000, 0, 300,
   0xC823, 0xA0FA, 0x0940, 500, 60000, 0, 10, 0]

/-- The settings of the tests. Link: S 32, own slots 9 and 25, part address 30, engineering station 3, isolation at 4 strikes,
auto-rejoin. E 20 ms, master hard trip, express contingencies 12 and 33. Station 3 (address 9, slot 14, m 80, K 1) and station 6
(address 12, slot 20, m 4, K 2), each with a window of 100 ms. Points 40, 41 and 52 ANALOG, 53 DOUBLE, 54 SINGLE, from station 6;
130 DOUBLE from station 3; 201 and 202 SINGLE from station 3. Scheme 3 with list 2, whose position 0 is action 24 and position 1
action 27. Contingency 21 is ANY, EDGE, confirm 2, rearm 3, priority 2, on point 130, for scheme 3; contingency 12 is priority 3,
confirm 1, on point 130, for scheme 3. -/
def settings : BankWords :=
  image .link 0 [0x37A0, 0x0342, 0x1909, 0] <|
  image .params 0 [0x8014, 12, 33] <|
  image .station 3 [0x924E, 100, 80] <|
  image .station 6 [0xA314, 100, 4] <|
  image .point 40 [0x4C00, 300, 0, 1024, 0x8000] <|
  image .point 41 [0x4C01, 300, 0, 1024, 0x8000] <|
  image .point 52 [0x4C03, 300, 0, 2560, 25000] <|
  image .point 53 [0xCC07, 1000, 4, 0, 0] <|
  image .point 54 [0x8C02, 0, 16, 0, 0] <|
  image .point 130 [0xC600, 1000, 0, 0, 0] <|
  image .point 201 [0x8601, 1000, 16, 0, 0] <|
  image .point 202 [0x8602, 1000, 16, 0, 0] <|
  image .scheme 3 scheme3 <|
  image .shed 32 [0xC018, 0x3634, 0, 0xC01B, 0x3634, 0] <|
  image .action 24 [0x2490, 0x81C9, 0x0028] <|
  image .action 27 [0x2418, 0x01CA, 0x383C] <|
  image .action 28 [0x2548, 0x8000, 0x003C] <|
  image .contingency 12 [0x8471, 0x8200, 0, 0x0008, 0] <|
  image .contingency 21 [0xA8E1, 0x8200, 0, 0x0008, 0] []

/-- A port LOCKED since word time 0 with cycle 116. -/
def lockedPort : PortRec := ⟨.locked, none, some 0, some 116, 4, 0, 0, false, 0, .zero⟩

/-- Points as they stand in the tests: 40 and 41 as in the case of R10, 52 at 28,100, 53 and 54 CLOSED, 130 and 201 CLOSED. -/
def labPoints : List PointRec :=
  (List.range 256).map (fun i =>
    match i with
    | 40 => ⟨.analog 6100, .good, none, some 6100⟩
    | 41 => ⟨.analog 5601, .held, some 41150, some 5601⟩
    | 52 => ⟨.analog 28100, .good, none, some 11240⟩
    | 53 | 54 | 130 | 201 | 202 => ⟨.binary .closed, .good, none, some 0⟩
    | _ => .fresh (.analog 0))

/-- A part with the settings in Bank A, both ports LOCKED, at 41,200 ms, its gate closed and scheme 3 GATED. -/
def lab : State := { State.reset with
  timeBase := 41200
  link := ⟨lockedPort, lockedPort, 116, true, []⟩
  points := labPoints
  arming := { State.reset.arming with
    schemes := (List.replicate 16 (.fresh .off false)).set 3 (.fresh .gated false)
    settleEnded := true, nextEvaluation := some 41200 }
  banks := ⟨⟨.valid, settings⟩, .blank, false⟩ }

/-- The same part with its gate open and scheme 3 as given. -/
def working (r : SchemeRec) : State := { lab with arming := { lab.arming with
  gateOpen := true, startRequested := true, schemes := (List.replicate 16 (.fresh .off false)).set 3 r } }

/-- A REQUEST from the engineering station to the part in slot 5 of the East port. -/
def rq : Reception := ⟨.east, 160, 3, 116, 30, 0⟩

/-- The state after a command; no command of the part stops. -/
def result (c : Instr) (s : State) : State :=
  match exec c s with
  | .next t => t
  | .fault f => nomatch f
  | .refused _ => s

/-- The result code of the reply waiting in the holder. -/
def answer (s : State) : Option Nat := s.agent.holder.map (fun h => bits (h.payload.getD 1 0) 0 4)

/-- The settings decode to what their docstring says. -/
theorem test_settings_decode :
    lab.active.link = ⟨32, 2, [9, 25], 30, 3, true, 4, true⟩ ∧ lab.active.params = ⟨20, some 12, some 33, true⟩
    ∧ lab.active.station 3 = ⟨true, false, 1, 9, 14, 100, 80⟩ ∧ lab.active.station 6 = ⟨true, false, 2, 12, 20, 100, 4⟩
    ∧ lab.active.point 52 = ⟨.analog, 6, false, 0, 3, 300, 0, 2560, some 25000, 0, false⟩
    ∧ (lab.active.point 53).kind = .double ∧ (lab.active.point 53).bitNumber = 4
    ∧ lab.active.action 24 = ⟨9, 2, 2, some 201, none, 40⟩ ∧ lab.active.action 27 = ⟨9, 0, 3, some 202, some 28, 60⟩
    ∧ lab.active.action 28 = ⟨9, 5, 1, none, none, 60⟩
    ∧ lab.active.cont 21 = ⟨true, false, true, 2, 3, 2, [130], 0x0008, none⟩ := by decide +kernel
theorem test_scheme_decodes :
    lab.active.scheme 3 = ⟨true, [⟨40, 16⟩, ⟨41, 8⟩], 9000, 8500, 8000, 9800, 8000, 300, 3, 2, 0, 2, false, true, true, 250, true,
      320, some 2, 500, 60000, none, 10⟩ := by decide +kernel

/-! ### One step of each command -/

/-- Scheme 3 DISARMED, as the sequence of section 1.5 begins. -/
def disarmed3 : SchemeRec := .fresh .disarmed false

/-- A selection record. -/
def selection3 : SelRecord := ⟨4813, [⟨0, 1820⟩, ⟨1, 950⟩], 2770, .short, 16, 41180⟩

/-- Scheme 3 ARMED. -/
def armed3 : SchemeRec := { disarmed3 with state := .armed, selection := some selection3 }

/-- Scheme 3 OPERATING. -/
def operating3 : SchemeRec := .fresh .operating false

/-- The lab as an update that makes point 130 OPEN leaves it, before its evaluations. -/
def opened130 : State := { lab with points := labPoints.set 130 ⟨.binary .opened, .good, none, some 1⟩ }

/-- The working part with another value of point 41, so that Q is (97,600 + 8 × value) / 16. -/
def stressed (value : Int) (r : SchemeRec) : State :=
  { working r with points := labPoints.set 41 ⟨.analog value, .good, none, some 0⟩ }

/-- The snapshot of contingency 21's service under operation 17. -/
def snapshot21 : Snapshot := ⟨21, 2, 17, [⟨3, selection3⟩], none, 41198⟩

/-- Operation 17 as its take opened it: scheme 3 with two candidates, heads 24 and 27. -/
def operation17 : Operation :=
  { id := 17, contingency := 21, path := .ordinary, priority := 2, phase := .expanding, takeTime := 41198, takeCycle := 116
    parts := [⟨3, some ⟨4813, [⟨0, 1820, 24, .outstanding, []⟩, ⟨1, 950, 27, .outstanding, []⟩], 0, 0, 16, none⟩⟩]
    direct := [], outstanding := 0, overflow := false }

/-- The live entry of action 24 for operation 17, at its deadline now. -/
def entry24 : Entry := ⟨24, 9, 2, 2, 2, 0, 7, 41200, .waiting, [17]⟩

/-- The engine SERVING contingency 21. -/
def serving : State := { working operating3 with
  engine := some snapshot21
  tracker := ⟨[operation17], 17⟩
  monitor := { lab.monitor with conts := lab.monitor.conts.set 21 ⟨.serving, 0, 0, .true, false⟩ } }

/-- Operation 17 tracking its one entry, with escalation impossible: the list ends before the continuation position. -/
def tracking : State := { working operating3 with
  tracker := ⟨[{ operation17 with phase := .tracking, outstanding := 1 }], 17⟩
  queue := ⟨[entry24], 8⟩ }

theorem test_power_on_reset :
    let t := result (.powerOnReset .assert) { serving with log := ⟨[], 95⟩ }
    t.powerHeld = true ∧ t.timeBase = 0 ∧ (t.scheme 3).state = .gated ∧ t.engine = none ∧ t.log.nextSeq = 0
    ∧ t.arming.nextEvaluation = some 20 := by decide +kernel
theorem test_power_on_release_when_not_held_changes_nothing : result (.powerOnReset .release) lab = lab.quiet := rfl
theorem test_reset_pin_keeps_the_log :
    let t := result (.resetPin .release) { serving with pinHeld := true, log := ⟨[], 95⟩ }
    t.pinHeld = false ∧ t.log.nextSeq = 95 ∧ t.arming.gateOpen = false ∧ t.tracker = ⟨[], 0⟩ := by decide +kernel
theorem test_held_part_does_not_tick : (result .timeBaseTick { lab with pinHeld := true }).timeBase = 41200 := by decide +kernel
theorem test_slot_end_restart :
    let t := result .slotEndRestart { serving with agent := ⟨none, 4, true⟩ }
    t.agent = ⟨none, 0, false⟩ ∧ t.timeBase = 0 ∧ (t.port .east).state = .down ∧ t.banks.activeB = false := by decide +kernel
theorem test_tick : (result .timeBaseTick lab).timeBase = 41201 ∧ (result .timeBaseTick { lab with timeBase := 0xFFFFFFFF }).timeBase = 0 := by
  decide +kernel

/-- Rows 40,000 and 40,020 of section 1.5. -/
theorem test_evaluation_stress :
    let t := result .armingEvaluation (working disarmed3)
    (t.scheme 3).q = 8901 ∧ (t.scheme 3).stress = 1 ∧ (t.scheme 3).walk = 0 ∧ (t.scheme 3).state = .disarmed
    ∧ t.arming.nextEvaluation = some 41220 := by decide +kernel
theorem test_evaluation_steps_and_arms :
    let t := result .armingEvaluation (stressed 5700 { disarmed3 with stress := 1 })
    (t.scheme 3).q = 8950 ∧ (t.scheme 3).walk = 250 ∧ (t.scheme 3).holdTimer = some 101200 ∧ (t.scheme 3).stress = 0
    ∧ (t.scheme 3).state = .arming ∧ (t.scheme 3).armCount = 1 ∧ t.notices.marginWalked = true := by decide +kernel
theorem test_hold_timer_expiry :
    ((result (.holdTimerExpiry 3) (working { disarmed3 with holdTimer := some 41200, stress := 2 })).scheme 3)
      = { disarmed3 with stress := 2 } := by decide +kernel
theorem test_reset_timer_expiry :
    ((result (.resetTimerExpiry 3) (working { SchemeRec.fresh .operated true with resetTimer := some 41200, walk := 250 })).scheme 3)
      = { SchemeRec.fresh .disarmed true with walk := 250 } := by decide +kernel

/-- Section 1.7: START before the settle interval's end, which then opens the gate. -/
theorem test_settle_interval_end :
    let t := result .settleIntervalEnd { lab with timeBase := 2000, arming := { lab.arming with settleEnded := false, startRequested := true } }
    t.arming.gateOpen = true ∧ (t.scheme 3).state = .disarmed := by decide +kernel
theorem test_settle_interval_end_without_start :
    (result .settleIntervalEnd { lab with timeBase := 2000, arming := { lab.arming with settleEnded := false } }).arming.gateOpen = false := by
  decide +kernel

/-- Station 6 in a window that began at 41,100 with `count` publications. -/
def windowed (count : Nat) (f : Freshness) : State :=
  { lab with intake := { lab.intake with stations := lab.intake.stations.set 6 ⟨f, count, 41100, some 115, 0, 0, 0⟩ } }

/-- Section 6.8.2, row 10,200: SILENT, two discards, points HELD, and a point of hold limit 0 STALE at once. -/
theorem test_window_end_silent :
    let t := result (.windowEnd 6) (windowed 0 .fresh)
    (t.station 6).freshness = .silent ∧ (t.station 6).rejoinLeft = 2 ∧ (t.point 52).quality = .held
    ∧ (t.point 52).holdStart = some 41200 ∧ (t.point 54).quality = .stale ∧ (t.point 130).quality = .good := by decide +kernel
theorem test_window_end_degraded :
    ((result (.windowEnd 6) (windowed 3 .fresh)).station 6) = ⟨.degraded, 0, 41200, some 115, 0, 0, 0⟩ := by decide +kernel

/-- Section 6.8.2, row 10,500: the substitute value under SUBSTITUTE. -/
theorem test_stale_change :
    ((result (.staleChange 52) { lab with points := labPoints.set 52 ⟨.analog 28100, .held, some 40900, none⟩ }).point 52)
      = ⟨.analog 25000, .stale, none, none⟩ := by decide +kernel

/-- Section 5.10.2: the entry leaves, its candidate is FAILED; with no eligible replacement the operation closes and is logged. -/
theorem test_entry_expiry :
    let t := result (.entryExpiry 24) tracking
    t.queue.entries = [] ∧ t.tracker.ops = [] ∧ t.log.records.map LogRecord.seq = [0] ∧ (t.scheme 3).state = .operated
    ∧ (t.scheme 3).hardTrip = true ∧ (t.scheme 3).resetTimer = some 51200 := by decide +kernel
theorem test_entry_not_at_its_deadline_stays :
    (result (.entryExpiry 24) { tracking with timeBase := 41199 }).queue.entries = [entry24] := by decide +kernel

/-- An expansion completion hands three nodes in, serves the contingency and returns the engine to IDLE. -/
theorem test_expansion_completion :
    let t := result .expansionCompletion serving
    (t.cont 21).state = .served ∧ t.monitor.lastServed = some 21 ∧ t.engine = none
    ∧ t.queue.entries.map Entry.action = [24, 27, 28] ∧ t.tracker.ops.map Operation.outstanding = [3]
    ∧ t.tracker.ops.map Operation.phase = [.tracking] := by decide +kernel
theorem test_expansion_completion_when_idle : result .expansionCompletion lab = lab.quiet := rfl

/-- Section 8.10.1: a STATUS frame leaves West at once and waits on East, which West feeds. -/
theorem test_own_slot_status :
    let t := result (.ownSlotStart 288) lab
    t.out.map (fun e => (e.tx, e.slot, e.words.length)) = [(.west, some 9, 27)]
    ∧ t.link.waiting.map (fun w => (w.tx, w.slot)) = [(.east, 9)] := by decide +kernel

/-- A TRIP frame: two words a command, its header kind 2 from address 30 with 3 payload words; the entry is SENDING afterwards. -/
theorem test_own_slot_trip :
    let t := result (.ownSlotStart 288) tracking
    t.out.map (fun e => e.words.take 5) = [[0x2783, 0x74FC, 0x0001, 0x24A0, 0x1118]]
    ∧ t.queue.entries = [{ entry24 with repeats := 1, sent := 1, state := .sending }] := by decide +kernel
theorem test_waiting_copy_send :
    let t := result (.waitingCopySend .east 288) { lab with link := { lab.link with waiting := [⟨.east, 9, [1]⟩] } }
    t.out = [⟨.east, false, some 9, [1]⟩] ∧ t.link.waiting = [] := by decide +kernel

/-- A MARKER of S 32 in DOWN starts acquisition, and a fourth at the expected position locks (R145, R146). -/
theorem test_marker_acquires :
    let t := result (.marker ⟨.east, 150, 0, 40, 63, 0⟩ 32) { lab with link := .reset }
    (t.port .east).state = .acquiring ∧ (t.port .east).acquisition = 1 ∧ (t.port .east).cycle = some 40 := by decide +kernel
theorem test_marker_locks :
    let t := result (.marker ⟨.east, 1024, 0, 43, 63, 0⟩ 32)
      { lab with link := { LinkState.reset with east := { lockedPort with state := .acquiring, acquisition := 3 } } }
    (t.port .east).state = .locked ∧ t.timingPort = some .east ∧ t.link.ownSlotsRun = true := by decide +kernel
theorem test_missed_marker :
    ((result (.missedMarker .west) lab).port .west).miss = 1
    ∧ ((result (.missedMarker .west) { lab with link := { lab.link with west := { lockedPort with miss := 2 } } }).port .west)
      = .down { PortCounters.zero with markerMissed := 1 } := by decide +kernel
theorem test_babble :
    let t := result (.babble .east) { lab with link := { lab.link with east := { lockedPort with strikes := 3 } } }
    (t.port .east).state = .isolated ∧ (t.port .east).strikes = 4 ∧ t.notices.portIsolated = true
    ∧ t.timingPort = some .west := by decide +kernel

/-- Section 7.7.1: the East copy is accepted, the West copy is a duplicate. -/
theorem test_publish :
    let s := { lab with intake := { lab.intake with stations := lab.intake.stations.set 3 ⟨.fresh, 37, 41150, some 116, 0, 0, 0⟩ } }
    let t := result (.publish rx [0x0002, 0x0010]) s
    (t.station 3).windowCount = 38 ∧ (t.station 3).lastCycle = some 117 ∧ (t.point 130).value = .binary .closed
    ∧ (t.point 130).quality = .good ∧ ((result (.publish ⟨.west, 448, 9, 117, 63, 0⟩ []) t).station 3).duplicate = 1 := by
  decide +kernel

/-- Section 3.8.1's last event: an edge already confirming completes; PENDING, then taken at once, with scheme 3 OPERATING. -/
theorem test_publish_completes_and_takes :
    let s := { working armed3 with monitor := { lab.monitor with conts :=
      (lab.monitor.conts.set 21 ⟨.confirming, 1, 0, .true, false⟩).set 12 ⟨.served, 0, 0, .true, false⟩ } }
    let t := result (.publish rx [0x0001]) s
    (t.cont 21).state = .serving ∧ t.engine.map Snapshot.contingency = some 21 ∧ (t.scheme 3).state = .operating
    ∧ t.tracker.ops.map Operation.id = [1] := by decide +kernel
/-- R92's order "serve first": the serve enters the node, although its confirm point opens in the same event, and the confirmation
then finishes it; with the confirmations first it is ALREADY_OPEN and receives no order number. -/
theorem test_serve_first_enters_and_confirms :
    let before := { working armed3 with monitor := { lab.monitor with
      imageA := ⟨.valid, [⟨3, selection3⟩], [⟨24, .scheme 3 0⟩]⟩ } }
    let s := { before with points := labPoints.set 201 ⟨.binary .opened, .good, none, some 0⟩ }
    let served := s.servesFirst before.points [12]
    let t := served.confirmUpdated [201]
    served.queue.entries.map Entry.action = [24] ∧ served.points = s.points ∧ t.queue = ⟨[], 2⟩
    ∧ t.tracker.ops.map Operation.outstanding = [0]
    ∧ t.tracker.ops.flatMap (fun o => o.parts.filterMap (fun p => p.taken.map TakenPart.confirmed)) = [1820]
    ∧ ((s.confirmUpdated [201]).expressServes [12]).queue = ⟨[], 1⟩ := by decide +kernel
theorem test_repeated_frame :
    ((result (.repeatedFrame ⟨.east, 160, 7, 0, 63, 0⟩ 4 [1, 2]) lab).out.map (fun e => (e.tx, e.slot, e.words.take 4)))
      = [(.west, some 5, [0x41C2, 0x00FC, 1, 2])]
    ∧ ((result (.repeatedFrame ⟨.east, 288, 7, 0, 63, 0⟩ 4 []) lab).port .east).counters.slotConflict = 1 := by decide +kernel
theorem test_damaged_frame :
    let t := result (.damagedFrame .east 160 true [0x1242, 0x00FC]) lab
    (t.port .east).counters.truncated = 1 ∧ t.out.map (fun e => e.words.length) = [5]
    ∧ t.out.map (fun e => damageOf true e.words) = [some .badCheck] := by decide +kernel
/-- R150: a frame off its slot's start keeps the guard: of one whose marker falls on word time 27 no header word leaves, and of one at
28 nothing is sent. -/
theorem test_guard_cuts_a_broken_frame :
    let sent := fun at' => (result (.damagedFrame .east (160 + at') true [0x1242, 0x00FC]) lab).out.map (fun e => e.words.length)
    sent 27 = [0] ∧ sent 28 = [] := by decide +kernel
theorem test_looped_frame :
    let s := { lab with link := { lab.link with west := { lockedPort with state := .loopback } } }
    ((result (.loopedFrame .west true (frameWords [0x5780, 0] [])) s).port .west).counters.loopGood = 1
    ∧ ((result (.loopedFrame .west true [0x5780, 0, 0]) s).port .west).counters.loopBad = 1 := by decide +kernel
theorem test_request_lost :
    let t := result (.requestLost rq [0x0100]) { lab with agent := ⟨some ⟨3, [], false⟩, 65535, false⟩ }
    t.agent.requestLost = 65535 ∧ t.notices.requestLost = true := by decide +kernel

theorem test_unknown_request : answer (result (.unknownRequest rq 0x40 1 []) lab) = some 6 := by decide +kernel
theorem test_identify :
    answer (result (.identify { rq with dest := 63, source := 17 } 1 []) lab) = some 0
    ∧ answer (result (.identify { rq with dest := 29 } 1 []) lab) = none := by decide +kernel
theorem test_read_state :
    let t := result (.readState rq 1 [0x0203, 0]) lab
    answer t = some 4 ∧ answer (result (.readState rq 1 [0x0200, 0]) serving) = some 0 := by decide +kernel
theorem test_read_table :
    (result (.readTable rq 1 [0x0618, 0x0003]) lab).agent.holder.map (fun h => h.payload.drop 2)
      = some [1, 0x2490, 0x81C9, 0x0028] := by decide +kernel
theorem test_load :
    let t := result (.load rq 1 [0x0618, 0x0003, 0x3C90, 0x81C9, 0x0028]) lab
    answer t = some 0 ∧ t.shadow.status = .modified ∧ t.shadow.action 24 = ⟨15, 2, 2, some 201, none, 40⟩
    ∧ t.active.action 24 = lab.active.action 24 := by decide +kernel
theorem test_load_not_permitted : answer (result (.load { rq with source := 4 } 1 []) lab) = some 3 := by decide +kernel
theorem test_copy_active_to_shadow :
    let t := result (.copyActiveToShadow rq 1 []) lab
    t.shadow = t.active ∧ t.shadow.status = .valid := by decide +kernel
theorem test_commit_of_a_blank_shadow_fails_link_check_1 :
    (result (.commit rq 1 []) lab).agent.holder.map Held.payload = some [0x0601, 5, 0, 0, 1] := by decide +kernel
theorem test_commit_busy : answer (result (.commit rq 1 []) serving) = some 1 := by decide +kernel
theorem test_start_opens_the_gate :
    let t := result (.start rq 1 []) lab
    t.arming.gateOpen = true ∧ (t.scheme 3).state = .disarmed ∧ answer t = some 0 := by decide +kernel
theorem test_close_gate :
    let t := result (.closeGate rq 1 []) (working { SchemeRec.fresh .operated true with resetTimer := some 50000, walk := 250 })
    t.arming.gateOpen = false ∧ t.arming.startRequested = false
    ∧ t.scheme 3 = { SchemeRec.fresh .gated true with walk := 250 } ∧ t.hardTripLine = true ∧ t.operatedAlarm = false := by
  decide +kernel
theorem test_reset_scheme :
    ((result (.resetScheme rq 1 [0x00FF]) (working armed3)).scheme 3) = disarmed3
    ∧ answer (result (.resetScheme rq 1 [3]) (working operating3)) = some 1 := by decide +kernel
theorem test_restore_margin :
    ((result (.restoreMargin rq 1 [3]) (working { armed3 with walk := 500, holdTimer := some 50000, stress := 2 })).scheme 3) = armed3
    ∧ answer (result (.restoreMargin rq 1 [16]) lab) = some 4 := by decide +kernel
/-- An index whose low byte names a scheme is none (log 34). -/
theorem test_scheme_index_is_the_whole_word :
    answer (result (.resetScheme rq 1 [0x0103]) lab) = some 4 ∧ answer (result (.restoreMargin rq 1 [0x01FF]) lab) = some 4 := by
  decide +kernel
theorem test_release_hard_trip :
    ((result (.releaseHardTrip rq 1 []) (working { armed3 with hardTrip := true, backstop := 2 })).scheme 3) = armed3 := by
  decide +kernel
theorem test_force_point :
    ((result (.forcePoint rq 1 [130, 1]) lab).point 130) = ⟨.binary .opened, .forced, none, some 0⟩
    ∧ answer (result (.forcePoint rq 1 [130, 1]) (working disarmed3)) = some 2 := by decide +kernel
theorem test_unforce_point :
    let s := result (.forcePoint rq 1 [52, 0xFFFF]) lab
    (s.point 52).value = .analog (-1)
    ∧ ((result (.unforcePoint rq 2 [0xFFFF]) { s with agent := .reset }).point 52).quality = .invalid := by decide +kernel
theorem test_port_restart :
    let t := result (.portRestart rq 1 0 []) lab
    (t.port .east).state = .down ∧ t.timingPort = some .west ∧ t.link.ownSlotsRun = false := by decide +kernel
theorem test_rejoin :
    let s := { lab with link := { lab.link with west := { lockedPort with state := .isolated, strikes := 4, babbleFree := 7 } } }
    ((result (.rejoin rq 1 1 []) s).port .west) = { lockedPort with state := .acquiring, acquisition := 0, babbleFree := 7 } := by
  decide +kernel
theorem test_loopback_on :
    ((result (.loopbackOn rq 1 1 []) lab).port .west).state = .loopback
    ∧ answer (result (.loopbackOn rq 1 0 []) { lab with link := { lab.link with west := .down .zero } }) = some 1 := by
  decide +kernel
theorem test_loopback_off :
    let s := { lab with link := { lab.link with west := { lockedPort with state := .loopback } } }
    ((result (.loopbackOff rq 1 1 []) s).port .west) = .down .zero
    ∧ (result (.loopbackOff rq 1 0 []) lab).port .east = lockedPort := by decide +kernel
theorem test_read_counters :
    let s := { lab with monitor := { lab.monitor with gatedDetection := 5 } }
    (result (.readCounters rq 1 (some 16) []) s).agent.holder.map (fun h => (h.payload.drop 2).take 2) = some [5, 0]
    ∧ answer (result (.readCounters rq 1 (some 82) []) s) = some 4 := by decide +kernel
theorem test_read_counters_clear :
    let s := { lab with monitor := { lab.monitor with gatedDetection := 5 }, agent := ⟨none, 9, false⟩ }
    let t := result (.readCountersClear rq 1 17 []) s
    t.monitor.gatedDetection = 5 ∧ t.agent.requestLost = 0 := by decide +kernel
theorem test_read_operation_log :
    let t := result (.readOperationLog rq 1 [0x0003]) { result (.entryExpiry 24) tracking with agent := .reset }
    t.agent.holder.map (fun h => h.payload.drop 2) = some [1, 0, 0x1115, 0x0006, 0, 41198, 2] := by decide +kernel
theorem test_clear_notices :
    (result (.clearNotices rq 1 []) { lab with notices := ⟨true, true, true, true, true, true, true⟩ }).notices = .clear := by
  decide +kernel
theorem test_restart :
    let t := result (.restart rq 1 []) lab
    t.agent.holder.map Held.restart = some true ∧ t.timeBase = 41200
    ∧ (result (.ownSlotStart 288) t).agent = ⟨none, 0, true⟩ := by decide +kernel

/-- A part whose contingencies 5 and 50 have priority 2, 12 (express A) and 33 (express B) priority 3, with those of a list PENDING. -/
def pend (l : List Nat) : State := { lab with
  banks := ⟨⟨.valid, image .params 0 [20, 12, 33] <| image .contingency 5 [0x8461] <| image .contingency 12 [0x8471] <|
    image .contingency 33 [0x8471] <| image .contingency 50 [0x8461] []⟩, .blank, false⟩
  monitor := { lab.monitor with conts := (List.range 64).map (fun c =>
    if l.contains c then ⟨.pending, 0, 0, .true, false⟩ else .fresh) } }

/-- Section 3.8.2: from 5, 12 (express A), 33 (express B) and 50 the arbiter chooses 12, then 33, then 5, then 50. -/
theorem test_arbiter_order :
    (pend [5, 12, 33, 50]).chosen = some 12 ∧ (pend [5, 33, 50]).chosen = some 33 ∧ (pend [5, 50]).chosen = some 5
    ∧ (pend [50]).chosen = some 50 := by decide +kernel

/-! ### Witnesses: for every statement with hypotheses, states and operands that meet them, each clause at a boundary value -/

theorem lab_whole : lab.TablesWhole := by unfold State.TablesWhole; decide +kernel
theorem reset_whole : State.reset.TablesWhole := by unfold State.TablesWhole; decide +kernel

theorem witness_StepRunsTheFrontCommand :
    ({ lab with pending := [.timeBaseTick] } : State).pending = .timeBaseTick :: [] ∧ lab.pending = [] := ⟨rfl, rfl⟩
theorem witness_HeldPartTakesNoEvent :
    ({ lab with pinHeld := true } : State).held = true ∧ ({ lab with powerHeld := true } : State).held = true
    ∧ (∀ p, Instr.timeBaseTick ≠ .powerOnReset p) ∧ ∀ p, Instr.timeBaseTick ≠ .resetPin p :=
  ⟨rfl, rfl, fun _ h => (nomatch h), fun _ h => (nomatch h)⟩
theorem witness_ResetsSetEveryBlock :
    ({ lab with powerHeld := true } : State).powerHeld = true ∧ ({ lab with pinHeld := true } : State).pinHeld = true
    ∧ ({ lab with agent := ⟨none, 4, true⟩ } : State).held = false
    ∧ ({ lab with agent := ⟨none, 4, true⟩ } : State).agent.restartDue = true ∧ lab.agent.restartDue = false :=
  ⟨rfl, rfl, rfl, rfl, rfl⟩
theorem witness_TickCountsOneMillisecond :
    lab.held = false ∧ ({ lab with timeBase := 0xFFFFFFFF } : State).timeBase = 0xFFFFFFFF := ⟨rfl, rfl⟩
theorem witness_HoldTimerExpiryStopsTheTimer :
    let s := working { disarmed3 with holdTimer := some 41200 }
    s.held = false ∧ (s.scheme 3).holdTimer = some s.timeBase
    ∧ (lab.active.scheme 3).walkEnable = true ∧ (lab.active.scheme 3).stressLevel < 8501 ∧ disarmed3.holdTimer = none
    ∧ ({ disarmed3 with stress := 1 } : SchemeRec).stress = 1 ∧ ({ disarmed3 with stress := 2 } : SchemeRec).stress = 2 := by
  decide +kernel
theorem witness_ResetTimerExpiryDisarms :
    let s := working { SchemeRec.fresh .operated true with resetTimer := some 41200 }
    s.held = false ∧ (s.scheme 3).resetTimer = some s.timeBase ∧ (s.scheme 3).state = .operated
    ∧ ((working (.fresh .operated true)).scheme 3).resetTimer = none := by decide +kernel

/-- The window of station 6 ends now. -/
abbrev due6 (s : State) : Prop :=
  s.held = false ∧ (s.active.station 6).enable = true
  ∧ (s.station 6).windowStart + BitVec.ofNat 32 (s.active.station 6).window = s.timeBase
  ∧ s.points.length = 256 ∧ s.arming.schemes.length = 16 ∧ s.intake.stations.length = 32 ∧ s.monitor.conts.length = 64

theorem windowed_due :
    due6 (windowed 4 .fresh) ∧ due6 (windowed 3 .fresh) ∧ due6 (windowed 1 .fresh) ∧ due6 (windowed 0 .fresh)
    ∧ due6 (windowed 0 .silent) := by decide +kernel

/-- Counts 4 (the minimum), 3, 1 and 0; the last of a station already SILENT, whose record changes alone. -/
theorem witness_WindowEndJudges :
    (lab.active.station 6).minimum = 4 ∧ ((windowed 4 .fresh).station 6).windowCount = 4
    ∧ ((windowed 3 .fresh).station 6).windowCount = 3 ∧ ((windowed 1 .fresh).station 6).windowCount = 1
    ∧ ((windowed 0 .silent).station 6).windowCount = 0 ∧ ((windowed 0 .silent).station 6).freshness = .silent := by
  decide +kernel
theorem witness_SilenceHoldsThenMakesStale :
    ((windowed 0 .fresh).station 6).windowCount = 0 ∧ 1 ≤ ((windowed 0 .fresh).active.station 6).minimum
    ∧ ((windowed 0 .fresh).station 6).freshness ≠ .silent
    ∧ (let s := { lab with points := labPoints.set 52 ⟨.analog 28100, .held, some 40900, none⟩ }
       s.held = false ∧ (s.point 52).quality = .held ∧ (s.point 52).holdStart = some 40900
       ∧ 40900 + BitVec.ofNat 32 (s.active.point 52).holdLimit = s.timeBase) := by decide +kernel
/-- Station 6 with degraded counted as silent, one publication short of its minimum and with one alone. -/
theorem witness_SilenceHoldsThenMakesStale_degraded :
    let s := fun count => { windowed count .fresh with
      banks := ⟨⟨.valid, image .station 6 [0xE314, 100, 4] settings⟩, .blank, false⟩ }
    due6 (s 1) ∧ due6 (s 3) ∧ ((s 3).active.station 6).degradedSilent = true
    ∧ ((s 3).station 6).windowCount < ((s 3).active.station 6).minimum ∧ ((s 1).station 6).windowCount = 1
    ∧ ((s 3).station 6).freshness ≠ .silent := by decide +kernel
theorem witness_RoundingConventions :
    2 * ((8 : Int) - roundHalfAway 8 16 * (16 : Nat)).natAbs = 16 ∧ 2 * ((-8 : Int) - roundHalfAway (-8) 16 * (16 : Nat)).natAbs = 16
    ∧ 257 ≤ 2 * 256 ∧ roundUp 257 256 = 2 ∧ roundUp 256 256 = 1 := by decide

/-- Scheme 3's entry with another limit: Q = L and Q = L + 1; sensitivity 0; a cap below the bias. -/
theorem witness_RequirementFollowsTheExcess :
    let e := lab.active.scheme 3
    8000 ≤ e.limit ∧ e.requirement 8000 = 500 ∧ ¬ 8001 ≤ e.limit ∧ e.requirement 8001 = 502
    ∧ ({ e with sensitivity := 0 } : SchemeEntry).sensitivity = 0 ∧ ({ e with cap := 499 } : SchemeEntry).cap < e.bias := by
  decide +kernel
theorem witness_SelectionRecordIsTheWalks :
    0 < 4813 ∧ lab.eligible 2 0 = some 28100 ∧ (lab.select (some 2) 4813).continuation = 1
    ∧ (lab.select (some 2) 60000).continuation = 16 ∧ (lab.select (some 2) 60000).items.length = 2
    ∧ (lab.select (some 2) 28100).items.length = 1 ∧ (lab.select (some 2) 28101).items.length = 2 := by decide +kernel
theorem witness_EligibilityAndReplacement :
    lab.eligible 2 0 = some 28100 ∧ tracking.eligible 2 0 = none ∧ lab.replacement (some 2) 1 = some (1, 28100)
    ∧ lab.replacement (some 2) 2 = none := by decide +kernel
theorem witness_EvaluationTreatsEachScheme :
    lab.held = false ∧ lab.TablesWhole ∧ lab.arming.nextEvaluation = some lab.timeBase := ⟨rfl, lab_whole, rfl⟩
/-- Scheme 3 ARMED with as many items of position 0 as given, and action 24 its own successor, so that each brings a chain of 8. -/
def longChains (items : Nat) : State :=
  { working { armed3 with selection := some { selection3 with items := List.replicate items ⟨0, 1⟩ } } with
    banks := ⟨⟨.valid, image .action 24 [0x2490, 0x01C9, 0x3028] settings⟩, .blank, false⟩ }

/-- A disabled contingency; and the image of contingency 12 with 2, 32 and 40 nodes. -/
theorem witness_EvaluationTreatsEachScheme_images :
    (lab.active.cont 0).enable = false ∧ (lab.active.cont 12).enable = true ∧ bit (lab.active.cont 12).mask 3 = true
    ∧ ((working armed3).buildImage (some 12)).nodes
      = [⟨24, .scheme 3 0⟩, ⟨27, .scheme 3 1⟩, ⟨28, .scheme 3 1⟩]
    ∧ ((longChains 4).buildImage (some 12)).status = .valid ∧ ((longChains 4).buildImage (some 12)).nodes.length = 32
    ∧ ((longChains 5).buildImage (some 12)) = ⟨.oversize, [], []⟩
    ∧ ((longChains 1).active.chain 24).length = 8 ∧ lab.active.chain 28 = [28]
    ∧ (lab.active.scheme 3).shedList = some 2 ∧ (lab.active.candidate 2 0).map CandidateEntry.head = some 24 := by
  decide +kernel

/-- The working part with an input that is INVALID: Q cannot be formed. -/
def blind (r : SchemeRec) : State := { working r with points := labPoints.set 40 (.fresh (.analog 0)) }

theorem witness_EvaluationFormsQAndSuspends :
    (lab.scheme 0).state = .off ∧ (lab.scheme 3).state = .gated
    ∧ lab.formQ (lab.active.scheme 3) = some 8901 ∧ lab.blocked (lab.active.scheme 3) = false
    ∧ (blind disarmed3).formQ ((blind disarmed3).active.scheme 3) = none ∧ ((blind disarmed3).scheme 3).state = .disarmed
    ∧ ((blind armed3).scheme 3).state = .armed ∧ ((blind (.fresh .suspended false)).scheme 3).state = .suspended
    ∧ ((blind (.fresh .arming false)).scheme 3).state = .arming
    ∧ (working (.fresh .suspended false)).formQ ((working (.fresh .suspended false)).active.scheme 3) = some 8901
    ∧ ((working operating3).scheme 3).state = .operating ∧ ((working (.fresh .operated true)).scheme 3).state = .operated := by
  decide +kernel

/-- Point 130 as a blocking point, OPEN and CLOSED; and no blocking point. -/
theorem witness_EvaluationFormsQAndSuspends_blocking :
    let e := { lab.active.scheme 3 with blocking := some 130 }
    opened130.blocked e = true ∧ lab.blocked e = false ∧ opened130.blocked (lab.active.scheme 3) = false := by decide +kernel

/-- The hypotheses shared by the clauses of the arming transitions, for scheme 3 with the given record, value of point 41 and Q. -/
abbrev arms (value : Int) (r : SchemeRec) (q : Int) : Prop :=
  (stressed value r).formQ (lab.active.scheme 3) = some q ∧ (stressed value r).active.scheme 3 = lab.active.scheme 3
  ∧ (stressed value r).blocked (lab.active.scheme 3) = false ∧ 1 ≤ (lab.active.scheme 3).armNeeded
  ∧ 1 ≤ (lab.active.scheme 3).disarmNeeded ∧ ((stressed value r).scheme 3).state ∈ [SchemeState.disarmed, .arming, .armed]

/-- The effective arm level that scheme 3's next evaluation works with. -/
abbrev levelOf (value : Int) (r : SchemeRec) : Int :=
  ((stressed value r).active.scheme 3).armLevel - ((stressed value r).evaluatedScheme 3).1.walk

/-- Scheme 3 ARMING with an arming count. -/
def arming3 (count : Nat) : SchemeRec := { disarmed3 with state := .arming, armCount := count }

/-- DISARMED below the level by 1, and at it with Na 3; ARMING with counts 1 and 2. -/
theorem witness_EvaluationArmsAndDisarms_arming :
    arms 5798 disarmed3 8999 ∧ 8999 < levelOf 5798 disarmed3
    ∧ arms 5800 disarmed3 9000 ∧ levelOf 5800 disarmed3 ≤ 9000 ∧ 1 < (lab.active.scheme 3).armNeeded
    ∧ arms 5798 (arming3 1) 8999 ∧ 8999 < levelOf 5798 (arming3 1)
    ∧ arms 5800 (arming3 1) 9000 ∧ 1 + 1 < (lab.active.scheme 3).armNeeded ∧ levelOf 5800 (arming3 1) ≤ 9000
    ∧ arms 5800 (arming3 2) 9000 ∧ (lab.active.scheme 3).armNeeded ≤ 2 + 1 ∧ levelOf 5800 (arming3 2) ≤ 9000 := by
  decide +kernel

/-- ARMED at the disarm level, and below it by 1 with counts 0 and 1; a walk-down step at stress 1. -/
theorem witness_EvaluationArmsAndDisarms_disarming :
    arms 5200 armed3 8700 ∧ levelOf 5200 armed3 - (lab.active.scheme 3).hysteresis ≤ 8700
    ∧ arms 5198 armed3 8699 ∧ 8699 < levelOf 5198 armed3 - (lab.active.scheme 3).hysteresis
    ∧ 0 + 1 < (lab.active.scheme 3).disarmNeeded
    ∧ arms 5198 { armed3 with disarmCount := 1 } 8699 ∧ (lab.active.scheme 3).disarmNeeded ≤ 1 + 1
    ∧ arms 5700 { disarmed3 with stress := 1 } 8950 ∧ levelOf 5700 { disarmed3 with stress := 1 } = 8750
    ∧ (lab.active.scheme 3).walkEnable = true ∧ (lab.active.scheme 3).stressLevel < 8950 := by decide +kernel

/-- Na 1: the first evaluation at the level arms at once. -/
theorem witness_EvaluationArmsAtOnce :
    let s := { stressed 5800 disarmed3 with banks := ⟨⟨.valid, image .scheme 3 (scheme3.set 20 0xC821) settings⟩, .blank, false⟩ }
    let e := s.active.scheme 3
    s.formQ e = some 9000 ∧ s.blocked e = false ∧ e.armNeeded = 1 ∧ 1 ≤ e.disarmNeeded ∧ (s.scheme 3).state = .disarmed
    ∧ e.armLevel - (s.evaluatedScheme 3).1.walk ≤ 9000 := by decide +kernel
theorem witness_BackstopLatchesAtTwo :
    let s := stressed 7400 { disarmed3 with backstop := 1 }
    let e := s.active.scheme 3
    s.formQ e = some 9800 ∧ e.backstopLevel ≤ 9800 ∧ e.backstopEnable = true ∧ e.hardTripEnable = true
    ∧ (s.scheme 3).state ≠ .off ∧ (s.scheme 3).state ≠ .gated ∧ (s.scheme 3).backstop = 1
    ∧ (stressed 7398 disarmed3).formQ e = some 9799 ∧ ¬ e.backstopLevel ≤ 9799 := by decide +kernel

/-- The lines with their causes and without. -/
theorem witness_BackstopLatchesAtTwo_lines :
    lab.TablesWhole ∧ lab.active.params.masterTrip = true ∧ (working { operating3 with hardTrip := true }).hardTripLine = true
    ∧ lab.hardTripLine = false ∧ (working (.fresh .operated false)).operatedAlarm = true ∧ lab.operatedAlarm = false :=
  ⟨lab_whole, by decide +kernel, by decide +kernel, by decide +kernel, by decide +kernel, by decide +kernel⟩

/-- A contingency entry on the given triggers. -/
def contEntry (all edge : Bool) (confirm rearm : Nat) (triggers : List Nat) : ContEntry :=
  ⟨true, all, edge, confirm, rearm, 2, triggers, 8, none⟩

/-- Point 130 is fresh and point 0 is not. -/
theorem witness_ContingencyEvaluation_condition :
    (lab.point 130).quality ∈ [Quality.good, .suspect, .forced] ∧ (lab.point 0).quality ∉ [Quality.good, .suspect, .forced]
    ∧ (contEntry false false 1 1 [0]).all = false ∧ 130 ∈ (contEntry false false 1 1 [0, 130]).triggers
    ∧ 0 ∈ (contEntry true false 1 1 [0, 130]).triggers ∧ (contEntry true false 1 1 [130]).all = true := by decide +kernel

/-- Each state of a contingency record with its counts at the boundary, under confirm count 2 and rearm count 3. -/
theorem witness_ContingencyEvaluation :
    let e := contEntry false true 2 3 [130]
    1 ≤ e.confirmCount ∧ 1 ≤ e.rearmCount ∧ e.edge = true ∧ ContRec.fresh.state = .idle ∧ ContRec.fresh.last ≠ .false
    ∧ ({ ContRec.fresh with last := .false } : ContRec).last = .false ∧ 1 < e.confirmCount
    ∧ (contEntry false false 1 1 [130]).confirmCount = 1 ∧ (contEntry false false 1 1 [130]).edge = false
    ∧ (⟨.confirming, 0, 0, .true, false⟩ : ContRec).confirm + 1 < e.confirmCount
    ∧ e.confirmCount ≤ (⟨.confirming, 1, 0, .true, false⟩ : ContRec).confirm + 1
    ∧ (⟨.pending, 0, 0, .true, false⟩ : ContRec).state = .pending ∧ (⟨.serving, 0, 0, .true, false⟩ : ContRec).state = .serving
    ∧ (⟨.served, 0, 1, .true, false⟩ : ContRec).rearm + 1 < e.rearmCount
    ∧ e.rearmCount ≤ (⟨.served, 0, 2, .true, false⟩ : ContRec).rearm + 1 := by decide
theorem witness_ArbiterChoosesByPriority :
    lab.chosen = none ∧ (pend [5, 12, 33, 50]).chosen = some 12 ∧ (pend [5, 33, 50]).chosen = some 33
    ∧ (pend [5, 50]).chosen = some 5 := by decide +kernel

/-- Express A of an enabled contingency, and express B of a disabled one. -/
theorem witness_ArbiterChoosesByPriority_express :
    lab.isExpressA 12 = true ∧ lab.active.params.expressB = some 33 ∧ lab.isExpressB 33 = false := by decide +kernel

/-- Eight operations open. -/
def eight : List Operation := (List.range 8).map (fun i => { operation17 with id := i + 1 })

/-- Contingency 21 PENDING with the engine IDLE and scheme 3 ARMED. -/
def ready : State := { working armed3 with monitor := { lab.monitor with conts := lab.monitor.conts.set 21 ⟨.pending, 0, 0, .true, false⟩ } }

theorem witness_TakeBeginsTheService :
    serving.engine ≠ none ∧ lab.chosen = none ∧ ready.engine = none ∧ ready.chosen = some 21 ∧ ready.tracker.ops.length < 8
    ∧ 8 ≤ ({ ready with tracker := ⟨eight, 8⟩ } : State).tracker.ops.length
    ∧ bit (ready.active.cont 21).mask 3 = true ∧ (ready.scheme 3).state = .armed
    ∧ (ready.scheme 3).selection = some selection3 := by decide +kernel
theorem ready_whole : ready.TablesWhole := by unfold State.TablesWhole; decide +kernel

/-- The working part with image A of a given status. -/
def imaged (st : ImageStatus) : State :=
  { working armed3 with monitor := { lab.monitor with imageA := ⟨st, [⟨3, selection3⟩], [⟨24, .scheme 3 0⟩]⟩ } }

theorem witness_CompletedConfirmation :
    lab.arming.gateOpen = false ∧ (imaged .valid).arming.gateOpen = true ∧ (12 < 64)
    ∧ ((imaged .oversize).expressImage 12).map Image.status = some .oversize
    ∧ ((imaged .invalid).expressImage 12).map Image.status = some .invalid
    ∧ ((imaged .valid).expressImage 12).map Image.status = some .valid ∧ (imaged .valid).expressImage 21 = none := by
  decide +kernel
/-- Point 130 made OPEN: contingencies 12 and 21 are due, 12 completes, and 21 begins to confirm; with image A VALID 12 is left to the
express serve, with it INVALID it joins the pending set, and with the gate closed it is a gated detection. -/
theorem witness_CompletedConfirmation_update :
    let s := fun st => { imaged st with points := opened130.points }
    opened130.dueConts [130] = [12, 21] ∧ opened130.dueConts [201] = [] ∧ opened130.Evaluates [130] 12
    ∧ ¬ opened130.Evaluates [130] 5 ∧ ((s .valid).judged 12).2 = true ∧ ((s .valid).judged 21).2 = false
    ∧ ((s .valid).evaluateConts [130]).2 = [12] ∧ ((s .invalid).evaluateConts [130]).2 = []
    ∧ (((s .invalid).evaluateConts [130]).1.cont 12).state = .pending
    ∧ ((s .oversize).evaluateConts [130]).1.notices.expressFallback = true
    ∧ (opened130.evaluateConts [130]).1.monitor.gatedDetection = 1 := by
  unfold State.Evaluates
  decide +kernel
theorem imaged_whole (st : ImageStatus) : (imaged st).TablesWhole := by
  cases st <;> (unfold State.TablesWhole; decide +kernel)
theorem witness_ExpressServeTakesTheImagesSchemes :
    ((imaged .valid).monitor.imageA.participations.map SchemeCopy.scheme) = [3] ∧ ((imaged .valid).scheme 3).state = .armed
    ∧ (imaged .valid).tracker.ops.length < 8
    ∧ 8 ≤ ({ imaged .valid with tracker := ⟨eight, 8⟩ } : State).tracker.ops.length := by decide +kernel

/-- The records of a take and of an express serve: id, contingency, path, priority, phase and schemes of the mask. -/
theorem test_records_of_new_operations :
    let record := fun (s : State) => s.tracker.ops.map (fun o => (o.id, o.contingency, o.path, o.priority, o.phase))
    record ready.arbiterTake = [(1, 21, .ordinary, 2, .expanding)]
    ∧ record ((imaged .valid).serveExpress 12 (imaged .valid).monitor.imageA) = [(1, 12, .express, 3, .tracking)]
    ∧ ready.arbiterTake.tracker.ops.flatMap (fun o => o.parts.map Participation.scheme) = [3] := by decide +kernel

/-- A queue of `n` entries of other actions. -/
def filled (n : Nat) : State := { tracking with
  queue := ⟨(List.range n).map (fun i => { entry24 with action := 90 + i, refs := [] }), 40⟩ }

/-- Merged with an id already in the set (17) and one that is not (18); ALREADY_OPEN; dropped at 32 entries, for a scheme with hard
trip enabled and for a direct node; entered at 31. -/
theorem witness_HandInOutcomes :
    tracking.liveEntry 24 = some entry24 ∧ 17 ∈ entry24.refs ∧ 18 ∉ entry24.refs
    ∧ lab.liveEntry 24 = none ∧ lab.confirmOpen 24 = false
    ∧ (let s := { lab with points := labPoints.set 201 ⟨.binary .opened, .good, none, some 0⟩ }
       s.liveEntry 24 = none ∧ s.confirmOpen 24 = true)
    ∧ (filled 32).liveEntry 24 = none ∧ (filled 32).confirmOpen 24 = false ∧ 32 ≤ (filled 32).queue.entries.length
    ∧ ((filled 32).active.scheme 3).hardTripEnable = true ∧ 3 < (filled 32).arming.schemes.length
    ∧ (⟨24, .scheme 3 0⟩ : Node).origin = .scheme 3 0 ∧ (⟨24, .direct⟩ : Node).origin = .direct ∧ (3 ∈ [3])
    ∧ ((filled 32).tracker.ops.map Operation.id = [17]) ∧ (filled 31).queue.entries.length < 32
    ∧ (filled 31).liveEntry 24 = none := by decide +kernel

/-- An id put into its place in a reference set, and one that is there. -/
theorem witness_HandInOutcomes_refs :
    ([17, 19] : List Nat).Pairwise (· < ·) ∧ insertRef 18 [17, 19] = [17, 18, 19] ∧ insertRef 19 [17, 19] = [17, 19] := by decide

/-- Station 3 publishes point 201 CLOSED: entry 24 waits on it and stays. -/
theorem witness_ConfirmedEntriesLeaveTheQueue :
    entry24 ∈ (tracking.countPublication 3 [2, 1]).queue.entries ∧ (tracking.active.action entry24.action).confirm = some 201
    ∧ 201 ∈ tracking.updatedBy 3 [2, 1] ∧ (tracking.countPublication 3 [2, 0]).queue.entries = [] ∧ entry24.refs.Nodup
    ∧ (tracking.finishEntry .confirmed entry24).queue.entries = [] := by decide +kernel
theorem witness_ParticipationOutcomeTable :
    (⟨0, [], 0, 0, 0, none⟩ : TakenPart).closeOutcome = .covered ∧ (⟨5, [], 0, 5, 0, none⟩ : TakenPart).closeOutcome = .covered
    ∧ (⟨5, [], 0, 4, 0, none⟩ : TakenPart).closeOutcome = .short ∧ (⟨5, [], 0, 1, 0, none⟩ : TakenPart).closeOutcome = .short
    ∧ (⟨5, [], 0, 0, 0, none⟩ : TakenPart).closeOutcome = .failed := by decide
theorem witness_ClosureLogsAndReleases :
    tracking.TablesWhole ∧ (∀ p ∈ operation17.parts, p.scheme < 16) ∧ (tracking.scheme 3).state = .operating :=
  ⟨by unfold State.TablesWhole; decide +kernel, by decide +kernel, by decide +kernel⟩
/-- An operation in TRACKING with nothing left to wait for, beside one that waits. -/
theorem witness_ClosureLogsAndReleases_finished :
    let s := { tracking with tracker := ⟨[{ operation17 with phase := .tracking }, { operation17 with id := 18 }], 18⟩ }
    s.tracker.ops.map (fun o => decide (o.phase = .tracking ∧ o.outstanding = 0)) = [true, false]
    ∧ s.closeFinished.tracker.ops.map Operation.id = [18] := by decide +kernel
theorem witness_NewOperationIdIsFree :
    tracking.tracker.ops.length < 8 ∧ tracking.tracker.lastId ≤ 255 ∧ tracking.tracker.lastId < 255
    ∧ tracking.tracker.lastId + 1 ∉ tracking.tracker.ops.map Operation.id ∧ (⟨[operation17], 255⟩ : TrackerState).lastId = 255
    ∧ 1 ∉ [operation17].map Operation.id ∧ ({ lab with tracker := ⟨eight.drop 1, 255⟩ } : State).tracker.ops.length < 8
    ∧ ({ lab with tracker := ⟨eight.drop 1, 1⟩ } : State).newId = 9
    ∧ ({ lab with tracker := ⟨eight.take 7, 255⟩ } : State).newId = 8 := by
  decide +kernel

/-- A bank without settings: every scheme's escalation limit is 0. -/
def bare : State := { tracking with banks := ⟨⟨.valid, []⟩, .blank, false⟩ }

theorem witness_EntryExpiry :
    (let s := { lab with queue := ⟨[{ entry24 with refs := [] }], 8⟩ }
     s.held = false ∧ s.liveEntry (24 : Fin 128) = some { entry24 with refs := [] } ∧ s.tracker.ops = [])
    ∧ (bare.held = false ∧ bare.liveEntry (24 : Fin 128) = some entry24 ∧ entry24.refs = [17] ∧ entry24.deadline = bare.timeBase
      ∧ bare.tracker.ops = [{ operation17 with phase := .tracking, outstanding := 1 }]
      ∧ ∀ i, (bare.active.scheme i).escalation = 0) :=
  ⟨by decide +kernel, rfl, by decide +kernel, rfl, rfl, rfl, fun i => by
    show bits (BankWords.read [] _) _ _ = 0
    rw [show ∀ a, BankWords.read [] a = 0 from fun _ => rfl]; decide⟩
/-- An entry that is due and one that is not; operation 17 with a candidate of action 24 waiting; escalation with a replacement at
position 1, with none from 16 on, and at the limit of 2. -/
theorem witness_EntryExpiry_due :
    tracking.held = false ∧ tracking.liveEntry (24 : Fin 128) = some entry24 ∧ entry24.deadline = tracking.timeBase
    ∧ entry24.deadline ≠ ({ tracking with timeBase := 41199 } : State).timeBase
    ∧ (tracking.findOp 17).map Operation.id = some 17 := by decide +kernel
theorem witness_EntryExpiry_escalation :
    let s := fun used continuation => { tracking with tracker := ⟨[{ operation17 with
      phase := .tracking
      parts := [⟨3, some ⟨4813, [⟨0, 1820, 24, .failed, []⟩], used, 0, continuation, none⟩⟩] }], 17⟩ }
    let part := fun used continuation => ((s used continuation).findOp 17).bind (fun op =>
      (op.parts.find? (fun p => p.scheme == 3)).bind Participation.taken)
    (tracking.active.scheme 3).escalation = 2 ∧ (part 1 1).map TakenPart.replacements = some 1
    ∧ (part 2 1).map TakenPart.replacements = some 2 ∧ (part 1 1).map TakenPart.continuation = some 1
    ∧ tracking.replacement (tracking.active.scheme 3).shedList 1 = some (1, 28100)
    ∧ tracking.replacement (tracking.active.scheme 3).shedList 16 = none
    ∧ ((s 1 1).escalate 17 3).queue.entries.map Entry.action = [24, 27, 28]
    ∧ (s 2 1).escalate 17 3 = s 2 1 ∧ (s 1 16).escalate 17 3 = s 1 16 := by decide +kernel
theorem witness_ExpansionCompletionServes :
    serving.held = false ∧ serving.TablesWhole ∧ serving.engine = some snapshot21 ∧ snapshot21.contingency < 64
    ∧ (serving.cont snapshot21.contingency).state = .serving ∧ serving.pendingSet = []
    ∧ ({ serving with monitor := { serving.monitor with
        conts := serving.monitor.conts.set 40 ⟨.pending, 0, 0, .true, false⟩ } } : State).pendingSet = [40] :=
  ⟨rfl, by unfold State.TablesWhole; decide +kernel, rfl, by decide, by decide +kernel, by decide +kernel, by decide +kernel⟩
/-- Untracked work: the snapshot's id is 0, and its scheme is OPERATING. -/
theorem witness_ExpansionCompletionServes_untracked :
    let s := { serving with engine := some { snapshot21 with opId := 0 } }
    s.engine.map Snapshot.opId = some 0 ∧ 3 ∈ snapshot21.taken.map SchemeCopy.scheme ∧ (s.scheme 3).state = .operating := by
  decide +kernel
/-- Tracked work with nothing else pending: the operation is EXPANDING before and TRACKING after. -/
theorem witness_ExpansionCompletionServes_tracked :
    snapshot21.opId ≠ 0 ∧ serving.pendingSet = [] ∧ (serving.findOp 17).map Operation.phase = some .expanding
    ∧ ((result .expansionCompletion serving).findOp 17).map Operation.phase = some .tracking := by decide +kernel
theorem witness_OwnSlotsAndWaitingCopies :
    lab.held = false ∧ lab.ownSlotAt 288 = some 9 ∧ (∀ e ∈ lab.queue.entries, e.repeats = 0) ∧ lab.agent.holder = none
    ∧ ({ lab with agent := ⟨some ⟨3, [0x0701, 0], false⟩, 0, false⟩ } : State).agent.holder = some ⟨3, [0x0701, 0], false⟩
    ∧ lab.slotAt (Side.other .east) 288 = some 9 ∧ (lab.port .east).state ≠ .isolated
    ∧ ({ lab with link := { lab.link with waiting := [⟨.east, 9, [1]⟩] } } : State).link.waiting = [⟨.east, 9, [1]⟩] := by
  decide +kernel
/-- PORT RESTART of the timing port, and of the port that feeds the waiting copy's transmitter. -/
theorem witness_OwnSlotsAndWaitingCopies_dropped :
    let s := { lab with link := { lab.link with waiting := [⟨.east, 9, [1]⟩] } }
    let east := result (.portRestart rq 1 0 []) s
    let west := result (.portRestart rq 1 1 []) s
    exec (.portRestart rq 1 0 []) s = .next east ∧ east.timingPort ≠ s.timingPort ∧ east.link.waiting = []
    ∧ exec (.portRestart rq 1 1 []) s = .next west ∧ west.timingPort = s.timingPort ∧ west.link.waiting = []
    ∧ (s.port (Side.other .east)).state = .locked :=
  ⟨rfl, by decide +kernel, by decide +kernel, rfl, by decide +kernel, by decide +kernel, rfl⟩

/-- One entry to send; and twelve, of which one is left out. -/
theorem witness_OwnSlotSendsTripsFirst :
    tracking.held = false ∧ tracking.ownSlotAt 288 = some 9 ∧ tracking.queue.entries.length ≤ 32
    ∧ (tracking.queue.entries.map Entry.action).Nodup ∧ tracking.tripEntries ≠ []
    ∧ (∀ e ∈ (filled 12).queue.entries, e.priority ≤ 3) ∧ (filled 12).tripEntries.length = 11
    ∧ ({ entry24 with action := 101, refs := [] } : Entry) ∈ (filled 12).queue.entries
    ∧ ({ entry24 with action := 101, refs := [] } : Entry) ∉ (filled 12).tripEntries := by decide +kernel

/-- The greatest fields of a command, with two operations and with none; equal priorities in list order. -/
theorem witness_OwnSlotSendsTripsFirst_words :
    let e : Entry := ⟨127, 63, 15, 3, 1, 3, 7, 41200, .waiting, [7, 255]⟩
    tripPayload [e, { e with refs := [] }] = [2, 0xFFFC, 0x077F, 0xFFFC, 0x007F]
    ∧ [e, { e with refs := [] }][1]? = some { e with refs := [] } ∧ (∀ id ∈ e.refs, id < 256)
    ∧ (filled 12).tripEntries.map Entry.action = (List.range 11).map (90 + ·) := by decide +kernel

/-- East ACQUIRING at 1,024 with three MARKERs taken since word time 0. -/
def acquiring (count : Nat) : State :=
  { lab with link := { LinkState.reset with east := { lockedPort with state := .acquiring, acquisition := count } } }

/-- The timing port, its cycle number, a slot that is not an own slot, and a MARKER at its expected position; a MARKER that makes East the
timing port, and a PORT RESTART that passes the timing to West, whose own slots run from its MARKER on. -/
theorem witness_OwnSlotsAndWaitingCopies_timing :
    let locked := result (.marker { rx with start := 1024 } 32) (acquiring 3)
    let passed := result (.portRestart rq 1 0 []) lab
    let again := result (.marker { rx with port := .west, start := 1024 } 32) passed
    lab.held = false ∧ lab.timingPort = some rx.port ∧ (lab.port .east).cycle = some 116 ∧ lab.ownSlotAt 160 = none
    ∧ lab.slotsOf rx.port = some (bits 32 0 6) ∧ (lab.port rx.port).position = some 0 ∧ 1024 = 0 + 32 * bits 32 0 6
    ∧ (acquiring 3).timingPort = none ∧ locked.timingPort = some .east ∧ locked.link.ownSlotsRun = true
    ∧ passed.timingPort = some .west ∧ passed.link.ownSlotsRun = false ∧ passed.ownSlotAt 288 = none
    ∧ again.timingPort = some .west ∧ again.link.ownSlotsRun = true ∧ again.ownSlotAt 1312 = some 9
    ∧ lab.active.status ≠ .blank ∧ State.reset.active.status = .blank := by decide +kernel

/-- A LOCKED port is handed a frame in slot 14 and in slot 0 of the next cycle. -/
theorem lab_hands_on (payload : List Word) (h : payload.length ≤ 24) :
    lab.HandsOn rx payload 14 ∧ lab.HandsOn { rx with start := 1024 } payload 0 :=
  ⟨⟨rfl, rfl, by decide +kernel, by decide +kernel, by decide +kernel, h⟩, ⟨rfl, rfl, by decide +kernel, by decide +kernel, by decide +kernel, h⟩⟩

theorem witness_MarkersTakenByAPort :
    lab.held = false ∧ 4 ≤ bits 4 0 6 ∧ bits 32 0 6 ≤ 32
    ∧ (State.reset.port .east).state = .down ∧ State.reset.active.status = .blank ∧ (State.reset.port .east).adoptedS = none
    ∧ (let s := { lab with link := .reset }
       (s.port .east).state = .down ∧ s.active.status ≠ .blank ∧ s.active.link.slots = bits 32 0 6)
    ∧ ((acquiring 3).port .east).state = .acquiring ∧ (acquiring 3).slotsOf .east = some (bits 32 0 6)
    ∧ ((acquiring 3).port .east).position = some 0 ∧ 1024 = 0 + 32 * bits 32 0 6
    ∧ ((acquiring 2).port .east).acquisition = 2
    ∧ lab.slotsOf .east = some (bits 32 0 6) ∧ (lab.port .east).position = some 0 ∧ lab.slotsOf .east ≠ some (bits 31 0 6) := by
  decide +kernel
/-- East ISOLATED with a babble-free run, having seen babble or not. -/
def isolated (run : Nat) (babble : Bool) : State :=
  { lab with link := { lab.link with east := { lockedPort with
      state := .isolated, strikes := 4, babbleFree := run, babbleSeen := babble } } }

/-- ACQUIRING, off the expected position and with another S; ISOLATED at it with runs 254, 255 and after babble, elsewhere, and with
another S; LOOPBACK. -/
theorem witness_MarkersTakenByAPort_others :
    (1023 ≠ 0 + 32 * bits 32 0 6) ∧ ((acquiring 0).port .east).state = .acquiring ∧ (acquiring 0).slotsOf .east ≠ some (bits 31 0 6)
    ∧ ((isolated 255 false).port .east).state = .isolated ∧ (isolated 255 false).slotsOf .east = some (bits 32 0 6)
    ∧ (isolated 255 false).slotsOf .east ≠ some (bits 31 0 6) ∧ ((isolated 255 false).port .east).position = some 0
    ∧ min 256 (255 + 1) = 256 ∧ min 256 (254 + 1) ≠ 256 ∧ (isolated 255 false).autoRejoin = true
    ∧ ((result (.marker { rx with start := 1024 } 32) (isolated 255 false)).port .east).state = .acquiring
    ∧ ((result (.marker { rx with start := 1024 } 32) (isolated 255 true)).port .east).babbleFree = 0
    ∧ ({ lab with link := { lab.link with east := { lockedPort with state := .loopback } } }.port .east).state = .loopback := by
  decide +kernel
/-- LOCKED off the expected position; DOWN and another S; S 3 and 33 in every state but LOCKED. -/
theorem witness_MarkersTakenByAPort_not_taken :
    lab.HandsOn rx [32] 14 ∧ (448 ≠ 0 + 32 * bits 32 0 6) ∧ bits 3 0 6 < 4 ∧ 32 < bits 33 0 6
    ∧ (let s := { lab with link := .reset }
       (s.port .east).state = .down ∧ s.slotsOf .east = some 32 ∧ 32 ≠ bits 31 0 6)
    ∧ ((acquiring 0).port .east).state = .acquiring ∧ ((isolated 0 false).port .east).state = .isolated :=
  ⟨(lab_hands_on _ (by decide)).1, by decide, by decide, by decide, by decide +kernel, by decide +kernel, by decide +kernel⟩
/-- A MARKER of the part's own address at the expected position; one of another station in own slot 9, with the S in force and with 31. -/
theorem witness_MarkersTakenByAPort_not_repeated :
    lab.slotAt .east 1024 = some 0 ∧ (30 : Address).toNat = lab.partAddress ∧ 1024 = 0 + 32 * bits 32 0 6
    ∧ lab.slotsOf .east = some (bits 32 0 6) ∧ lab.slotAt .east 288 = some 9 ∧ lab.ownSlots.contains 9 = true
    ∧ (9 : Address).toNat ≠ lab.partAddress ∧ 288 ≠ 0 + 32 * bits 32 0 6 ∧ lab.slotsOf .east ≠ some (bits 31 0 6)
    ∧ ((result (.marker { rx with start := 1024, source := 30 } 32) lab).port .east).position = some 1024
    ∧ (result (.marker { rx with start := 1024, source := 30 } 32) lab).out = []
    ∧ ((result (.marker { rx with start := 288 } 31) lab).port .east) = .down { PortCounters.zero with slotConflict := 1 } := by
  decide +kernel
theorem witness_ThirdMissTakesAPortDown :
    lab.held = false ∧ (lab.port .west).state = .locked ∧ ((acquiring 3).port .east).state = .acquiring
    ∧ (lab.port .west).position = some 0 ∧ lab.slotsOf .west = some 32 ∧ ({ lockedPort with miss := 1 } : PortRec).miss < 2
    ∧ 2 ≤ ({ lockedPort with miss := 2 } : PortRec).miss ∧ ((isolated 255 false).port .east).state = .isolated
    ∧ ((isolated 255 false).port .east).position = some 0 ∧ (isolated 255 false).slotsOf .east = some 32 := by decide +kernel
theorem witness_BabbleStrikesAndIsolates :
    lab.held = false ∧ (State.reset.port .east).state = .down ∧ ((acquiring 3).port .east).state = .acquiring
    ∧ lab.isolation = true ∧ lab.babbleLimit = 4 ∧ min 15 (2 + 1) < lab.babbleLimit ∧ lab.babbleLimit ≤ min 15 (3 + 1)
    ∧ ({ lab with link := { lab.link with east := { lockedPort with state := .isolated } } }.port .east).state = .isolated := by
  decide +kernel
theorem witness_PublicationTurnedAway :
    lab.HandsOn rx [2] 14 ∧ lab.stationOf 10 = none ∧ lab.stationOf rx.source = some 3
    ∧ lab.HandsOn { rx with start := 1024 } [2] 0 ∧ (lab.active.station 3).slot ≠ 0 ∧ (lab.active.station 3).slot = 14
    ∧ ({ lab with intake := { lab.intake with stations := lab.intake.stations.set 3 ⟨.fresh, 37, 41150, some 117, 0, 0, 0⟩ } }.station
        3).lastCycle = some rx.cycle
    ∧ ({ lab with intake := { lab.intake with stations := lab.intake.stations.set 3 ⟨.silent, 0, 41150, none, 1, 0, 0⟩ } }.station
        3).rejoinLeft = 1 ∧ 3 < lab.intake.stations.length :=
  ⟨(lab_hands_on _ (by decide)).1, by decide +kernel, by decide +kernel, (lab_hands_on _ (by decide)).2, by decide +kernel,
    by decide +kernel, by decide +kernel, by decide +kernel, by decide +kernel⟩
/-- The lowest index of two enabled entries with one address, and no entry with the highest address of a station. -/
theorem witness_PublicationTurnedAway_station :
    let s := { lab with banks := ⟨⟨.valid, image .station 2 [0x924F, 100, 80] settings⟩, .blank, false⟩ }
    (s.active.station 2).address = (s.active.station 3).address ∧ s.stationOf 9 = some 2 ∧ lab.stationOf 62 = none := by
  decide +kernel
/-- A publication that makes an update event with two evaluations due, and one with none. -/
theorem witness_PublicationUpdatesPoints_event :
    130 ∈ lab.updatedBy 3 [1, 1] ∧ lab.dueConts (lab.updatedBy 3 [1, 1]) = [12, 21]
    ∧ lab.dueConts (lab.updatedBy 3 []) = [] := by decide +kernel
theorem witness_PublicationUpdatesPoints :
    lab.HandsOn rx [2, 1] 14 ∧ lab.TablesWhole ∧ lab.stationOf rx.source = some 3 ∧ (lab.active.station 3).slot = 14
    ∧ (lab.station 3).lastCycle ≠ some rx.cycle ∧ (lab.station 3).rejoinLeft = 0 ∧ lab.carries 3 [2, 1] 201 = true
    ∧ lab.carries 3 [2, 1] 202 = false :=
  ⟨(lab_hands_on _ (by decide)).1, lab_whole, by decide +kernel, by decide +kernel, by decide +kernel, by decide +kernel,
    by decide +kernel, by decide +kernel⟩
theorem witness_WordsDecodeToValues :
    (analogEntry false 0 1024).kind = .analog ∧ roundHalfAway (((analogEntry false 0 1024).raw 0x7FFF - 0) * 1024) 1024 = 32767
    ∧ roundHalfAway (((analogEntry true 0 1024).raw 0x8000 - 0) * 1024) 1024 = 32768
    ∧ roundHalfAway (((analogEntry false 0 1024).raw 0x8000 - 0) * 1024) 1024 = -32768 ∧ (analogEntry false 5 0).gain = 0
    ∧ (lab.active.point 54).kind = .single ∧ (lab.active.point 53).kind = .double := by decide +kernel
theorem witness_GoodFramesRepeatedAndLooped :
    lab.held = false ∧ (lab.port .east).state = .locked ∧ lab.slotAt .east 160 = some 5 ∧ lab.slotAt .east 288 = some 9
    ∧ lab.ownSlots.contains 9 = true ∧ lab.ownSlots.contains 5 = false ∧ lab.partAddress = 30
    ∧ (List.replicate 24 (0 : Word)).length ≤ 24 ∧ (2 : BitVec 4) ≠ 0 ∧ (2 : BitVec 4) ≠ 1 ∧ (2 : BitVec 4) ≠ 3
    ∧ ({ lab with link := { lab.link with west := { lockedPort with state := .loopback } } }.port .west).state = .loopback := by
  decide +kernel
/-- A PUBLISH, a COMMIT, a lost REQUEST and a damaged frame on a port that is DOWN, ACQUIRING, ISOLATED or in LOOPBACK; a PUBLISH and a
COMMIT of the part's own source, and in own slot 9. -/
theorem witness_GoodFramesRepeatedAndLooped_turned_away :
    let down := { lab with link := .reset }
    let looped := { lab with link := { lab.link with east := { lockedPort with state := .loopback } } }
    (∀ s ∈ [down, acquiring 0, isolated 3 false, looped], s.held = false ∧ (s.port .east).state ≠ .locked)
    ∧ (Instr.publish rx [1]).arrival = some (.east, 448, receivedWords rx 1 [1])
    ∧ (Instr.requestLost rq [0x0701]).arrival = some (.east, 160, receivedWords rq 3 [0x0701])
    ∧ (Instr.damagedFrame .east 160 true [0x1240]).arrival = some (.east, 160, [0x1240])
    ∧ (Instr.commit rq 1 []).frame = some (rq, 3, [0x0601]) ∧ (3 : BitVec 4) ≠ 0 ∧ (30 : Address).toNat = lab.partAddress
    ∧ result (.publish { rx with source := 30 } [1]) lab = { lab with out := [] }
    ∧ ((result (.publish { rx with start := 288 } [1]) lab).port .east).counters.slotConflict = 1
    ∧ (result (.publish { rx with start := 288 } [1]) lab).intake = lab.intake
    ∧ (result (.commit { rq with start := 288 } 1 []) lab).agent.holder = none := by decide +kernel
/-- A MARKER of two words; REQUESTs on the West port, to another address, and to 63 with a code that is not IDENTIFY's; a REQUEST in a
REPEATED_FRAME, a READ COUNTERS without word 1 among them. -/
theorem witness_GoodFramesRepeatedAndLooped_kinds :
    ([32, 0] : List Word).length ≠ 1 ∧ lab.slotAt .west 160 = some 5 ∧ lab.timingPort ≠ some .west
    ∧ (29 : Address).toNat ≠ lab.partAddress ∧ (29 : Address) ≠ 63 ∧ bits (([0x0200] : List Word).headD 0) 8 8 ≠ 1
    ∧ (63 : Address).toNat ≠ lab.partAddress ∧ ((Instr.start rq 1 []).request.map RequestView.code) = some 0x07
    ∧ (Instr.start rq 1 []).wellFormed = true ∧ (Instr.readCounters rq 1 none []).wellFormed = true
    ∧ answer (result (.repeatedFrame rq 3 (requestPayload 0x40 1 [])) lab) = some 6 := by decide +kernel
/-- Each damage in own slot 9. -/
theorem witness_DamagedFrameCountsOnce_own_slot :
    lab.slotAt .east 288 = some 9 ∧ lab.ownSlots.contains 9 = true
    ∧ ((result (.damagedFrame .east 288 true [0x1240, 0]) lab).port .east).counters.truncated = 1
    ∧ (result (.damagedFrame .east 288 true [0x1240, 0]) lab).out = [] := by decide +kernel
theorem witness_DamagedFrameCountsOnce :
    lab.held = false ∧ (lab.port .east).state = .locked ∧ lab.slotAt .east 160 = some 5 ∧ lab.ownSlots.contains 5 = false
    ∧ damageOf true [0x1240, 0, 0] = some .badCheck ∧ damageOf true [0x1240, 0] = some .truncated
    ∧ damageOf true [0x1259, 0] = some .framing ∧ damageOf false [0x1240, 0, 0] = some .framing
    ∧ damageOf true [] = some .framing := by decide +kernel
/-- Off a slot's start at word times 1, 27, 28 and 31 of slot 5. -/
theorem witness_DamagedFrameCountsOnce_off_slot :
    lab.slotsOf .east = some 32 ∧ (lab.port .east).position = some 0 ∧ (161 - 0) / 32 % 32 = 5 ∧ (161 - 0) % 32 = 1
    ∧ (187 - 0) % 32 = 27 ∧ (188 - 0) % 32 = 28 ∧ (191 - 0) / 32 % 32 = 5 ∧ (191 - 0) % 32 = 31 := by decide +kernel
/-- A PUBLISH, a MARKER and a COMMIT at word time 1 of slot 5: counted and not handed on; at word time 1 of own slot 9 nothing is sent. -/
theorem witness_DamagedFrameCountsOnce_good_frames :
    (Instr.marker { rx with start := 161 } 32).arrival = some (.east, 161, receivedWords { rx with start := 161 } 0 [32])
    ∧ ((result (.marker { rx with start := 161 } 31) lab).port .east).state = .locked
    ∧ ((result (.marker { rx with start := 161 } 31) lab).port .east).counters.framing = 1
    ∧ (result (.commit { rq with start := 161 } 1 []) lab).agent.holder = none
    ∧ (289 - 0) / 32 % 32 = 9 ∧ (289 - 0) % 32 = 1 ∧ lab.ownSlots.contains 9 = true
    ∧ (result (.publish { rx with start := 289 } [1]) lab).out = [] := by decide +kernel
theorem witness_PoisonedFrameFailsTheCheck :
    [(0x1258 : Word)] ≠ [] ∧ declaredLength (([0x1258] : List Word).headD 0) = 24 ∧ ([0x1240, 0] : List Word).length < 0 + 3
    ∧ declaredLength (([0x1241, 0] : List Word).headD 0) = [(5 : Word)].length := by decide

/-- A REQUEST reaches the agent of the part, in slot 5 of the timing port. -/
theorem lab_reaches (code tag : Byte) (args : List Word) (h : args.length ≤ 23) :
    lab.TakesWrite rq code tag args 5 :=
  ⟨⟨⟨⟨rfl, rfl, by decide +kernel, by decide +kernel, by decide +kernel, Nat.succ_le_succ h⟩, rfl, by decide +kernel⟩, rfl⟩,
    .inr (by decide +kernel)⟩

/-- The same from a source that may not write. -/
theorem lab_reaches_stranger (code tag : Byte) (args : List Word) (h : args.length ≤ 23) :
    lab.Takes { rq with source := 4 } code tag args 5 :=
  ⟨⟨⟨rfl, rfl, by decide +kernel, by decide +kernel, by decide +kernel, Nat.succ_le_succ h⟩, rfl, by decide +kernel⟩, rfl⟩

theorem witness_RefusedRequestsChangeNothing :
    (Instr.start { rq with source := 4 } 1 []).request = some ⟨{ rq with source := 4 }, 0x07, 1, [], true, 0⟩
    ∧ lab.Takes { rq with source := 4 } 0x07 1 [] 5 ∧ lab.engineerAddress ≠ 63 ∧ lab.engineerAddress ≠ (4 : Address).toNat
    ∧ (Instr.readTable rq 1 [0]).request = some ⟨rq, 0x03, 1, [0], false, 2⟩ ∧ lab.Takes rq 0x03 1 [0] 5
    ∧ ([0] : List Word).length ≠ 2 :=
  ⟨rfl, lab_reaches_stranger _ _ _ (by decide), by decide +kernel, by decide +kernel, rfl, (lab_reaches _ _ _ (by decide)).1, by decide⟩
/-- Arguments one past their range: the action table's entry 128, a count of 0 and of 21, a run beyond 3 words, and kind 8; the scheme
report of index 16, object 9 and the first word past a report; counter 82; log start 32, counts 0 and 4; port 2; action 4. -/
theorem witness_RefusedRequestsChangeNothing_arguments :
    lab.TakesWrite rq 0x04 1 [0x0680, 0x0001, 0] 5 ∧ TableKind.ofCode (bits 0x0680 8 4) = some .action
    ∧ TableKind.action.entries ≤ bits 0x0680 0 8 ∧ bits 0x0001 0 8 = ([0] : List Word).length
    ∧ bits 0x0000 0 8 = 0 ∧ 20 < bits 0x0015 0 8 ∧ TableKind.action.width < bits 0x0103 8 8 + bits 0x0103 0 8
    ∧ TableKind.ofCode (bits 0x0800 8 4) = none ∧ lab.Takes rq 0x03 1 [0x0618, 0x0103] 5
    ∧ lab.Takes rq 0x02 1 [0x0010, 0] 5 ∧ bits 0x0010 8 8 = 0 ∧ 16 ≤ bits 0x0010 0 8
    ∧ bits 0x0900 8 8 = 9 ∧ (lab.report 0 0).isSome = true ∧ (lab.report 0 0).getD [] ≠ []
    ∧ ((lab.report 0 0).getD []).length ≤ (0xFFFF : Word).toNat
    ∧ 81 < (82 : Byte).toNat ∧ lab.Takes rq 0x0F 1 [readCountersWord 82 false] 5
    ∧ lab.TakesWrite rq 0x0F 1 [readCountersWord 82 true] 5 ∧ lab.Takes rq 0x10 1 [0x2001] 5 ∧ 31 < bits 0x2001 8 8
    ∧ bits 0x0000 0 8 = 0 ∧ 3 < bits 0x0004 0 8 ∧ (∀ action, lab.TakesWrite rq 0x0E 1 [portControlWord 2 action] 5)
    ∧ 2 ≤ (2 : Byte).toNat ∧ 4 ≤ (4 : Byte).toNat ∧ lab.TakesWrite rq 0x0E 1 [portControlWord 0 4] 5 :=
  ⟨lab_reaches _ _ _ (by decide), by decide, by decide, by decide, by decide, by decide, by decide, by decide,
    (lab_reaches _ _ _ (by decide)).1, (lab_reaches _ _ _ (by decide)).1, by decide, by decide, by decide, by decide +kernel,
    by decide +kernel, by decide +kernel, by decide, (lab_reaches _ _ _ (by simp)).1, lab_reaches _ _ _ (by simp),
    (lab_reaches _ _ _ (by decide)).1, by decide, by decide, by decide, fun _ => lab_reaches _ _ _ (by simp), by decide, by decide,
    lab_reaches _ _ _ (by simp)⟩

/-- The part with a reply waiting. -/
def full : State := { lab with agent := ⟨some ⟨3, [0x0701, 0], false⟩, 0, false⟩ }

theorem full_reaches (code tag : Byte) (args : List Word) (h : args.length ≤ 23) : full.Reaches rq code tag args 5 :=
  ⟨⟨rfl, rfl, by decide +kernel, by decide +kernel, by decide +kernel, Nat.succ_le_succ h⟩, rfl, by decide +kernel⟩

theorem witness_UnknownAndLostRequests :
    lab.Takes rq 0 1 [] 5 ∧ lab.Takes rq 0x13 1 [] 5 ∧ 0x12 < (0x13 : Byte).toNat
    ∧ (Instr.start rq 1 []).request = some ⟨rq, 0x07, 1, [], true, 0⟩ ∧ full.Reaches rq 0x07 1 [] 5 ∧ full.agent.holder ≠ none
    ∧ full.HandsOn rq (0x0701 :: []) 5 ∧ full.timingPort = some rq.port ∧ rq.dest.toNat = full.partAddress :=
  ⟨(lab_reaches _ _ _ (by decide)).1, (lab_reaches _ _ _ (by decide)).1, by decide, rfl, full_reaches _ _ _ (by decide),
    by decide +kernel, ⟨rfl, rfl, by decide +kernel, by decide +kernel, by decide +kernel, by decide⟩, rfl, by decide +kernel⟩

/-- READ STATE of the engine from word 0; READ TABLE of the last word of an image and of a run of 20; counters from 81; log index 31. -/
theorem witness_ReadsAnswerFromTheState :
    lab.HandsOn rq (requestPayload 0x01 1 []) 5 ∧ lab.timingPort = some rq.port ∧ rq.dest.toNat = lab.partAddress
    ∧ lab.agent.holder = none ∧ lab.Takes rq 0x02 1 [0x0200, 0] 5
    ∧ ((lab.report (bits 0x0200 8 8) (bits 0x0200 0 8)).map List.length = some 5) ∧ (0 : Word).toNat < 5
    ∧ lab.report (bits 0x0400 8 8) (bits 0x0400 0 8) = some []
    ∧ lab.Takes rq 0x03 1 [0x0618, 0x0201] 5 ∧ TableKind.ofCode (bits 0x0618 8 4) = some .action
    ∧ bits 0x0618 0 8 < TableKind.action.entries ∧ 1 ≤ bits 0x0201 0 8 ∧ bits 0x0201 8 8 + bits 0x0201 0 8 ≤ TableKind.action.width
    ∧ bits 0x0814 0 8 ≤ 20 ∧ bits 0x0814 8 8 + bits 0x0814 0 8 ≤ TableKind.scheme.width
    ∧ lab.Takes rq 0x0F 1 [readCountersWord 81 false] 5 ∧ lab.Takes rq 0x10 1 [0x1F03] 5 ∧ bits 0x1F03 8 8 ≤ 31
    ∧ 1 ≤ bits 0x1F03 0 8 ∧ bits 0x1F03 0 8 ≤ 3 :=
  ⟨(lab_reaches 0x01 1 [] (by decide)).1.1.1, rfl, by decide +kernel, rfl, (lab_reaches _ _ _ (by decide)).1, by decide +kernel, by decide,
    by decide +kernel, (lab_reaches _ _ _ (by decide)).1, by decide, by decide, by decide, by decide, by decide, by decide,
    (lab_reaches _ _ _ (by decide)).1, (lab_reaches _ _ _ (by decide)).1, by decide, by decide, by decide⟩
theorem lab_canonical : lab.BanksCanonical := by unfold State.BanksCanonical; decide +kernel
theorem witness_LoadAndCopyWriteTheShadow :
    lab.TakesWrite rq 0x04 1 [0x0618, 0x0003, 0x3C90, 0x81C9, 0x0028] 5 ∧ TableKind.ofCode (bits 0x0618 8 4) = some .action
    ∧ bits 0x0618 0 8 < TableKind.action.entries ∧ 1 ≤ bits 0x0003 0 8 ∧ bits 0x0003 0 8 ≤ 20
    ∧ bits 0x0003 8 8 + bits 0x0003 0 8 ≤ TableKind.action.width
    ∧ ([0x3C90, 0x81C9, 0x0028] : List Word).length = bits 0x0003 0 8 ∧ lab.BanksCanonical ∧ lab.TakesWrite rq 0x05 1 [] 5 :=
  ⟨lab_reaches _ _ _ (by decide), by decide, by decide, by decide, by decide, by decide, by decide, lab_canonical,
    lab_reaches _ _ _ (by decide)⟩

/-- The lab with a service, an operation or an entry in flight. -/
theorem witness_CommitRefused :
    lab.TakesWrite rq 0x06 1 [] 5 ∧ serving.engine ≠ none ∧ tracking.tracker.ops ≠ [] ∧ tracking.queue.entries ≠ []
    ∧ lab.engine = none ∧ lab.tracker.ops = [] ∧ lab.queue.entries = [] ∧ lab.shadow.failure = some ⟨.link, 0, 1⟩
    ∧ lab.shadow.status = .blank ∧ lab.shadow.words = [] :=
  ⟨lab_reaches _ _ _ (by decide), by decide +kernel, by decide +kernel, by decide +kernel, rfl, rfl, rfl, by decide +kernel, rfl, rfl⟩

/-- Settings that pass every check: the link with slots 9 and 25, E 20, one station of address 9, scheme 3 with its two
inputs, and 128 actions of one command to that station with no confirm point and no next. `address` is the part's. -/
def passing (address : Nat) : Bank :=
  ⟨.modified, image .link 0 [BitVec.ofNat 16 (32 + 64 * address), 0x0342, 0x1909, 0] <| image .params 0 [20, 127, 127] <|
    image .station 3 [0x924E, 100, 80] <| image .point 40 [0x4600, 300, 0, 1024, 0x8000] <|
    image .point 41 [0x4601, 300, 0, 1024, 0x8000] <| image .scheme 3 scheme3 <|
    (List.range 128).flatMap (fun a =>
      [(TableKind.action.address a 0, 0x2408), (TableKind.action.address a 1, 0x8000), (TableKind.action.address a 2, 2)])⟩

/-- The lab with a shadow bank that passes every check, its gate open or closed. -/
def committing (address : Nat) (opened : Bool) : State := { lab with
  banks := ⟨⟨.valid, settings⟩, passing address, false⟩, arming := { lab.arming with gateOpen := opened, startRequested := opened } }

theorem passing_validates : (passing 30).failure = none ∧ (passing 31).failure = none := by decide +kernel

/-- A COMMIT that keeps the link in force (part address 30) and one that changes it (31), with the gate closed and open. -/
theorem committing_reaches (address : Nat) (opened : Bool) :
    (committing address opened).TakesWrite rq 0x06 1 [] 5 ∧ (committing address opened).TablesWhole
    ∧ (committing address opened).engine = none ∧ (committing address opened).tracker.ops = []
    ∧ (committing address opened).queue.entries = [] :=
  ⟨lab_reaches 0x06 1 [] (by decide), lab_whole, rfl, rfl, rfl⟩
theorem witness_CommitSwapsTheBanks :
    (committing 30 false).shadow.failure = none ∧ (committing 31 true).shadow.failure = none := passing_validates
/-- A bank that passes every check and one that does not. -/
theorem witness_CommitRefused_passes : (passing 30).failure = none ∧ (passing 63).failure ≠ none := by decide +kernel
/-- Part address 63 fails link check 5; two equal designations of a disabled contingency fail check 9 (log 18), and with the address
wrong too, the link check is reported. -/
theorem witness_CommitRefused_first :
    let equal := fun address => { passing address with words := image .params 0 [20, 5, 5] (passing address).words }
    (passing 63).failure = some ⟨.link, 0, 5⟩ ∧ ((equal 30).cont 5).enable = false
    ∧ (equal 30).failure = some ⟨.contingency, 5, 9⟩ ∧ (equal 63).failure = some ⟨.link, 0, 5⟩
    ∧ (equal 63).place ⟨.link, 0, 5⟩ < (equal 63).place ⟨.contingency, 5, 9⟩ := by decide +kernel
theorem witness_CommitSwapsTheBanks_link :
    (committing 30 false).linkChanged (passing 30) = false ∧ (committing 31 false).linkChanged (passing 31) = true
    ∧ lab.active.status ≠ .blank := by decide +kernel
theorem witness_CommitSwapsTheBanks_gate :
    (lab.arming.gateOpen || (lab.arming.settleEnded && lab.arming.startRequested)) = false
    ∧ (committing 30 true).arming.gateOpen = true := by decide

/-- The lab at the end of the settle interval. -/
def settling (start : Bool) : State :=
  { lab with timeBase := 2000, arming := { lab.arming with settleEnded := false, startRequested := start } }

/-- START opens the gate of the lab; not when it is open, nor before the settle interval ends, nor without a VALID bank. CLOSE GATE
with work in flight and without. The interval's end with START and without. -/
theorem witness_SettleIntervalAndGate :
    lab.TakesWrite rq 0x07 1 [] 5 ∧ lab.arming.gateOpen = false ∧ lab.arming.settleEnded = true ∧ lab.active.status = .valid
    ∧ (working disarmed3).arming.gateOpen = true ∧ (settling true).arming.settleEnded = false
    ∧ State.reset.active.status ≠ .valid ∧ lab.ClosedMeansQuiet ∧ (∀ p ∈ lab.points, p.quality ≠ .forced)
    ∧ lab.TakesWrite rq 0x08 1 [] 5 ∧ serving.engine ≠ none ∧ tracking.tracker.ops ≠ [] ∧ tracking.queue.entries ≠ []
    ∧ lab.engine = none ∧ lab.tracker.ops = [] ∧ lab.queue.entries = []
    ∧ (settling true).held = false ∧ (settling true).timeBase = 2000 ∧ (settling true).arming.startRequested = true
    ∧ (settling true).active.status = .valid ∧ (settling false).arming.startRequested = false :=
  ⟨lab_reaches _ _ _ (by decide), rfl, rfl, rfl, rfl, rfl, by decide +kernel, fun _ => by decide +kernel, by decide +kernel,
    lab_reaches _ _ _ (by decide), by decide +kernel, by decide +kernel, by decide +kernel, rfl, rfl, rfl, rfl, rfl, rfl, rfl, rfl⟩
/-- A FORCED point, a GATED scheme and an OFF one as the gate opens, by START and at the end of the settle interval. -/
theorem witness_SettleIntervalAndGate_opening :
    (let s := { lab with points := labPoints.set 130 ⟨.binary .opened, .forced, none, some 0⟩ }
     (s.point 130).quality = .forced ∧ s.arming.gateOpen = false ∧ (s.scheme 3).state = .gated ∧ (s.scheme 0).state = .off
     ∧ ((result (.start rq 1 []) s).point 130).quality = .invalid)
    ∧ (settling true).arming.gateOpen = false ∧ ({ settling true with arming := { (settling true).arming with gateOpen := true } }
      : State).arming.gateOpen = true := by decide +kernel

/-- The same opening on tables of their size: the event updates point 130. -/
theorem witness_SettleIntervalAndGate_event :
    let s := { lab with points := labPoints.set 130 ⟨.binary .opened, .forced, none, some 0⟩ }
    s.TablesWhole ∧ (List.range 256).filter (fun p => (s.point p).quality = .forced) = [130] := by
  unfold State.TablesWhole
  decide +kernel

/-- A REQUEST from the engineering station reaches the agent of any working part. -/
theorem working_reaches (r : SchemeRec) (code tag : Byte) (args : List Word) (h : args.length ≤ 23) :
    (working r).TakesWrite rq code tag args 5 :=
  lab_reaches code tag args h

/-- Schemes 3, 15, 16 and all, with scheme 3 ARMED (no scheme OPERATING) and OPERATING. -/
theorem witness_SchemeRequests :
    (working armed3).TakesWrite rq 0x09 1 [15] 5 ∧ (working armed3).TakesWrite rq 0x09 1 [16] 5
    ∧ (working operating3).TakesWrite rq 0x09 1 [0x00FF] 5 ∧ (working armed3).TakesWrite rq 0x0A 1 [0x00FF] 5
    ∧ (working armed3).TakesWrite rq 0x0B 1 [] 5 ∧ (15 : Word).toNat < 16 ∧ 16 ≤ (16 : Word).toNat ∧ (16 : Word) ≠ 0x00FF
    ∧ (∀ i < 16, ((working armed3).scheme i).state ≠ .operating) ∧ ((working operating3).scheme 3).state = .operating :=
  ⟨working_reaches _ _ _ _ (by decide), working_reaches _ _ _ _ (by decide), working_reaches _ _ _ _ (by decide),
    working_reaches _ _ _ _ (by decide), working_reaches _ _ _ _ (by decide), by decide, by decide, by decide, by decide +kernel,
    by decide +kernel⟩
theorem working_whole : (working disarmed3).TablesWhole := by unfold State.TablesWhole; decide +kernel

/-- Forces of point 255 and of a point 256 that is none, a suitable value and an unsuitable one; unforce of 255, 256 and all. -/
theorem witness_ForceAndUnforce :
    lab.TablesWhole ∧ (working disarmed3).TablesWhole ∧ (working disarmed3).TakesWrite rq 0x0C 1 [130, 1] 5
    ∧ (working disarmed3).arming.gateOpen = true ∧ lab.TakesWrite rq 0x0C 1 [256, 1] 5 ∧ lab.arming.gateOpen = false
    ∧ 256 ≤ (256 : Word).toNat ∧ (lab.active.point 130).kind.forceValue 0x1234 = none
    ∧ (lab.active.point 255).kind.forceValue 1 = none ∧ lab.TakesWrite rq 0x0C 1 [202, 1] 5 ∧ (202 : Word).toNat < 256
    ∧ (lab.active.point 202).kind.forceValue 1 = some (.binary .opened)
    ∧ (lab.active.point 52).kind.forceValue 0xFFFF = some (.analog (-1))
    ∧ lab.TakesWrite rq 0x0D 1 [256] 5 ∧ (256 : Word) ≠ 0xFFFF ∧ lab.TakesWrite rq 0x0D 1 [0xFFFF] 5
    ∧ lab.TakesWrite rq 0x0D 1 [255] 5 ∧ (255 : Word).toNat < 256 :=
  ⟨lab_whole, working_whole, working_reaches _ _ _ _ (by decide), rfl, lab_reaches _ _ _ (by decide), rfl, by decide, by decide +kernel,
    by decide +kernel, lab_reaches _ _ _ (by decide), by decide, by decide +kernel, by decide +kernel, lab_reaches _ _ _ (by decide),
    by decide, lab_reaches _ _ _ (by decide), lab_reaches _ _ _ (by decide), by decide⟩

/-- The words at the ends of what suits a point. -/
theorem witness_ForceAndUnforce_values :
    PointKind.analog.forceValue 0x8000 = none ∧ PointKind.analog.forceValue 0x8001 = some (.analog (-32767))
    ∧ PointKind.single.forceValue 0 = some (.binary .intermediate) ∧ PointKind.double.forceValue 2 = some (.binary .closed)
    ∧ PointKind.single.forceValue 3 = none ∧ PointKind.disabled.forceValue 0 = none := by decide +kernel

/-- Each action on the West port, which is not the timing port; LOOPBACK ON with the gate open, and on the timing port with the other
port DOWN. -/
theorem witness_PortControl :
    (∀ action : Byte, lab.TakesWrite rq 0x0E 1 [portControlWord 1 action] 5)
    ∧ (working disarmed3).TakesWrite rq 0x0E 1 [portControlWord 1 2] 5 ∧ (working disarmed3).arming.gateOpen = true
    ∧ lab.arming.gateOpen = false ∧ lab.timingPort ≠ some .west ∧ (lab.port .west).state = .locked
    ∧ (let s := { lab with link := { lab.link with west := .down .zero } }
       s.timingPort = some .east ∧ (s.port (Side.other .east)).state ≠ .locked) :=
  ⟨fun _ => lab_reaches _ _ _ (by simp), working_reaches _ _ _ _ (by decide), rfl, rfl, by decide +kernel, rfl, by decide +kernel⟩

/-- The first counter read at 0 and at 81. -/
theorem witness_ClearsAndRestart :
    lab.TablesWhole ∧ lab.TakesWrite rq 0x0F 1 [readCountersWord 0 true] 5 ∧ lab.TakesWrite rq 0x0F 1 [readCountersWord 81 true] 5
    ∧ (81 : Byte).toNat ≤ 81 ∧ lab.TakesWrite rq 0x11 1 [] 5 ∧ lab.TakesWrite rq 0x12 1 [] 5 :=
  ⟨lab_whole, lab_reaches _ _ _ (by simp), lab_reaches _ _ _ (by simp), by decide, lab_reaches _ _ _ (by decide),
    lab_reaches _ _ _ (by decide)⟩

/-! The invariants, at a part that serves, tracks, or has had a port go DOWN, with a command waiting. -/

/-- A step from here answers a next state. -/
abbrev goesOn (s : State) : Prop := ∃ t, step s = .next t

/-- The state with the expansion completion waiting. -/
def queued (s : State) (c : Instr) : State := { s with pending := [c] }

theorem queued_goes_on (s t : State) (c : Instr) (h : exec c { s with pending := [] } = .next t) : goesOn (queued s c) := ⟨t, h⟩

theorem witness_BanksStayCanonical :
    (queued lab (.copyActiveToShadow rq 1 [])).BanksCanonical ∧ goesOn (queued lab (.copyActiveToShadow rq 1 [])) :=
  ⟨by unfold State.BanksCanonical; decide +kernel, queued_goes_on _ _ _ rfl⟩
theorem witness_NoPointIsForcedWhileOpen :
    (queued serving .expansionCompletion).NoForceWhileOpen ∧ (queued serving .expansionCompletion).arming.gateOpen = true
    ∧ goesOn (queued serving .expansionCompletion) :=
  ⟨fun _ => by decide +kernel, rfl, queued_goes_on _ _ _ rfl⟩
theorem serving_conts : ∀ c, (serving.cont c).state = .serving ↔ serving.engine.map Snapshot.contingency = some c := by
  intro c
  by_cases h : c < 64
  · exact (by decide +kernel : ∀ c < 64, (serving.cont c).state = .serving ↔ serving.engine.map Snapshot.contingency = some c) c h
  · have hlen : serving.monitor.conts.length = 64 := by decide +kernel
    have hd : serving.cont c = .fresh := by
      show serving.monitor.conts.getD c .fresh = .fresh
      rw [List.getD_eq_default _ _ (by omega)]
    have hm : serving.engine.map Snapshot.contingency = some 21 := rfl
    rw [hd, hm]
    constructor
    · intro hf; exact absurd hf (by decide)
    · intro hf; cases hf; omega
theorem witness_ArbiterInvariant :
    (queued serving .expansionCompletion).IdleMeansNonePending ∧ (queued serving .expansionCompletion).ServingIsTheEngines
    ∧ goesOn (queued serving .expansionCompletion) :=
  ⟨fun h => (nomatch h), serving_conts, queued_goes_on _ _ _ rfl⟩
theorem witness_ClosedGateStaysQuiet :
    (queued lab .armingEvaluation).ClosedMeansQuiet ∧ (queued lab .armingEvaluation).IdleMeansNonePending
    ∧ (queued lab .armingEvaluation).arming.gateOpen = false ∧ goesOn (queued lab .armingEvaluation) :=
  ⟨fun _ => by decide +kernel, fun _ => by decide +kernel, rfl, queued_goes_on _ _ _ rfl⟩
theorem witness_SchemeRecordsStayConsistent :
    (queued (working armed3) .armingEvaluation).SelectionWhileArmed
    ∧ (queued (working armed3) .armingEvaluation).ResetTimerInOperated ∧ goesOn (queued (working armed3) .armingEvaluation) :=
  ⟨by unfold State.SelectionWhileArmed; decide +kernel, by unfold State.ResetTimerInOperated; decide +kernel,
    queued_goes_on _ _ _ rfl⟩
theorem witness_TablesStayWithinBounds :
    (queued tracking (.entryExpiry 24)).QueueBounded ∧ (queued tracking (.entryExpiry 24)).TablesBounded
    ∧ goesOn (queued tracking (.entryExpiry 24)) :=
  ⟨by unfold State.QueueBounded; decide +kernel, by unfold State.TablesBounded; decide +kernel, queued_goes_on _ _ _ rfl⟩
theorem witness_PortRecordsStayConsistent :
    let s := queued { lab with link := { lab.link with west := .down .zero } } (.babble .east)
    s.DownPortsReset ∧ s.PortCountsBounded ∧ goesOn s := by
  refine ⟨fun side h => ?_, fun side => ?_, queued_goes_on _ _ _ rfl⟩
  · cases side
    · exact absurd h (by decide)
    · rfl
  · cases side <;> decide

/-- The settle interval's end opens the gate; a tick keeps everything. -/
theorem witness_OnlyRequestsChangeSettings :
    Instr.settleIntervalEnd.request = none ∧ (∀ rx kind p, Instr.settleIntervalEnd ≠ .repeatedFrame rx kind p)
    ∧ (∀ rx code tag args, Instr.settleIntervalEnd ≠ .unknownRequest rx code tag args)
    ∧ exec .settleIntervalEnd (settling true) = .next (result .settleIntervalEnd (settling true))
    ∧ (settling true).arming.gateOpen = false ∧ (result .settleIntervalEnd (settling true)).arming.gateOpen = true :=
  ⟨rfl, fun _ _ _ h => (nomatch h), fun _ _ _ _ h => (nomatch h), rfl, rfl, by decide +kernel⟩

end Sys2Proof.Tests
end

section
/-! The hold timer: its expiry (R12) and what it permits of walk-down (R11). -/

namespace Sys2Proof.Machine

/-- HOLD_TIMER_EXPIRY of a running part at the time of the scheme's hold timer (R12). -/
theorem exec_holdTimerExpiry_of_due {s : State} {i : Fin 16} (held : s.held = false)
    (due : (s.scheme i).holdTimer = some s.timeBase) :
    exec (.holdTimerExpiry i) s = .next (s.quiet.updScheme i (fun r => { r with holdTimer := none })) := by
  have due' : (s.quiet.scheme i).holdTimer = some s.quiet.timeBase := due
  calc exec (.holdTimerExpiry i) s = execHoldTimerExpiry i s := rfl
    _ = .next _ := running_next held _
    _ = _ := by rw [if_pos due']

section
variable (e : SchemeEntry) (expiry : Time) (q : Int) (r : SchemeRec)

/-- With the hold timer stopped, the next Q above the stress level after one that counted is a step (R11). -/
theorem walkDown_steps_of_stopped (enabled : e.walkEnable = true) (above : e.stressLevel < q)
    (stopped : r.holdTimer = none) (counted : 1 ≤ r.stress) : (r.walkDown e expiry q).2 = true :=
  (walkDown_spec e expiry q r).1.2 ⟨enabled, above, counted, stopped⟩

/-- While the hold timer runs, walk-down takes no step and W stays (R11, R12). -/
theorem walkDown_keeps_walk_of_running {t : Time} (runs : r.holdTimer = some t) :
    (r.walkDown e expiry q).2 = false ∧ (r.walkDown e expiry q).1.walk = r.walk := by
  obtain ⟨steps_iff, -, unstepped⟩ := walkDown_spec e expiry q r
  have noStep : ¬ (e.walkEnable = true ∧ e.stressLevel < q ∧ 1 ≤ r.stress ∧ r.holdTimer = none) := by
    rintro ⟨-, -, -, stopped⟩
    cases runs.symm.trans stopped
  exact ⟨Bool.eq_false_iff.2 (mt steps_iff.1 noStep), by rw [unstepped noStep]⟩

end

/-- Settles O6: the expiry is one record update of the quiet state, and walk-down is read off `walkDown_spec`. -/
theorem holdTimerExpiryStopsTheTimer : Obligations.HoldTimerExpiryStopsTheTimer := by
  refine ⟨fun s i held due => ?expiry, fun e expiry q r enabled above stopped counted => ?stopped,
    fun e expiry t q r runs => ?running⟩
  case expiry => exact exec_holdTimerExpiry_of_due held due
  case stopped => exact walkDown_steps_of_stopped e expiry q r enabled above stopped (by omega)
  case running => exact walkDown_keeps_walk_of_running e expiry q r runs

end Sys2Proof.Machine
end

section
/-! The shed requirement: rounding up (00_scope.md section 5.3), and the requirement computed with it (R31). -/

namespace Sys2Proof.Machine

/-- The quotient rounded up is the least that covers the dividend: it exceeds it by less than one divisor. -/
theorem roundUp_bounds (n : Nat) {d : Nat} (pos : 0 < d) : n ≤ d * roundUp n d ∧ d * roundUp n d < n + d := by
  have division : d * roundUp n d + (n + (d - 1)) % d = n + (d - 1) := Nat.div_add_mod _ _
  have remainder : (n + (d - 1)) % d < d := Nat.mod_lt _ pos
  omega

theorem roundUp_zero {d : Nat} (pos : 0 < d) : roundUp 0 d = 0 :=
  Nat.div_eq_of_lt (by omega)

namespace SchemeEntry
variable (e : SchemeEntry) {q : Int}

/-- With Q at most L, or k of 0, the product of R31 is 0. -/
theorem scaledExcess_eq_zero (h : q ≤ e.limit ∨ e.sensitivity = 0) : (q - e.limit).toNat * e.sensitivity = 0 := by
  rcases h with below | insensitive
  · have noExcess : (q - e.limit).toNat = 0 := by omega
    rw [noExcess, Nat.zero_mul]
  · rw [insensitive, Nat.mul_zero]

/-- Without a scaled excess only B and the cap are left (R31). -/
theorem requirement_of_no_excess (h : q ≤ e.limit ∨ e.sensitivity = 0) : e.requirement q = min e.bias e.cap := by
  rw [requirement, e.scaledExcess_eq_zero h, roundUp_zero (by decide), Nat.zero_add]

theorem requirement_le_cap (q : Int) : e.requirement q ≤ e.cap := Nat.min_le_right _ _

/-- The requirement only grows from B, so a cap below B always binds. -/
theorem requirement_of_cap_lt_bias (q : Int) (h : e.cap < e.bias) : e.requirement q = e.cap :=
  Nat.min_eq_right (h.le.trans (Nat.le_add_left _ _))

end SchemeEntry

/-- Settles O11: the witnesses are the model's own excess and its quotient rounded up, placed by `roundUp_bounds`. -/
theorem requirementFollowsTheExcess : Obligations.RequirementFollowsTheExcess := by
  intro e q
  refine ⟨⟨(q - e.limit).toNat, roundUp ((q - e.limit).toNat * e.sensitivity) 256, ?excess, ?enough, ?least, rfl⟩,
    e.requirement_of_no_excess, e.requirement_le_cap q, e.requirement_of_cap_lt_bias q⟩
  case excess => omega
  case enough => exact (roundUp_bounds _ (by decide)).1
  case least => exact (roundUp_bounds _ (by decide)).2

end Sys2Proof.Machine
end

section
/-! The outcome of a participation at closure (R100): one equation per branch, and what closing does to a taken and a SKIPPED one. -/

namespace Sys2Proof.Machine

namespace TakenPart
variable {t : TakenPart}

theorem closeOutcome_of_requirement_le_confirmed (enough : t.requirement ≤ t.confirmed) : t.closeOutcome = .covered :=
  if_pos enough

theorem closeOutcome_of_none_confirmed (required : 0 < t.requirement) (none_confirmed : t.confirmed = 0) :
    t.closeOutcome = .failed := by
  have lacking : ¬ t.requirement ≤ t.confirmed := by omega
  rw [closeOutcome, if_neg lacking, if_pos none_confirmed]

theorem closeOutcome_of_partly_confirmed (some_confirmed : 0 < t.confirmed) (lacking : t.confirmed < t.requirement) :
    t.closeOutcome = .short := by
  rw [closeOutcome, if_neg lacking.not_ge, if_neg some_confirmed.ne']

end TakenPart

namespace Participation

@[simp] theorem close_of_taken (scheme : Nat) (t : TakenPart) :
    close ⟨scheme, some t⟩ = ⟨scheme, some { t with outcome := some t.closeOutcome }⟩ := rfl

@[simp] theorem close_of_skipped (scheme : Nat) : close ⟨scheme, none⟩ = ⟨scheme, none⟩ := rfl

end Participation

/-- Settles O25: each row of R100's table is one branch of `closeOutcome`; a requirement of 0 is covered by any amount. -/
theorem participationOutcomeTable : Obligations.ParticipationOutcomeTable := by
  intro t
  refine ⟨fun unrequired => ?unrequired, fun _ enough => ?covered, fun _ some_confirmed lacking => ?short,
    fun required none_confirmed => ?failed, fun scheme => ⟨?taken, ?skipped⟩⟩
  case unrequired => exact TakenPart.closeOutcome_of_requirement_le_confirmed (unrequired.le.trans (Nat.zero_le _))
  case covered => exact TakenPart.closeOutcome_of_requirement_le_confirmed enough
  case short => exact TakenPart.closeOutcome_of_partly_confirmed some_confirmed lacking
  case failed => exact TakenPart.closeOutcome_of_none_confirmed required none_confirmed
  case taken => rw [Participation.close_of_taken]
  case skipped => exact Participation.close_of_skipped scheme

end Sys2Proof.Machine
end

section
/-! What a point's word decodes to: the clamped analog scaling (R112), and the binary readings (R113, R114). -/

namespace Sys2Proof.Machine

section
variable {lo hi n : Int}

theorem clamp_bounds (nonempty : lo ≤ hi) (n : Int) : lo ≤ clamp lo hi n ∧ clamp lo hi n ≤ hi :=
  ⟨le_max_left _ _, max_le nonempty (min_le_left _ _)⟩

theorem clamp_of_mem (above : lo ≤ n) (below : n ≤ hi) : clamp lo hi n = n := by
  rw [clamp, min_eq_right below, max_eq_right above]

theorem clamp_of_hi_lt (nonempty : lo ≤ hi) (beyond : hi < n) : clamp lo hi n = hi := by
  rw [clamp, min_eq_left beyond.le, max_eq_right nonempty]

theorem clamp_of_lt_lo (under : n < lo) : clamp lo hi n = lo :=
  max_eq_left ((min_le_right _ _).trans under.le)

end

theorem roundHalfAway_zero {d : Nat} (pos : 0 < d) : roundHalfAway 0 d = 0 := by
  have noQuotient : d / (2 * d) = 0 := Nat.div_eq_of_lt (by omega)
  simp only [roundHalfAway, lt_irrefl, if_false, Int.natAbs_zero, mul_zero, zero_add, noQuotient, Nat.cast_zero]

namespace PointEntry
variable {e : PointEntry}

/-- A gain of 0 leaves nothing to round, and 0 is within the range (R112). -/
theorem scale_of_gain_zero (flat : e.gain = 0) (w : Word) : e.scale w = 0 := by
  rw [scale, flat, Int.mul_zero, roundHalfAway_zero (by decide)]
  exact clamp_of_mem (by decide) (by decide)

theorem decode_of_analog (kind : e.kind = .analog) (w : Word) : e.decode w = some (.analog (e.scale w)) := by
  rw [decode, kind]

theorem decode_of_single (kind : e.kind = .single) (w : Word) : e.decode w = some (.binary (e.single w)) := by
  rw [decode, kind]

theorem decode_of_double (kind : e.kind = .double) (w : Word) : e.decode w = (e.double w).map .binary := by
  rw [decode, kind]

theorem single_eq (e : PointEntry) (w : Word) :
    e.single w = if w.getLsbD e.bitNumber = e.oneIsClosed then .closed else .opened := by
  simp only [single, bit, beq_iff_eq]

end PointEntry

/-- Settles O37: the scaling is the clamp of the rounded quotient, taken inside, above and below the range; a DOUBLE point's reading
is the table over its two bits. -/
theorem wordsDecodeToValues : Obligations.WordsDecodeToValues := by
  have nonempty : (-32767 : Int) ≤ 32767 := by decide
  refine ⟨fun e w => ⟨fun kind => ?analog, ?low, ?high, fun above below => ?inside, fun beyond => ?beyond, fun under => ?under,
    fun flat => ?flat⟩, fun e w => ⟨fun kind => ?single, fun kind => ?double⟩⟩
  case analog => exact PointEntry.decode_of_analog kind w
  case low => exact (clamp_bounds nonempty _).1
  case high => exact (clamp_bounds nonempty _).2
  case inside => exact clamp_of_mem above below
  case beyond => exact clamp_of_hi_lt nonempty beyond
  case under => exact clamp_of_lt_lo under
  case flat => exact PointEntry.scale_of_gain_zero flat w
  case single => rw [PointEntry.decode_of_single kind, PointEntry.single_eq]
  case double =>
    rw [PointEntry.decode_of_double kind, PointEntry.double, bit, bit]
    cases w.getLsbD (e.bitNumber + 1) <;> cases w.getLsbD e.bitNumber <;> rfl

end Sys2Proof.Machine
end

section
/-! A window end: the verdict on the window's count (R135), and a window end that does not make its station SILENT. -/

namespace Sys2Proof.Machine

namespace StationEntry
variable {e : StationEntry} {count : Nat}

theorem judge_of_minimum_le (enough : e.minimum ≤ count) : e.judge count = .fresh :=
  if_pos enough

theorem judge_of_short (short : count < e.minimum) (received : 1 ≤ count) :
    e.judge count = if e.degradedSilent then .silent else .degraded := by
  have counted : count ≠ 0 := by omega
  simp only [judge, if_neg (not_le.2 short), counted, false_or]

theorem judge_of_zero (silence : count = 0) (required : 1 ≤ e.minimum) : e.judge count = .silent := by
  rw [judge, if_neg (by omega), if_pos (.inl silence)]

end StationEntry

/-- A window end that is no entry into SILENT changes its station's record alone, and there leaves the rejoin discards (R135, R136). -/
theorem endWindow_of_not_entered {s : State} {i : Nat}
    (stays : (s.active.station i).judge (s.station i).windowCount ≠ .silent ∨ (s.station i).freshness = .silent) :
    s.endWindow i = s.updStation i (fun r => { r with
      freshness := (s.active.station i).judge (s.station i).windowCount
      windowCount := 0
      windowStart := s.timeBase }) := by
  have notEntered : (decide ((s.active.station i).judge (s.station i).windowCount = .silent)
      && decide ((s.station i).freshness ≠ .silent)) = false := by
    rw [Bool.and_eq_false_iff]
    exact stays.imp decide_eq_false (fun silent => decide_eq_false (not_not_intro silent))
  simp only [State.endWindow, notEntered, Bool.false_eq_true, if_false]

/-- Settles O8: the judged freshness is `judge` of the window count, and without an entry into SILENT the event is one update of the
station's record. -/
theorem windowEndJudges : Obligations.WindowEndJudges := by
  intro s i held enabled ⟨_, _, stations, _⟩ due
  have inTable : (i : Nat) < s.quiet.intake.stations.length := stations.symm ▸ i.isLt
  have record := endWindow_station inTable
  have judged : ((s.quiet.endWindow i).station i).freshness = (s.active.station i).judge (s.station i).windowCount :=
    congrArg StationRec.freshness record
  refine ⟨s.quiet.endWindow i, exec_windowEnd held enabled due, fun enough => ?fresh, fun short received => ?short,
    fun silence required => ?silence, congrArg StationRec.windowCount record, congrArg StationRec.windowStart record,
    fun stays => ?frame⟩
  case fresh => exact judged.trans (StationEntry.judge_of_minimum_le enough)
  case short => exact judged.trans (StationEntry.judge_of_short short received)
  case silence => exact judged.trans (StationEntry.judge_of_zero silence required)
  case frame =>
    rw [judged] at stays ⊢
    exact endWindow_of_not_entered (s := s.quiet) stays

end Sys2Proof.Machine
end

section
/-! What the effects of a command leave of the banks, the points and the gate, each said once. -/

namespace Sys2Proof.Machine

section
variable (s : State)

theorem surroundings_unforce (addressed : Nat → Bool) : (s.unforce addressed).surroundings
    = { s.surroundings with points := s.points.mapIdx (fun i r => if addressed i then r.unforce else r) } :=
  State.surroundings_afterUpdates _ _ _

theorem surroundings_force (i : Nat) (v : PointValue) : (s.force i v).surroundings
    = { s.surroundings with
        points := s.points.modify i (fun r => { r with value := v, quality := .forced, holdStart := none }) } :=
  State.surroundings_afterUpdates _ _ _

theorem surroundings_openGate : s.openGate.surroundings
    = { s.surroundings with gateOpen := true, points := s.points.mapIdx (fun _ r => r.unforce) } :=
  surroundings_unforce _ _

/-- The gate's opening, when it is due (R25, R26). -/
theorem tryOpenGate_of_due (due : s.gateDue = true) : s.tryOpenGate = s.openGate := if_pos due

theorem tryOpenGate_of_not_due (due : s.gateDue = false) : s.tryOpenGate = s :=
  if_neg (by rw [due]; exact Bool.false_ne_true)

/-- Trying the gate either opens it or does nothing (R25). -/
theorem tryOpenGate_cases : (s.gateDue = true ∧ s.tryOpenGate = s.openGate) ∨ (s.gateDue = false ∧ s.tryOpenGate = s) := by
  cases due : s.gateDue
  · exact .inr ⟨rfl, tryOpenGate_of_not_due s due⟩
  · exact .inl ⟨rfl, tryOpenGate_of_due s due⟩

theorem surroundings_sendTrip (entries : List Entry) : (s.sendTrip entries).surroundings = s.surroundings := by
  unfold State.sendTrip
  rw [State.surroundings_closeFinished, foldl_keeps State.surroundings (fun a e => a.surroundings_finishEntry _ e)]
  exact s.surroundings_setQueue _

theorem evaluate_keeps : s.evaluate.banks = s.banks ∧ s.evaluate.points = s.points
    ∧ s.evaluate.arming.gateOpen = s.arming.gateOpen := by
  unfold State.evaluate
  have banks := foldl_keeps (f := State.evaluateScheme) State.banks (fun _ _ => rfl) (List.range 16) s
  have points := foldl_keeps (f := State.evaluateScheme) State.points (fun _ _ => rfl) (List.range 16) s
  have gate := foldl_keeps (f := State.evaluateScheme) (fun s => s.arming.gateOpen) (fun _ _ => rfl) (List.range 16) s
  generalize (List.range 16).foldl State.evaluateScheme s = t at banks points gate
  exact ⟨banks, points, gate⟩

/-- The state a commit sets from the new bank, before the gate is tried (R167). -/
def State.committed (s : State) : State :=
  ((if s.linkChanged s.shadow then s.portsDown else s).setBanks s.banks.swap).setFromActive

theorem commitBanks_eq : s.commitBanks = s.committed.tryOpenGate := by
  unfold State.commitBanks State.committed
  split <;> rfl

theorem committed_keeps : s.committed.banks = s.banks.swap ∧ s.committed.arming.gateOpen = s.arming.gateOpen
    ∧ s.committed.points = s.committed.active.freshPoints ∧ s.committed.engine = s.engine ∧ s.committed.queue = s.queue
    ∧ s.committed.tracker = s.tracker ∧ s.committed.log = s.log ∧ s.committed.monitor.conts = freshConts := by
  have downed : ∀ t : State, t.portsDown = t.setLink t.portsDown.link := fun t => rfl
  unfold State.committed State.setFromActive
  rw [downed]
  split <;> simp [State.active] <;> rfl

end

theorem tryOpenGate_banks (s : State) : s.tryOpenGate.banks = s.banks := by
  rcases tryOpenGate_cases s with ⟨-, opens⟩ | ⟨-, stays⟩
  · rw [opens]; exact congrArg Surroundings.banks (surroundings_openGate s)
  · rw [stays]

theorem foldl_updScheme_eq (f : SchemeRec → SchemeRec) (l : List Nat) (s : State) :
    l.foldl (fun s i => s.updScheme i f) s = s.setArming { s.arming with
      schemes := (l.foldl (fun s i => s.updScheme i f) s).arming.schemes } := by
  induction l generalizing s with
  | nil => rfl
  | cons i rest ih => exact ih (s.updScheme i f)

/-- Only a request writes the banks: LOAD a run of the shadow bank, COPY the whole of it, COMMIT the swap (R161 to R167). -/
theorem Effect.banks_cases {c : Instr} {u v : State} (e : Effect c u v) : v.banks = u.banks
    ∨ isRequest c ∧ ((∃ a d, v.banks = (u.loadShadow a d).banks) ∨ v.banks = (u.setShadow u.active).banks
      ∨ v.banks = u.banks.swap) := by
  have same : ∀ t : State, t.surroundings = u.surroundings → t.banks = u.banks := fun t h => congrArg Surroundings.banks h
  cases e with
  | none | reset | resetPower | holdExpiry | resetExpiry | hold | stale | close | release | clear => exact .inl rfl
  | evaluate => exact .inl (evaluate_keeps u).1
  | settle | start => exact .inl (tryOpenGate_banks _)
  | expire e _ => exact .inl (same _ (u.surroundings_expireEntry e))
  | complete snap _ => exact .inl (same _ (u.surroundings_completeExpansion snap))
  | trip _ => exact .inl (same _ (surroundings_sendTrip u _))
  | publish i fr payload => exact .inl (congrArg Surroundings.banks (State.surroundings_afterUpdates _ _ _))
  | force i v _ _ => exact .inl (congrArg Surroundings.banks (surroundings_force u i v))
  | unforce f _ => exact .inl (congrArg Surroundings.banks (surroundings_unforce u f))
  | resetSchemes l _ _ => rw [foldl_updScheme_eq]; exact .inl rfl
  | restoreMargin l _ => rw [foldl_updScheme_eq]; exact .inl rfl
  | load a d request => exact .inr ⟨request, .inl ⟨a, d, rfl⟩⟩
  | copy request => exact .inr ⟨request, .inr (.inl rfl)⟩
  | commit request _ _ =>
    refine .inr ⟨request, .inr (.inr ?_)⟩
    rw [commitBanks_eq, tryOpenGate_banks, (committed_keeps u).1]

/-- The gate stays as it is but for the openings of SETTLE_INTERVAL_END and of a request, a CLOSE GATE and a reset (R25 to R28). -/
theorem Effect.gate_cases {c : Instr} {u v : State} (e : Effect c u v) : v.arming.gateOpen = u.arming.gateOpen
    ∨ v.arming.gateOpen = false ∨ c = .settleIntervalEnd ∨ isRequest c := by
  have same : ∀ t : State, t.surroundings = u.surroundings → t.arming.gateOpen = u.arming.gateOpen :=
    fun t h => congrArg Surroundings.gateOpen h
  cases e with
  | none | holdExpiry | resetExpiry | hold | stale => exact .inl rfl
  | reset | resetPower => exact .inr (.inl rfl)
  | evaluate => exact .inl (evaluate_keeps u).2.2
  | settle is => exact .inr (.inr (.inl is))
  | expire e _ => exact .inl (same _ (u.surroundings_expireEntry e))
  | complete snap _ => exact .inl (same _ (u.surroundings_completeExpansion snap))
  | trip _ => exact .inl (same _ (surroundings_sendTrip u _))
  | publish i fr payload => exact .inl (congrArg Surroundings.gateOpen (State.surroundings_afterUpdates _ _ _))
  | load _ _ request | copy request | commit request _ _ | start request | close request _ | resetSchemes _ request _
  | restoreMargin _ request | release request | force _ _ request _ | unforce _ request | clear _ request =>
    exact .inr (.inr (.inr request))

/-- Settles O60: of the effects, those that write the banks are a request's, and of those that open the gate the only other one is
SETTLE_INTERVAL_END's. -/
theorem onlyRequestsChangeSettings : Obligations.OnlyRequestsChangeSettings := by
  intro s t c no_request no_repeated no_unknown ran
  have no_write : ¬ isRequest c := by
    rintro (request | ⟨rx, kind, p, is⟩ | ⟨rx, code, tag, args, is⟩)
    · rw [no_request] at request
      cases request
    · exact no_repeated rx kind p is
    · exact no_unknown rx code tag args is
  obtain ⟨u, v, before, effect, after⟩ := exec_does c s t ran
  refine ⟨?banks, fun closed opened => ?gate⟩
  case banks =>
    rcases effect.banks_cases with kept | ⟨request, -⟩
    · rw [after.banks, kept, before.banks]
    · exact absurd request no_write
  case gate =>
    rw [after.arming] at opened
    rcases effect.gate_cases with kept | shut | settle | request
    · rw [kept, before.arming, closed] at opened
      cases opened
    · rw [shut] at opened
      cases opened
    · exact settle
    · exact absurd request no_write

theorem State.banksCanonical_congr {s t : State} (same : t.banks = s.banks) : t.BanksCanonical ↔ s.BanksCanonical := by
  unfold State.BanksCanonical
  rw [same]

theorem State.BanksCanonical.active {s : State} (h : s.BanksCanonical) : s.active.words.wf = true := by
  unfold State.active
  split
  · exact h.2
  · exact h.1

theorem State.BanksCanonical.shadow {s : State} (h : s.BanksCanonical) : s.shadow.words.wf = true := by
  unfold State.shadow
  split
  · exact h.1
  · exact h.2

/-- A shadow bank in canonical form keeps the form of the banks. -/
theorem State.BanksCanonical.setShadow {s : State} (h : s.BanksCanonical) {b : Bank} (canonical : b.words.wf = true) :
    (s.setShadow b).BanksCanonical := by
  unfold State.setShadow
  split
  · exact ⟨canonical, h.2⟩
  · exact ⟨h.1, canonical⟩

theorem BanksState.swap_words (b : BanksState) : b.swap.a.words = b.a.words ∧ b.swap.b.words = b.b.words := by
  unfold BanksState.swap
  split <;> exact ⟨rfl, rfl⟩

/-- Settles O53: a LOAD writes a run of words into the shadow bank, COPY and COMMIT only move whole banks, and nothing else writes. -/
theorem banksStayCanonical : Obligations.BanksStayCanonical := by
  intro s t canonical ran
  refine step_keeps (P := State.BanksCanonical) (fun s t same h => (State.banksCanonical_congr same.banks).2 h) ?_ ran canonical
  intro c u v effect h
  rcases effect.banks_cases with kept | ⟨-, ⟨a, d, loaded⟩ | copied | swapped⟩
  · exact (State.banksCanonical_congr kept).2 h
  · exact (State.banksCanonical_congr loaded).2 (h.setShadow (BankWords.writeRun_wf a d h.shadow))
  · exact (State.banksCanonical_congr copied).2 (h.setShadow h.active)
  · obtain ⟨words_a, words_b⟩ := u.banks.swap_words
    unfold State.BanksCanonical
    rw [swapped, words_a, words_b]
    exact h

end Sys2Proof.Machine
end

section
/-! Forced points and the gate (R118 to R120): what each operation on the points does to a quality that is not FORCED. -/

namespace Sys2Proof.Machine

/-- A change at one place and elsewhere nothing: each element is an old one or the changed one. -/
theorem mem_modify_cases {α : Type} {f : α → α} {l : List α} {i : Nat} {x : α} (h : x ∈ l.modify i f) :
    x ∈ l ∨ ∃ y, l[i]? = some y ∧ x = f y := by
  obtain ⟨j, at_j⟩ := List.getElem?_of_mem h
  rw [List.getElem?_modify] at at_j
  by_cases same : i = j
  · subst same
    rw [Option.map_eq_map, Option.map_eq_some_iff] at at_j
    obtain ⟨y, at_y, changed⟩ := at_j
    rw [if_pos rfl] at changed
    exact .inr ⟨y, at_y, changed.symm⟩
  · rw [Option.map_eq_map, Option.map_eq_some_iff] at at_j
    obtain ⟨y, at_y, changed⟩ := at_j
    rw [if_neg same] at changed
    exact .inl (changed ▸ List.mem_of_getElem? at_y)

/-- A property that a change keeps is kept by changing one element. -/
theorem forall_mem_modify {α : Type} {p : α → Prop} {f : α → α} {l : List α} (h : ∀ x ∈ l, p x) (keeps : ∀ x ∈ l, p x → p (f x))
    (i : Nat) : ∀ x ∈ l.modify i f, p x := by
  intro x mem
  rcases mem_modify_cases mem with old | ⟨y, at_y, rfl⟩
  · exact h x old
  · exact keeps y (List.mem_of_getElem? at_y) (h y (List.mem_of_getElem? at_y))

theorem forall_mem_mapIdx {α : Type} {p q : α → Prop} {f : Nat → α → α} {l : List α} (h : ∀ x ∈ l, p x)
    (turns : ∀ i x, p x → q (f i x)) : ∀ x ∈ l.mapIdx f, q x := by
  intro x mem
  obtain ⟨i, inside, rfl⟩ := List.mem_mapIdx.1 mem
  exact turns i _ (h _ (List.getElem_mem inside))

namespace PointRec
variable {r : PointRec}

theorem unforce_not_forced (r : PointRec) : r.unforce.quality ≠ .forced := by
  unfold unforce
  split
  · exact Quality.noConfusion
  · assumption

theorem toStale_not_forced (e : PointEntry) (r : PointRec) : (r.toStale e).quality ≠ .forced := Quality.noConfusion

theorem hold_not_forced (e : PointEntry) (now : Time) (h : r.quality ≠ .forced) : (r.hold e now).quality ≠ .forced := by
  unfold hold
  split
  · split
    · exact toStale_not_forced e r
    · exact Quality.noConfusion
  · exact h

theorem publish_not_forced (e : PointEntry) (fr : Freshness) (w : Word) (h : r.quality ≠ .forced) :
    (r.publish e fr w).quality ≠ .forced := by
  unfold publish
  rw [if_neg h]
  split
  · exact Quality.noConfusion
  · cases fr <;> exact Quality.noConfusion

end PointRec

/-- No point is FORCED. -/
def State.Unforced (s : State) : Prop := ∀ p ∈ s.points, p.quality ≠ .forced

theorem State.noForceWhileOpen_of_surroundings {s t : State} (same : t.surroundings = s.surroundings) (h : s.NoForceWhileOpen) :
    t.NoForceWhileOpen := by
  have points : t.points = s.points := congrArg Surroundings.points same
  have gate : t.arming.gateOpen = s.arming.gateOpen := congrArg Surroundings.gateOpen same
  unfold State.NoForceWhileOpen
  rw [points, gate]
  exact h

theorem openGate_unforced (s : State) : s.openGate.Unforced := by
  have points : s.openGate.points = s.points.mapIdx (fun _ r => r.unforce) := congrArg Surroundings.points (surroundings_openGate s)
  unfold State.Unforced
  rw [points]
  exact forall_mem_mapIdx (p := fun _ => True) (fun _ _ => trivial) (fun _ r _ => r.unforce_not_forced)

theorem noForceWhileOpen_tryOpenGate {s : State} (h : s.NoForceWhileOpen) : s.tryOpenGate.NoForceWhileOpen := by
  rcases tryOpenGate_cases s with ⟨-, opens⟩ | ⟨-, stays⟩
  · rw [opens]
    exact fun _ => openGate_unforced s
  · rw [stays]
    exact h

/-- An effect that only changes points, none to FORCED. -/
theorem State.NoForceWhileOpen.points {s t : State} (h : s.NoForceWhileOpen) (gate : t.arming.gateOpen = s.arming.gateOpen)
    (kept : s.Unforced → t.Unforced) : t.NoForceWhileOpen :=
  fun isOpen => kept (h (gate ▸ isOpen))

/-- Settles O54: points are FORCED by FORCE POINT alone, which the open gate refuses, and the gate's opening unforces them all. -/
theorem noPointIsForcedWhileOpen : Obligations.NoPointIsForcedWhileOpen := by
  intro s t unforced ran
  refine step_keeps (P := State.NoForceWhileOpen) (fun s t same h => ?same) (fun c u v effect h => ?effect) ran unforced
  case same => exact h.points (congrArg ArmingState.gateOpen same.arming) (fun free => by rw [State.Unforced, same.points]; exact free)
  case effect =>
    cases effect with
    | none | holdExpiry | resetExpiry | load | copy | release | clear => exact h
    | reset | resetPower | close => exact fun isOpen => Bool.noConfusion isOpen
    | evaluate =>
      obtain ⟨-, points, gate⟩ := evaluate_keeps u
      exact h.points gate (fun free => by rw [State.Unforced, points]; exact free)
    | settle | start => exact noForceWhileOpen_tryOpenGate h
    | hold i =>
      refine h.points rfl (fun free => forall_mem_mapIdx free (fun j r h => ?_))
      dsimp only
      split
      · exact r.hold_not_forced _ _ h
      · exact h
    | stale i => exact h.points rfl (fun free => forall_mem_modify free (fun r _ _ => r.toStale_not_forced _) i)
    | expire e _ => exact State.noForceWhileOpen_of_surroundings (u.surroundings_expireEntry e) h
    | complete snap _ => exact State.noForceWhileOpen_of_surroundings (u.surroundings_completeExpansion snap) h
    | trip _ => exact State.noForceWhileOpen_of_surroundings (surroundings_sendTrip u _) h
    | publish i fr payload =>
      refine State.noForceWhileOpen_of_surroundings (State.surroundings_afterUpdates _ _ _) ?_
      refine h.points rfl (fun free => forall_mem_mapIdx free (fun j r h => ?_))
      split
      · exact r.publish_not_forced _ _ _ h
      · exact h
    | commit =>
      rw [commitBanks_eq]
      refine noForceWhileOpen_tryOpenGate (fun _ => ?_)
      obtain ⟨-, -, points, -⟩ := committed_keeps u
      rw [points]
      intro p mem
      obtain ⟨i, -, rfl⟩ := List.mem_map.1 mem
      exact Quality.noConfusion
    | resetSchemes | restoreMargin => rw [foldl_updScheme_eq]; exact h
    | force i v _ closed =>
      have gate : (u.force i v).arming.gateOpen = u.arming.gateOpen := congrArg Surroundings.gateOpen (surroundings_force u i v)
      exact fun isOpen => Bool.noConfusion (closed.symm.trans (gate.symm.trans isOpen))
    | unforce f =>
      refine State.noForceWhileOpen_of_surroundings (State.surroundings_afterUpdates _ _ _) ?_
      refine h.points rfl (fun free => forall_mem_mapIdx free (fun j r h => ?_))
      split
      · exact r.unforce_not_forced
      · exact h

end Sys2Proof.Machine
end

section
/-! What every composite operation of a service keeps, once its few elementary operations keep it. -/

namespace Sys2Proof.Machine

/-- A property of states that the elementary operations of a service keep: a change to an operation's record, a hand-in, an entry that
leaves, a TRIP frame's sends, a closure, the end of a scheme's work and the opening of work. -/
structure ServiceKeeps (P : State → Prop) : Prop where
  record : ∀ (s : State) (id : Nat) (f : Operation → Operation), P s → P (s.updOp id f)
  handed : ∀ (id priority : Nat) (taken : List Nat) (s : State) (n : Node), P s → P (State.handIn id priority taken s n)
  removed : ∀ (s : State) (action : Nat), P s → P (s.removeEntry action)
  sent : ∀ (s : State) (f : Entry → Entry), (∀ e, (f e).action = e.action) → P s →
    P (s.setQueue { s.queue with entries := s.queue.entries.map f })
  closed : ∀ (s : State) (op : Operation), P s → P (s.closeOp op)
  ended : ∀ (s : State) (i : Nat), P s → P (s.endWork i)
  opened : ∀ (s : State) (c : Nat) (path : OpPath) (priority : Nat) (phase : OpPhase) (taken : List SchemeCopy), P s →
    P (s.openWork c path priority phase taken)

namespace ServiceKeeps
variable {P : State → Prop} (k : ServiceKeeps P) {s : State}
include k

theorem handIns (id priority : Nat) (taken : List Nat) (nodes : List Node) (h : P s) :
    P (nodes.foldl (State.handIn id priority taken) s) :=
  foldl_pres P (k.handed id priority taken) nodes s h

theorem endWorks (schemes : List Nat) (h : P s) : P (schemes.foldl State.endWork s) := foldl_pres P k.ended schemes s h

theorem finishEntry (status : NodeStatus) (e : Entry) (h : P s) : P (State.finishEntry status s e) :=
  foldl_pres P (fun t id ht => k.record t id _ ht) e.refs _ (k.removed s e.action h)

theorem confirmUpdated (updated : List Nat) (h : P s) : P (s.confirmUpdated updated) :=
  foldl_pres P (fun _ e ht => k.finishEntry .confirmed e ht) _ s h

theorem closeFinished (h : P s) : P s.closeFinished := foldl_pres P k.closed _ s h

theorem escalate (id scheme : Nat) (h : P s) : P (s.escalate id scheme) := by
  unfold State.escalate
  split
  · exact h
  · split
    · exact h
    · dsimp only
      split
      · split
        · exact h
        · exact k.handIns _ _ _ _ (k.record s _ _ h)
      · exact h

theorem expireFor (action id : Nat) (h : P s) : P (s.expireFor action id) := by
  unfold State.expireFor
  split
  · exact h
  · exact foldl_pres P (fun _ i ht => k.escalate id i ht) _ _ (k.record s id _ h)

theorem expireEntry (e : Entry) (h : P s) : P (s.expireEntry e) :=
  k.closeFinished (foldl_pres P (fun _ id ht => k.expireFor e.action id ht) e.refs _ (k.removed s e.action h))

theorem sendTrip (entries : List Entry) (h : P s) : P (s.sendTrip entries) := by
  refine k.closeFinished (foldl_pres P (fun _ e ht => k.finishEntry .sent e ht) _ _ (k.sent s _ (fun e => ?_) h))
  split <;> rfl

end ServiceKeeps

/-- The expansion completion up to its closures: the operation in TRACKING, the nodes handed in, untracked schemes at the end of their
work (R71, R72, R74). -/
def State.expanded (s : State) (snap : Snapshot) : State :=
  let schemes := snap.taken.map SchemeCopy.scheme
  let tracking := if snap.opId = 0 then s else s.updOp snap.opId (fun op => { op with phase := .tracking })
  let handed := (s.active.serviceNodes snap.taken snap.directHead).foldl (State.handIn snap.opId snap.priority schemes) tracking
  if snap.opId = 0 then schemes.foldl State.endWork handed else handed

theorem completeExpansion_eq (s : State) (snap : Snapshot) : s.completeExpansion snap
    = ((((s.expanded snap).served snap.contingency).setEngine none).closeFinished).arbiterTake := rfl

/-- An express serve's opening: the schemes of the image that are still ARMED, taken (R62). -/
def State.taking (s : State) (c : Nat) (img : Image) : State :=
  let taken := img.participations.filter (fun p => decide ((s.scheme p.scheme).state = .armed))
  (s.openWork c .express 3 .tracking taken).takeSchemes taken

/-- An express serve's hand-ins, after untracked schemes have ended their work (R62, R63). -/
def State.handServed (s : State) (schemes : List Nat) (id : Nat) (img : Image) : State :=
  (img.servedNodes schemes).foldl (State.handIn id 3 schemes) (if id = 0 then schemes.foldl State.endWork s else s)

/-- The schemes an express serve takes (R62). -/
def State.servedSchemes (s : State) (img : Image) : List Nat :=
  (img.participations.filter (fun p => decide ((s.scheme p.scheme).state = .armed))).map SchemeCopy.scheme

theorem serveExpress_eq (s : State) (c : Nat) (img : Image) :
    s.serveExpress c img = ((s.taking c img).handServed (s.servedSchemes img) s.workId img).served c := rfl

namespace ServiceKeeps
variable {P : State → Prop} (k : ServiceKeeps P) {s : State}
include k

theorem expanded (snap : Snapshot) (h : P s) : P (s.expanded snap) := by
  by_cases untracked : snap.opId = 0
  · simp only [State.expanded, if_pos untracked]
    exact k.endWorks _ (k.handIns _ _ _ _ h)
  · simp only [State.expanded, if_neg untracked]
    exact k.handIns _ _ _ _ (k.record s _ _ h)

theorem handServed (schemes : List Nat) (id : Nat) (img : Image) (h : P s) : P (s.handServed schemes id img) := by
  unfold State.handServed
  refine k.handIns _ _ _ _ ?_
  split
  · exact k.endWorks _ h
  · exact h

end ServiceKeeps

/-! The contingencies and the engine under a service (R58). -/

/-- The Monitor and the engine stand as they did. -/
def State.MonitorIs (s t : State) : Prop := t.monitor = s.monitor ∧ t.engine = s.engine

theorem monitorIs_serviceKeeps (s : State) : ServiceKeeps s.MonitorIs where
  record _ _ _ h := h
  handed id p taken t n h :=
    have kept := handKeeps_handIn id p taken t n
    ⟨(congrArg HandKeeps.monitor kept).trans h.1, (congrArg HandKeeps.engine kept).trans h.2⟩
  removed _ _ h := h
  sent _ _ _ h := h
  closed t op h :=
    have ⟨_, monitor, engine, _⟩ := closeOp_keeps t op
    ⟨monitor.trans h.1, engine.trans h.2⟩
  ended t i h := by
    unfold State.endWork
    split
    · exact h
    · exact h
  opened t c path p phase taken h :=
    have ⟨_, _, monitor, engine, _⟩ := openWork_keeps t c path p phase taken
    ⟨monitor.trans h.1, engine.trans h.2⟩

theorem monitorIs_takeSchemes (s : State) (taken : List SchemeCopy) : s.MonitorIs (s.takeSchemes taken) := by
  rw [State.MonitorIs, takeSchemes_eq]
  exact ⟨rfl, rfl⟩

theorem State.MonitorIs.trans {s t u : State} (h : s.MonitorIs t) (k : t.MonitorIs u) : s.MonitorIs u :=
  ⟨k.1.trans h.1, k.2.trans h.2⟩

theorem monitorIs_refl (s : State) : s.MonitorIs s := ⟨rfl, rfl⟩

theorem monitorIs_closeFinished (s : State) : s.MonitorIs s.closeFinished :=
  (monitorIs_serviceKeeps s).closeFinished (monitorIs_refl s)

theorem monitorIs_confirmUpdated (s : State) (updated : List Nat) : s.MonitorIs (s.confirmUpdated updated) :=
  (monitorIs_serviceKeeps s).confirmUpdated updated (monitorIs_refl s)

theorem monitorIs_expireEntry (s : State) (e : Entry) : s.MonitorIs (s.expireEntry e) :=
  (monitorIs_serviceKeeps s).expireEntry e (monitorIs_refl s)

theorem monitorIs_sendTrip (s : State) (entries : List Entry) : s.MonitorIs (s.sendTrip entries) :=
  (monitorIs_serviceKeeps s).sendTrip entries (monitorIs_refl s)

theorem monitorIs_expanded (s : State) (snap : Snapshot) : s.MonitorIs (s.expanded snap) :=
  (monitorIs_serviceKeeps s).expanded snap (monitorIs_refl s)

/-- An express serve makes its contingency SERVED and the last served, and touches neither another nor the engine (R62). -/
theorem serveExpress_monitor (s : State) (c : Nat) (img : Image) :
    (s.serveExpress c img).monitor = { s.monitor with
      conts := s.monitor.conts.modify c (fun r => { r with state := .served, rearm := 0 }), lastServed := some c }
    ∧ (s.serveExpress c img).engine = s.engine := by
  have opened : s.MonitorIs (s.taking c img) :=
    ((monitorIs_serviceKeeps s).opened s c _ _ _ _ (monitorIs_refl s)).trans (monitorIs_takeSchemes _ _)
  obtain ⟨monitor, engine⟩ := (monitorIs_serviceKeeps s).handServed (s.servedSchemes img) s.workId img opened
  rw [serveExpress_eq]
  refine ⟨?_, engine⟩
  simp only [State.served, State.updCont, State.setMonitor, monitor]

end Sys2Proof.Machine
end

section
/-! The contingencies and the engine over an event: which contingency is SERVING, and what is PENDING (R58, R65). -/

namespace Sys2Proof.Machine

/-- The record of a contingency after one record of the table has changed; a place beyond the table has none to change. -/
theorem cont_modify (s : State) (c : Nat) (f : ContRec → ContRec) (j : Nat) :
    (s.updCont c f).cont j = if j = c ∧ c < s.monitor.conts.length then f (s.cont c) else s.cont j := by
  by_cases same : j = c
  · subst same
    by_cases inside : j < s.monitor.conts.length
    · rw [if_pos ⟨rfl, inside⟩, updCont_self inside]
    · have unchanged : s.monitor.conts.modify j f = s.monitor.conts := List.modify_eq_self (by omega)
      rw [if_neg (fun h => inside h.2)]
      show (s.monitor.conts.modify j f).getD j .fresh = _
      rw [unchanged]
      rfl
  · rw [if_neg (fun h => same h.1), updCont_ne (Ne.symm same)]

theorem cont_congr {s t : State} (same : t.monitor.conts = s.monitor.conts) (c : Nat) : t.cont c = s.cont c := by
  rw [State.cont, same]
  rfl

/-! What an evaluation makes of a contingency's state (R52 to R57). -/

namespace ContRec
variable {e : ContEntry} {cond : Option Bool} {r : ContRec}

/-- Counting a TRUE evaluation leaves the contingency CONFIRMING. -/
theorem advance_state (e : ContEntry) (r : ContRec) : (r.advance e).1.state = .confirming := by
  unfold advance
  split <;> rfl

/-- Confirmation completes only from IDLE or CONFIRMING, and leaves CONFIRMING. -/
theorem due_completes (done : (r.due e cond).2 = true) :
    (r.state = .idle ∨ r.state = .confirming) ∧ (r.due e cond).1.state = .confirming := by
  cases cond with
  | none => cases done
  | some b =>
    have completes : (r.evaluated e b).2 = true := done
    have after : (r.due e (some b)).1.state = (r.evaluated e b).1.state := rfl
    rw [after]
    cases state : r.state <;> simp only [evaluated, state] at completes ⊢
    case idle =>
      split at completes
      · rename_i rises
        rw [if_pos rises]
        exact ⟨.inl trivial, advance_state _ _⟩
      · cases completes
    case confirming =>
      split at completes
      · rename_i holds
        rw [if_pos holds]
        exact ⟨.inr trivial, advance_state _ _⟩
      · cases completes
    case pending | serving => cases completes
    case served => split at completes <;> [cases completes; (split at completes <;> cases completes)]

/-- An evaluation neither makes a contingency PENDING or SERVING nor takes one out of either. -/
theorem due_keeps (e : ContEntry) (cond : Option Bool) (r : ContRec) :
    ((r.due e cond).1.state = .pending ↔ r.state = .pending) ∧ ((r.due e cond).1.state = .serving ↔ r.state = .serving) := by
  cases cond with
  | none => exact ⟨Iff.rfl, Iff.rfl⟩
  | some b =>
    have after : (r.due e (some b)).1.state = (r.evaluated e b).1.state := rfl
    rw [after]
    cases state : r.state <;> simp only [evaluated, state]
    case idle => split <;> simp [advance_state, state]
    case confirming => split <;> simp [advance_state]
    case pending | serving => simp
    case served =>
      split
      · simp
      · split
        · simp
        · simp

end ContRec

/-- From `s` to `t` the engine stands as it did, and the same contingencies are SERVING. -/
def State.SameServing (s t : State) : Prop :=
  t.engine = s.engine ∧ ∀ c, (t.cont c).state = .serving ↔ (s.cont c).state = .serving

namespace State.SameServing
variable {s t u : State}

theorem refl (s : State) : s.SameServing s := ⟨rfl, fun _ => Iff.rfl⟩

theorem trans (h : s.SameServing t) (k : t.SameServing u) : s.SameServing u :=
  ⟨k.1.trans h.1, fun c => (k.2 c).trans (h.2 c)⟩

theorem of_monitorIs (h : s.MonitorIs t) : s.SameServing t :=
  ⟨h.2, fun c => by rw [cont_congr (congrArg MonitorState.conts h.1) c]⟩

/-- A change of one record that is SERVING after it exactly when it was. -/
theorem of_updCont (c : Nat) (f : ContRec → ContRec) (h : (f (s.cont c)).state = .serving ↔ (s.cont c).state = .serving)
    (engine : t.engine = s.engine) (conts : t.monitor.conts = (s.updCont c f).monitor.conts) : s.SameServing t := by
  refine ⟨engine, fun j => ?_⟩
  rw [cont_congr (s := s.updCont c f) conts, cont_modify]
  split
  · rename_i at_c
    rw [at_c.1]
    exact h
  · exact Iff.rfl

theorem servingIsTheEngines (h : s.SameServing t) (served : s.ServingIsTheEngines) : t.ServingIsTheEngines := fun c => by
  rw [h.2 c, h.1]
  exact served c

end State.SameServing

theorem afterJudged_serving (s : State) (c : Nat) : (s.afterJudged c).state = .serving ↔ (s.cont c).state = .serving := by
  have kept : (s.judged c).1.state = .serving ↔ (s.cont c).state = .serving := (ContRec.due_keeps _ _ _).2
  unfold State.afterJudged
  split
  · exact kept
  · rename_i completes
    have before : (s.cont c).state ≠ .serving := by
      rcases (ContRec.due_completes (Bool.not_eq_false _ ▸ completes : (s.judged c).2 = true)).1 with idle | confirming
      · simp [idle]
      · simp [confirming]
    split
    · simp [before]
    · split
      · exact kept
      · simp [before]

/-- The contingencies gathered for the express path, among those an event evaluates, were not SERVING. -/
def State.Gathered (s : State) (acc : State × List Nat) : Prop :=
  s.SameServing acc.1 ∧ ∀ c ∈ acc.2, (s.cont c).state ≠ .serving

theorem gathered_evaluateCont {s : State} {acc : State × List Nat} (h : s.Gathered acc) (c : Nat) :
    s.Gathered (State.evaluateCont acc c) := by
  obtain ⟨u, serves⟩ := acc
  obtain ⟨same, none_serving⟩ := h
  rw [evaluateCont_eq]
  refine ⟨same.trans (.of_updCont c (fun _ => u.afterJudged c) (afterJudged_serving u c) rfl rfl), fun d mem => ?_⟩
  dsimp only at mem
  split at mem
  · rename_i joins
    rcases List.mem_append.1 mem with old | new
    · exact none_serving d old
    · rw [List.mem_singleton] at new
      subst new
      rw [Bool.and_eq_true] at joins
      rw [Ne, ← same.2 d]
      rcases (ContRec.due_completes joins.1).1 with idle | confirming
      · simp [idle]
      · simp [confirming]
  · exact none_serving d mem

theorem gathered_evaluateConts (s : State) (updated : List Nat) : s.Gathered (s.evaluateConts updated) :=
  foldl_pres s.Gathered (fun _ c h => gathered_evaluateCont h c) _ _ ⟨.refl s, by simp⟩

theorem sameServing_serveExpress {s t : State} (h : s.SameServing t) {c : Nat} (not_serving : (s.cont c).state ≠ .serving)
    (img : Image) : s.SameServing (t.serveExpress c img) := by
  obtain ⟨monitor, engine⟩ := serveExpress_monitor t c img
  have before : (t.cont c).state ≠ .serving := by rwa [Ne, h.2 c]
  refine h.trans (.of_updCont c (fun r => { r with state := .served, rearm := 0 }) ?_ engine (by rw [monitor]; rfl))
  simp [before]

theorem sameServing_expressServes {s t : State} (h : s.SameServing t) {serves : List Nat}
    (not_serving : ∀ c ∈ serves, (s.cont c).state ≠ .serving) : s.SameServing (t.expressServes serves) := by
  unfold State.expressServes
  refine List.foldlRecOn _ _ (List.foldlRecOn _ _ h ?_) ?_
  all_goals exact fun u hu c mem => sameServing_serveExpress hu (not_serving c (List.mem_of_mem_filter mem)) _

theorem sameServing_confirmAndServe {s t : State} (h : s.SameServing t) {serves : List Nat}
    (not_serving : ∀ c ∈ serves, (s.cont c).state ≠ .serving) (before : List PointRec) (updated : List Nat) :
    s.SameServing (t.confirmAndServe before updated serves) := by
  have confirm : ∀ {u : State}, s.SameServing u → s.SameServing (u.confirmUpdated updated) :=
    fun hu => hu.trans (.of_monitorIs (monitorIs_confirmUpdated _ _))
  have drawn : s.SameServing t.drawConfirmFirst.2 := h.trans (.of_monitorIs (monitorIs_refl t))
  unfold State.confirmAndServe
  split
  · exact confirm h
  · dsimp only
    split
    · exact sameServing_expressServes (confirm drawn) not_serving
    · have unopened : s.SameServing (t.drawConfirmFirst.2.setPoints
          (List.zipWith PointRec.beforeOpening t.drawConfirmFirst.2.points before)) := drawn.trans (.of_monitorIs (monitorIs_refl _))
      exact confirm ((sameServing_expressServes unopened not_serving).trans (.of_monitorIs (monitorIs_refl _)))

/-! The arbiter's take (R59). -/

theorem chosen_spec (s : State) : (s.chosen = none ↔ s.pendingSet = []) ∧ ∀ c, s.chosen = some c →
    c ∈ s.pendingSet ∧ ∀ c' ∈ s.pendingSet, c' ≠ c → s.rank c' < s.rank c ∨ (s.rank c' = s.rank c ∧ c < c') := by
  obtain ⟨none_iff, best⟩ := foldl_best_spec s.rank s.pendingSet none (pendingSet_pairwise s) (fun _ h => by cases h)
  refine ⟨none_iff.trans ⟨And.right, fun h => ⟨rfl, h⟩⟩, fun c is => ?_⟩
  obtain ⟨mem, first⟩ := best c is
  exact ⟨mem.resolve_right (fun h => by cases h), fun c' mem' => first c' (.inl mem')⟩

theorem take_engine (s : State) (c : Nat) : (s.take c).engine.map Snapshot.contingency = some c := rfl

/-- The arbiter leaves nothing PENDING with the engine IDLE, and the contingency it takes SERVING (R58, R59). -/
theorem arbiterTake_served {s : State} (h : s.ServingIsTheEngines) :
    s.arbiterTake.IdleMeansNonePending ∧ s.arbiterTake.ServingIsTheEngines := by
  unfold State.arbiterTake
  split
  · rename_i snap serving
    exact ⟨fun idle => (by rw [serving] at idle; cases idle), h⟩
  · rename_i idle
    split
    · rename_i chosen
      exact ⟨fun _ => (chosen_spec s).1.1 chosen, h⟩
    · rename_i c chosen
      refine ⟨fun none => (by have := take_engine s c; rw [none] at this; cases this), fun j => ?_⟩
      have pending : (s.cont c).state = .pending := ((mem_pendingSet s c).1 ((chosen_spec s).2 c chosen).1).2
      have inside : c < s.monitor.conts.length := by
        by_contra outside
        have fresh : s.cont c = .fresh := by
          rw [State.cont, List.getD_eq_default _ _ (by omega)]
        rw [fresh] at pending
        cases pending
      have after : (s.take c).cont j = (s.updCont c (fun r => { r with state := .serving })).cont j :=
        cont_congr (congrArg MonitorState.conts (take_monitor s c)) j
      rw [take_engine, after, cont_modify]
      by_cases at_c : j = c
      · subst at_c
        simp [inside]
      · have unserved : ¬ (s.cont j).state = .serving := by
          rw [h j, idle]
          simp
        rw [if_neg (fun h => at_c h.1)]
        simp [unserved, Ne.symm at_c]

theorem afterUpdates_served {s : State} (h : s.ServingIsTheEngines) (before : List PointRec) (updated : List Nat) :
    (s.afterUpdates before updated).IdleMeansNonePending ∧ (s.afterUpdates before updated).ServingIsTheEngines := by
  obtain ⟨same, not_serving⟩ := gathered_evaluateConts s updated
  have confirmed := sameServing_confirmAndServe same not_serving before updated
  exact arbiterTake_served ((confirmed.trans (.of_monitorIs (monitorIs_closeFinished _))).servingIsTheEngines h)

theorem completeExpansion_served {s : State} {snap : Snapshot} (h : s.ServingIsTheEngines) (engine : s.engine = some snap) :
    (s.completeExpansion snap).IdleMeansNonePending ∧ (s.completeExpansion snap).ServingIsTheEngines := by
  rw [completeExpansion_eq]
  refine arbiterTake_served ((State.SameServing.of_monitorIs (monitorIs_closeFinished _)).servingIsTheEngines (fun c => ?_))
  have expanded := State.SameServing.of_monitorIs (monitorIs_expanded s snap)
  have conts : (((s.expanded snap).served snap.contingency).setEngine none).cont c
      = ((s.expanded snap).updCont snap.contingency (fun r => { r with state := .served, rearm := 0 })).cont c := rfl
  rw [conts, cont_modify]
  refine iff_of_false ?_ (fun h => by cases h)
  split
  · exact ContState.noConfusion
  · rename_i other
    intro serving
    have is_engines : s.engine.map Snapshot.contingency = some c := (h c).1 ((expanded.2 c).1 serving)
    rw [engine] at is_engines
    have same : c = snap.contingency := (Option.some.inj is_engines).symm
    refine other ⟨same, ?_⟩
    by_contra outside
    have fresh : (s.expanded snap).cont c = .fresh := by
      rw [State.cont, List.getD_eq_default _ _ (by omega)]
    rw [fresh] at serving
    cases serving

theorem pendingSet_of_monitorIs {s t : State} (h : s.MonitorIs t) : t.pendingSet = s.pendingSet :=
  pendingSet_congr (fun c _ => by rw [cont_congr (congrArg MonitorState.conts h.1) c])

/-- The pending set and the engine, as R58 ties them together. -/
def State.Arbitrated (s : State) : Prop := s.IdleMeansNonePending ∧ s.ServingIsTheEngines

theorem State.Arbitrated.of_conts {s t : State} (h : s.Arbitrated) (engine : t.engine = s.engine)
    (conts : t.monitor.conts = s.monitor.conts) : t.Arbitrated := by
  have cont := cont_congr conts
  refine ⟨fun idle => ?_, fun c => by rw [cont c, engine]; exact h.2 c⟩
  exact (pendingSet_congr (fun c _ => by rw [cont c])).trans (h.1 (engine ▸ idle))

theorem State.Arbitrated.of_monitorIs {s t : State} (h : s.Arbitrated) (kept : s.MonitorIs t) : t.Arbitrated :=
  h.of_conts kept.2 (congrArg MonitorState.conts kept.1)

/-- With no contingency out of IDLE and the engine IDLE there is nothing to arbitrate. -/
theorem arbitrated_of_fresh {s : State} (engine : s.engine = none) (conts : s.monitor.conts = freshConts) : s.Arbitrated := by
  have idle : ∀ c, s.cont c = .fresh := fun c => by
    rw [State.cont, conts, freshConts, List.getD_eq_getElem?_getD, List.getElem?_replicate]
    split <;> rfl
  refine ⟨fun _ => List.filter_eq_nil_iff.2 (fun c _ => by rw [idle c]; decide), fun c => ?_⟩
  rw [idle c, engine]
  exact ⟨fun h => (by cases h), fun h => (by cases h)⟩

theorem unforce_arbitrated {s : State} (h : s.ServingIsTheEngines) (addressed : Nat → Bool) : (s.unforce addressed).Arbitrated :=
  afterUpdates_served (s := s.setPoints (s.points.mapIdx (fun i (r : PointRec) => if addressed i then r.unforce else r))) h _ _

theorem openGate_arbitrated {s : State} (h : s.ServingIsTheEngines) : s.openGate.Arbitrated :=
  unforce_arbitrated (s := s.setArming { s.arming with gateOpen := true, schemes := s.arming.schemes.map SchemeRec.openGate }) h _

theorem tryOpenGate_arbitrated {s : State} (h : s.Arbitrated) : s.tryOpenGate.Arbitrated := by
  rcases tryOpenGate_cases s with ⟨-, opens⟩ | ⟨-, stays⟩
  · rw [opens]
    exact openGate_arbitrated h.2
  · rw [stays]
    exact h

theorem evaluate_conts (s : State) : s.evaluate.engine = s.engine ∧ s.evaluate.monitor.conts = s.monitor.conts := by
  unfold State.evaluate
  have engine := foldl_keeps (f := State.evaluateScheme) State.engine (fun _ _ => rfl) (List.range 16) s
  have conts := foldl_keeps (f := State.evaluateScheme) (fun s => s.monitor.conts) (fun _ _ => rfl) (List.range 16) s
  generalize (List.range 16).foldl State.evaluateScheme s = t at engine conts
  exact ⟨engine, conts⟩

/-- Settles O55: only a take makes a contingency SERVING, only the expansion completion ends its service, and every event that may
leave a contingency PENDING ends with the arbiter's look at the pending set. -/
theorem arbiterInvariant : Obligations.ArbiterInvariant := by
  intro s t idle serving ran
  refine step_keeps (P := State.Arbitrated) (fun s t same h => h.of_monitorIs ⟨same.monitor, same.engine⟩)
    (fun c u v effect h => ?_) ran ⟨idle, serving⟩
  cases effect with
  | none | holdExpiry | resetExpiry | hold | stale | load | copy | close | release => exact h
  | clear => exact h.of_conts rfl rfl
  | reset | resetPower => exact arbitrated_of_fresh rfl rfl
  | evaluate => exact h.of_conts (evaluate_conts u).1 (evaluate_conts u).2
  | settle | start => exact tryOpenGate_arbitrated h
  | expire e _ => exact h.of_monitorIs (monitorIs_expireEntry u e)
  | complete snap engine => exact completeExpansion_served h.2 engine
  | trip _ => exact h.of_monitorIs (monitorIs_sendTrip u _)
  | publish i fr payload => exact afterUpdates_served (s := u.publishPoints i fr payload) h.2 _ _
  | commit _ no_work _ =>
    rw [commitBanks_eq]
    obtain ⟨-, -, -, engine, -, -, -, conts⟩ := committed_keeps u
    have engine_idle : u.engine = none := by
      by_contra serving
      exact Bool.false_ne_true (no_work.symm.trans ((workInFlight_iff u).2 (.inl serving)))
    exact tryOpenGate_arbitrated (arbitrated_of_fresh (engine.trans engine_idle) conts)
  | resetSchemes | restoreMargin => rw [foldl_updScheme_eq]; exact h
  | force i v _ _ => exact afterUpdates_served (s := u.updPoint i _) h.2 _ _
  | unforce f => exact unforce_arbitrated h.2 f

end Sys2Proof.Machine
end

section
/-! The part with its gate closed: no scheme works and no work is in flight (R28, R29, R65). -/

namespace Sys2Proof.Machine

/-- The scheme is OFF or GATED. -/
def SchemeRec.AtRest (r : SchemeRec) : Prop := r.state = .off ∨ r.state = .gated

/-- No work is in flight, and no contingency waits for service. -/
structure State.Workless (s : State) : Prop where
  engine : s.engine = none
  ops : s.tracker.ops = []
  entries : s.queue.entries = []
  pending : s.pendingSet = []

/-- What `ClosedMeansQuiet` says of a part whose gate is closed. -/
structure State.Quiesced (s : State) : Prop where
  schemes : ∀ r ∈ s.arming.schemes, r.AtRest
  workless : s.Workless

theorem closedMeansQuiet_iff (s : State) : s.ClosedMeansQuiet ↔ (s.arming.gateOpen = false → s.Quiesced) := by
  refine forall_congr' fun _ => ⟨fun h => ?_, fun h => ?_⟩
  · obtain ⟨schemes, engine, ops, entries, pending⟩ := h
    exact ⟨schemes, engine, ops, entries, pending⟩
  · obtain ⟨schemes, engine, ops, entries, pending⟩ := h
    exact ⟨schemes, engine, ops, entries, pending⟩

theorem not_workInFlight {s : State} (h : s.workInFlight = false) :
    s.engine = none ∧ s.tracker.ops = [] ∧ s.queue.entries = [] := by
  have idle := (workInFlight_iff s).not.1 (by rw [h]; exact Bool.false_ne_true)
  simpa only [not_or, not_not] using idle

/-- A scheme at rest, or one beyond the table. -/
theorem State.Quiesced.scheme {s : State} (h : s.Quiesced) (i : Nat) : (s.scheme i).AtRest := by
  unfold State.scheme
  rw [List.getD_eq_getElem?_getD]
  cases at_i : s.arming.schemes[i]? with
  | none => exact .inl rfl
  | some r => exact h.schemes r (List.mem_of_getElem? at_i)

theorem State.Workless.of_parts {s t : State} (h : s.Workless) (engine : t.engine = s.engine) (ops : t.tracker.ops = s.tracker.ops)
    (entries : t.queue.entries = s.queue.entries) (conts : t.monitor.conts = s.monitor.conts) : t.Workless :=
  ⟨engine.trans h.engine, ops.trans h.ops, entries.trans h.entries,
    (pendingSet_congr (fun c _ => by rw [cont_congr conts c])).trans h.pending⟩

/-- A state at rest elsewhere, with its schemes at rest. -/
theorem State.Quiesced.of_schemes {s t : State} (h : s.Quiesced) (schemes : ∀ r ∈ t.arming.schemes, r.AtRest)
    (engine : t.engine = s.engine := by rfl) (ops : t.tracker.ops = s.tracker.ops := by rfl)
    (entries : t.queue.entries = s.queue.entries := by rfl) (conts : t.monitor.conts = s.monitor.conts := by rfl) : t.Quiesced :=
  ⟨schemes, h.workless.of_parts engine ops entries conts⟩

/-! With the gate closed an update evaluates the contingencies and does no more (R65). -/

theorem closeFinished_of_no_ops {s : State} (h : s.tracker.ops = []) : s.closeFinished = s :=
  closeFinished_nil (by rw [h]; exact fun op mem => absurd mem List.not_mem_nil)

theorem confirmUpdated_of_no_entries {s : State} (h : s.queue.entries = []) (updated : List Nat) : s.confirmUpdated updated = s := by
  unfold State.confirmUpdated State.confirmedEntries
  rw [h]
  rfl

theorem arbiterTake_of_none_pending {s : State} (h : s.pendingSet = []) : s.arbiterTake = s := by
  have none : s.chosen = none := (chosen_spec s).1.2 h
  unfold State.arbiterTake
  split
  · rfl
  · rw [none]

theorem servesExpress_of_closed {s : State} (closed : s.arming.gateOpen = false) (c : Nat) : s.servesExpress c = false := by
  rw [State.servesExpress, closed, Bool.false_and]

/-- With the gate closed no evaluation leaves a contingency PENDING that was not. -/
theorem afterJudged_pending {s : State} (closed : s.arming.gateOpen = false) {c : Nat} (h : (s.cont c).state ≠ .pending) :
    (s.afterJudged c).state ≠ .pending := by
  rw [State.afterJudged, if_pos closed]
  split
  · exact mt (ContRec.due_keeps _ _ _).1.1 h
  · exact ContState.noConfusion

/-- The parts an evaluation of contingencies with the gate closed leaves as they are, with nothing PENDING and no express serve. -/
structure State.EvaluatedClosed (s : State) (acc : State × List Nat) : Prop where
  arming : acc.1.arming = s.arming
  workless : acc.1.Workless
  serves : acc.2 = []

theorem evaluatedClosed_evaluateCont {s : State} (closed : s.arming.gateOpen = false) {acc : State × List Nat}
    (h : s.EvaluatedClosed acc) (c : Nat) : s.EvaluatedClosed (State.evaluateCont acc c) := by
  obtain ⟨u, serves⟩ := acc
  have shut : u.arming.gateOpen = false := by rw [h.arming]; exact closed
  rw [evaluateCont_eq, servesExpress_of_closed shut, Bool.and_false, if_neg Bool.false_ne_true]
  refine ⟨h.arming, ⟨h.workless.engine, h.workless.ops, h.workless.entries, ?_⟩, h.serves⟩
  have none_pending : ∀ j < 64, (u.cont j).state ≠ .pending := fun j inside is =>
    List.not_mem_nil (h.workless.pending ▸ (mem_pendingSet u j).2 ⟨inside, is⟩)
  refine List.filter_eq_nil_iff.2 (fun j mem => ?_)
  have inside : j < 64 := List.mem_range.1 mem
  have changed : ∀ t : State, t.monitor.conts = (u.updCont c (fun _ => u.afterJudged c)).monitor.conts →
      (t.cont j).state ≠ .pending := by
    intro t same
    rw [cont_congr same, cont_modify]
    split
    · rename_i at_c
      exact afterJudged_pending shut (at_c.1 ▸ none_pending j inside)
    · exact none_pending j inside
  rw [beq_iff_eq]
  exact changed _ rfl

theorem evaluatedClosed_evaluateConts {s : State} (closed : s.arming.gateOpen = false) (h : s.Workless) (updated : List Nat) :
    s.EvaluatedClosed (s.evaluateConts updated) :=
  foldl_pres s.EvaluatedClosed (fun _ c h => evaluatedClosed_evaluateCont closed h c) _ _ ⟨rfl, h, rfl⟩

theorem afterUpdates_closed {s : State} (closed : s.arming.gateOpen = false) (h : s.Quiesced) (before : List PointRec)
    (updated : List Nat) : (s.afterUpdates before updated).Quiesced := by
  obtain ⟨arming, workless, serves⟩ := evaluatedClosed_evaluateConts closed h.workless updated
  have after : s.afterUpdates before updated = (s.evaluateConts updated).1 := by
    have no_serve : (s.evaluateConts updated).2.isEmpty = true := by rw [serves]; rfl
    unfold State.afterUpdates State.confirmAndServe
    dsimp only
    rw [if_pos no_serve, confirmUpdated_of_no_entries workless.entries, closeFinished_of_no_ops workless.ops,
      arbiterTake_of_none_pending workless.pending]
  rw [after]
  exact ⟨by rw [arming]; exact h.schemes, workless⟩

/-! The evaluation of a scheme at rest (R2, R29). -/

theorem evaluatedScheme_atRest {s : State} {i : Nat} (h : (s.scheme i).AtRest) : (s.evaluatedScheme i).1.AtRest := by
  rcases h with off | gated
  · simp only [State.evaluatedScheme, off]
    exact .inl off
  · simp only [State.evaluatedScheme, gated, State.evaluateStages]
    exact .inr rfl

theorem evaluate_quiesced {s : State} (h : s.Quiesced) : s.evaluate.Quiesced := by
  have one : ∀ (t : State) (i : Nat), t.Quiesced → (t.evaluateScheme i).Quiesced := fun t i ht =>
    ⟨forall_mem_modify ht.schemes (fun _ _ _ => evaluatedScheme_atRest (ht.scheme i)) i, ht.workless.of_parts rfl rfl rfl rfl⟩
  have all := foldl_pres State.Quiesced one (List.range 16) s h
  unfold State.evaluate
  generalize (List.range 16).foldl State.evaluateScheme s = t at all
  exact ⟨all.schemes, all.workless.of_parts rfl rfl rfl rfl⟩

/-- The settled parts of a state whose gate is tried: it opens, or stays closed over a quiesced part. -/
theorem tryOpenGate_closedMeansQuiet {s : State} (h : s.arming.gateOpen = false → s.Quiesced) :
    s.tryOpenGate.arming.gateOpen = false → s.tryOpenGate.Quiesced := by
  rcases tryOpenGate_cases s with ⟨-, opens⟩ | ⟨-, stays⟩
  · rw [opens]
    have is_open : s.openGate.arming.gateOpen = true := congrArg Surroundings.gateOpen (surroundings_openGate s)
    exact fun closed => Bool.noConfusion (closed.symm.trans is_open)
  · rw [stays]
    exact h

theorem forall_mem_updSchemes {p : SchemeRec → Prop} {f : SchemeRec → SchemeRec} {s : State} (h : ∀ r ∈ s.arming.schemes, p r)
    (keeps : ∀ r, p r → p (f r)) (l : List Nat) : ∀ r ∈ (l.foldl (fun s i => s.updScheme i f) s).arming.schemes, p r :=
  foldl_pres (fun t : State => ∀ r ∈ t.arming.schemes, p r) (fun _ i ht => forall_mem_modify ht (fun r _ => keeps r) i) l s h

theorem resetLive_quiesced (s : State) : s.resetLive.Quiesced := by
  refine ⟨fun r mem => ?_, rfl, rfl, rfl, (arbitrated_of_fresh (s := s.resetLive) rfl rfl).1 rfl⟩
  obtain ⟨i, -, rfl⟩ := List.mem_map.1 mem
  show (if (s.active.scheme i).enable then SchemeState.gated else .off) = .off
    ∨ (if (s.active.scheme i).enable then SchemeState.gated else .off) = .gated
  split
  · exact .inr rfl
  · exact .inl rfl

theorem resetScheme_atRest {r : SchemeRec} (h : r.AtRest) : r.resetScheme.AtRest := by
  rcases h with off | gated
  · rw [SchemeRec.resetScheme, off]
    exact .inl off
  · rw [SchemeRec.resetScheme, gated]
    exact .inr gated

theorem restoreMargin_atRest {r : SchemeRec} (h : r.AtRest) : r.restoreMargin.AtRest := by
  unfold SchemeRec.restoreMargin
  split <;> exact h

theorem closeGate_atRest (r : SchemeRec) : r.closeGate.AtRest := by
  unfold SchemeRec.closeGate
  split
  · exact .inl ‹_›
  · exact .inr rfl

/-- The schemes of a commit, each fresh in the state its entry and the gate give it (R5). -/
theorem committed_schemes (s : State) : ∀ r ∈ s.committed.arming.schemes, ∃ i hardTrip,
    r = .fresh (s.committed.active.schemeState i (if s.arming.gateOpen then .disarmed else .gated)) hardTrip := by
  have mapped : s.committed.arming.schemes = s.arming.schemes.mapIdx (fun i r =>
      .fresh (s.committed.active.schemeState i (if s.arming.gateOpen then .disarmed else .gated)) r.hardTrip) := by
    have downed : ∀ t : State, t.portsDown = t.setLink t.portsDown.link := fun t => rfl
    unfold State.committed State.setFromActive
    rw [downed]
    split <;> simp [State.active] <;> rfl
  rw [mapped]
  exact forall_mem_mapIdx (p := fun _ => True) (fun _ _ => trivial) (fun i r _ => ⟨i, r.hardTrip, rfl⟩)

theorem committed_quiesced {s : State} (closed : s.arming.gateOpen = false) (no_work : s.workInFlight = false) :
    s.committed.Quiesced := by
  obtain ⟨-, -, -, engine, queue, tracker, -, conts⟩ := committed_keeps s
  obtain ⟨idle, no_ops, no_entries⟩ := not_workInFlight no_work
  have engine_idle := engine.trans idle
  refine ⟨fun r mem => ?_, engine_idle, by rw [tracker]; exact no_ops, by rw [queue]; exact no_entries,
    (arbitrated_of_fresh engine_idle conts).1 engine_idle⟩
  obtain ⟨i, hardTrip, rfl⟩ := committed_schemes s r mem
  rw [closed, if_neg Bool.false_ne_true]
  unfold SchemeRec.AtRest SchemeRec.fresh Bank.schemeState
  split
  · exact .inr rfl
  · exact .inl rfl

theorem effect_closedMeansQuiet {c : Instr} {u v : State} (effect : Effect c u v) (h : u.arming.gateOpen = false → u.Quiesced)
    (idle : u.IdleMeansNonePending) : v.arming.gateOpen = false → v.Quiesced := by
  cases effect with
  | none => exact h
  | hold | stale | load | copy | clear => exact fun closed => (h closed).of_schemes (h closed).schemes
  | reset => exact fun _ => resetLive_quiesced u
  | resetPower => exact fun _ => (resetLive_quiesced u).of_schemes (resetLive_quiesced u).schemes
  | evaluate => exact fun closed => evaluate_quiesced (h ((evaluate_keeps u).2.2 ▸ closed))
  | holdExpiry i => exact fun closed =>
    (h closed).of_schemes (forall_mem_modify (f := fun (r : SchemeRec) => { r with holdTimer := none }) (h closed).schemes (fun _ _ rest => rest) i)
  | resetExpiry i operated =>
    intro closed
    rcases (h closed).scheme i with off | gated
    · rw [operated] at off
      cases off
    · rw [operated] at gated
      cases gated
  | settle | start => exact tryOpenGate_closedMeansQuiet (fun closed => (h closed).of_schemes (h closed).schemes)
  | expire e live =>
    have gate : (u.expireEntry e).arming.gateOpen = u.arming.gateOpen := congrArg Surroundings.gateOpen (u.surroundings_expireEntry e)
    intro closed
    rw [(h (gate ▸ closed)).workless.entries] at live
    cases live
  | complete snap serving =>
    have gate : (u.completeExpansion snap).arming.gateOpen = u.arming.gateOpen :=
      congrArg Surroundings.gateOpen (u.surroundings_completeExpansion snap)
    intro closed
    rw [(h (gate ▸ closed)).workless.engine] at serving
    cases serving
  | trip carried =>
    have gate : (u.sendTrip u.tripEntries).arming.gateOpen = u.arming.gateOpen := congrArg Surroundings.gateOpen (surroundings_sendTrip u _)
    intro closed
    obtain ⟨e, mem⟩ := List.exists_mem_of_ne_nil _ carried
    have live := (tripEntries_mem u e mem).1
    rw [(h (gate ▸ closed)).workless.entries] at live
    cases live
  | publish i fr payload =>
    have gate : ((u.publishPoints i fr payload).afterUpdates u.points (u.updatedBy i payload)).arming.gateOpen = u.arming.gateOpen :=
      congrArg Surroundings.gateOpen (State.surroundings_afterUpdates _ _ _)
    intro closed
    have before := h (gate ▸ closed)
    exact afterUpdates_closed (s := u.publishPoints i fr payload) (gate ▸ closed) (before.of_schemes before.schemes) _ _
  | force i v _ closed =>
    exact fun _ => afterUpdates_closed (s := u.updPoint i _) closed ((h closed).of_schemes (h closed).schemes) _ _
  | unforce f =>
    have gate : (u.unforce f).arming.gateOpen = u.arming.gateOpen := congrArg Surroundings.gateOpen (surroundings_unforce u f)
    intro closed
    have before := h (gate ▸ closed)
    exact afterUpdates_closed (s := u.setPoints (u.points.mapIdx (fun i (r : PointRec) => if f i then r.unforce else r))) (gate ▸ closed)
      (before.of_schemes before.schemes) _ _
  | commit _ no_work _ =>
    rw [commitBanks_eq]
    refine tryOpenGate_closedMeansQuiet (fun closed => committed_quiesced ?_ no_work)
    rw [(committed_keeps u).2.1] at closed
    exact closed
  | close _ no_work =>
    obtain ⟨engine, ops, entries⟩ := not_workInFlight no_work
    refine fun _ => ⟨fun r mem => ?_, engine, ops, entries, idle engine⟩
    obtain ⟨x, -, rfl⟩ := List.mem_map.1 mem
    exact closeGate_atRest x
  | resetSchemes l =>
    intro closed
    have gate : u.arming.gateOpen = false := by rw [foldl_updScheme_eq] at closed; exact closed
    have schemes := forall_mem_updSchemes (h gate).schemes (fun r rest => resetScheme_atRest rest) l
    rw [foldl_updScheme_eq]
    exact (h gate).of_schemes schemes
  | restoreMargin l =>
    intro closed
    have gate : u.arming.gateOpen = false := by rw [foldl_updScheme_eq] at closed; exact closed
    have schemes := forall_mem_updSchemes (h gate).schemes (fun r rest => restoreMargin_atRest rest) l
    rw [foldl_updScheme_eq]
    exact (h gate).of_schemes schemes
  | release =>
    intro closed
    refine (h closed).of_schemes (fun r mem => ?_)
    obtain ⟨x, old, rfl⟩ := List.mem_map.1 mem
    exact (h closed).schemes x old

/-- Settles O56: what a part with its gate closed takes leaves it at rest; CLOSE GATE is taken only without work in flight, and then
nothing is PENDING, since the engine is IDLE. -/
theorem closedGateStaysQuiet : Obligations.ClosedGateStaysQuiet := by
  intro s t quiet idle ran
  have closed_quiet := (closedMeansQuiet_iff s).1 quiet
  refine (closedMeansQuiet_iff t).2 ?_
  rcases step_does ran with rfl | ⟨c, u, v, before, effect, after⟩
  · exact closed_quiet
  · have quiesced_of_same : ∀ {x y : State}, x.Same y → (x.arming.gateOpen = false → x.Quiesced) →
        y.arming.gateOpen = false → y.Quiesced := fun same h closed =>
      have held := h (same.arming ▸ closed)
      ⟨by rw [same.arming]; exact held.schemes, held.workless.of_parts same.engine (congrArg TrackerState.ops same.tracker)
        (congrArg QueueState.entries same.queue) (congrArg MonitorState.conts same.monitor)⟩
    refine quiesced_of_same after (effect_closedMeansQuiet effect (quiesced_of_same before closed_quiet) (fun engine => ?_))
    exact (pendingSet_of_monitorIs ⟨before.monitor, before.engine⟩).trans (idle (before.engine ▸ engine))

end Sys2Proof.Machine
end

section
/-! What a whole update event keeps: its evaluations, express serves, confirmations, closures and take (R50, R55, R59, R99). -/

namespace Sys2Proof.Machine

/-- A property that the elementary operations of an update event keep: those of a service, the change of a field besides, and the taking
of ARMED schemes. -/
structure EventKeeps (P : State → Prop) : Prop extends ServiceKeeps P where
  monitor : ∀ (s : State) (m : MonitorState), P s → P (s.setMonitor m)
  raised : ∀ (s : State) (f : Notices → Notices), P s → P (s.raise f)
  engine : ∀ (s : State) (snap : Option Snapshot), P s → P (s.setEngine snap)
  points : ∀ (s : State) (points : List PointRec), P s → P (s.setPoints points)
  drawn : ∀ (s : State) (n : Nat), P s → P (s.setFreeIndex n)
  took : ∀ (s : State) (taken : List SchemeCopy), (∀ t ∈ taken, (s.scheme t.scheme).state = .armed) → P s → P (s.takeSchemes taken)

namespace EventKeeps
variable {P : State → Prop} (k : EventKeeps P) {s : State}
include k

theorem completed (c : Nat) (h : P s) : P (s.completed c) := by
  have moved : ∀ f : ContRec → ContRec, P (s.updCont c f) := fun f => k.monitor s _ h
  unfold State.completed
  split
  · exact k.monitor _ _ (moved _)
  · split
    · exact moved _
    · split
      · exact h
      · exact moved _
      · exact k.raised _ _ (moved _)

theorem evaluateCont (acc : State × List Nat) (c : Nat) (h : P acc.1) : P (State.evaluateCont acc c).1 := by
  unfold State.evaluateCont
  dsimp only
  split
  · exact k.completed c (k.monitor _ _ h)
  · exact k.monitor _ _ h

theorem evaluateConts (updated : List Nat) (h : P s) : P (s.evaluateConts updated).1 :=
  foldl_pres (fun acc : State × List Nat => P acc.1) k.evaluateCont _ _ h

theorem served (c : Nat) (h : P s) : P (s.served c) := k.monitor _ _ (k.monitor s _ h)

theorem taking (c : Nat) (img : Image) (h : P s) : P (s.taking c img) := by
  refine k.took _ _ (fun t mem => ?_) (k.opened s _ _ _ _ _ h)
  have armed := of_decide_eq_true (List.mem_filter.1 mem).2
  obtain ⟨-, arming, -⟩ := openWork_keeps s c .express 3 .tracking
    (img.participations.filter (fun p => decide ((s.scheme p.scheme).state = .armed)))
  rw [State.scheme, arming]
  exact armed

theorem serveExpress (c : Nat) (img : Image) (h : P s) : P (s.serveExpress c img) := by
  rw [serveExpress_eq]
  exact k.served c (k.handServed _ _ _ (k.taking c img h))

theorem expressServes (serves : List Nat) (h : P s) : P (s.expressServes serves) :=
  foldl_pres P (fun _ c ht => k.serveExpress c _ ht) _ _ (foldl_pres P (fun _ c ht => k.serveExpress c _ ht) _ s h)

theorem confirmAndServe (before : List PointRec) (updated serves : List Nat) (h : P s) : P (s.confirmAndServe before updated serves) := by
  have drawn : P s.drawConfirmFirst.2 := k.drawn s _ h
  unfold State.confirmAndServe
  split
  · exact k.confirmUpdated updated h
  · dsimp only
    split
    · exact k.expressServes serves (k.confirmUpdated updated drawn)
    · exact k.confirmUpdated updated (k.points _ _ (k.expressServes serves (k.points _ _ drawn)))

theorem take (c : Nat) (h : P s) : P (s.take c) := by
  refine k.engine _ _ (k.monitor _ _ (k.took _ _ (fun t mem => ?_) (k.opened s c _ _ _ _ h)))
  obtain ⟨-, arming, -⟩ := openWork_keeps s c .ordinary (s.active.cont c).priority .expanding (s.armedOf (s.active.cont c).schemes)
  rw [State.scheme, arming]
  exact (armedOf_scheme_mem s _ t mem).2.1

theorem arbiterTake (h : P s) : P s.arbiterTake := by
  unfold State.arbiterTake
  split
  · exact h
  · split
    · exact h
    · exact k.take _ h

theorem afterUpdates (before : List PointRec) (updated : List Nat) (h : P s) : P (s.afterUpdates before updated) :=
  k.arbiterTake (k.closeFinished (k.confirmAndServe before updated _ (k.evaluateConts updated h)))

theorem force (i : Nat) (v : PointValue) (h : P s) : P (s.force i v) := k.afterUpdates _ _ (k.points s _ h)

theorem unforce (addressed : Nat → Bool) (h : P s) : P (s.unforce addressed) := k.afterUpdates _ _ (k.points s _ h)

theorem completeExpansion (snap : Snapshot) (h : P s) : P (s.completeExpansion snap) := by
  rw [completeExpansion_eq]
  exact k.arbiterTake (k.closeFinished (k.engine _ _ (k.served _ (k.expanded snap h))))

end EventKeeps

end Sys2Proof.Machine
end

section
/-! A scheme's selection record and reset timer, and its state (R17 and section 1.2 of 01_schemes_and_arming.md). -/

namespace Sys2Proof.Machine

/-- The record has a selection record exactly while it is ARMED, and a running reset timer only in OPERATED. -/
def SchemeRec.Consistent (r : SchemeRec) : Prop :=
  (r.selection.isSome = true ↔ r.state = .armed) ∧ (r.resetTimer.isSome = true → r.state = .operated)

namespace SchemeRec.Consistent
variable {r t : SchemeRec}

/-- A record without a selection record and a timer, in a state other than ARMED. -/
theorem of_none (selection : r.selection = none) (timer : r.resetTimer = none) (state : r.state ≠ .armed) : r.Consistent := by
  refine ⟨iff_of_false ?_ state, fun runs => ?_⟩
  · rw [selection]
    exact Bool.false_ne_true
  · rw [timer] at runs
    cases runs

theorem of_same (h : r.Consistent) (state : t.state = r.state) (selection : t.selection = r.selection)
    (timer : t.resetTimer = r.resetTimer) : t.Consistent := by
  rw [Consistent, state, selection, timer]
  exact h

theorem selection_eq_none (h : r.Consistent) (state : r.state ≠ .armed) : r.selection = none :=
  Option.not_isSome_iff_eq_none.1 (mt h.1.1 state)

theorem resetTimer_eq_none (h : r.Consistent) (state : r.state ≠ .operated) : r.resetTimer = none :=
  Option.not_isSome_iff_eq_none.1 (mt h.2 state)

theorem calm (h : r.Consistent) (before : r.state ≠ .operated) {state : SchemeState} (after : state ≠ .armed) :
    (r.calm state).Consistent :=
  .of_none rfl (h.resetTimer_eq_none before) after

theorem fresh {state : SchemeState} (h : state ≠ .armed) (hardTrip : Bool) : (SchemeRec.fresh state hardTrip).Consistent :=
  .of_none rfl rfl h

end SchemeRec.Consistent

/-- Every scheme record is consistent. -/
def State.SchemesConsistent (s : State) : Prop := ∀ r ∈ s.arming.schemes, r.Consistent

/-- A place of the table holds the record of its scheme. -/
theorem scheme_of_getElem? {s : State} {i : Nat} {r : SchemeRec} (h : s.arming.schemes[i]? = some r) : s.scheme i = r := by
  rw [State.scheme, List.getD_eq_getElem?_getD, h]
  rfl

/-- A change of one scheme that leaves its record consistent, given that it was. -/
theorem State.SchemesConsistent.updScheme {s : State} (h : s.SchemesConsistent) (i : Nat) {f : SchemeRec → SchemeRec}
    (keeps : (s.scheme i).Consistent → (f (s.scheme i)).Consistent) : (s.updScheme i f).SchemesConsistent := by
  intro r mem
  rcases mem_modify_cases mem with old | ⟨x, at_i, rfl⟩
  · exact h r old
  · rw [scheme_of_getElem? at_i] at keeps
    exact keeps (h x (List.mem_of_getElem? at_i))

theorem State.SchemesConsistent.of_handKeeps {s t : State} (h : s.SchemesConsistent) (kept : t.handKeeps = s.handKeeps) :
    t.SchemesConsistent := by
  have states := congrArg HandKeeps.states kept
  intro r mem
  have listed := List.mem_map_of_mem (f := fun r : SchemeRec =>
    (r.state, r.selection, r.resetTimer, r.armCount, r.disarmCount, r.stress)) mem
  rw [show t.arming.schemes.map _ = s.arming.schemes.map _ from states] at listed
  obtain ⟨x, old, same⟩ := List.mem_map.1 listed
  simp only [Prod.mk.injEq] at same
  obtain ⟨state, selection, timer, -⟩ := same
  exact (h x old).of_same state.symm selection.symm timer.symm

theorem schemesConsistent_endWork {s : State} (h : s.SchemesConsistent) (i : Nat) : (s.endWork i).SchemesConsistent := by
  unfold State.endWork
  split
  · rename_i operating
    refine h.updScheme i (fun before => ⟨iff_of_false ?_ (by simp), fun _ => rfl⟩)
    simp [before.selection_eq_none (by rw [operating]; exact SchemeState.noConfusion)]
  · exact h

theorem schemesConsistent_latchHardTrip {s : State} (h : s.SchemesConsistent) (i : Nat) : (s.latchHardTrip i).SchemesConsistent :=
  h.of_handKeeps (handKeeps_latchHardTrip s i)

theorem schemesConsistent_closeOp {s : State} (h : s.SchemesConsistent) (op : Operation) : (s.closeOp op).SchemesConsistent := by
  have latched := foldl_pres State.SchemesConsistent (fun _ (p : Participation) ht => schemesConsistent_latchHardTrip ht p.scheme)
    (op.parts.filter Participation.isShort) s h
  exact foldl_pres State.SchemesConsistent (fun _ (p : Participation) ht => schemesConsistent_endWork ht p.scheme)
    (op.parts.filter (fun p => p.taken.isSome)) _ latched

/-- Taking ARMED schemes; one listed twice is OPERATING at its second take. -/
theorem schemesConsistent_takeSchemes {s : State} (h : s.SchemesConsistent) {taken : List SchemeCopy}
    (armed : ∀ t ∈ taken, (s.scheme t.scheme).state = .armed) : (s.takeSchemes taken).SchemesConsistent := by
  have not_operated : ∀ t ∈ taken, (s.scheme t.scheme).state ≠ .operated := fun t mem => by
    rw [armed t mem]
    exact SchemeState.noConfusion
  clear armed
  induction taken generalizing s with
  | nil => exact h
  | cons x rest ih =>
    have first : (s.scheme x.scheme).state ≠ .operated := not_operated x List.mem_cons_self
    refine ih (h.updScheme x.scheme (fun before => before.calm first SchemeState.noConfusion)) (fun t mem => ?_)
    have other := not_operated t (List.mem_cons_of_mem _ mem)
    by_cases same : x.scheme = t.scheme
    · by_cases inside : t.scheme < s.arming.schemes.length
      · have taken_now : (s.updScheme x.scheme (fun r => r.calm .operating)).scheme t.scheme = (s.scheme t.scheme).calm .operating := by
          rw [same]
          exact getD_modify_self _ _ inside _ _
        rw [taken_now]
        exact SchemeState.noConfusion
      · have beyond : (s.updScheme x.scheme (fun r => r.calm .operating)).scheme t.scheme = .fresh .off false := by
          refine List.getD_eq_default _ _ ?_
          rw [State.updScheme, State.setArming_arming, List.length_modify]
          omega
        rw [beyond]
        exact SchemeState.noConfusion
    · have kept : (s.updScheme x.scheme (fun r => r.calm .operating)).scheme t.scheme = s.scheme t.scheme :=
        getD_modify_ne _ _ _ same _ _
      rw [kept]
      exact other

theorem schemesConsistent_eventKeeps : EventKeeps State.SchemesConsistent where
  record _ _ _ h := h
  handed id p taken s n h := h.of_handKeeps (handKeeps_handIn id p taken s n)
  removed _ _ h := h
  sent _ _ _ h := h
  closed _ op h := schemesConsistent_closeOp h op
  ended _ i h := schemesConsistent_endWork h i
  opened s c path p phase taken h := by
    obtain ⟨-, arming, -⟩ := openWork_keeps s c path p phase taken
    rw [State.SchemesConsistent, arming]
    exact h
  monitor _ _ h := h
  raised _ _ h := h
  engine _ _ h := h
  points _ _ h := h
  drawn _ _ h := h
  took _ _ armed h := schemesConsistent_takeSchemes h armed

/-! The arming evaluation (R7 to R20). -/

/-- Persistence arms and disarms; a scheme it leaves in another state than ARMED has no selection record (R15, R16). -/
theorem persist_consistent {e : SchemeEntry} {q : Int} {r : SchemeRec} (h : r.Consistent) (state : (r.persist e q).state ≠ .armed) :
    (r.persist e q).Consistent := by
  cases before : r.state <;> simp only [SchemeRec.persist, before] at state ⊢
  case disarmed | arming =>
    have timer := h.resetTimer_eq_none (by rw [before]; exact SchemeState.noConfusion)
    have selection := h.selection_eq_none (by rw [before]; exact SchemeState.noConfusion)
    split at state <;> [split at state; skip]
    · exact absurd rfl state
    · rw [if_pos ‹_›, if_neg ‹_›]
      exact .of_none selection timer state
    · rw [if_neg ‹_›]
      exact .of_none selection timer state
  case armed =>
    have timer := h.resetTimer_eq_none (by rw [before]; exact SchemeState.noConfusion)
    split at state <;> [skip; split at state]
    · exact absurd rfl state
    · rw [if_neg ‹_›, if_pos ‹_›]
      exact .of_none rfl timer state
    · exact absurd rfl state
  all_goals exact h

/-- Persistence leaves the reset timer. -/
theorem persist_resetTimer (e : SchemeEntry) (q : Int) (r : SchemeRec) : (r.persist e q).resetTimer = r.resetTimer := by
  unfold SchemeRec.persist
  split <;> (try split) <;> (try split) <;> rfl

theorem armingStages_consistent {s : State} {e : SchemeEntry} {q : Int} {r : SchemeRec} (h : r.Consistent)
    (state : r.state ≠ .operated) : (s.armingStages e q r).1.Consistent := by
  obtain ⟨w, stress, timer, walked⟩ := walkDown_keeps e (s.after e.holdMs) q r
  have kept : (r.walkDown e (s.after e.holdMs) q).1.Consistent := by
    rw [walked]
    exact h.of_same rfl rfl rfl
  have stopped : (r.walkDown e (s.after e.holdMs) q).1.resetTimer = none := by
    rw [walked]
    exact h.resetTimer_eq_none state
  unfold State.armingStages
  dsimp only
  split
  · rename_i armed
    refine ⟨iff_of_true rfl armed, fun runs => ?_⟩
    have runs : ((r.walkDown e (s.after e.holdMs) q).1.persist e q).resetTimer.isSome = true := runs
    rw [persist_resetTimer, stopped] at runs
    cases runs
  · rename_i unarmed
    exact persist_consistent kept unarmed

theorem evaluateStages_consistent {s : State} {e : SchemeEntry} {formed : Option Int} {r : SchemeRec} (h : r.Consistent) :
    (s.evaluateStages e formed r).1.Consistent := by
  have with_q : ({ r with q := formed.getD r.q } : SchemeRec).Consistent := h.of_same rfl rfl rfl
  have calmed : ∀ {state : SchemeState}, r.state ≠ .operated → state ≠ .armed →
      (({ r with q := formed.getD r.q } : SchemeRec).calm state).Consistent := fun before after => with_q.calm before after
  cases state : r.state <;> simp only [State.evaluateStages, state]
  case off => exact state ▸ with_q
  case gated | operating | operated => exact h.of_same state.symm rfl rfl
  case suspended =>
    have before : r.state ≠ .operated := by rw [state]; exact SchemeState.noConfusion
    split
    · exact calmed (state := .disarmed) before SchemeState.noConfusion
    · exact calmed (state := .suspended) before SchemeState.noConfusion
  case disarmed | arming | armed =>
    have before : r.state ≠ .operated := by rw [state]; exact SchemeState.noConfusion
    cases formed with
    | none => exact calmed (state := .suspended) before SchemeState.noConfusion
    | some q =>
      dsimp only
      split
      · exact calmed (state := .suspended) before SchemeState.noConfusion
      · exact state ▸ armingStages_consistent with_q before

theorem evaluatedScheme_consistent {s : State} {i : Nat} (h : (s.scheme i).Consistent) : (s.evaluatedScheme i).1.Consistent := by
  have staged := evaluateStages_consistent (s := s) (e := s.active.scheme i) (formed := s.formQ (s.active.scheme i)) h
  unfold State.evaluatedScheme
  dsimp only
  split
  · exact h
  · exact staged.of_same rfl rfl rfl
  all_goals
    obtain ⟨state, -, -, -, selection, -⟩ := runBackstop_keeps (s.active.scheme i) (s.formQ (s.active.scheme i))
      (s.evaluateStages (s.active.scheme i) (s.formQ (s.active.scheme i)) (s.scheme i)).1
    refine staged.of_same state selection ?_
    unfold SchemeRec.runBackstop
    dsimp only
    split <;> rfl

theorem evaluate_schemesConsistent {s : State} (h : s.SchemesConsistent) : s.evaluate.SchemesConsistent := by
  have one : ∀ (t : State) (i : Nat), t.SchemesConsistent → (t.evaluateScheme i).SchemesConsistent :=
    fun t i ht => ht.updScheme i evaluatedScheme_consistent
  have all := foldl_pres State.SchemesConsistent one (List.range 16) s h
  unfold State.evaluate
  generalize (List.range 16).foldl State.evaluateScheme s = t at all
  exact all

/-! Requests, the gate, commits and resets. -/

theorem resetScheme_consistent {r : SchemeRec} (h : r.Consistent) : r.resetScheme.Consistent := by
  unfold SchemeRec.resetScheme
  split
  case h_4 => exact .of_none rfl rfl SchemeState.noConfusion
  case h_5 | h_6 | h_7 | h_8 => exact h.calm (by rw [‹r.state = _›]; exact SchemeState.noConfusion) SchemeState.noConfusion
  all_goals exact h

theorem restoreMargin_consistent {r : SchemeRec} (h : r.Consistent) : r.restoreMargin.Consistent := by
  unfold SchemeRec.restoreMargin
  split
  · exact h
  · exact h.of_same rfl rfl rfl

theorem openGate_consistent {r : SchemeRec} (h : r.Consistent) : r.openGate.Consistent := by
  unfold SchemeRec.openGate
  split
  · rename_i gated
    exact .of_none rfl (h.resetTimer_eq_none (by rw [gated]; exact SchemeState.noConfusion)) SchemeState.noConfusion
  · exact h

theorem closeGate_consistent {r : SchemeRec} (h : r.Consistent) : r.closeGate.Consistent := by
  unfold SchemeRec.closeGate
  split
  · exact h
  · exact .of_none rfl rfl SchemeState.noConfusion

theorem tryOpenGate_schemesConsistent {s : State} (h : s.SchemesConsistent) : s.tryOpenGate.SchemesConsistent := by
  rcases tryOpenGate_cases s with ⟨-, opens⟩ | ⟨-, stays⟩
  · rw [opens]
    refine schemesConsistent_eventKeeps.unforce (s := s.setArming _) _ (fun r mem => ?_)
    obtain ⟨x, old, rfl⟩ := List.mem_map.1 mem
    exact openGate_consistent (h x old)
  · rw [stays]
    exact h

theorem schemeState_not_armed (b : Bank) (i : Nat) {state : SchemeState} (h : state ≠ .armed) : b.schemeState i state ≠ .armed := by
  unfold Bank.schemeState
  split
  · exact h
  · exact SchemeState.noConfusion

/-- Settles O57: records are consistent one by one; only the arming stages write a selection record, with the state ARMED, and only
entering OPERATED starts a reset timer. -/
theorem schemeRecordsStayConsistent : Obligations.SchemeRecordsStayConsistent := by
  have split_iff : ∀ s : State, s.SchemesConsistent ↔ s.SelectionWhileArmed ∧ s.ResetTimerInOperated := fun s =>
    ⟨fun h => ⟨fun r mem => (h r mem).1, fun r mem => (h r mem).2⟩, fun h r mem => ⟨h.1 r mem, h.2 r mem⟩⟩
  intro s t selections timers ran
  refine (split_iff t).1 (step_keeps (P := State.SchemesConsistent) (fun s t same h => ?same) (fun c u v effect h => ?effect) ran
    ((split_iff s).2 ⟨selections, timers⟩))
  case same =>
    rw [State.SchemesConsistent, same.arming]
    exact h
  case effect =>
    have event := schemesConsistent_eventKeeps
    cases effect with
    | none | hold | stale | load | copy | clear => exact h
    | reset | resetPower =>
      intro r mem
      obtain ⟨i, -, rfl⟩ := List.mem_map.1 mem
      exact .fresh (schemeState_not_armed _ _ SchemeState.noConfusion) _
    | evaluate => exact evaluate_schemesConsistent h
    | holdExpiry i => exact h.updScheme i (fun before => before.of_same rfl rfl rfl)
    | resetExpiry i _ => exact h.updScheme i (fun _ => .of_none rfl rfl SchemeState.noConfusion)
    | settle | start => exact tryOpenGate_schemesConsistent (s := u.setArming _) h
    | expire e _ => exact event.expireEntry e h
    | complete snap _ => exact event.completeExpansion snap h
    | trip _ => exact event.sendTrip _ h
    | publish i fr payload => exact event.afterUpdates (s := u.publishPoints i fr payload) _ _ h
    | force i v _ _ => exact event.force i v h
    | unforce f => exact event.unforce f h
    | commit =>
      rw [commitBanks_eq]
      refine tryOpenGate_schemesConsistent (fun r mem => ?_)
      obtain ⟨i, hardTrip, rfl⟩ := committed_schemes u r mem
      refine .fresh (schemeState_not_armed _ _ ?_) _
      split <;> exact SchemeState.noConfusion
    | close =>
      intro r mem
      obtain ⟨x, old, rfl⟩ := List.mem_map.1 mem
      exact closeGate_consistent (h x old)
    | resetSchemes l => exact forall_mem_updSchemes h (fun _ => resetScheme_consistent) l
    | restoreMargin l => exact forall_mem_updSchemes h (fun _ => restoreMargin_consistent) l
    | release =>
      intro r mem
      obtain ⟨x, old, rfl⟩ := List.mem_map.1 mem
      exact (h x old).of_same rfl rfl rfl

end Sys2Proof.Machine
end

section
/-! The sizes of the Trip Queue, the Operation Table and the Operation Log (R75, R87, R178). -/

namespace Sys2Proof.Machine

/-- The queue, the table and the log are within their sizes, and no action has two entries. -/
def State.Bounded (s : State) : Prop := s.QueueBounded ∧ s.TablesBounded

theorem State.Bounded.of_parts {s t : State} (h : s.Bounded) (queue : t.queue = s.queue) (tracker : t.tracker = s.tracker)
    (log : t.log = s.log) : t.Bounded := by
  unfold State.Bounded State.QueueBounded State.TablesBounded
  rw [queue, tracker, log]
  exact h

/-- A change that keeps the actions of the queue and the number of operations. -/
theorem State.Bounded.of_same {s t : State} (h : s.Bounded)
    (actions : t.queue.entries.map Entry.action = s.queue.entries.map Entry.action)
    (ops : t.tracker.ops.length = s.tracker.ops.length) (log : t.log = s.log) : t.Bounded := by
  have length : t.queue.entries.length = s.queue.entries.length := by
    rw [← List.length_map (f := Entry.action), actions, List.length_map]
  unfold State.Bounded State.QueueBounded State.TablesBounded
  rw [actions, length, ops, log]
  exact h

/-- The actions of a queue that a hand-in has joined or entered (R77, R80). -/
theorem handIn_actions (id p : Nat) (taken : List Nat) (s : State) (n : Node) :
    (State.handIn id p taken s n).queue.entries.map Entry.action
      = if s.handOutcome id n.action = .entered then s.queue.entries.map Entry.action ++ [n.action]
        else s.queue.entries.map Entry.action := by
  rw [handIn_queue_eq]
  cases outcome : s.handOutcome id n.action with
  | entered =>
    rw [if_pos rfl]
    exact List.map_append
  | merged newly =>
    rw [if_neg HandOutcome.noConfusion]
    simp only [State.applyHand, State.setQueue_queue, List.map_map]
    refine List.map_congr_left (fun e _ => ?_)
    simp only [Function.comp]
    split <;> rfl
  | alreadyOpen => rfl
  | dropped =>
    rw [if_neg HandOutcome.noConfusion]
    exact congrArg (fun q : QueueState => q.entries.map Entry.action) (latchDropped_queue _ _ _)

/-- An entry is made only for an action without one, and while the queue has room (R77, R79, R80). -/
theorem handOutcome_entered {s : State} {id action : Nat} (h : s.handOutcome id action = .entered) :
    s.queue.entries.length < 32 ∧ action ∉ s.queue.entries.map Entry.action := by
  unfold State.handOutcome at h
  split at h
  · cases h
  · rename_i unqueued
    split at h
    · cases h
    · split at h
      · cases h
      · rename_i room
        refine ⟨by omega, fun mem => ?_⟩
        obtain ⟨e, live, rfl⟩ := List.mem_map.1 mem
        exact List.find?_eq_none.1 unqueued e live (by simp)

theorem bounded_handIn {s : State} (h : s.Bounded) (id p : Nat) (taken : List Nat) (n : Node) :
    (State.handIn id p taken s n).Bounded := by
  have log : (State.handIn id p taken s n).log = s.log := congrArg HandKeeps.log (handKeeps_handIn id p taken s n)
  have ops : (State.handIn id p taken s n).tracker.ops.length = s.tracker.ops.length := by
    rw [handIn_tracker_eq]
    split
    · rfl
    · exact List.length_map _
  have actions := handIn_actions id p taken s n
  by_cases entered : s.handOutcome id n.action = .entered
  · obtain ⟨room, unqueued⟩ := handOutcome_entered entered
    rw [if_pos entered] at actions
    obtain ⟨⟨-, distinct⟩, opened, logged⟩ := h
    refine ⟨⟨?_, ?_⟩, ops ▸ opened, log ▸ logged⟩
    · rw [← List.length_map (f := Entry.action), actions, List.length_append, List.length_map]
      exact room
    · rw [actions, List.nodup_append]
      refine ⟨distinct, List.nodup_singleton _, fun a mem b is => ?_⟩
      rw [List.mem_singleton] at is
      exact fun same => unqueued (is ▸ same ▸ mem)
  · rw [if_neg entered] at actions
    exact h.of_same actions ops log

/-- Entries that leave the queue. -/
theorem State.Bounded.removeEntry {s : State} (h : s.Bounded) (action : Nat) : (s.removeEntry action).Bounded := by
  obtain ⟨⟨length, distinct⟩, tables⟩ := h
  have fewer := List.filter_sublist (p := fun e : Entry => e.action != action) (l := s.queue.entries)
  exact ⟨⟨fewer.length_le.trans length, distinct.sublist (fewer.map Entry.action)⟩, tables⟩

theorem bounded_openWork {s : State} (h : s.Bounded) (c : Nat) (path : OpPath) (priority : Nat) (phase : OpPhase)
    (taken : List SchemeCopy) : (s.openWork c path priority phase taken).Bounded := by
  unfold State.openWork
  split
  · rename_i room
    obtain ⟨queue, -, logged⟩ := h
    have few : s.tracker.ops.length < 8 := of_decide_eq_true room
    refine ⟨queue, ?_, logged⟩
    show (insertOp _ s.tracker.ops).length ≤ 8
    rw [insertOp_length]
    exact few
  · exact h

theorem bounded_closeOp {s : State} (h : s.Bounded) (op : Operation) : (s.closeOp op).Bounded := by
  obtain ⟨queue, -, -, -, tracker, log, -⟩ := closeOp_keeps s op
  obtain ⟨queued, opened, -⟩ := h
  unfold State.Bounded State.QueueBounded State.TablesBounded
  rw [queue, tracker, log]
  exact ⟨queued, (List.length_filter_le _ _).trans opened, List.length_take_le _ _⟩

theorem bounded_eventKeeps : EventKeeps State.Bounded where
  record _ _ _ h := h.of_same rfl (List.length_map _) rfl
  handed id p taken _ n h := bounded_handIn h id p taken n
  removed _ action h := h.removeEntry action
  sent s f same h := by
    refine h.of_same ?_ rfl rfl
    rw [State.setQueue_queue, List.map_map]
    exact List.map_congr_left (fun e _ => same e)
  closed _ op h := bounded_closeOp h op
  ended s i h := by
    unfold State.endWork
    split <;> exact h
  opened _ c path priority phase taken h := bounded_openWork h c path priority phase taken
  monitor _ _ h := h
  raised _ _ h := h
  engine _ _ h := h
  points _ _ h := h
  drawn _ _ h := h
  took s taken _ h := by
    rw [takeSchemes_eq]
    exact h

theorem tryOpenGate_bounded {s : State} (h : s.Bounded) : s.tryOpenGate.Bounded := by
  rcases tryOpenGate_cases s with ⟨-, opens⟩ | ⟨-, stays⟩
  · rw [opens]
    exact bounded_eventKeeps.unforce (s := s.setArming _) _ h
  · rw [stays]
    exact h

theorem evaluate_bounded {s : State} (h : s.Bounded) : s.evaluate.Bounded := by
  have all := foldl_pres (f := State.evaluateScheme) State.Bounded (fun _ _ ht => ht) (List.range 16) s h
  unfold State.evaluate
  generalize (List.range 16).foldl State.evaluateScheme s = t at all
  exact all

/-- Settles O58: a hand-in makes an entry only in a queue with room and for an action without one, an operation is allocated only below
8, and the log keeps 32 records. -/
theorem tablesStayWithinBounds : Obligations.TablesStayWithinBounds := by
  intro s t queue tables ran
  refine step_keeps (P := State.Bounded) (fun s t same h => h.of_parts same.queue same.tracker same.log)
    (fun c u v effect h => ?_) ran ⟨queue, tables⟩
  have event := bounded_eventKeeps
  cases effect with
  | none | holdExpiry | resetExpiry | hold | stale | load | copy | close | release | clear => exact h
  | reset => exact ⟨⟨Nat.zero_le _, List.nodup_nil⟩, Nat.zero_le _, h.2.2⟩
  | resetPower => exact ⟨⟨Nat.zero_le _, List.nodup_nil⟩, Nat.zero_le _, Nat.zero_le _⟩
  | evaluate => exact evaluate_bounded h
  | settle | start => exact tryOpenGate_bounded (s := u.setArming _) h
  | expire e _ => exact event.expireEntry e h
  | complete snap _ => exact event.completeExpansion snap h
  | trip _ => exact event.sendTrip _ h
  | publish i fr payload => exact event.afterUpdates (s := u.publishPoints i fr payload) _ _ h
  | force i v _ _ => exact event.force i v h
  | unforce f => exact event.unforce f h
  | commit =>
    obtain ⟨-, -, -, -, queue, tracker, log, -⟩ := committed_keeps u
    rw [commitBanks_eq]
    exact tryOpenGate_bounded (h.of_parts queue tracker log)
  | resetSchemes | restoreMargin => rw [foldl_updScheme_eq]; exact h

end Sys2Proof.Machine
end

section
/-! Everything a command can do to the link (08_the_scheme_link.md): the changes of port records and of waiting copies, the use of a
MARKER for timing, the sending of an own frame, and a reset. -/

namespace Sys2Proof.Machine

/-- A port record that holds the values of R144 while it is DOWN, and its counts within their ranges (section 8.3, R146). -/
structure PortRec.Sound (p : PortRec) : Prop where
  down : p.state = .down → p = .down p.counters
  strikes : p.strikes ≤ 15
  miss : p.miss ≤ 3
  babbleFree : p.babbleFree ≤ 256
  acquisition : p.acquisition ≤ 4
  acquiring : p.state = .acquiring → p.acquisition ≤ 3

/-- What an event without the take of a MARKER makes of the link, in steps: a record of a port whose state is kept; one whose state may
change, but not to LOCKED, with the timing port looked at again; a waiting copy that goes out. -/
inductive LinkMove : LinkState → LinkState → Prop where
  | refl (l : LinkState) : LinkMove l l
  | record (l : LinkState) (side : Side) (p : PortRec) : p.state = (l.port side).state → ((l.port side).Sound → p.Sound) →
      LinkMove l (l.setPort side p)
  | change (l : LinkState) (side : Side) (p : PortRec) : (p.state = .locked → (l.port side).state = .locked) →
      ((l.port side).Sound → p.Sound) → LinkMove l ((l.setPort side p).retime l none)
  | copies (l : LinkState) (waiting : List WaitingCopy) : (∀ w ∈ waiting, w ∈ l.waiting) → LinkMove l { l with waiting := waiting }
  | trans {l m n : LinkState} : LinkMove l m → LinkMove m n → LinkMove l n

/-- The command is the reception of a valid MARKER on the port. -/
def MarkerOn (c : Instr) (side : Side) : Prop :=
  ∃ rx w, (c = .marker rx w ∨ c = .repeatedFrame rx 0 [w]) ∧ rx.port = side

/-- What a command makes of the link. -/
inductive LinkEffect (c : Instr) (s : State) : LinkState → Prop where
  | moved {l : LinkState} : LinkMove s.link l → LinkEffect c s l
  | timed (u : State) (side : Side) (start : Nat) (cycle : Byte) (slots : Nat) : MarkerOn c side → LinkMove s.link u.link →
      LinkEffect c s (u.timeMarker side start cycle slots).link
  | sent (waiting : List WaitingCopy) : LinkEffect c s { s.link with waiting := waiting }
  | reset : LinkEffect c s .reset

namespace LinkMove
variable {s : State} {l : LinkState}

theorem of_eq {t : State} (h : t.link = s.link) : LinkMove s.link t.link := h ▸ .refl _

theorem of_surroundings {t : State} (h : t.surroundings = s.surroundings) : LinkMove s.link t.link :=
  of_eq (congrArg Surroundings.link h)

/-- A counter of a port. -/
theorem countPort (s : State) (side : Side) (f : PortCounters → PortCounters) : LinkMove s.link (s.countPort side f).link := by
  refine .record _ side _ rfl (fun sound => ⟨fun isDown => ?_, sound.strikes, sound.miss, sound.babbleFree, sound.acquisition,
    sound.acquiring⟩)
  have fixed : s.link.port side = .down (s.link.port side).counters := sound.down isDown
  show ({ s.link.port side with counters := f (s.link.port side).counters } : PortRec) = .down (f (s.link.port side).counters)
  rw [fixed]
  rfl

theorem portDown (s : State) (side : Side) : LinkMove s.link (s.portDown side).link :=
  .change _ side _ (fun locked => PortState.noConfusion locked) (fun _ => ⟨fun _ => rfl, Nat.zero_le _, Nat.zero_le _, Nat.zero_le _,
    Nat.zero_le _, fun acquiring => PortState.noConfusion acquiring⟩)

end LinkMove

/-! The Repeater and the reception of frames leave the ports, but for a counter. -/

section
variable (s : State) (side : Side)

theorem repeatWords_link (slot : Option Nat) (words : List Word) : (s.repeatWords side slot words).link = s.link := by
  unfold State.repeatWords
  split <;> rfl

theorem framingError_moves (slot : Option Nat) (start : Nat) (words : List Word) :
    LinkMove s.link (s.framingError side slot start words).link := by
  refine (LinkMove.countPort s side (fun c => { c with framing := satInc c.framing })).trans (.of_eq ?_)
  unfold State.framingError State.repeatBroken
  dsimp only
  split
  · split
    · exact repeatWords_link _ _ _ _
    · rfl
  · rfl

theorem offSlot_moves (start : Nat) (words : List Word) : LinkMove s.link (s.offSlot side start words).link := by
  unfold State.offSlot
  split <;> exact framingError_moves _ _ _ _ _

theorem damagedInSlot_moves (slot : Nat) (words : List Word) (d : Damage) : LinkMove s.link (s.damagedInSlot side slot words d).link := by
  cases d with
  | framing => exact framingError_moves _ _ _ _ _
  | truncated | badCheck =>
    unfold State.damagedInSlot
    dsimp only
    split
    · exact (LinkMove.countPort s side _).trans (.of_eq (repeatWords_link _ _ _ _))
    · exact .countPort s side _

end

section
variable {s : State} {rx : Reception} {kind : BitVec 4} {payload : List Word}

theorem goodInSlot_moves {slot : Nat} {handOn : State → State} (h : ∀ u : State, LinkMove u.link (handOn u).link) :
    LinkMove s.link (s.goodInSlot rx kind payload slot handOn).link := by
  unfold State.goodInSlot
  split
  · exact .refl _
  · exact .countPort _ _ _
  · exact (LinkMove.of_eq (repeatWords_link s rx.port (some slot) _)).trans (h _)

theorem receiveGood_moves {handOn : Nat → State → State} (h : ∀ slot (u : State), LinkMove u.link (handOn slot u).link) :
    LinkMove s.link (s.receiveGood rx kind payload handOn).link := by
  unfold State.receiveGood
  split
  · split
    · exact offSlot_moves _ _ _ _
    · split
      · exact goodInSlot_moves (h _)
      · exact damagedInSlot_moves _ _ _ _ _
  · exact .refl _

end

theorem receiveDamaged_moves (s : State) (side : Side) (start : Nat) (whole : Bool) (words : List Word) :
    LinkMove s.link (s.receiveDamaged side start whole words).link := by
  unfold State.receiveDamaged
  split
  · split
    · exact offSlot_moves _ _ _ _
    · split
      · exact .refl _
      · exact damagedInSlot_moves _ _ _ _ _
  · exact .refl _

theorem receiveLooped_moves (s : State) (side : Side) (whole : Bool) (words : List Word) :
    LinkMove s.link (s.receiveLooped side whole words).link := by
  unfold State.receiveLooped
  split
  · split <;> exact .countPort _ _ _
  · exact .refl _

/-- A MARKER received is a counter at most, or its use for timing after one. -/
theorem receiveMarker_effect {c : Instr} (s u : State) (from_s : LinkMove s.link u.link) (rx : Reception) (w : Word)
    (is : MarkerOn c rx.port) : LinkEffect c s (u.receiveMarker rx w).link := by
  unfold State.receiveMarker
  dsimp only
  split
  · split
    · exact .moved (from_s.trans (offSlot_moves _ _ _ _))
    · exact .timed _ _ _ _ _ is (from_s.trans (goodInSlot_moves (fun _ => .refl _)))
  · exact .timed _ _ _ _ _ is from_s

/-! A missed MARKER and a babbling slot (R146, R147, R151, R152). -/

theorem PortRec.runOn_eq (slots : Option Nat) (p : PortRec) : ∃ position, p.runOn slots = { p with position := position } := by
  cases slots with
  | none => exact ⟨p.position, rfl⟩
  | some n => exact ⟨_, rfl⟩

theorem missMarker_moves (s : State) (side : Side) : LinkMove s.link (s.missMarker side).link := by
  obtain ⟨position, runs⟩ := PortRec.runOn_eq (s.slotsOf side) (s.port side)
  unfold State.missMarker
  dsimp only
  rw [runs]
  split
  · exact .refl _
  · split
    · exact .refl _
    · exact .refl _
    · rename_i isolated
      refine .record _ side _ rfl (fun sound => ⟨fun isDown => ?_, sound.strikes, sound.miss, Nat.zero_le _, sound.acquisition,
        sound.acquiring⟩)
      exact PortState.noConfusion (isolated.symm.trans isDown)
    · rename_i acquiring
      split
      · exact .change _ side _ (fun locked => PortState.noConfusion locked) (fun _ => ⟨fun _ => rfl, Nat.zero_le _, Nat.zero_le _,
          Nat.zero_le _, Nat.zero_le _, fun acquiring => PortState.noConfusion acquiring⟩)
      · rename_i few
        refine .record _ side _ rfl (fun sound => ⟨fun isDown => ?_, sound.strikes, ?_, sound.babbleFree, Nat.zero_le _,
          fun _ => Nat.zero_le _⟩)
        · exact PortState.noConfusion (acquiring.symm.trans isDown)
        · exact (Nat.not_le.1 few).le
    · rename_i locked
      split
      · exact .change _ side _ (fun locked => PortState.noConfusion locked) (fun _ => ⟨fun _ => rfl, Nat.zero_le _, Nat.zero_le _,
          Nat.zero_le _, Nat.zero_le _, fun acquiring => PortState.noConfusion acquiring⟩)
      · rename_i few
        refine .record _ side _ rfl (fun sound => ⟨fun isDown => ?_, sound.strikes, ?_, sound.babbleFree, sound.acquisition,
          sound.acquiring⟩)
        · exact PortState.noConfusion (locked.symm.trans isDown)
        · exact (Nat.not_le.1 few).le

theorem babbleSlot_moves (s : State) (side : Side) : LinkMove s.link (s.babbleSlot side).link := by
  unfold State.babbleSlot
  dsimp only
  split
  · exact .refl _
  · exact .refl _
  · rename_i isolated
    exact .record _ side _ rfl (fun sound => ⟨fun isDown => PortState.noConfusion (isolated.symm.trans isDown), sound.strikes,
      sound.miss, sound.babbleFree, sound.acquisition, sound.acquiring⟩)
  · rename_i acquiring
    exact .record _ side _ rfl (fun sound => ⟨fun isDown => PortState.noConfusion (acquiring.symm.trans isDown), Nat.min_le_left _ _,
      sound.miss, sound.babbleFree, sound.acquisition, sound.acquiring⟩)
  · rename_i locked
    split
    · exact .change _ side _ (fun locked => PortState.noConfusion locked) (fun sound => ⟨fun isDown => PortState.noConfusion isDown,
        Nat.min_le_left _ _, sound.miss, Nat.zero_le _, sound.acquisition, fun acquiring => PortState.noConfusion acquiring⟩)
    · exact .record _ side _ rfl (fun sound => ⟨fun isDown => PortState.noConfusion (locked.symm.trans isDown), Nat.min_le_left _ _,
        sound.miss, sound.babbleFree, sound.acquisition, sound.acquiring⟩)

/-! Requests (section 9.4): PORT CONTROL, COMMIT and READ COUNTERS with its clear option move the link, no other does. -/

section
variable {s : State} {q : Request}

theorem guarded_moves {write : Bool} {args : Nat} {body : State → State} (h : LinkMove s.link (body s).link) :
    LinkMove s.link (s.guarded q write args body).link := by
  unfold State.guarded
  split
  · exact .refl _
  · split
    · exact .refl _
    · exact h

theorem onPort_moves {body : Side → State → State} (h : ∀ side, LinkMove s.link (body side s).link) :
    LinkMove s.link (s.onPort q body).link := by
  refine guarded_moves ?_
  split
  · exact .refl _
  · exact h _

end

section
variable (s : State) (q : Request)

theorem identify_moves : LinkMove s.link (s.doIdentify q).link := guarded_moves (.refl _)

theorem readState_moves : LinkMove s.link (s.doReadState q).link := by
  refine guarded_moves ?_
  split
  · exact .refl _
  · dsimp only
    split <;> exact .refl _

theorem readTable_moves : LinkMove s.link (s.doReadTable q).link := by
  refine guarded_moves ?_
  dsimp only
  split <;> exact .refl _

theorem load_moves : LinkMove s.link (s.doLoad q).link := by
  unfold State.doLoad
  dsimp only
  refine guarded_moves ?_
  split <;> exact .refl _

theorem copy_moves : LinkMove s.link (s.doCopy q).link := guarded_moves (.refl _)

theorem tryOpenGate_link : s.tryOpenGate.link = s.link := by
  rcases tryOpenGate_cases s with ⟨-, opens⟩ | ⟨-, stays⟩
  · rw [opens]
    exact congrArg Surroundings.link (surroundings_openGate s)
  · rw [stays]

theorem commitBanks_moves : LinkMove s.link s.commitBanks.link := by
  have down : LinkMove s.link s.portsDown.link := (LinkMove.portDown s .east).trans (.portDown _ .west)
  rw [commitBanks_eq, tryOpenGate_link]
  unfold State.committed
  split
  · exact down
  · exact .refl _

theorem commit_moves : LinkMove s.link (s.doCommit q).link := by
  refine guarded_moves ?_
  split
  · exact .refl _
  · split
    · exact .refl _
    · exact commitBanks_moves s

theorem start_moves : LinkMove s.link (s.doStart q).link := guarded_moves (.of_eq (tryOpenGate_link _))

theorem closeGate_moves : LinkMove s.link (s.doCloseGate q).link := by
  refine guarded_moves ?_
  split <;> exact .refl _

theorem updSchemes_link (f : SchemeRec → SchemeRec) (l : List Nat) : (l.foldl (fun s i => s.updScheme i f) s).link = s.link :=
  foldl_keeps (f := fun (s : State) i => s.updScheme i f) State.link (fun _ _ => rfl) l s

theorem resetScheme_moves : LinkMove s.link (s.doResetScheme q).link := by
  refine guarded_moves ?_
  split
  · exact .refl _
  · split
    · exact .refl _
    · exact .of_eq (updSchemes_link s _ _)

theorem restoreMargin_moves : LinkMove s.link (s.doRestoreMargin q).link := by
  refine guarded_moves ?_
  split
  · exact .refl _
  · exact .of_eq (updSchemes_link s _ _)

theorem releaseHardTrip_moves : LinkMove s.link (s.doReleaseHardTrip q).link := guarded_moves (.refl _)

theorem forcePoint_moves : LinkMove s.link (s.doForcePoint q).link := by
  refine guarded_moves ?_
  dsimp only
  split
  · exact .refl _
  · split
    · exact .refl _
    · split
      · exact .refl _
      · exact .of_eq (congrArg Surroundings.link (surroundings_force s _ _))

theorem unforcePoint_moves : LinkMove s.link (s.doUnforcePoint q).link := by
  refine guarded_moves ?_
  dsimp only
  split
  · exact .of_eq (congrArg Surroundings.link (surroundings_unforce s _))
  · split
    · exact .refl _
    · exact .of_eq (congrArg Surroundings.link (surroundings_unforce s _))

theorem portRestart_moves : LinkMove s.link (s.doPortRestart q).link := onPort_moves (fun side => .portDown s side)

theorem rejoin_moves : LinkMove s.link (s.doRejoin q).link := by
  refine onPort_moves (fun side => ?_)
  split
  · exact .change _ side _ (fun locked => PortState.noConfusion locked) (fun sound => ⟨fun isDown => PortState.noConfusion isDown,
      Nat.zero_le _, Nat.zero_le _, sound.babbleFree, Nat.zero_le _, fun _ => Nat.zero_le _⟩)
  · exact .refl _

theorem loopbackOn_moves : LinkMove s.link (s.doLoopbackOn q).link := by
  refine onPort_moves (fun side => ?_)
  split
  · exact .refl _
  · split
    · exact .refl _
    · exact .change _ side _ (fun locked => PortState.noConfusion locked) (fun sound => ⟨fun isDown => PortState.noConfusion isDown,
        sound.strikes, sound.miss, sound.babbleFree, sound.acquisition, fun acquiring => PortState.noConfusion acquiring⟩)

theorem loopbackOff_moves : LinkMove s.link (s.doLoopbackOff q).link := by
  refine onPort_moves (fun side => ?_)
  split
  · exact .portDown s side
  · exact .refl _

theorem portControl_moves : LinkMove s.link (s.doPortControl q).link := by
  unfold State.doPortControl
  split
  · exact portRestart_moves s q
  · exact rejoin_moves s q
  · exact loopbackOn_moves s q
  · exact loopbackOff_moves s q
  · exact guarded_moves (.refl _)

theorem readCounters_moves : LinkMove s.link (s.doReadCounters q).link := by
  refine guarded_moves ?_
  dsimp only
  split <;> exact .refl _

theorem clearCounters_moves (covers : Nat → Bool) : LinkMove s.link (s.clearCounters covers).link :=
  (LinkMove.countPort s .east (fun c => c.clearAt covers 0)).trans (.countPort (s.countPort .east _) .west (fun c => c.clearAt covers 7))

theorem readCountersClear_moves : LinkMove s.link (s.doReadCountersClear q).link := by
  refine guarded_moves ?_
  dsimp only
  split
  · exact .refl _
  · exact clearCounters_moves s _

theorem readLog_moves : LinkMove s.link (s.doReadLog q).link := by
  refine guarded_moves ?_
  dsimp only
  split <;> exact .refl _

theorem clearNotices_moves : LinkMove s.link (s.doClearNotices q).link := guarded_moves (.refl _)

theorem restart_moves : LinkMove s.link (s.doRestart q).link := guarded_moves (.refl _)

theorem execute_moves : LinkMove s.link (s.execute q).link := by
  unfold State.execute
  split
  · exact identify_moves s q
  · exact readState_moves s q
  · exact readTable_moves s q
  · exact load_moves s q
  · exact copy_moves s q
  · exact commit_moves s q
  · exact start_moves s q
  · exact closeGate_moves s q
  · exact resetScheme_moves s q
  · exact restoreMargin_moves s q
  · exact releaseHardTrip_moves s q
  · exact forcePoint_moves s q
  · exact unforcePoint_moves s q
  · exact portControl_moves s q
  · split
    · exact readCountersClear_moves s q
    · exact readCounters_moves s q
  · exact readLog_moves s q
  · exact clearNotices_moves s q
  · exact restart_moves s q
  · exact .refl _

end

theorem takeRequest_moves {s : State} {port : Side} {dest : Address} {code : Byte} {body : State → State}
    (h : LinkMove s.link (body s).link) : LinkMove s.link (State.takeRequest port dest code body s).link := by
  unfold State.takeRequest
  split
  · split
    · exact .refl _
    · exact h
  · exact .refl _

theorem receiveRequest_moves {s : State} {rx : Reception} {code tag : Byte} {args : List Word} {body : Request → State → State}
    (h : ∀ (u : State) q, LinkMove u.link (body q u).link) : LinkMove s.link (s.receiveRequest rx code tag args body).link :=
  receiveGood_moves fun _ u => takeRequest_moves (h u _)

theorem handPayload_moves (s : State) (rx : Reception) (payload : List Word) : LinkMove s.link (State.handPayload rx payload s).link := by
  unfold State.handPayload
  dsimp only
  split
  · exact takeRequest_moves (s := s.setFreeIndex (s.freeIndex + 1)) (execute_moves (s.setFreeIndex (s.freeIndex + 1)) _)
  · exact takeRequest_moves (execute_moves _ _)

/-! Publications, own slots and waiting copies. -/

theorem offer_link (s : State) (source : Address) (slot : Nat) (cycle : Byte) (payload : List Word) :
    (s.offer source slot cycle payload).link = s.link := by
  unfold State.offer
  split
  · rfl
  · split
    · unfold State.offerInSlot
      split
      · rfl
      · dsimp only
        split
        · rfl
        · exact congrArg Surroundings.link (State.surroundings_afterUpdates _ _ _)
    · rfl

theorem sendOwn_link (s : State) (slot : Nat) (words : List Word) : ∃ waiting,
    (s.sendOwn slot words).link = { s.link with waiting := waiting } := by
  have one : ∀ (t : State) (tx : Side), ∃ waiting, (State.sendOn slot words t tx).link = { t.link with waiting := waiting } := by
    intro t tx
    unfold State.sendOn
    split
    · exact ⟨_, rfl⟩
    · split
      · exact ⟨_, rfl⟩
      · exact ⟨_, rfl⟩
  obtain ⟨first, east⟩ := one s .east
  obtain ⟨second, west⟩ := one (State.sendOn slot words s .east) .west
  exact ⟨second, by rw [State.sendOwn, List.foldl_cons, List.foldl_cons, List.foldl_nil, west, east]⟩

theorem compose_link (s : State) (slot : Nat) : ∃ waiting, (s.compose slot).link = { s.link with waiting := waiting } := by
  unfold State.compose
  split
  · obtain ⟨waiting, sent⟩ := sendOwn_link s slot (s.ownFrame 2 63 (tripPayload _))
    exact ⟨waiting, (congrArg Surroundings.link (surroundings_sendTrip _ _)).trans sent⟩
  · split
    · exact sendOwn_link s slot _
    · exact sendOwn_link s slot _

theorem mem_of_mem_removeFirst {p : WaitingCopy → Bool} {l : List WaitingCopy} {w : WaitingCopy} (h : w ∈ removeFirst p l) : w ∈ l := by
  induction l with
  | nil => exact h
  | cons x rest ih =>
    unfold removeFirst at h
    split at h
    · exact List.mem_cons_of_mem _ h
    · rcases List.mem_cons.1 h with rfl | later
      · exact List.mem_cons_self
      · exact List.mem_cons_of_mem _ (ih later)

theorem sendWaiting_moves (s : State) (tx : Side) (start : Nat) : LinkMove s.link (s.sendWaiting tx start).link := by
  unfold State.sendWaiting
  split
  · exact .refl _
  · dsimp only
    split
    · exact .refl _
    · split <;> exact .copies _ _ (fun _ => mem_of_mem_removeFirst)

theorem evaluate_link (s : State) : s.evaluate.link = s.link := by
  unfold State.evaluate
  have link := foldl_keeps (f := State.evaluateScheme) State.link (fun _ _ => rfl) (List.range 16) s
  generalize (List.range 16).foldl State.evaluateScheme s = t at link
  exact link

/-- Everything a command can do to the link. -/
theorem exec_link {c : Instr} {s t : State} (h : exec c s = .next t) : LinkEffect c s t.link := by
  have run : ∀ f : State → State, (∀ u : State, u.link = s.link → LinkEffect c s (f u).link) → running s f = .next t →
      LinkEffect c s t.link := by
    intro f effect ran
    rw [running, Host.Outcome.next.injEq] at ran
    subst ran
    split
    · exact .moved (.refl _)
    · exact effect _ rfl
  have move : ∀ f : State → State, (∀ u : State, LinkMove u.link (f u).link) → running s f = .next t → LinkEffect c s t.link :=
    fun f moves => run f (fun u same => .moved (same ▸ moves u))
  have request : ∀ rx code tag args (body : Request → State → State), (∀ (u : State) q, LinkMove u.link (body q u).link) →
      running s (fun s => s.receiveRequest rx code tag args body) = .next t → LinkEffect c s t.link :=
    fun rx code tag args body moves => move _ (fun u => receiveRequest_moves moves)
  cases c with
  | powerOnReset phase =>
    cases phase <;> simp only [exec, execPowerOnReset, Host.Outcome.next.injEq] at h <;> subst h
    · exact .reset
    · split
      · exact .reset
      · exact .moved (.refl _)
  | resetPin phase =>
    cases phase <;> simp only [exec, execResetPin, Host.Outcome.next.injEq] at h <;> subst h
    · exact .reset
    · split
      · exact .reset
      · exact .moved (.refl _)
  | timeBaseTick =>
    simp only [exec, execTimeBaseTick] at h
    exact move (fun u => u.setTimeBase (u.timeBase + 1)) (fun u => .refl _) h
  | armingEvaluation =>
    simp only [exec, execArmingEvaluation] at h
    refine move _ (fun u => ?_) h
    split
    · exact .of_eq (evaluate_link u)
    · exact .refl _
  | holdTimerExpiry i =>
    simp only [exec, execHoldTimerExpiry] at h
    exact move _ (fun u => by split <;> exact .refl _) h
  | resetTimerExpiry i =>
    simp only [exec, execResetTimerExpiry] at h
    exact move _ (fun u => by split <;> exact .refl _) h
  | settleIntervalEnd =>
    simp only [exec, execSettleIntervalEnd] at h
    refine move _ (fun u => ?_) h
    split
    · exact .of_eq (tryOpenGate_link _)
    · exact .refl _
  | windowEnd i =>
    simp only [exec, execWindowEnd] at h
    refine move _ (fun u => ?_) h
    split
    · unfold State.endWindow
      dsimp only
      split <;> exact .refl _
    · exact .refl _
  | staleChange i =>
    simp only [exec, execStaleChange] at h
    exact move _ (fun u => by split <;> exact .refl _) h
  | entryExpiry a =>
    simp only [exec, execEntryExpiry] at h
    refine move _ (fun u => ?_) h
    split
    · exact .refl _
    · split
      · exact .of_surroundings (u.surroundings_expireEntry _)
      · exact .refl _
  | expansionCompletion =>
    simp only [exec, execExpansionCompletion] at h
    refine move _ (fun u => ?_) h
    split
    · exact .refl _
    · exact .of_surroundings (u.surroundings_completeExpansion _)
  | ownSlotStart start =>
    simp only [exec, execOwnSlotStart] at h
    refine run _ (fun u same => ?_) h
    split
    · exact .moved (.of_eq same)
    · obtain ⟨waiting, sent⟩ := compose_link u _
      rw [sent, same]
      exact .sent waiting
  | waitingCopySend tx start =>
    simp only [exec, execWaitingCopySend] at h
    exact move _ (fun u => sendWaiting_moves u tx start) h
  | slotEndRestart =>
    simp only [exec, execSlotEndRestart] at h
    refine run _ (fun u same => ?_) h
    split
    · exact .reset
    · exact .moved (.of_eq same)
  | marker rx w =>
    simp only [exec, execMarker] at h
    exact run _ (fun u same => receiveMarker_effect s u (.of_eq same) rx w ⟨rx, w, .inl rfl, rfl⟩) h
  | missedMarker side =>
    simp only [exec, execMissedMarker] at h
    exact move _ (fun u => missMarker_moves u side) h
  | babble side =>
    simp only [exec, execBabble] at h
    exact move _ (fun u => babbleSlot_moves u side) h
  | publish rx payload =>
    simp only [exec, execPublish] at h
    exact move _ (fun u => receiveGood_moves (fun _ v => .of_eq (offer_link v _ _ _ _))) h
  | repeatedFrame rx kind payload =>
    simp only [exec, execRepeatedFrame] at h
    refine run _ (fun u same => ?_) h
    split
    · rename_i w marker
      have kind_marker : kind = 0 := BitVec.eq_of_toNat_eq marker
      subst kind_marker
      exact receiveMarker_effect s u (.of_eq same) rx w ⟨rx, w, .inr rfl, rfl⟩
    · exact .moved (same ▸ receiveGood_moves (fun _ v => .of_eq (offer_link v _ _ _ _)))
    · exact .moved (same ▸ receiveGood_moves (fun _ v => handPayload_moves v rx _))
    · exact .moved (same ▸ receiveGood_moves (fun _ v => .refl _))
  | damagedFrame side start whole words =>
    simp only [exec, execDamagedFrame] at h
    exact move _ (fun u => receiveDamaged_moves u side start whole words) h
  | loopedFrame side whole words =>
    simp only [exec, execLoopedFrame] at h
    exact move _ (fun u => receiveLooped_moves u side whole words) h
  | requestLost rx payload =>
    simp only [exec, execRequestLost] at h
    refine move _ (fun u => ?_) h
    split
    · exact receiveGood_moves (fun _ v => handPayload_moves v rx payload)
    · exact .refl _
  | unknownRequest => exact request _ _ _ _ _ execute_moves h
  | identify => exact request _ _ _ _ _ identify_moves h
  | readState => exact request _ _ _ _ _ readState_moves h
  | readTable => exact request _ _ _ _ _ readTable_moves h
  | load => exact request _ _ _ _ _ load_moves h
  | copyActiveToShadow => exact request _ _ _ _ _ copy_moves h
  | commit => exact request _ _ _ _ _ commit_moves h
  | start => exact request _ _ _ _ _ start_moves h
  | closeGate => exact request _ _ _ _ _ closeGate_moves h
  | resetScheme => exact request _ _ _ _ _ resetScheme_moves h
  | restoreMargin => exact request _ _ _ _ _ restoreMargin_moves h
  | releaseHardTrip => exact request _ _ _ _ _ releaseHardTrip_moves h
  | forcePoint => exact request _ _ _ _ _ forcePoint_moves h
  | unforcePoint => exact request _ _ _ _ _ unforcePoint_moves h
  | portRestart => exact request _ _ _ _ _ portRestart_moves h
  | rejoin => exact request _ _ _ _ _ rejoin_moves h
  | loopbackOn => exact request _ _ _ _ _ loopbackOn_moves h
  | loopbackOff => exact request _ _ _ _ _ loopbackOff_moves h
  | readCounters => exact request _ _ _ _ _ readCounters_moves h
  | readCountersClear => exact request _ _ _ _ _ readCountersClear_moves h
  | readOperationLog => exact request _ _ _ _ _ readLog_moves h
  | clearNotices => exact request _ _ _ _ _ clearNotices_moves h
  | restart => exact request _ _ _ _ _ restart_moves h

end Sys2Proof.Machine
end

section
/-! The records of the link ports stay sound (R144, R146 and section 8.3). -/

namespace Sys2Proof.Machine

/-- Both port records are sound. -/
def LinkState.Sound (l : LinkState) : Prop := ∀ side, (l.port side).Sound

theorem LinkState.Sound.of_ports {l m : LinkState} (h : l.Sound) (same : ∀ side, m.port side = l.port side) : m.Sound :=
  fun side => by rw [same side]; exact h side

theorem LinkState.Sound.setPort {l : LinkState} (h : l.Sound) {side : Side} {p : PortRec} (sound : p.Sound) : (l.setPort side p).Sound := by
  intro other
  by_cases same : side = other
  · subst same
    rw [port_setPort_self]
    exact sound
  · rw [port_setPort_ne l side other p same]
    exact h other

theorem LinkMove.sound {l m : LinkState} (move : LinkMove l m) (h : l.Sound) : m.Sound := by
  induction move with
  | refl => exact h
  | record l side p _ sound => exact h.setPort (sound (h side))
  | change l side p _ sound => exact (h.setPort (sound (h side))).of_ports (retime_port _ _ _)
  | copies => exact h.of_ports (fun side => by cases side <;> rfl)
  | trans _ _ first second => exact second (first h)

theorem takeMarker_sound {s : State} (h : s.link.Sound) {side : Side} {cycle : Byte} {p : PortRec} (sound : p.Sound) :
    (s.takeMarker side cycle p).link.Sound := by
  have ports : ∀ side', (s.takeMarker side cycle p).link.port side' = (s.link.setPort side p).port side' := fun side' => by
    rw [← retime_port (s.link.setPort side p) s.link (some side) side']
    cases side' <;> rfl
  exact (h.setPort sound).of_ports ports

/-- A MARKER taken never adds a strike (R151). -/
theorem takeMarker_strikes_le (p : PortRec) (start : Nat) (cycle : Byte) : (p.takeMarker start cycle).strikes ≤ p.strikes := by
  unfold PortRec.takeMarker
  dsimp only
  split
  · exact le_rfl
  · exact Nat.sub_le _ _

/-- A MARKER taken leaves the counts in range; the state it leaves is one of those in which the record need not be R144's. -/
theorem PortRec.Sound.taken {p q : PortRec} (h : p.Sound) (start : Nat) (cycle : Byte)
    (strikes : q.strikes = (p.takeMarker start cycle).strikes) (state : q.state ≠ .down) (miss : q.miss ≤ 3)
    (babbleFree : q.babbleFree ≤ 256) (acquisition : q.acquisition ≤ 4) (acquiring : q.state = .acquiring → q.acquisition ≤ 3) :
    q.Sound where
  down isDown := absurd isDown state
  strikes := by
    rw [strikes]
    exact (takeMarker_strikes_le p start cycle).trans h.strikes
  miss := miss
  babbleFree := babbleFree
  acquisition := acquisition
  acquiring := acquiring

/-- The babble-free run of an ISOLATED port stops at 256 (R152, R153). -/
theorem PortRec.Sound.quietCycle {p : PortRec} (h : p.Sound) (autoRejoin : Bool) (start : Nat) (cycle : Byte) (state : p.state ≠ .down) :
    (p.quietCycle autoRejoin start cycle).Sound := by
  have run_le : (if p.babbleSeen then 0 else min 256 (p.babbleFree + 1)) ≤ 256 := by
    split
    · exact Nat.zero_le _
    · exact Nat.min_le_left _ _
  unfold PortRec.quietCycle
  generalize (if p.babbleSeen then 0 else min 256 (p.babbleFree + 1)) = run at run_le
  dsimp only
  split
  · exact ⟨fun isDown => PortState.noConfusion isDown, Nat.zero_le _, Nat.zero_le _, run_le, Nat.zero_le _, fun _ => Nat.zero_le _⟩
  · exact h.taken start cycle rfl state h.miss run_le h.acquisition h.acquiring

/-- A DOWN port that takes a MARKER begins acquisition at 1; the fourth locks it (R145, R146). -/
theorem timeMarker_sound {s : State} (h : s.link.Sound) (side : Side) (start : Nat) (cycle : Byte) (slots : Nat) :
    (s.timeMarker side start cycle slots).link.Sound := by
  have sound : (s.port side).Sound := h side
  have down : (s.portDown side).link.Sound := (LinkMove.portDown s side).sound h
  unfold State.timeMarker
  dsimp only
  split
  · exact h
  · split
    · exact takeMarker_sound h (sound.taken start cycle rfl PortState.noConfusion (Nat.zero_le 3) sound.babbleFree
        (by decide : 1 ≤ 4) (fun _ => (by decide : 1 ≤ 3)))
    · exact h
  · rename_i acquiring
    have few := sound.acquiring acquiring
    split
    · exact down
    · split
      · refine takeMarker_sound h (sound.taken start cycle rfl ?_ (Nat.zero_le _) sound.babbleFree (by dsimp only; omega) ?_)
        · dsimp only
          split <;> exact PortState.noConfusion
        · dsimp only
          split
          · exact fun locked => PortState.noConfusion locked
          · intro; omega
      · refine takeMarker_sound h (sound.taken start cycle rfl ?_ (Nat.zero_le _) sound.babbleFree (by decide : 1 ≤ 4)
          (fun _ => (by decide : 1 ≤ 3)))
        show (s.port side).state ≠ .down
        rw [acquiring]
        exact PortState.noConfusion
  · rename_i locked
    have not_down : (s.port side).state ≠ .down := by rw [locked]; exact PortState.noConfusion
    split
    · exact down
    · split
      · exact takeMarker_sound h (sound.taken start cycle rfl not_down (Nat.zero_le _) sound.babbleFree sound.acquisition sound.acquiring)
      · exact h
  · rename_i isolated
    have not_down : (s.port side).state ≠ .down := by rw [isolated]; exact PortState.noConfusion
    split
    · exact h.setPort ⟨fun isDown => absurd isDown not_down, sound.strikes, sound.miss, Nat.zero_le _, sound.acquisition, sound.acquiring⟩
    · split
      · exact takeMarker_sound h (sound.quietCycle s.autoRejoin start cycle not_down)
      · exact takeMarker_sound h (sound.taken start cycle rfl not_down sound.miss (Nat.zero_le _) sound.acquisition sound.acquiring)

theorem LinkEffect.sound {c : Instr} {s : State} {l : LinkState} (effect : LinkEffect c s l) (h : s.link.Sound) : l.Sound := by
  cases effect with
  | moved move => exact move.sound h
  | timed u side start cycle slots _ move => exact timeMarker_sound (move.sound h) side start cycle slots
  | sent => exact h.of_ports (fun side => by cases side <;> rfl)
  | reset =>
    intro side
    have down : LinkState.reset.port side = .down .zero := by cases side <;> rfl
    rw [down]
    exact ⟨fun _ => rfl, by decide, by decide, by decide, by decide, by decide⟩

/-- Settles O59: every new port record of a command is sound when the old one was. -/
theorem portRecordsStayConsistent : Obligations.PortRecordsStayConsistent := by
  have sound_iff : ∀ s : State, s.link.Sound ↔ s.DownPortsReset ∧ s.PortCountsBounded := fun s =>
    ⟨fun h => ⟨fun side => (h side).down, fun side =>
      ⟨(h side).strikes, (h side).miss, (h side).babbleFree, (h side).acquisition, (h side).acquiring⟩⟩,
    fun ⟨down, bounded⟩ side =>
      have ⟨strikes, miss, babbleFree, acquisition, acquiring⟩ := bounded side
      ⟨down side, strikes, miss, babbleFree, acquisition, acquiring⟩⟩
  intro s t down bounded ran
  have sound := (sound_iff s).2 ⟨down, bounded⟩
  refine (sound_iff t).1 ?_
  unfold step at ran
  split at ran
  · rw [Host.Outcome.next.injEq] at ran
    exact ran ▸ sound
  · exact (exec_link ran).sound sound

end Sys2Proof.Machine
end

section
/-! A step, a part held in reset, the reset inputs, and the state of a new part (R144, R161, R178). -/

namespace Sys2Proof.Machine

/-- Settles O1: both halves are `step`'s two branches. -/
theorem stepRunsTheFrontCommand : Obligations.StepRunsTheFrontCommand := by
  refine ⟨fun c rest s waiting => ?_, fun s idle => ?_⟩
  · rw [step, waiting]
    rfl
  · rw [step, idle]

/-- Settles O2: every command but the two reset inputs is a `running` event. -/
theorem heldPartTakesNoEvent : Obligations.HeldPartTakesNoEvent := by
  intro s c held not_power not_pin
  cases c
  case powerOnReset p => exact absurd rfl (not_power p)
  case resetPin p => exact absurd rfl (not_pin p)
  all_goals
    show Host.Outcome.next (if s.held = true then s.quiet else _) = _
    rw [if_pos held]
    rfl

/-- Settles O4: each reset input sets `resetLive`, whose blocks are `resetLive_leaves`, and then its own flag. -/
theorem resetsSetEveryBlock : Obligations.ResetsSetEveryBlock := by
  refine ⟨fun s => ⟨?power, fun held => ?powerRelease, ?pin, fun held => ?pinRelease⟩, fun s released => ⟨fun due => ?restart, fun idle => ?idle⟩⟩
  case power => exact ⟨_, rfl, resetLive_leaves s, rfl, rfl, rfl⟩
  case powerRelease =>
    refine ⟨(s.resetLive.setLog .empty).setPowerHeld false, ?_, resetLive_leaves s, rfl, rfl, rfl⟩
    rw [exec, execPowerOnReset, if_pos held]
  case pin => exact ⟨_, rfl, resetLive_leaves s, rfl, rfl, rfl⟩
  case pinRelease =>
    refine ⟨s.resetLive.setPinHeld false, ?_, resetLive_leaves s, rfl, rfl, rfl⟩
    rw [exec, execResetPin, if_pos held]
  case restart =>
    obtain ⟨power, pin⟩ := Bool.or_eq_false_iff.1 released
    refine ⟨s.quiet.resetLive, ?_, resetLive_leaves s.quiet, rfl, power, pin⟩
    exact (running_next released _).trans (by rw [if_pos (show s.quiet.agent.restartDue = true from due)])
  case idle =>
    have noReply : ¬ s.quiet.agent.restartDue = true := Bool.eq_false_iff.1 idle
    exact (running_next released _).trans (by rw [if_neg noReply]; rfl)

/-! The state of a new part is what a reset of a new part leaves. -/

theorem blank_word (k : TableKind) (entry i : Nat) : Bank.blank.word k entry i = 0 := rfl

theorem blank_point_kind (i : Nat) : (Bank.blank.point i).kind = .disabled := by
  simp only [Bank.point, blank_word]
  rfl

theorem blank_schemeState (i : Nat) (enabled : SchemeState) : Bank.blank.schemeState i enabled = .off := by
  have disabled : (Bank.blank.scheme i).enable = false := by
    simp only [Bank.scheme, blank_word]
    rfl
  rw [Bank.schemeState, disabled]
  rfl

theorem reset_points : State.reset.resetLive.points = State.reset.points := by
  have fresh : ∀ i, PointRec.fresh (Bank.blank.point i).kind.initial = .fresh (.analog 0) := fun i => by
    rw [blank_point_kind]
    rfl
  calc State.reset.resetLive.points = (List.range 256).map (fun i => PointRec.fresh (Bank.blank.point i).kind.initial) := rfl
    _ = (List.range 256).map (fun _ => PointRec.fresh (.analog 0)) := by simp only [fresh]
    _ = List.replicate 256 (.fresh (.analog 0)) := by rw [List.map_const', List.length_range]

theorem reset_schemes : State.reset.resetLive.arming.schemes = State.reset.arming.schemes := by
  calc State.reset.resetLive.arming.schemes
      = (List.range 16).map (fun i => SchemeRec.fresh (Bank.blank.schemeState i .gated) false) := rfl
    _ = (List.range 16).map (fun _ => SchemeRec.fresh .off false) := by simp only [blank_schemeState]
    _ = List.replicate 16 (.fresh .off false) := by rw [List.map_const', List.length_range]

/-- A reset of a new part leaves a new part. -/
theorem reset_resetLive : State.reset.resetLive = State.reset := by
  have arming : State.reset.resetLive.arming = State.reset.arming := by
    calc State.reset.resetLive.arming = ⟨State.reset.resetLive.arming.schemes, false, false, false, none⟩ := rfl
      _ = _ := by rw [reset_schemes]; rfl
  exact State.ext_fields rfl rfl rfl rfl rfl reset_points arming rfl rfl rfl rfl rfl rfl rfl rfl rfl rfl rfl

theorem reset_leaves : State.reset.ResetLeaves State.reset := by
  have leaves := resetLive_leaves State.reset
  rwa [reset_resetLive] at leaves

/-- Settles O3: a new part is a fixed point of the reset, and both its banks hold no word. -/
theorem newPartIsBlank : Obligations.NewPartIsBlank :=
  ⟨fun _ => rfl, fun _ => rfl, rfl, rfl, rfl, reset_leaves,
    fun i inTable => congrArg SchemeRec.state (getD_replicate 16 i inTable _ _),
    fun i inTable => congrArg PointRec.value (getD_replicate 256 i inTable _ _), rfl, rfl, rfl⟩

/-- Settles O5: TIME_BASE_TICK writes the time base alone, and the word wraps. -/
theorem tickCountsOneMillisecond : Obligations.TickCountsOneMillisecond := by
  intro s held
  have ticks : execTimeBaseTick s = .next (s.quiet.setTimeBase (s.timeBase + 1)) := running_next held _
  refine ⟨ticks, fun full => ?_⟩
  rw [full]
  rfl

/-- Settles O7: the expiry is one update of the scheme's record, and a stopped timer is never due. -/
theorem resetTimerExpiryDisarms : Obligations.ResetTimerExpiryDisarms := by
  intro s i held
  refine ⟨fun due operated => ?expires, fun stopped => ?stopped⟩
  case expires =>
    have now : (s.quiet.scheme i).resetTimer = some s.quiet.timeBase ∧ (s.quiet.scheme i).state = .operated := ⟨due, operated⟩
    exact (running_next held _).trans (by rw [if_pos now]; rfl)
  case stopped =>
    have never : ¬ ((s.quiet.scheme i).resetTimer = some s.quiet.timeBase ∧ (s.quiet.scheme i).state = .operated) := by
      rintro ⟨due, -⟩
      cases stopped.symm.trans due
    exact (running_next held _).trans (by rw [if_neg never]; rfl)

theorem reset_noForceWhileOpen : State.reset.NoForceWhileOpen := fun opened => absurd opened Bool.false_ne_true

theorem reset_schemesConsistent : State.reset.SchemesConsistent := by
  intro r mem
  rw [List.eq_of_mem_replicate mem]
  exact SchemeRec.Consistent.fresh SchemeState.noConfusion false

theorem reset_quiesced : State.reset.Quiesced := by
  have leaves := resetLive_quiesced State.reset
  rwa [reset_resetLive] at leaves

theorem reset_port (side : Side) : State.reset.port side = .down .zero := by
  cases side <;> rfl

theorem reset_tablesWhole : State.reset.TablesWhole :=
  ⟨List.length_replicate, List.length_replicate, List.length_replicate, List.length_replicate⟩

/-- Settles O52: each invariant's own form of the reset state. -/
theorem invariantsHoldAtReset : Obligations.InvariantsHoldAtReset := by
  have arbitrated : State.reset.Arbitrated := arbitrated_of_fresh rfl rfl
  refine ⟨⟨rfl, rfl⟩, reset_noForceWhileOpen, arbitrated.1, arbitrated.2, (closedMeansQuiet_iff _).2 (fun _ => reset_quiesced),
    fun r mem => (reset_schemesConsistent r mem).1, fun r mem => (reset_schemesConsistent r mem).2,
    ⟨by decide, List.nodup_nil⟩, ⟨by decide, by decide⟩, fun side _ => ?down, fun side => ?counts, reset_tablesWhole⟩
  all_goals rw [reset_port side]
  case down => rfl
  case counts => exact ⟨by decide, by decide, by decide, by decide, PortState.noConfusion⟩

end Sys2Proof.Machine
end

section
/-! The roundings (00_scope.md section 5.3), the selection of candidates (R34 to R41), and holding and stale changes (R116, R117,
R136). -/

namespace Sys2Proof.Machine

/-- The magnitude of the quotient rounded half away from zero: the dividend's, within half a divisor, and above it in a tie. -/
theorem roundHalfAway_bounds (a : Nat) {d : Nat} (pos : 0 < d) :
    2 * ((2 * a + d) / (2 * d) * d) ≤ 2 * a + d ∧ 2 * a < 2 * ((2 * a + d) / (2 * d) * d) + d := by
  have division : 2 * d * ((2 * a + d) / (2 * d)) + (2 * a + d) % (2 * d) = 2 * a + d := Nat.div_add_mod _ _
  have remainder : (2 * a + d) % (2 * d) < 2 * d := Nat.mod_lt _ (by omega)
  have twice : 2 * d * ((2 * a + d) / (2 * d)) = 2 * ((2 * a + d) / (2 * d) * d) := by ring
  omega

/-- Settles O10: the two quotients with remainder, the first one for the dividend's magnitude. -/
theorem roundingConventions : Obligations.RoundingConventions := by
  refine ⟨fun n d pos => ?halfAway, fun n d pos => ?up⟩
  case halfAway =>
    have bounds := roundHalfAway_bounds n.natAbs pos
    unfold roundHalfAway
    generalize (2 * n.natAbs + d) / (2 * d) = m at bounds ⊢
    have product : ((m * d : Nat) : Int) = (m : Int) * d := Nat.cast_mul m d
    dsimp only
    split
    · have negated : -(m : Int) * d = -((m * d : Nat) : Int) := by rw [product, neg_mul]
      rw [negated, Int.natAbs_neg, Int.natAbs_natCast]
      omega
    · rw [← product, Int.natAbs_natCast]
      omega
  case up =>
    obtain ⟨covers, least⟩ := roundUp_bounds n pos
    refine ⟨by rwa [Nat.mul_comm], fun m enough => ?_⟩
    have below : d * roundUp n d < d * (m + 1) := by
      rw [Nat.mul_add, Nat.mul_comm d m]
      omega
    exact Nat.lt_succ_iff.1 (Nat.lt_of_mul_lt_mul_left below)

/-- A selection for a requirement above 0 from a shed list is the walk over its 16 positions (R37). -/
theorem select_eq (s : State) (list : Nat) {requirement : Nat} (required : 0 < requirement) :
    s.select (some list) requirement =
      let walk := selectionWalk (s.eligible list) requirement (List.range' 0 16) [] 0
      ⟨requirement, walk.1, walk.2.1, if requirement ≤ walk.2.1 then .covered else .short, walk.2.2, s.timeBase⟩ := by
  rw [State.select, if_neg (by omega), List.range_eq_range']

/-- Settles O12: `selectionWalk_spec` at the start of the walk, with nothing taken yet. -/
theorem selectionRecordIsTheWalks : Obligations.SelectionRecordIsTheWalks := by
  intro s requirement
  refine ⟨fun list => if_pos rfl, fun required => ?noList, fun list required => ?walk⟩
  case noList => rw [State.select, if_neg (by omega)]
  case walk =>
    obtain ⟨length, continuation, ascending, members, total, complete, stops, before, last, exhausted⟩ :=
      selectionWalk_spec (s.eligible list) requirement 16 0 [] 0 (by decide) required .nil
        (fun x mem => absurd mem List.not_mem_nil) rfl (fun p a below => absurd below (Nat.not_lt_zero p)) rfl
    rw [select_eq s list required]
    exact ⟨rfl, rfl, length, continuation, ascending, members, total, rfl, complete, stops, before, last, exhausted⟩

theorem liveEntry_none_iff (s : State) (action : Nat) : s.liveEntry action = none ↔ ∀ e ∈ s.queue.entries, e.action ≠ action := by
  simp only [State.liveEntry, List.find?_eq_none, beq_iff_eq]

/-- The five conditions of R34 on a candidate. -/
theorem candidateEligible_iff (s : State) (c : CandidateEntry) : s.candidateEligible c = true ↔ c.enable = true
    ∧ (s.point c.availability).value = .binary .closed
    ∧ (s.point c.availability).quality ∈ [Quality.good, .suspect, .held, .forced]
    ∧ (s.point c.amount).quality ∈ [Quality.good, .suspect, .held, .forced]
    ∧ c.minimum ≤ (s.point c.amount).amount ∧ ∀ e ∈ s.queue.entries, e.action ≠ c.head := by
  simp only [State.candidateEligible, Bool.and_eq_true, beq_iff_eq, Quality.usable_iff, decide_eq_true_eq, Option.isNone_iff_eq_none,
    liveEntry_none_iff, and_assoc]

/-- The position holds an eligible candidate of that amount (R34, R35). -/
theorem eligible_iff (s : State) (list p amount : Nat) : s.eligible list p = some amount ↔
    ∃ c, s.active.candidate list p = some c ∧ s.candidateEligible c = true ∧ (s.point c.amount).amount = amount := by
  unfold State.eligible
  cases s.active.candidate list p with
  | none => simp
  | some c => by_cases fits : s.candidateEligible c = true <;> simp [fits]

/-- Settles O13: eligibility condition by condition, and `firstEligible_spec` for the search from the continuation position. -/
theorem eligibilityAndReplacement : Obligations.EligibilityAndReplacement := by
  refine ⟨fun s list p amount => ?eligible, fun s start => ⟨rfl, fun list => ?search⟩⟩
  case eligible =>
    rw [eligible_iff]
    refine exists_congr fun c => and_congr_right fun _ => ?_
    have magnitude : ((s.point c.amount).amount : Int) = max 0 (s.point c.amount).value.number := by
      rw [PointRec.amount, Int.toNat_eq_max, max_comm]
    rw [candidateEligible_iff, ← magnitude, Nat.cast_inj]
    constructor
    · rintro ⟨⟨enable, closed, usable, known, minimum, idle⟩, rfl⟩
      exact ⟨enable, closed, usable, known, rfl, minimum, idle⟩
    · rintro ⟨enable, closed, usable, known, rfl, minimum, idle⟩
      exact ⟨⟨enable, closed, usable, known, minimum, idle⟩, rfl⟩
  case search =>
    have rest : (List.range 16).drop start = List.range' start (16 - start) := by
      rw [List.range_eq_range', List.drop_range']
      simp
    obtain ⟨found, missed⟩ := firstEligible_spec (s.eligible list) (16 - start) start
    rw [← rest] at found missed
    refine ⟨fun k amount => (found k amount).trans (and_congr_right fun _ => and_congr_left' (by omega)),
      missed.trans (forall_congr' fun j => forall_congr' fun _ => imp_congr_left (by omega))⟩

/-- A point going to STALE, with its value said as R117 says it. -/
theorem PointRec.toStale_eq (e : PointEntry) (r : PointRec) : r.toStale e = { r with
    quality := .stale
    holdStart := none
    value := if e.kind = .analog then match e.substitute with | some v => .analog v | none => r.value else r.value } := by
  unfold PointRec.toStale
  cases e.kind <;> cases e.substitute <;> rfl

theorem PointEntry.enabled_iff (e : PointEntry) : e.enabled = true ↔ e.kind ≠ .disabled := by
  unfold PointEntry.enabled
  cases e.kind <;> simp

/-- The points after their station's entry into SILENT (R116). -/
theorem holdPoints_point {s : State} {p : Nat} (inTable : p < s.points.length) (i : Nat) : (s.holdPoints i).point p =
    if (s.active.point p).kind ≠ .disabled ∧ (s.active.point p).source = i
        ∧ ((s.point p).quality = .good ∨ (s.point p).quality = .suspect) then
      if (s.active.point p).holdLimit = 0 then (s.point p).toStale (s.active.point p)
      else { s.point p with quality := .held, holdStart := some s.timeBase }
    else s.point p := by
  have record : (s.holdPoints i).point p =
      if (s.active.point p).enabled && (s.active.point p).source == i then (s.point p).hold (s.active.point p) s.timeBase
      else s.point p := getD_mapIdx s.points p inTable _ _
  rw [record]
  simp only [Bool.and_eq_true, PointEntry.enabled_iff, beq_iff_eq, PointRec.hold, ← and_assoc, ite_and]

/-- A window end that is an entry into SILENT holds the station's points (R136). -/
theorem endWindow_of_entered {s : State} {i : Nat} (silent : (s.active.station i).judge (s.station i).windowCount = .silent)
    (before : (s.station i).freshness ≠ .silent) : ∃ f, s.endWindow i = (s.updStation i f).holdPoints i := by
  have entered : (decide ((s.active.station i).judge (s.station i).windowCount = .silent)
      && decide ((s.station i).freshness ≠ .silent)) = true := by
    rw [decide_eq_true silent, decide_eq_true before]
    rfl
  exact ⟨_, if_pos entered⟩

theorem StationEntry.judge_silent {e : StationEntry} {count : Nat} (short : count < e.minimum)
    (silence : count = 0 ∨ e.degradedSilent = true) : e.judge count = .silent := by
  rw [judge, if_neg (not_le.2 short), if_pos silence]

/-- Settles O9: the entry is `holdPoints` after the station's own record, and the stale change one update of the point. -/
theorem silenceHoldsThenMakesStale : Obligations.SilenceHoldsThenMakesStale := by
  refine ⟨fun s i held enabled whole due short silence before => ?entry, fun s p t held isHeld start due => ?stale⟩
  case entry =>
    obtain ⟨points, -, stations, -⟩ := whole
    have silent := StationEntry.judge_silent short silence
    have record := endWindow_station (s := s.quiet) (i := i) (stations.symm ▸ i.isLt)
    obtain ⟨f, entered⟩ := endWindow_of_entered (s := s.quiet) silent before
    refine ⟨s.quiet.endWindow i, exec_windowEnd held enabled due, (congrArg StationRec.freshness record).trans silent,
      (congrArg StationRec.rejoinLeft record).trans (if_pos ⟨silent, before⟩), fun p inTable => ?_, ?_⟩
    · rw [entered]
      exact holdPoints_point (s := s.quiet.updStation i f) (points.symm ▸ inTable) i
    · rw [entered]
      exact ⟨rfl, rfl, rfl, rfl, rfl⟩
  case stale =>
    have now : (s.quiet.point p).quality = .held
        ∧ (s.quiet.point p).holdStart.map (· + BitVec.ofNat 32 (s.quiet.active.point p).holdLimit) = some s.quiet.timeBase := by
      refine ⟨isHeld, ?_⟩
      show (s.point p).holdStart.map _ = _
      rw [start]
      exact congrArg some due
    have changed : PointRec.toStale (s.active.point p) = _ := funext (PointRec.toStale_eq (s.active.point p))
    refine (running_next held _).trans ?_
    rw [if_pos now]
    show Host.Outcome.next (s.quiet.updPoint p (PointRec.toStale (s.active.point p))) = _
    rw [changed]
    rfl

end Sys2Proof.Machine
end

section
/-! The arming evaluation scheme by scheme: Q, suspension, walk-down, arming and disarming, backstop (R8 to R18), and the output lines
(R103, R105). -/

namespace Sys2Proof.Machine

/-! An evaluation by the state of its scheme. -/

section
variable {s : State} {i : Nat}

theorem evaluatedScheme_of_off (off : (s.scheme i).state = .off) : s.evaluatedScheme i = (s.scheme i, false, false) := by
  simp only [State.evaluatedScheme, off]

theorem evaluatedScheme_of_gated (gated : (s.scheme i).state = .gated) : s.evaluatedScheme i = ({ s.scheme i with
    q := (s.formQ (s.active.scheme i)).getD (s.scheme i).q, stress := 0, backstop := 0 }, false, false) := by
  simp only [State.evaluatedScheme, State.evaluateStages, gated]

/-- A scheme that is neither OFF nor GATED goes through the stages and the backstop. -/
theorem evaluatedScheme_of_active (not_off : (s.scheme i).state ≠ .off) (not_gated : (s.scheme i).state ≠ .gated) :
    s.evaluatedScheme i =
      let staged := s.evaluateStages (s.active.scheme i) (s.formQ (s.active.scheme i)) (s.scheme i)
      let final := staged.1.runBackstop (s.active.scheme i) (s.formQ (s.active.scheme i))
      (final.1, staged.2, final.2) := by
  cases state : (s.scheme i).state
  case off => exact absurd state not_off
  case gated => exact absurd state not_gated
  all_goals simp only [State.evaluatedScheme, state]

/-- The states the arming stages examine (R11, R14 to R17). -/
def SchemeState.inArming (x : SchemeState) : Prop := x ∈ [SchemeState.disarmed, .arming, .armed]

theorem SchemeState.inArming_iff (x : SchemeState) : x.inArming ↔ x = .disarmed ∨ x = .arming ∨ x = .armed := by
  simp only [inArming, List.mem_cons, List.not_mem_nil, or_false]

/-- What suspends a scheme (R8). -/
def State.suspends (s : State) (e : SchemeEntry) : Prop := s.formQ e = none ∨ s.blocked e = true

variable {e : SchemeEntry} {formed : Option Int} {r : SchemeRec}

theorem evaluateStages_of_working (state : r.state = .operating ∨ r.state = .operated) :
    s.evaluateStages e formed r = ({ r with q := formed.getD r.q, stress := 0 }, false) := by
  unfold State.evaluateStages
  dsimp only
  rcases state with state | state <;> rw [state]

/-- A cause suspends a scheme in arming, and keeps a SUSPENDED one (R8, R9). -/
theorem evaluateStages_of_suspends (state : r.state.inArming ∨ r.state = .suspended) (cause : s.suspends e) :
    s.evaluateStages e (s.formQ e) r = (({ r with q := (s.formQ e).getD r.q } : SchemeRec).calm .suspended, false) := by
  rw [SchemeState.inArming_iff] at state
  unfold State.evaluateStages
  dsimp only
  rcases cause with unformed | blocked
  · rw [unformed]
    rcases state with (state | state | state) | state <;> simp only [state, Option.isSome_none, Bool.false_and, Bool.false_eq_true,
      if_false]
  · rcases state with (state | state | state) | state <;> cases s.formQ e <;>
      simp only [state, blocked, if_true, Bool.not_true, Bool.and_false, Bool.false_eq_true, if_false]

theorem not_suspends (none_cause : ¬ s.suspends e) : ∃ q, s.formQ e = some q ∧ s.blocked e = false := by
  rw [State.suspends, not_or, Bool.not_eq_true, ← ne_eq, Option.ne_none_iff_exists'] at none_cause
  obtain ⟨⟨q, formed⟩, blocked⟩ := none_cause
  exact ⟨q, formed, blocked⟩

/-- Without a cause a SUSPENDED scheme goes to DISARMED (R9). -/
theorem evaluateStages_of_resumed (state : r.state = .suspended) {q : Int} (formed : s.formQ e = some q) (clear : s.blocked e = false) :
    s.evaluateStages e (s.formQ e) r = (({ r with q := q } : SchemeRec).calm .disarmed, false) := by
  unfold State.evaluateStages
  dsimp only
  rw [state, formed, clear]
  rfl

/-- Without a cause a scheme in arming goes through the arming stages. -/
theorem evaluateStages_of_arming (state : r.state.inArming) {q : Int} (formed : s.formQ e = some q) (clear : s.blocked e = false) :
    s.evaluateStages e (s.formQ e) r = s.armingStages e q { r with q := q } := by
  rw [SchemeState.inArming_iff] at state
  unfold State.evaluateStages
  dsimp only
  rw [formed, clear]
  rcases state with state | state | state <;> rw [state] <;> rfl

end

/-! Q and suspension. -/

/-- Q is formed exactly while every input is usable (R8, R10). -/
theorem formQ_getD (s : State) (e : SchemeEntry) (q : Int) : (s.formQ e).getD q =
    if ∀ x ∈ e.inputs, (s.point x.point).quality ∈ [Quality.good, .suspect, .held, .forced]
        ∨ ((s.point x.point).quality = .stale ∧ e.lenient = true) then
      roundHalfAway ((e.inputs.map (fun x => x.weight * (s.point x.point).value.number)).sum) 16
    else q := by
  have usable : e.inputs.all (fun x => (s.point x.point).quality.usableInput e.lenient) = true ↔
      ∀ x ∈ e.inputs, (s.point x.point).quality ∈ [Quality.good, .suspect, .held, .forced]
        ∨ ((s.point x.point).quality = .stale ∧ e.lenient = true) := by
    simp only [List.all_eq_true, Quality.usableInput_iff]
  rw [State.formQ, apply_ite (Option.getD · q), if_congr usable rfl rfl]
  rfl

theorem evaluatedScheme_q {s : State} {i : Nat} (not_off : (s.scheme i).state ≠ .off) :
    (s.evaluatedScheme i).1.q = (s.formQ (s.active.scheme i)).getD (s.scheme i).q := by
  by_cases gated : (s.scheme i).state = .gated
  · rw [evaluatedScheme_of_gated gated]
  · rw [evaluatedScheme_of_active not_off gated]
    exact (runBackstop_q _ _ _).trans (evaluateStages_q _ _ _ _)

/-- The backstop changes its count and the hard-trip request alone (R18). -/
theorem runBackstop_eq (e : SchemeEntry) (formed : Option Int) (r : SchemeRec) : ∃ count latched,
    (r.runBackstop e formed).1 = { r with backstop := count, hardTrip := latched } := by
  unfold SchemeRec.runBackstop
  dsimp only
  split
  · exact ⟨_, _, rfl⟩
  · exact ⟨0, r.hardTrip, rfl⟩

theorem persist_inArming {r : SchemeRec} (h : r.state.inArming) (e : SchemeEntry) (q : Int) : (r.persist e q).state.inArming := by
  rw [SchemeState.inArming_iff] at h ⊢
  unfold SchemeRec.persist
  rcases h with h | h | h <;> rw [h] <;> dsimp only <;> split_ifs <;> simp

/-- The record after the arming stages (R11, R14 to R17). -/
theorem armingStages_eq (s : State) (e : SchemeEntry) (q : Int) (r : SchemeRec) :
    let walked := r.walkDown e (s.after e.holdMs) q
    let persisted := walked.1.persist e q
    s.armingStages e q r = ({ persisted with
      selection := if persisted.state = .armed then some (s.select e.shedList (e.requirement q)) else persisted.selection }, walked.2) := by
  dsimp only [State.armingStages]
  split <;> rfl

theorem armingStages_inArming {r : SchemeRec} (h : r.state.inArming) (s : State) (e : SchemeEntry) (q : Int) :
    (s.armingStages e q r).1.state.inArming := by
  rw [armingStages_eq]
  refine persist_inArming ?_ e q
  obtain ⟨walk, stress, timer, walked⟩ := walkDown_keeps e (s.after e.holdMs) q r
  rw [walked]
  exact h

/-- A SUSPENDED record as an evaluation leaves or finds it: the counts 0, no selection record, W and the hold timer as before. -/
theorem evaluated_of_calm {s : State} {i : Nat} {x : SchemeState} {q : Int} (not_off : (s.scheme i).state ≠ .off)
    (not_gated : (s.scheme i).state ≠ .gated)
    (staged : s.evaluateStages (s.active.scheme i) (s.formQ (s.active.scheme i)) (s.scheme i)
      = (({ s.scheme i with q := q } : SchemeRec).calm x, false)) :
    let r := (s.evaluatedScheme i).1
    r.state = x ∧ r.armCount = 0 ∧ r.disarmCount = 0 ∧ r.stress = 0 ∧ r.selection = none ∧ r.walk = (s.scheme i).walk
    ∧ r.holdTimer = (s.scheme i).holdTimer ∧ ((s.scheme i).hardTrip = true → r.hardTrip = true) := by
  rw [evaluatedScheme_of_active not_off not_gated, staged]
  exact runBackstop_keeps _ _ _

/-- Settles O15: the stages by the scheme's state, each followed by the backstop, which changes its count and the request alone. -/
theorem evaluationFormsQAndSuspends : Obligations.EvaluationFormsQAndSuspends := by
  refine ⟨fun s i => ⟨fun off => ?off, fun not_off => ?q, fun gated => ?gated, fun working => ?working⟩, fun s i => ?suspension,
    fun s e => blocked_iff s e⟩
  case off => rw [evaluatedScheme_of_off off]
  case q => rw [evaluatedScheme_q not_off, formQ_getD]
  case gated => rw [evaluatedScheme_of_gated gated]
  case working =>
    have not_off : (s.scheme i).state ≠ .off := by rcases working with h | h <;> rw [h] <;> exact SchemeState.noConfusion
    have not_gated : (s.scheme i).state ≠ .gated := by rcases working with h | h <;> rw [h] <;> exact SchemeState.noConfusion
    rw [evaluatedScheme_of_active not_off not_gated, evaluateStages_of_working working]
    obtain ⟨count, latched, final⟩ := runBackstop_eq (s.active.scheme i) (s.formQ (s.active.scheme i)) { s.scheme i with
      q := (s.formQ (s.active.scheme i)).getD (s.scheme i).q, stress := 0 }
    dsimp only
    rw [final]
  case suspension =>
    have visited : (s.scheme i).state ∈ [SchemeState.disarmed, .arming, .armed, .suspended] →
        ((s.scheme i).state.inArming ∨ (s.scheme i).state = .suspended) ∧ (s.scheme i).state ≠ .off ∧ (s.scheme i).state ≠ .gated := by
      rw [SchemeState.inArming_iff]
      cases (s.scheme i).state <;> simp
    have suspended := fun cause (mem : (s.scheme i).state ∈ [SchemeState.disarmed, .arming, .armed, .suspended]) =>
      have ⟨kind, not_off, not_gated⟩ := visited mem
      evaluated_of_calm not_off not_gated (evaluateStages_of_suspends (s := s) (e := s.active.scheme i) kind cause)
    have resumed := fun (state : (s.scheme i).state = .suspended) (none_cause : ¬ s.suspends (s.active.scheme i)) =>
      have ⟨_, not_off, not_gated⟩ := visited (by rw [state]; decide)
      have ⟨_, formed, clear⟩ := not_suspends none_cause
      evaluated_of_calm not_off not_gated (evaluateStages_of_resumed state formed clear)
    refine ⟨fun mem cause => (suspended cause mem).1, fun state none_cause => (resumed state none_cause).1, fun either mem => ?_⟩
    by_cases cause : s.suspends (s.active.scheme i)
    · exact (suspended cause mem).2
    · obtain ⟨arming | state, not_off, not_gated⟩ := visited mem
      · obtain ⟨q, formed, clear⟩ := not_suspends cause
        have still : (s.evaluatedScheme i).1.state.inArming := by
          rw [evaluatedScheme_of_active not_off not_gated, evaluateStages_of_arming arming formed clear]
          show (SchemeRec.runBackstop _ _ _).1.state.inArming
          rw [(runBackstop_keeps _ _ _).1]
          exact armingStages_inArming (r := { s.scheme i with q := q }) arming s _ q
        rw [SchemeState.inArming_iff] at arming still
        exfalso
        rcases either with h | h
        · rcases still with k | k | k <;> cases h.symm.trans k
        · rcases arming with k | k | k <;> cases h.symm.trans k
      · exact (resumed state cause).2

end Sys2Proof.Machine
end

section
/-! The arming stages (R11, R14 to R17) and the backstop (R18) of an evaluation, the output lines (R103, R105), the evaluation as a
whole with the express images and chains (R7, R43, R44, R66, R68), and the arbiter's choice (R59). -/

namespace Sys2Proof.Machine

/-! Persistence by the scheme's state (R15, R16). -/

section
variable {e : SchemeEntry} {q : Int} {r : SchemeRec}

theorem persist_of_disarmed (state : r.state = .disarmed) : r.persist e q =
    if r.armLevel e ≤ q then
      if e.armNeeded ≤ 1 then { r with state := .armed, armCount := 0, disarmCount := 0 }
      else { r with state := .arming, armCount := 1 }
    else { r with armCount := 0 } := by
  rw [SchemeRec.persist, state]

theorem persist_of_arming (state : r.state = .arming) : r.persist e q =
    if r.armLevel e ≤ q then
      if e.armNeeded ≤ r.armCount + 1 then { r with state := .armed, armCount := 0, disarmCount := 0 }
      else { r with armCount := r.armCount + 1 }
    else { r with state := .disarmed, armCount := 0 } := by
  rw [SchemeRec.persist, state]

theorem persist_of_armed (state : r.state = .armed) : r.persist e q =
    if r.disarmLevel e ≤ q then { r with disarmCount := 0 }
    else if e.disarmNeeded ≤ r.disarmCount + 1 then
      { r with state := .disarmed, armCount := 0, disarmCount := 0, selection := none }
    else { r with disarmCount := r.disarmCount + 1 } := by
  rw [SchemeRec.persist, state]

theorem persist_keeps (e : SchemeEntry) (q : Int) (r : SchemeRec) : (r.persist e q).walk = r.walk
    ∧ (r.persist e q).holdTimer = r.holdTimer ∧ (r.persist e q).stress = r.stress := by
  unfold SchemeRec.persist
  repeat' split
  all_goals exact ⟨rfl, rfl, rfl⟩

end

/-- What an evaluation leaves of a scheme in arming: walk-down, then persistence, then the selection of an ARMED one (R11 to R17). -/
theorem evaluated_of_arming {s : State} {i : Nat} {q : Int} (state : (s.scheme i).state.inArming)
    (formed : s.formQ (s.active.scheme i) = some q) (clear : s.blocked (s.active.scheme i) = false) :
    let e := s.active.scheme i
    let r := (s.evaluatedScheme i).1
    let walked := ({ s.scheme i with q := q } : SchemeRec).walkDown e (s.after e.holdMs) q
    let persisted := walked.1.persist e q
    (s.evaluatedScheme i).2.1 = walked.2 ∧ r.walk = walked.1.walk ∧ r.holdTimer = walked.1.holdTimer ∧ r.stress = walked.1.stress
    ∧ r.state = persisted.state ∧ r.armCount = persisted.armCount ∧ r.disarmCount = persisted.disarmCount
    ∧ r.selection = if persisted.state = .armed then some (s.select e.shedList (e.requirement q)) else persisted.selection := by
  have ⟨not_off, not_gated⟩ : (s.scheme i).state ≠ .off ∧ (s.scheme i).state ≠ .gated := by
    rw [SchemeState.inArming_iff] at state
    rcases state with state | state | state <;> rw [state] <;> exact ⟨SchemeState.noConfusion, SchemeState.noConfusion⟩
  dsimp only
  rw [evaluatedScheme_of_active not_off not_gated, evaluateStages_of_arming state formed clear]
  dsimp only
  obtain ⟨keptState, armCount, disarmCount, stress, selection, walk, timer, -⟩ := runBackstop_keeps (s.active.scheme i)
    (s.formQ (s.active.scheme i)) (s.armingStages (s.active.scheme i) q { s.scheme i with q := q }).1
  rw [keptState, armCount, disarmCount, stress, selection, walk, timer, armingStages_eq]
  obtain ⟨walk', timer', stress'⟩ := persist_keeps (s.active.scheme i) q
    (({ s.scheme i with q := q } : SchemeRec).walkDown (s.active.scheme i) (s.after (s.active.scheme i).holdMs) q).1
  exact ⟨rfl, walk', timer', stress', rfl, rfl, rfl, rfl⟩

/-- Settles O16: the fields after an evaluation are those of walk-down and of persistence, whose branches are the clauses. -/
theorem evaluationArmsAndDisarms : Obligations.EvaluationArmsAndDisarms := by
  intro s i q e old r level formed clear armNeeded disarmNeeded state stepped
  obtain ⟨walked, walk, timer, stress, newState, armCount, disarmCount, selection⟩ := evaluated_of_arming (s := s) state formed clear
  obtain ⟨steps_iff, step, stay⟩ := walkDown_spec e (s.after e.holdMs) q { old with q := q }
  obtain ⟨w, st, ht, kept⟩ := walkDown_keeps e (s.after e.holdMs) q { old with q := q }
  have hold : s.after e.holdMs = s.timeBase + BitVec.ofNat 32 (60000 * (e.holdCode + 1)) := by
    rw [Nat.mul_comm]
    rfl
  refine ⟨fun steps => ?step, fun no_step => ?stay, walked ▸ steps_iff, ?rest⟩
  case step =>
    rw [step steps] at walk timer stress
    exact ⟨walk, timer.trans (congrArg some hold), stress⟩
  case stay =>
    rw [stay no_step] at walk timer stress
    exact ⟨walk, timer, stress⟩
  case rest =>
    have stale : e.armLevel - w = level := by
      rw [show w = r.walk by rw [walk, kept]]
    rw [kept] at newState armCount disarmCount selection
    generalize before : ({ old with q := q, walk := w, stress := st, holdTimer := ht } : SchemeRec) = p
      at newState armCount disarmCount selection
    have same : p.state = old.state ∧ p.armCount = old.armCount ∧ p.disarmCount = old.disarmCount ∧ p.armLevel e = level := by
      subst before
      exact ⟨rfl, rfl, rfl, stale⟩
    obtain ⟨same_state, same_arm, same_disarm, same_level⟩ := same
    have outcome : ∀ {result}, p.persist e q = result → r.state = result.state ∧ r.armCount = result.armCount
        ∧ r.disarmCount = result.disarmCount
        ∧ r.selection = if result.state = .armed then some (s.select e.shedList (e.requirement q)) else result.selection := by
      rintro _ rfl
      exact ⟨newState, armCount, disarmCount, selection⟩
    have disarmed := fun h => outcome (persist_of_disarmed (e := e) (q := q) (same_state.trans h))
    have arming := fun h => outcome (persist_of_arming (e := e) (q := q) (same_state.trans h))
    have armed := fun h => outcome (persist_of_armed (e := e) (q := q) (same_state.trans h))
    rw [SchemeRec.disarmLevel] at armed
    rw [same_level, same_arm] at arming
    rw [same_level] at disarmed
    rw [same_level, same_disarm] at armed
    refine ⟨fun h below => ?d1, fun h reached one => ?d2, fun h reached more => ?d3, fun h below => ?a1, fun h reached few => ?a2,
      fun h reached enough => ?a3, fun h above => ?r1, fun h under few => ?r2, fun h under enough => ?r3, fun isArmed => ?selected⟩
    case d1 =>
      obtain ⟨st, ac, -, -⟩ := disarmed h
      rw [if_neg (not_le.2 below)] at st ac
      exact ⟨st.trans (same_state.trans h), ac⟩
    case d2 =>
      obtain ⟨st, ac, dc, -⟩ := disarmed h
      rw [if_pos reached, if_pos one.le] at st ac dc
      exact ⟨st, ac, dc⟩
    case d3 =>
      obtain ⟨st, ac, -, -⟩ := disarmed h
      rw [if_pos reached, if_neg (not_le.2 more)] at st ac
      exact ⟨st, ac⟩
    case a1 =>
      obtain ⟨st, ac, -, -⟩ := arming h
      rw [if_neg (not_le.2 below)] at st ac
      exact ⟨st, ac⟩
    case a2 =>
      obtain ⟨st, ac, -, -⟩ := arming h
      rw [if_pos reached, if_neg (not_le.2 few)] at st ac
      exact ⟨st.trans (same_state.trans h), ac⟩
    case a3 =>
      obtain ⟨st, ac, dc, -⟩ := arming h
      rw [if_pos reached, if_pos enough] at st ac dc
      exact ⟨st, ac, dc⟩
    case r1 =>
      obtain ⟨st, -, dc, -⟩ := armed h
      rw [if_pos above] at st dc
      exact ⟨st.trans (same_state.trans h), dc⟩
    case r2 =>
      obtain ⟨st, -, dc, -⟩ := armed h
      rw [if_neg (not_le.2 under), if_neg (not_le.2 few)] at st dc
      exact ⟨st.trans (same_state.trans h), dc⟩
    case r3 =>
      obtain ⟨st, ac, dc, sel⟩ := armed h
      rw [if_neg (not_le.2 under), if_pos enough] at st ac dc sel
      exact ⟨st, ac, dc, sel⟩
    case selected => exact selection.trans (if_pos (newState.symm.trans isArmed))

/-! The backstop and the output lines. -/

theorem walkDown_backstop (e : SchemeEntry) (expiry : Time) (q : Int) (r : SchemeRec) :
    (r.walkDown e expiry q).1.backstop = r.backstop ∧ (r.walkDown e expiry q).1.hardTrip = r.hardTrip := by
  obtain ⟨walk, stress, timer, kept⟩ := walkDown_keeps e expiry q r
  rw [kept]
  exact ⟨rfl, rfl⟩

theorem persist_backstop (e : SchemeEntry) (q : Int) (r : SchemeRec) :
    (r.persist e q).backstop = r.backstop ∧ (r.persist e q).hardTrip = r.hardTrip := by
  unfold SchemeRec.persist
  repeat' split
  all_goals exact ⟨rfl, rfl⟩

/-- The stages before the backstop leave its count and the hard-trip request alone (R18). -/
theorem evaluateStages_backstop (s : State) (e : SchemeEntry) (formed : Option Int) (r : SchemeRec) :
    (s.evaluateStages e formed r).1.backstop = r.backstop ∧ (s.evaluateStages e formed r).1.hardTrip = r.hardTrip := by
  have armed : ∀ q, (s.armingStages e q { r with q := formed.getD r.q }).1.backstop = r.backstop
      ∧ (s.armingStages e q { r with q := formed.getD r.q }).1.hardTrip = r.hardTrip := fun q => by
    rw [armingStages_eq]
    obtain ⟨walked, walked'⟩ := walkDown_backstop e (s.after e.holdMs) q { r with q := formed.getD r.q }
    obtain ⟨persisted, persisted'⟩ := persist_backstop e q (SchemeRec.walkDown e (s.after e.holdMs) q { r with q := formed.getD r.q }).1
    exact ⟨persisted.trans walked, persisted'.trans walked'⟩
  unfold State.evaluateStages
  dsimp only
  repeat' split
  all_goals first | exact ⟨rfl, rfl⟩ | exact armed _

/-- The backstop stage (R18). -/
theorem runBackstop_spec (e : SchemeEntry) (formed : Option Int) (r : SchemeRec) :
    let reached := e.backstopEnable = true ∧ ∃ q, formed = some q ∧ e.backstopLevel ≤ q
    let out := r.runBackstop e formed
    (reached → out.1.backstop = min 2 (r.backstop + 1)) ∧ (¬ reached → out.1.backstop = 0)
    ∧ (out.2 = true ↔ reached ∧ r.backstop = 1 ∧ e.hardTripEnable = true)
    ∧ (out.1.hardTrip = true ↔ r.hardTrip = true ∨ out.2 = true) := by
  have condition : (e.backstopEnable && formed.any (fun q => decide (e.backstopLevel ≤ q))) = true ↔
      e.backstopEnable = true ∧ ∃ q, formed = some q ∧ e.backstopLevel ≤ q := by
    simp only [Bool.and_eq_true, Option.any_eq_true, decide_eq_true_eq]
  intro reached out
  by_cases h : e.backstopEnable = true ∧ ∃ q, formed = some q ∧ e.backstopLevel ≤ q
  · have counts : out = ({ r with
        backstop := min 2 (r.backstop + 1)
        hardTrip := r.hardTrip || (decide (r.backstop = 1) && e.hardTripEnable) }, decide (r.backstop = 1) && e.hardTripEnable) :=
      if_pos (condition.2 h)
    rw [counts]
    refine ⟨fun _ => rfl, fun none => absurd h none, ?_, ?_⟩
    · simp only [Bool.and_eq_true, decide_eq_true_eq]
      exact (and_iff_right h).symm
    · simp only [Bool.or_eq_true]
  · have clears : out = ({ r with backstop := 0 }, false) := if_neg (fun k => h (condition.1 k))
    rw [clears]
    exact ⟨fun k => absurd k h, fun _ => rfl, iff_of_false Bool.false_ne_true (fun k => h k.1), by simp⟩

/-- A property of some record of the scheme table, by index. -/
theorem any_schemes_iff {s : State} (whole : s.arming.schemes.length = 16) (p : SchemeRec → Bool) :
    s.arming.schemes.any p = true ↔ ∃ i < 16, p (s.scheme i) = true := by
  rw [List.any_eq_true]
  constructor
  · rintro ⟨r, mem, holds⟩
    obtain ⟨i, inTable, rfl⟩ := List.mem_iff_getElem.1 mem
    refine ⟨i, whole ▸ inTable, ?_⟩
    rwa [State.scheme, List.getD_eq_getElem _ _ inTable]
  · rintro ⟨i, inTable, holds⟩
    rw [State.scheme, List.getD_eq_getElem _ _ (whole.symm ▸ inTable)] at holds
    exact ⟨_, List.getElem_mem _, holds⟩

/-- Settles O17: the backstop stage runs on the old count and request; the lines are read off the scheme table. -/
theorem backstopLatchesAtTwo : Obligations.BackstopLatchesAtTwo := by
  refine ⟨fun s i => ?stage, fun s ⟨_, whole, _, _⟩ => ⟨?hardTrip, ?alarm⟩⟩
  case stage =>
    intro e old out reached not_off not_gated
    obtain ⟨count, latch⟩ := evaluateStages_backstop s e (s.formQ e) old
    have spec := runBackstop_spec e (s.formQ e) (s.evaluateStages e (s.formQ e) old).1
    dsimp only at spec
    rw [count, latch] at spec
    rw [show out = _ from evaluatedScheme_of_active not_off not_gated]
    exact spec
  case hardTrip =>
    rw [State.hardTripLine, Bool.and_eq_true, Bool.and_eq_true, any_schemes_iff whole, and_assoc, State.blank, Bool.not_eq_true',
      beq_eq_false_iff_ne]
  case alarm =>
    rw [State.operatedAlarm, any_schemes_iff whole]
    simp only [beq_iff_eq]

/-! The evaluation as a whole. -/

theorem serviceNodes_eq (b : Bank) (taken : List SchemeCopy) (direct : Option Nat) : b.serviceNodes taken direct
    = taken.flatMap (fun t => t.record.items.flatMap (fun item =>
        (b.chain (b.headAction t.scheme item.position)).map (fun a => ⟨a, .scheme t.scheme item.position⟩)))
      ++ direct.toList.flatMap (fun h => (b.chain h).map (fun a => ⟨a, .direct⟩)) := by
  cases direct with
  | none => rfl
  | some h => simp [Bank.serviceNodes, Bank.walk]

theorem headAction_of_held {b : Bank} {i p l : Nat} {c : CandidateEntry} (list : (b.scheme i).shedList = some l)
    (held : b.candidate l p = some c) : b.headAction i p = c.head := by
  rw [Bank.headAction, list]
  dsimp only
  rw [held]
  rfl

/-- Settles O14: the schemes by `evaluate_schemes_spec`, the images and chains by their own definitions. -/
theorem evaluationTreatsEachScheme : Obligations.EvaluationTreatsEachScheme := by
  refine ⟨fun s held whole due => ?event, fun s => ⟨rfl, fun c => ⟨fun disabled => ?disabled, fun enabled => ?image⟩⟩,
    fun b => ⟨serviceNodes_eq b, fun i p l c => headAction_of_held, fun h => ?chain⟩⟩
  case event =>
    obtain ⟨points, schemes, stations, conts⟩ := whole
    obtain ⟨eq, length, each, walked, backstop⟩ := evaluate_schemes_spec s.quiet schemes 16 (le_refl _)
    have ran : exec .armingEvaluation s = .next s.quiet.evaluate :=
      (running_next held _).trans (by rw [if_pos (show s.quiet.arming.nextEvaluation = some s.quiet.timeBase from due)])
    rw [State.evaluate] at ran
    generalize (List.range 16).foldl State.evaluateScheme s.quiet = u at eq length each walked backstop ran
    obtain ⟨_, _, _, rfl⟩ : ∃ records marginWalked latched, u = { s.quiet with
      arming := { s.arming with schemes := records }
      notices := { s.notices with marginWalked := marginWalked, backstop := latched } } := ⟨_, _, _, eq⟩
    exact ⟨_, ran, fun i inTable => (each i inTable).trans (if_pos inTable), walked, backstop, ⟨points, length, stations, conts⟩, rfl⟩
  case disabled =>
    rw [State.buildImage]
    exact if_neg (by rw [disabled]; exact Bool.false_ne_true)
  case image =>
    refine ⟨s.armedOf (s.active.cont c).schemes, armedOf_pairwise s _ (schemes_pairwise _), fun i record => ?_, if_pos enabled⟩
    rw [mem_armedOf, mem_schemes, and_assoc]
  case chain =>
    obtain ⟨length, head, next⟩ := chainFrom_spec b 8 h
    exact ⟨length, head (by decide), fun k a at_k below => next k a at_k (by omega)⟩

/-! The arbiter's choice. -/

/-- The place of a contingency within priority 3: express A, then express B, then the others (R59). -/
def State.expressClass (s : State) (c : Nat) : Nat := if s.isExpressA c then 2 else if s.isExpressB c then 1 else 0

theorem rank_eq (s : State) (c : Nat) : s.rank c
    = 3 * (s.active.cont c).priority + if (s.active.cont c).priority = 3 then s.expressClass c else 0 := rfl

theorem expressClass_le (s : State) (c : Nat) : s.expressClass c ≤ 2 := by
  unfold State.expressClass
  split_ifs <;> decide

/-- A lower rank, or an equal one with a higher index, in priorities and express classes. -/
theorem rank_order {s : State} {c c' : Nat} (order : s.rank c' < s.rank c ∨ (s.rank c' = s.rank c ∧ c < c')) :
    (s.active.cont c').priority < (s.active.cont c).priority ∨ ((s.active.cont c').priority = (s.active.cont c).priority
      ∧ (((s.active.cont c).priority = 3 ∧ s.expressClass c' < s.expressClass c)
        ∨ (c < c' ∧ ((s.active.cont c).priority = 3 → s.expressClass c' = s.expressClass c)))) := by
  have bound := expressClass_le s c
  have bound' := expressClass_le s c'
  rw [rank_eq, rank_eq] at order
  split_ifs at order <;> omega

section
variable {s : State} {c c' : Nat} (oneA : s.isExpressA c = true → s.isExpressA c' = false)
  (oneB : s.isExpressB c = true → s.isExpressB c' = false)
include oneA oneB

/-- Of two contingencies a designation names one at most, so a lower class is a missing designation. -/
theorem expressClass_lt (lower : s.expressClass c' < s.expressClass c) : (s.isExpressA c = true ∧ s.isExpressA c' = false)
    ∨ (s.isExpressA c' = false ∧ s.isExpressB c = true ∧ s.isExpressB c' = false) := by
  unfold State.expressClass at lower
  cases a : s.isExpressA c
  · cases b : s.isExpressB c <;> cases a' : s.isExpressA c' <;> simp_all
  · exact .inl ⟨rfl, oneA a⟩

/-- Equal classes of two contingencies are the class of the others. -/
theorem expressClass_eq (equal : s.expressClass c' = s.expressClass c) : s.isExpressA c' = false ∧ s.isExpressB c' = false := by
  unfold State.expressClass at equal
  cases a' : s.isExpressA c' <;> cases b' : s.isExpressB c' <;> cases a : s.isExpressA c <;> cases b : s.isExpressB c <;> simp_all

end

/-- Settles O19: the order of `chosen_spec` is by rank, which is the priority first and the express class within priority 3. -/
theorem arbiterChoosesByPriority : Obligations.ArbiterChoosesByPriority := by
  intro s
  have isA : ∀ c, s.isExpressA c = true ↔ s.active.params.expressA = some c ∧ (s.active.cont c).enable = true := fun c => by
    rw [State.isExpressA, Bool.and_eq_true, beq_iff_eq]
  have isB : ∀ c, s.isExpressB c = true ↔ s.active.params.expressB = some c ∧ (s.active.cont c).enable = true := fun c => by
    rw [State.isExpressB, Bool.and_eq_true, beq_iff_eq]
  obtain ⟨none_iff, best⟩ := chosen_spec s
  refine ⟨fun c => ⟨isA c, isB c⟩, none_iff.trans ?_, fun c is => ?_⟩
  · simp only [List.eq_nil_iff_forall_not_mem, mem_pendingSet, not_and]
  · obtain ⟨mem, first⟩ := best c is
    rw [mem_pendingSet] at mem
    refine ⟨mem.1, mem.2, fun c' inTable other pending => ?_⟩
    have order := first c' ((mem_pendingSet s c').2 ⟨inTable, pending⟩) other
    have oneA : s.isExpressA c = true → s.isExpressA c' = false := fun h => by
      rw [Bool.eq_false_iff, ne_eq, isA]
      exact fun k => other (Option.some.inj (k.1.symm.trans ((isA c).1 h).1))
    have oneB : s.isExpressB c = true → s.isExpressB c' = false := fun h => by
      rw [Bool.eq_false_iff, ne_eq, isB]
      exact fun k => other (Option.some.inj (k.1.symm.trans ((isB c).1 h).1))
    refine (rank_order order).imp_right (And.imp_right ?_)
    rintro (⟨three, lower⟩ | ⟨before, equal⟩)
    · exact (expressClass_lt oneA oneB lower).imp (And.intro three) (fun between => .inl ⟨three, between⟩)
    · exact .inr (.inr ⟨before, fun three => expressClass_eq oneA oneB (equal three)⟩)

end Sys2Proof.Machine
end

section
/-! A contingency's condition and its evaluation (R51 to R57), the completed confirmation (R55, R65), the take (R59, R70, R71) and the
express serve (R62, R63). -/

namespace Sys2Proof.Machine

/-! The combined condition of the trigger points (R51). -/

section
variable {s : State} {e : ContEntry}

theorem condition_of_any (any : e.all = false) : s.condition e =
    if (e.triggers.filter (fun p => (s.point p).quality.fresh)).isEmpty then none
    else some ((e.triggers.filter (fun p => (s.point p).quality.fresh)).any (fun p => (s.point p).value == .binary .opened)) := by
  rw [State.condition, any]
  rfl

theorem condition_of_all (all : e.all = true) : s.condition e =
    if (e.triggers.filter (fun p => (s.point p).quality.fresh)).length = e.triggers.length then
      some (e.triggers.all (fun p => (s.point p).value == .binary .opened))
    else none := by
  rw [State.condition, all]
  rfl

end

/-! One evaluation of a contingency, by its state (R53, R54, R56, R57). -/

namespace ContRec
variable {e : ContEntry} {r : ContRec}

theorem due_some (e : ContEntry) (b : Bool) (r : ContRec) : r.due e (some b)
    = ({ (r.evaluated e b).1 with last := .ofBool b, degraded := false }, (r.evaluated e b).2) := rfl

theorem evaluated_true_of_idle (state : r.state = .idle) (rises : e.edge = false ∨ r.last = .false) :
    r.evaluated e true = ({ r with confirm := 0 } : ContRec).advance e := by
  rw [evaluated, state]
  refine if_pos ?_
  rcases rises with level | low <;> simp [*]

theorem evaluated_true_of_idle_edge (state : r.state = .idle) (edge : e.edge = true) (high : r.last ≠ .false) :
    r.evaluated e true = (r, false) := by
  rw [evaluated, state]
  refine if_neg ?_
  simp [edge, high]

theorem evaluated_false_of_idle (state : r.state = .idle) : r.evaluated e false = (r, false) := by
  rw [evaluated, state]
  rfl

theorem evaluated_of_confirming (state : r.state = .confirming) (b : Bool) :
    r.evaluated e b = if b then r.advance e else ({ r with state := .idle, confirm := 0 }, false) := by
  rw [evaluated, state]

theorem evaluated_of_waiting (state : r.state = .pending ∨ r.state = .serving) (b : Bool) : r.evaluated e b = (r, false) := by
  rcases state with state | state <;> rw [evaluated, state]

theorem evaluated_of_served (state : r.state = .served) (b : Bool) : r.evaluated e b =
    if b then ({ r with rearm := 0 }, false)
    else if e.rearmCount ≤ r.rearm + 1 then ({ r with state := .idle, confirm := 0, rearm := 0 }, false)
    else ({ r with rearm := r.rearm + 1 }, false) := by
  rw [evaluated, state]

theorem advance_of_enough (enough : e.confirmCount ≤ r.confirm + 1) :
    r.advance e = ({ r with state := .confirming, confirm := 0 }, true) := if_pos enough

theorem advance_of_few (few : r.confirm + 1 < e.confirmCount) :
    r.advance e = ({ r with state := .confirming, confirm := r.confirm + 1 }, false) := if_neg (not_le.2 few)

end ContRec

open ContRec in
/-- Settles O18: the condition over the fresh trigger points, and an evaluation's equation in each state. -/
theorem contingencyEvaluation : Obligations.ContingencyEvaluation := by
  refine ⟨fun s e => ?condition, fun e r confirmCount rearmCount => ?evaluation⟩
  case condition =>
    have fresh_iff : ∀ p, (s.point p).quality.fresh = true ↔ (s.point p).quality ∈ [Quality.good, .suspect, .forced] :=
      fun p => Quality.fresh_iff _
    simp only [← fresh_iff]
    refine ⟨fun any none_fresh => ?_, fun any p mem fresh => ?_, fun all stale => ?_, fun all fresh => ?_⟩
    · rw [condition_of_any any, List.filter_eq_nil_iff.2 none_fresh]
      rfl
    · have some_fresh : p ∈ e.triggers.filter (fun p => (s.point p).quality.fresh) := List.mem_filter.2 ⟨mem, fresh⟩
      rw [condition_of_any any, if_neg (by simpa using List.ne_nil_of_mem some_fresh)]
      refine ⟨_, rfl, ?_⟩
      simp only [List.any_eq_true, List.mem_filter, beq_iff_eq, and_assoc]
    · obtain ⟨p, mem, not_fresh⟩ := stale
      rw [condition_of_all all, if_neg]
      exact fun all_fresh => not_fresh (List.length_filter_eq_length_iff.1 all_fresh p mem)
    · rw [condition_of_all all, if_pos (List.length_filter_eq_length_iff.2 fresh)]
      refine ⟨_, rfl, ?_⟩
      simp only [List.all_eq_true, beq_iff_eq]
  case evaluation =>
    simp only [due_some]
    refine ⟨rfl, fun b => ⟨trivial, rfl⟩, fun idle edge high => ?edge, fun idle rises more => ?begins, fun idle rises one => ?completes,
      fun idle => ?low, fun confirming few => ?counts, fun confirming enough => ?confirmed, fun confirming => ?falls,
      fun waiting b => ?waits, fun served => ?holds, fun served few => ?rearming, fun served enough => ?rearmed⟩
    case edge =>
      rw [evaluated_true_of_idle_edge idle edge high]
      exact ⟨idle, rfl⟩
    case begins =>
      rw [evaluated_true_of_idle idle rises, advance_of_few (by simpa using more)]
      exact ⟨rfl, rfl, rfl⟩
    case completes =>
      rw [evaluated_true_of_idle idle rises, advance_of_enough (by simp [one])]
      exact ⟨rfl, rfl⟩
    case low =>
      rw [evaluated_false_of_idle idle]
      exact ⟨idle, rfl⟩
    case counts =>
      rw [evaluated_of_confirming confirming, if_pos rfl, advance_of_few few]
      exact ⟨rfl, rfl, rfl⟩
    case confirmed =>
      rw [evaluated_of_confirming confirming, if_pos rfl, advance_of_enough enough]
      exact ⟨rfl, rfl⟩
    case falls =>
      rw [evaluated_of_confirming confirming]
      exact ⟨rfl, rfl, rfl⟩
    case waits =>
      rw [evaluated_of_waiting waiting]
      rfl
    case holds =>
      rw [evaluated_of_served served, if_pos rfl]
      exact ⟨served, rfl⟩
    case rearming =>
      rw [evaluated_of_served served, if_neg Bool.false_ne_true, if_neg (not_le.2 few)]
      exact ⟨served, rfl⟩
    case rearmed =>
      rw [evaluated_of_served served, if_neg Bool.false_ne_true, if_pos enough]
      exact ⟨rfl, rfl, rfl⟩

/-! A completed confirmation. -/

section
variable {s : State} {c : Nat}

theorem servesExpress_of_image (opened : s.arming.gateOpen = true) {img : Image} (image : s.expressImage c = some img) :
    s.servesExpress c = (img.status == .valid) := by
  rw [State.servesExpress, opened, image]
  rfl

/-- A confirmation that is neither taken with the gate closed nor left to an express serve joins the pending set. -/
theorem completed_joins (inTable : c < s.monitor.conts.length) (opened : s.arming.gateOpen = true)
    (ordinary : s.servesExpress c = false) : ((s.completed c).cont c).state = .pending
    ∧ (s.completed c).notices = { s.notices with expressFallback := s.notices.expressFallback || s.oversized c } := by
  rw [completed_eq, opened, ordinary]
  refine ⟨?_, rfl⟩
  exact congrArg ContRec.state (getD_modify_self s.monitor.conts c inTable _ _)

end

/-- Settles O21: the update by `evaluateConts_spec`, the completed confirmation by the express image's status. -/
theorem completedConfirmation : Obligations.CompletedConfirmation := by
  refine ⟨fun s updated ⟨_, _, _, conts⟩ => evaluateConts_spec s updated conts, fun s c ⟨_, _, _, conts⟩ below => ?_⟩
  have inTable : c < s.monitor.conts.length := conts.symm ▸ below
  have unraised : s.notices = { s.notices with expressFallback := s.notices.expressFallback || false } := by rw [Bool.or_false]
  refine ⟨fun closed => ?closed, fun opened img image status => ?oversize, fun opened img image status => ?invalid,
    fun opened image => ?ordinary, fun opened img image status => ?valid⟩
  case closed =>
    have record := getD_modify_self s.monitor.conts c inTable (fun r => { r with state := .served, rearm := 0 }) .fresh
    refine ⟨?_, ?_, ?_, ?_, ?_, servesExpress_of_closed closed c⟩
    all_goals rw [completed_eq, closed]
    · exact congrArg ContRec.state record
    · exact congrArg ContRec.rearm record
    · exact satInc_eq _
    · exact unraised.symm
  case oversize =>
    have ordinary : s.servesExpress c = false := by rw [servesExpress_of_image opened image, status]; rfl
    obtain ⟨state, notices⟩ := completed_joins inTable opened ordinary
    have oversized : s.oversized c = true := by rw [State.oversized, image]; simp [status]
    rw [oversized, Bool.or_true] at notices
    exact ⟨state, notices, ordinary⟩
  case invalid =>
    have ordinary : s.servesExpress c = false := by rw [servesExpress_of_image opened image, status]; rfl
    obtain ⟨state, notices⟩ := completed_joins inTable opened ordinary
    have fits : s.oversized c = false := by rw [State.oversized, image]; simp [status]
    rw [fits, ← unraised] at notices
    exact ⟨state, notices, ordinary⟩
  case ordinary =>
    have ordinary : s.servesExpress c = false := by rw [State.servesExpress, image, opened]; rfl
    obtain ⟨state, notices⟩ := completed_joins inTable opened ordinary
    have fits : s.oversized c = false := by rw [State.oversized, image]; rfl
    rw [fits, ← unraised] at notices
    exact ⟨state, notices, ordinary⟩
  case valid =>
    refine ⟨?_, by rw [servesExpress_of_image opened image, status]; rfl⟩
    show s.completed c = s
    rw [State.completed, opened, image]
    simp only [Bool.not_true, Bool.false_eq_true, if_false, status]

end Sys2Proof.Machine
end

section
/-! A service begins: the take (R59, R70, R71) and the express serve (R62, R63). -/

namespace Sys2Proof.Machine

section
variable {s : State}

theorem workId_of_tracked (room : s.tracker.ops.length < 8) : s.workId = s.newId :=
  if_pos (decide_eq_true room)

theorem workId_of_untracked (full : 8 ≤ s.tracker.ops.length) : s.workId = 0 := (workId_zero s).2 full

/-- With 8 operations open the work goes ahead untracked (R63, R71). -/
theorem openWork_untracked (full : 8 ≤ s.tracker.ops.length) (c : Nat) (path : OpPath) (priority : Nat) (phase : OpPhase)
    (taken : List SchemeCopy) : s.openWork c path priority phase taken = s.raiseUntracked := by
  have noRoom : s.canTrack = false := decide_eq_false (not_lt.2 full)
  rw [State.openWork, noRoom]
  rfl

theorem allocate_length (s : State) (c : Nat) (path : OpPath) (priority : Nat) (phase : OpPhase) (taken : List SchemeCopy) :
    (s.allocate c path priority phase taken).tracker.ops.length = s.tracker.ops.length + 1 := insertOp_length _ _

/-- Schemes taken after opening work, which leaves the schemes alone (R21). -/
theorem openWork_takeSchemes_scheme {i : Nat} (inTable : i < s.arming.schemes.length) (c : Nat) (path : OpPath) (priority : Nat)
    (phase : OpPhase) (taken : List SchemeCopy) : ((s.openWork c path priority phase taken).takeSchemes taken).scheme i =
      if ∃ t ∈ taken, t.scheme = i then (s.scheme i).calm .operating else s.scheme i := by
  obtain ⟨-, arming, -⟩ := openWork_keeps s c path priority phase taken
  have same : (s.openWork c path priority phase taken).scheme i = s.scheme i := by rw [State.scheme, State.scheme, arming]
  rw [takeSchemes_scheme taken _ i (by rw [arming]; exact inTable), same]

theorem take_scheme {i : Nat} (inTable : i < s.arming.schemes.length) (c : Nat) : (s.take c).scheme i =
    if ∃ t ∈ s.armedOf (s.active.cont c).schemes, t.scheme = i then (s.scheme i).calm .operating else s.scheme i :=
  openWork_takeSchemes_scheme inTable c _ _ _ _

theorem take_tracker (c : Nat) : (s.take c).tracker = (s.openWork c .ordinary (s.active.cont c).priority .expanding
    (s.armedOf (s.active.cont c).schemes)).tracker := by
  show ((s.openWork c _ _ _ _).takeSchemes _).tracker = _
  rw [takeSchemes_eq]

theorem take_notices (c : Nat) : (s.take c).notices = (s.openWork c .ordinary (s.active.cont c).priority .expanding
    (s.armedOf (s.active.cont c).schemes)).notices := by
  show ((s.openWork c _ _ _ _).takeSchemes _).notices = _
  rw [takeSchemes_eq]

theorem take_log (c : Nat) : (s.take c).log = s.log := by
  show ((s.openWork c _ _ _ _).takeSchemes _).log = _
  rw [takeSchemes_eq]
  obtain ⟨-, -, -, -, log, -⟩ := openWork_keeps s c .ordinary (s.active.cont c).priority .expanding
    (s.armedOf (s.active.cont c).schemes)
  exact log

/-- The schemes a take takes (R70). -/
theorem armedOf_taken_iff (c : Nat) {i : Nat} : (∃ t ∈ s.armedOf (s.active.cont c).schemes, t.scheme = i) ↔
    i < 16 ∧ bit (s.active.cont c).mask i = true ∧ (s.scheme i).state = .armed ∧ (s.scheme i).selection ≠ none := by
  constructor
  · rintro ⟨⟨i, record⟩, mem, rfl⟩
    obtain ⟨masked, armed, selection⟩ := (mem_armedOf _ _ _ _).1 mem
    obtain ⟨below, bit⟩ := (mem_schemes _ _).1 masked
    exact ⟨below, bit, armed, by rw [selection]; exact Option.some_ne_none record⟩
  · rintro ⟨below, bit, armed, selected⟩
    obtain ⟨record, selection⟩ := Option.ne_none_iff_exists'.1 selected
    exact ⟨⟨i, record⟩, (mem_armedOf _ _ _ _).2 ⟨(mem_schemes _ _).2 ⟨below, bit⟩, armed, selection⟩, rfl⟩

end

/-- Settles O20: the arbiter's take is `take` of the chosen contingency, read off block by block. -/
theorem takeBeginsTheService : Obligations.TakeBeginsTheService := by
  rintro s ⟨-, schemes, -, conts⟩
  refine ⟨fun busy => ?busy, fun c idle chosen => ?take⟩
  case busy =>
    unfold State.arbiterTake
    cases engine : s.engine with
    | some snap => rfl
    | none =>
      rcases busy with serving | empty
      · exact absurd engine serving
      · simp only [empty]
  case take =>
    have taken : s.arbiterTake = s.take c := by simp only [State.arbiterTake, idle, chosen]
    obtain ⟨mem, -⟩ := (chosen_spec s).2 c chosen
    rw [mem_pendingSet] at mem
    intro t e mine
    rw [show t = s.take c from taken]
    refine ⟨fun i below => ?_, fun i below => ?_, ⟨_, rfl, rfl, rfl, rfl, rfl, fun i record => ?_, fun full => ?_, fun room => ?_⟩,
      take_queue s c, take_log c⟩
    · rw [take_scheme (schemes.symm ▸ below)]
      exact if_congr ((armedOf_taken_iff c).trans (and_iff_right below)) rfl rfl
    · rw [cont_congr (s := s.updCont c (fun r => { r with state := .serving })) (congrArg MonitorState.conts (take_monitor s c)) i,
        cont_modify, conts]
      by_cases same : i = c
      · subst same
        rw [if_pos ⟨rfl, below⟩, if_pos rfl]
      · rw [if_neg (fun h => same h.1), if_neg same]
    · show (⟨i, record⟩ : SchemeCopy) ∈ s.armedOf _ ↔ _
      rw [mem_armedOf, mem_schemes]
      constructor
      · rintro ⟨⟨below, bit⟩, armed, selection⟩
        exact ⟨below, ⟨bit, armed, by rw [selection]; exact Option.some_ne_none record⟩, selection⟩
      · rintro ⟨below, ⟨bit, armed, -⟩, selection⟩
        exact ⟨⟨below, bit⟩, armed, selection⟩
    · refine ⟨workId_of_untracked full, ?_, ?_⟩
      · rw [take_tracker, openWork_untracked full]
        rfl
      · rw [take_notices, openWork_untracked full]
        rfl
    · rw [take_tracker, take_notices, openWork_tracked room]
      exact ⟨workId_of_tracked room, allocate_length _ _ _ _ _ _, rfl, allocate_spec _ _ _ _ _ _⟩

/-! The express serve. -/

section
variable {s : State} {c : Nat} {img : Image}

/-- Only a scheme of the table is ARMED. -/
theorem lt_of_armed {i : Nat} (armed : (s.scheme i).state = .armed) : i < s.arming.schemes.length := by
  by_contra beyond
  rw [State.scheme, List.getD_eq_default _ _ (not_lt.1 beyond)] at armed
  cases armed

theorem mem_servedSchemes {i : Nat} : i ∈ s.servedSchemes img ↔ (∃ p ∈ img.participations, p.scheme = i) ∧ (s.scheme i).state = .armed := by
  simp only [State.servedSchemes, List.mem_map, List.mem_filter, decide_eq_true_eq]
  constructor
  · rintro ⟨p, ⟨mem, armed⟩, rfl⟩
    exact ⟨⟨p, mem, rfl⟩, armed⟩
  · rintro ⟨⟨p, mem, rfl⟩, armed⟩
    exact ⟨p, ⟨mem, armed⟩, rfl⟩

theorem servedSchemes_eq : s.servedSchemes img = (img.participations.map SchemeCopy.scheme).filter (fun i => (s.scheme i).state = .armed) := by
  rw [State.servedSchemes, List.filter_map]
  rfl

/-- What an express serve's opening leaves alone, and the schemes it takes (R62). -/
theorem taking_queue : (s.taking c img).queue = s.queue := by
  unfold State.taking
  rw [takeSchemes_eq]
  obtain ⟨queue, -⟩ := openWork_keeps s c .express 3 .tracking (img.participations.filter (fun p => (s.scheme p.scheme).state = .armed))
  exact queue

theorem taking_length : (s.taking c img).arming.schemes.length = s.arming.schemes.length := by
  unfold State.taking
  obtain ⟨-, arming, -⟩ := openWork_keeps s c .express 3 .tracking (img.participations.filter (fun p => (s.scheme p.scheme).state = .armed))
  rw [takeSchemes_length, arming]

theorem taking_scheme {i : Nat} (inTable : i < s.arming.schemes.length) : (s.taking c img).scheme i =
    if i ∈ s.servedSchemes img then (s.scheme i).calm .operating else s.scheme i := by
  refine (openWork_takeSchemes_scheme inTable c _ _ _ _).trans (if_congr ?_ rfl rfl)
  rw [State.servedSchemes, List.mem_map]

theorem taking_tracker : (s.taking c img).tracker = (s.openWork c .express 3 .tracking
    (img.participations.filter (fun p => (s.scheme p.scheme).state = .armed))).tracker := by
  unfold State.taking
  rw [takeSchemes_eq]

/-- With 8 operations open the schemes an express serve takes end their work at once (R63). -/
def State.ended (s : State) (schemes : List Nat) (id : Nat) : State := if id = 0 then schemes.foldl State.endWork s else s

theorem handServed_eq (schemes : List Nat) (id : Nat) :
    s.handServed schemes id img = (img.servedNodes schemes).foldl (State.handIn id 3 schemes) (s.ended schemes id) := rfl

/-- Ending work touches the scheme records alone (R22). -/
theorem ended_eq {schemes : List Nat} (inTable : ∀ i ∈ schemes, i < s.arming.schemes.length) (id : Nat) : s.ended schemes id =
    { s with arming := { s.arming with schemes := (s.ended schemes id).arming.schemes } } := by
  unfold State.ended
  split
  · exact (endWork_spec schemes s inTable).1
  · rfl

theorem ended_length {schemes : List Nat} (inTable : ∀ i ∈ schemes, i < s.arming.schemes.length) (id : Nat) :
    (s.ended schemes id).arming.schemes.length = s.arming.schemes.length := by
  unfold State.ended
  split
  · exact (endWork_spec schemes s inTable).2.1
  · rfl

/-- Ending work takes the OPERATING schemes of the list to OPERATED, after untracked work alone (R22, R63). -/
theorem ended_state {schemes : List Nat} (inTable : ∀ i ∈ schemes, i < s.arming.schemes.length) (id : Nat) {i : Nat}
    (below : i < s.arming.schemes.length) : ((s.ended schemes id).scheme i).state =
      if id = 0 ∧ i ∈ schemes ∧ (s.scheme i).state = .operating then .operated else (s.scheme i).state := by
  unfold State.ended
  by_cases untracked : id = 0
  · rw [if_pos untracked, (endWork_spec schemes s inTable).2.2 i below, if_congr (and_iff_right untracked) rfl rfl]
    split_ifs <;> rfl
  · rw [if_neg untracked, if_neg (fun h => untracked h.1)]

theorem servedSchemes_inTable : ∀ i ∈ s.servedSchemes img, i < (s.taking c img).arming.schemes.length := fun i mem => by
  rw [taking_length]
  exact lt_of_armed (mem_servedSchemes.1 mem).2

/-- A scheme the serve takes ends OPERATING, or OPERATED when the work is untracked; every other keeps its state (R62, R63). -/
theorem serveExpress_scheme_state {i : Nat} (below : i < s.arming.schemes.length) : ((s.serveExpress c img).scheme i).state =
    if i ∈ s.servedSchemes img then (if s.tracker.ops.length < 8 then .operating else .operated) else (s.scheme i).state := by
  have below' : i < (s.taking c img).arming.schemes.length := taking_length.symm ▸ below
  have handed : ((s.serveExpress c img).scheme i).state = (((s.taking c img).ended (s.servedSchemes img) s.workId).scheme i).state := by
    rw [serveExpress_eq]
    exact handKeeps_state (handKeeps_handIns _ _ _ _ _) i ((ended_length servedSchemes_inTable s.workId).symm ▸ below')
  rw [handed, ended_state servedSchemes_inTable _ below', taking_scheme below]
  by_cases mine : i ∈ s.servedSchemes img
  · rw [if_pos mine, if_pos mine]
    by_cases room : s.tracker.ops.length < 8
    · rw [if_pos room, if_neg (fun h => not_le.2 room ((workId_zero s).1 h.1))]
      rfl
    · rw [if_neg room, if_pos ⟨(workId_zero s).2 (not_lt.1 room), mine, rfl⟩]
  · rw [if_neg mine, if_neg mine, if_neg (fun h => mine h.2.1)]

/-- What an express serve's hand-ins find: the part as the event left it, but for the schemes and the work opened (R62, R63). -/
theorem served_opened :
    let opened := s.openWork c .express 3 .tracking (img.participations.filter (fun p => (s.scheme p.scheme).state = .armed))
    let found := (s.taking c img).ended (s.servedSchemes img) s.workId
    found.queue = s.queue ∧ found.points = s.points ∧ found.banks = s.banks ∧ found.timeBase = s.timeBase ∧ found.log = s.log
    ∧ found.tracker = opened.tracker ∧ found.notices = opened.notices := by
  intro opened found
  obtain ⟨time, -, -, -, -, points, -, banks, -⟩ := State.surroundings_eq (State.surroundings_openWork s c .express 3 .tracking
    (img.participations.filter (fun p => (s.scheme p.scheme).state = .armed)))
  obtain ⟨queue, -, -, -, log, -⟩ := openWork_keeps s c .express 3 .tracking
    (img.participations.filter (fun p => (s.scheme p.scheme).state = .armed))
  obtain ⟨records, took⟩ : ∃ records, s.taking c img = { opened with arming := { opened.arming with schemes := records } } :=
    ⟨_, takeSchemes_eq _ opened⟩
  obtain ⟨records', ended⟩ : ∃ records, found = { s.taking c img with arming := { (s.taking c img).arming with schemes := records } } :=
    ⟨_, ended_eq servedSchemes_inTable s.workId⟩
  rw [ended, took]
  exact ⟨queue, points, banks, time, log, rfl, rfl⟩

theorem serveExpress_queue : (s.serveExpress c img).queue =
    ((img.servedNodes (s.servedSchemes img)).foldl (State.handIn s.workId 3 (s.servedSchemes img)) s).queue := by
  obtain ⟨queue, points, banks, time, -⟩ := served_opened (s := s) (c := c) (img := img)
  exact handIns_queue_congr _ _ _ _ queue points banks time

theorem serveExpress_tracker (room : s.tracker.ops.length < 8) : (s.serveExpress c img).tracker =
    ((img.servedNodes (s.servedSchemes img)).foldl (State.handIn s.newId 3 (s.servedSchemes img))
      { s with tracker := (s.allocate c .express 3 .tracking
        (img.participations.filter (fun p => (s.scheme p.scheme).state = .armed))).tracker }).tracker := by
  obtain ⟨queue, points, banks, time, -, tracker, -⟩ := served_opened (s := s) (c := c) (img := img)
  rw [openWork_tracked room] at tracker
  rw [← workId_of_tracked room]
  exact handIns_tracker_congr _ _ _ _ queue points banks time tracker

/-- Hand-ins without an operation record nothing (R63). -/
theorem handIns_untracked (priority : Nat) (taken : List Nat) (nodes : List Node) :
    (nodes.foldl (State.handIn 0 priority taken) s).tracker = s.tracker :=
  foldl_keeps State.tracker (fun t n => by rw [handIn_tracker_eq, if_pos rfl]) nodes s

theorem serveExpress_untracked (full : 8 ≤ s.tracker.ops.length) : (s.serveExpress c img).tracker = s.tracker
    ∧ (s.serveExpress c img).notices.untrackedOperation = true ∧ (s.serveExpress c img).log = s.log := by
  obtain ⟨-, -, -, -, log, tracker, notices⟩ := served_opened (s := s) (c := c) (img := img)
  rw [openWork_untracked full] at tracker notices
  have kept := handKeeps_handIns s.workId 3 (s.servedSchemes img) (img.servedNodes (s.servedSchemes img))
    ((s.taking c img).ended (s.servedSchemes img) s.workId)
  refine ⟨?_, (congrArg HandKeeps.untracked kept).trans (congrArg Notices.untrackedOperation notices),
    (congrArg HandKeeps.log kept).trans log⟩
  have untracked := handIns_untracked (s := (s.taking c img).ended (s.servedSchemes img) s.workId) 3 (s.servedSchemes img)
    (img.servedNodes (s.servedSchemes img))
  rw [← workId_of_untracked full] at untracked
  exact untracked.trans tracker

end

/-- Settles O22: the schemes and the work are opened first, and the hand-ins find the rest of the part as the event left it. -/
theorem expressServeTakesTheImagesSchemes : Obligations.ExpressServeTakesTheImagesSchemes := by
  rintro s c img ⟨-, schemes, -, conts⟩ below t taken handed
  have inTable : c < s.monitor.conts.length := conts.symm ▸ below
  have workId : s.workId = if s.tracker.ops.length < 8 then s.newId else 0 := by
    rw [State.workId, State.canTrack]
    exact if_congr decide_eq_true_iff rfl rfl
  have taken_eq : taken = s.servedSchemes img := servedSchemes_eq.symm
  have handed_eq : handed = img.servedNodes (s.servedSchemes img) := by
    rw [← taken_eq]
    rfl
  obtain ⟨monitor, engine⟩ := serveExpress_monitor s c img
  have self := getD_modify_self s.monitor.conts c inTable (fun r => { r with state := .served, rearm := 0 }) .fresh
  refine ⟨?queue, fun room => ?tracked, fun full => ?untracked, ?served, ?rearm, ?last, engine, fun i _ other => ?others,
    fun i below => ?schemes, fun full => ?notices, ?images⟩
  case queue =>
    rw [← workId, taken_eq, handed_eq]
    exact serveExpress_queue
  case served =>
    show (t.monitor.conts.getD c .fresh).state = .served
    rw [show t.monitor = _ from monitor]
    exact congrArg ContRec.state self
  case rearm =>
    show (t.monitor.conts.getD c .fresh).rearm = 0
    rw [show t.monitor = _ from monitor]
    exact congrArg ContRec.rearm self
  case last => rw [show t.monitor = _ from monitor]
  case others =>
    show t.monitor.conts.getD i .fresh = s.cont i
    rw [show t.monitor = _ from monitor]
    exact getD_modify_ne _ _ _ (Ne.symm other) _ _
  case schemes =>
    rw [show (t.scheme i).state = _ from serveExpress_scheme_state (schemes.symm ▸ below)]
    exact if_congr mem_servedSchemes rfl rfl
  case images =>
    rw [show t.monitor = _ from monitor]
    exact ⟨rfl, rfl⟩
  case untracked => exact (serveExpress_untracked full).1
  case notices => exact (serveExpress_untracked full).2
  case tracked =>
    have tracker := serveExpress_tracker (c := c) (img := img) room
    obtain ⟨op, opened, gains⟩ := allocate_spec s c .express 3 .tracking
      (img.participations.filter (fun p => (s.scheme p.scheme).state = .armed))
    have kept := handKeeps_handIns s.newId 3 (s.servedSchemes img) (img.servedNodes (s.servedSchemes img))
      { s with tracker := (s.allocate c .express 3 .tracking
        (img.participations.filter (fun p => (s.scheme p.scheme).state = .armed))).tracker }
    refine ⟨?_, ?_, op, _, opened, gains, ?_⟩
    · rw [show t.tracker = _ from tracker]
      exact congrArg HandKeeps.lastId kept
    · rw [show t.tracker = _ from tracker]
      have ids := congrArg List.length (congrArg HandKeeps.ids kept)
      simp only [State.handKeeps, List.length_map] at ids
      exact ids.trans (allocate_length _ _ _ _ _ _)
    · rw [taken_eq, handed_eq]
      exact tracker

end Sys2Proof.Machine
end

section
/-! The Trip Queue and the Operation Table: hand-ins (R77 to R80, R90, R91), confirmed and sent entries (R92, R93, R95), closures (R99
to R101), and the id of a new operation (R88). -/

namespace Sys2Proof.Machine

/-! One hand-in, by its outcome. -/

section
variable {s : State} {id priority : Nat} {taken : List Nat} {n : Node}

theorem handOutcome_of_live {e : Entry} (live : s.liveEntry n.action = some e) :
    s.handOutcome id n.action = .merged (id != 0 && !e.refs.contains id) := by
  rw [State.handOutcome, live]

theorem handOutcome_of_open (none_live : s.liveEntry n.action = none) (opened : s.confirmOpen n.action = true) :
    s.handOutcome id n.action = .alreadyOpen := by
  rw [State.handOutcome, none_live]
  exact if_pos opened

theorem handOutcome_of_full (none_live : s.liveEntry n.action = none) (not_open : s.confirmOpen n.action = false)
    (full : 32 ≤ s.queue.entries.length) : s.handOutcome id n.action = .dropped := by
  simp only [State.handOutcome, none_live, not_open, Bool.false_eq_true, if_false, if_pos full]

theorem handOutcome_of_room (none_live : s.liveEntry n.action = none) (not_open : s.confirmOpen n.action = false)
    (room : s.queue.entries.length < 32) : s.handOutcome id n.action = .entered := by
  simp only [State.handOutcome, none_live, not_open, Bool.false_eq_true, if_false, if_neg (not_le.2 room)]

/-- Beyond the operation's record a hand-in does what its outcome does (R77 to R80). -/
theorem handIn_parts : (State.handIn id priority taken s n).notices = (s.applyHand id priority taken n (s.handOutcome id n.action)).notices
    ∧ (State.handIn id priority taken s n).arming = (s.applyHand id priority taken n (s.handOutcome id n.action)).arming := by
  unfold State.handIn
  dsimp only
  split <;> exact ⟨rfl, rfl⟩

/-- The record of a hand-in in its operation (R90, R91). -/
theorem handIn_tracker_noted {outcome : HandOutcome} (is : s.handOutcome id n.action = outcome) :
    (State.handIn id priority taken s n).tracker = { s.tracker with ops := s.tracker.ops.map (fun o => if id ≠ 0 ∧ o.id = id then
      { o.noted n outcome.headTo outcome.status outcome.credit with
        outstanding := o.outstanding + outcome.counts, overflow := o.overflow || outcome == .dropped } else o) } := by
  rw [handIn_tracker_eq, is]
  by_cases untracked : id = 0
  · have same : s.tracker.ops.map (fun o => if id ≠ 0 ∧ o.id = id then
        { o.noted n outcome.headTo outcome.status outcome.credit with
          outstanding := o.outstanding + outcome.counts, overflow := o.overflow || outcome == .dropped } else o) = s.tracker.ops := by
      conv_rhs => rw [← List.map_id s.tracker.ops]
      exact List.map_congr_left fun o _ => if_neg (fun h => h.1 untracked)
    rw [if_pos untracked, same]
  · rw [if_neg untracked]
    simp only [record_noted, ne_eq, untracked, not_false_eq_true, true_and]

/-- What a hand-in adds to the outstanding counts (R90). -/
theorem handIn_outstanding {outcome : HandOutcome} (is : s.handOutcome id n.action = outcome) :
    (State.handIn id priority taken s n).tracker.ops.map Operation.outstanding
      = s.tracker.ops.map (fun o => if id ≠ 0 ∧ o.id = id then o.outstanding + outcome.counts else o.outstanding) := by
  rw [handIn_tracker_noted is, List.map_map]
  refine List.map_congr_left fun o _ => ?_
  show Operation.outstanding (if _ then _ else _) = _
  split <;> rfl

/-- Finding an entry, a tracked node counts when its id joins the reference set anew (R77, R90). -/
theorem merged_counts (tracked : id ≠ 0) (e : Entry) :
    (HandOutcome.merged (id != 0 && !e.refs.contains id)).counts = if id ∈ e.refs then 0 else 1 := by
  have nonzero : (id != 0) = true := bne_iff_ne.2 tracked
  by_cases known : id ∈ e.refs
  · have contained : e.refs.contains id = true := List.contains_iff_mem.2 known
    rw [nonzero, contained, if_pos known]
    rfl
  · have missing : e.refs.contains id = false := Bool.eq_false_iff.2 (fun h => known (List.contains_iff_mem.1 h))
    rw [nonzero, missing, if_neg known]
    rfl

/-- A dropped node latches its origin scheme, or every scheme the service took (R79). -/
theorem latchDropped_eq (s : State) (taken : List Nat) (o : Origin) : s.latchDropped taken o
    = (match o with | .scheme i _ => [i] | .direct => taken).foldl State.latchHardTrip s := by
  cases o <;> rfl

theorem applyHand_dropped_notices : (s.applyHand id priority taken n .dropped).notices = { s.notices with queueOverflow := true } := by
  show ((s.raise _).latchDropped taken n.origin).notices = _
  rw [latchDropped_eq, (latchHardTrip_spec _ _).1]
  rfl

theorem applyHand_dropped_latches {i : Nat} (mem : i ∈ (match n.origin with | .scheme i _ => [i] | .direct => taken))
    (inTable : i < s.arming.schemes.length) (enabled : (s.active.scheme i).hardTripEnable = true) :
    ((s.applyHand id priority taken n .dropped).scheme i).hardTrip = true := by
  obtain ⟨-, -, records⟩ := latchHardTrip_spec (match n.origin with | .scheme i _ => [i] | .direct => taken)
    (s.raise (fun n => { n with queueOverflow := true }))
  show (((s.raise _).latchDropped taken n.origin).scheme i).hardTrip = true
  rw [latchDropped_eq, records i inTable, if_pos ⟨mem, enabled⟩]

end

/-- Settles O23: each test fixes the outcome, and the outcome what the queue, the notices and the record become. -/
theorem handInOutcomes : Obligations.HandInOutcomes := by
  refine ⟨fun s a => confirmOpen_iff s a, fun id refs => ⟨mem_insertRef id refs, insertRef_pairwise id refs⟩,
    fun s id priority taken n => ?_⟩
  obtain ⟨notices, arming⟩ := handIn_parts (s := s) (id := id) (priority := priority) (taken := taken) (n := n)
  have queue := handIn_queue_eq id priority taken s n
  refine ⟨fun e live => ?merged, fun none_live opened => ?alreadyOpen, fun none_live not_open full => ?dropped,
    fun none_live not_open room => ?entered⟩
  case merged =>
    have is := handOutcome_of_live (id := id) live
    rw [is] at notices arming queue
    refine ⟨queue, notices, arming, (handIn_outstanding is).trans ?_, (handIn_tracker_noted is).trans ?_⟩
    · refine List.map_congr_left fun o _ => if_ctx_congr Iff.rfl (fun ⟨tracked, _⟩ => ?_) (fun _ => rfl)
      rw [merged_counts tracked]
    · refine congrArg (fun ops => ({ s.tracker with ops := ops } : TrackerState)) (List.map_congr_left fun o _ => ?_)
      refine if_ctx_congr Iff.rfl (fun ⟨tracked, _⟩ => ?_) (fun _ => rfl)
      rw [merged_counts tracked]
      rfl
  case alreadyOpen =>
    have is := handOutcome_of_open (id := id) none_live opened
    rw [is] at notices arming queue
    exact ⟨queue, notices, arming, handIn_outstanding is, handIn_tracker_noted is⟩
  case dropped =>
    have is := handOutcome_of_full (id := id) none_live not_open full
    rw [is] at notices arming queue
    refine ⟨queue.trans (latchDropped_queue _ _ _), notices.trans applyHand_dropped_notices, handIn_outstanding is,
      handIn_tracker_noted is, fun i p origin inTable enabled => ?_, fun origin i mem inTable enabled => ?_, fun o mem tracked own => ?_⟩
    · rw [show (State.handIn id priority taken s n).scheme i = _ from congrArg (fun a : ArmingState => a.schemes.getD i _) arming]
      exact applyHand_dropped_latches (by rw [origin]; exact List.mem_singleton_self i) inTable enabled
    · rw [show (State.handIn id priority taken s n).scheme i = _ from congrArg (fun a : ArmingState => a.schemes.getD i _) arming]
      exact applyHand_dropped_latches (by rw [origin]; exact mem) inTable enabled
    · rw [handIn_tracker_noted is] at mem
      obtain ⟨before, -, rfl⟩ := List.mem_map.1 mem
      split
      · exact Bool.or_true _
      · rename_i other
        rw [if_neg other] at own
        exact absurd ⟨tracked, own⟩ other
  case entered =>
    have is := handOutcome_of_room (id := id) none_live not_open room
    rw [is] at notices arming queue
    exact ⟨queue, notices, arming, handIn_outstanding is, handIn_tracker_noted is⟩

/-! Entries that an update confirms, and entries that finish. -/

/-- An entry that an update confirms (R92). -/
theorem mem_confirmedEntries (s : State) (updated : List Nat) (e : Entry) : e ∈ s.confirmedEntries updated ↔
    e ∈ s.queue.entries ∧ ∃ p ∈ updated, (s.active.action e.action).confirm = some p ∧ (s.point p).readsOpen = true := by
  rw [State.confirmedEntries, List.mem_filter]
  refine and_congr_right fun _ => ?_
  cases confirm : (s.active.action e.action).confirm with
  | none => simp
  | some p => simp

/-- No live entry waits on one of the points that reads OPEN with fresh quality (R92). -/
def State.Confirmed (s : State) (updated : List Nat) : Prop :=
  ∀ e ∈ s.queue.entries, ∀ p, (s.active.action e.action).confirm = some p → p ∈ updated → (s.point p).readsOpen = false

theorem State.Confirmed.of_parts {s t : State} {updated : List Nat} (h : s.Confirmed updated)
    (entries : ∀ e ∈ t.queue.entries, (∃ e' ∈ s.queue.entries, e'.action = e.action) ∨ s.confirmOpen e.action = false)
    (points : t.points = s.points) (banks : t.banks = s.banks) : t.Confirmed updated := by
  intro e mem p confirm updated'
  have active : t.active = s.active := by rw [State.active, banks]; rfl
  have point : t.point p = s.point p := by rw [State.point, points]; rfl
  rw [active] at confirm
  rw [point]
  rcases entries e mem with ⟨e', mem', same⟩ | not_open
  · exact h e' mem' p (same ▸ confirm) updated'
  · rw [State.confirmOpen, confirm] at not_open
    exact not_open

/-- The confirmations of an update leave none (R92). -/
theorem confirmUpdated_confirmed (s : State) (updated : List Nat) : (s.confirmUpdated updated).Confirmed updated := by
  intro e mem p confirm updated'
  obtain ⟨-, -, -, -, -, points, -, banks, -⟩ := State.surroundings_eq (s.surroundings_confirmUpdated updated)
  have active : (s.confirmUpdated updated).active = s.active := by rw [State.active, banks]; rfl
  have point : (s.confirmUpdated updated).point p = s.point p := by rw [State.point, points]; rfl
  rw [State.confirmUpdated, finishEntries_queue, List.mem_filter] at mem
  obtain ⟨live, untouched⟩ := mem
  rw [active] at confirm
  rw [point, Bool.eq_false_iff]
  intro opened
  have confirmed := (mem_confirmedEntries s updated e).2 ⟨live, p, updated', confirm, opened⟩
  exact absurd (List.all_eq_true.1 untouched e confirmed) (by simp)

theorem confirmed_handIn {s : State} {updated : List Nat} (h : s.Confirmed updated) (id priority : Nat) (taken : List Nat) (n : Node) :
    (State.handIn id priority taken s n).Confirmed updated := by
  obtain ⟨-, -, -, -, -, points, -, banks, -⟩ := State.surroundings_eq (s.surroundings_handIn id priority taken n)
  refine h.of_parts (fun e mem => ?_) points banks
  exact (handIn_queue id priority taken s n e mem).imp_right fun ⟨not_open, same⟩ => same ▸ not_open

theorem confirmed_serveExpress {s : State} {updated : List Nat} (h : s.Confirmed updated) (c : Nat) (img : Image) :
    (s.serveExpress c img).Confirmed updated := by
  obtain ⟨-, -, -, -, -, points, -, banks, -⟩ := State.surroundings_eq (s.surroundings_serveExpress c img)
  have handed := foldl_pres (fun t => t.Confirmed updated) (fun t n k => confirmed_handIn k s.workId 3 (s.servedSchemes img) n)
    (img.servedNodes (s.servedSchemes img)) s h
  obtain ⟨-, -, -, -, -, points', -, banks', -⟩ := State.surroundings_eq
    (s.surroundings_handIns s.workId 3 (s.servedSchemes img) (img.servedNodes (s.servedSchemes img)))
  refine handed.of_parts (fun e mem => .inl ⟨e, ?_, rfl⟩) (points.trans points'.symm) (banks.trans banks'.symm)
  rwa [serveExpress_queue] at mem

theorem confirmed_expressServes {s : State} {updated : List Nat} (h : s.Confirmed updated) (serves : List Nat) :
    (s.expressServes serves).Confirmed updated :=
  have served : ∀ (image : State → Image) (l : List Nat) (t : State), t.Confirmed updated →
      (l.foldl (fun s c => s.serveExpress c (image s)) t).Confirmed updated := fun image l t k =>
    foldl_pres (fun u : State => u.Confirmed updated) (fun u c k => confirmed_serveExpress k c (image u)) l t k
  served (fun s => s.monitor.imageB) _ _ (served (fun s => s.monitor.imageA) _ _ h)

/-- In either order of confirmations and serves no entry is left that the update confirms (R92, log 9). -/
theorem confirmAndServe_confirmed (s : State) (before : List PointRec) (updated serves : List Nat) :
    (s.confirmAndServe before updated serves).Confirmed updated := by
  unfold State.confirmAndServe
  split
  · exact confirmUpdated_confirmed _ _
  · dsimp only
    split
    · exact confirmed_expressServes (confirmUpdated_confirmed _ _) serves
    · exact confirmUpdated_confirmed _ _

theorem afterUpdates_eq (s : State) (before : List PointRec) (updated : List Nat) : s.afterUpdates before updated
    = (((s.evaluateConts updated).1.confirmAndServe before updated (s.evaluateConts updated).2).closeFinished).arbiterTake := rfl

theorem afterUpdates_confirmed (s : State) (before : List PointRec) (updated : List Nat) :
    (s.afterUpdates before updated).Confirmed updated := by
  have confirmed := confirmAndServe_confirmed (s.evaluateConts updated).1 before updated (s.evaluateConts updated).2
  rw [afterUpdates_eq]
  generalize (s.evaluateConts updated).1.confirmAndServe before updated (s.evaluateConts updated).2 = u at confirmed
  obtain ⟨queue, -⟩ := closeFinished_keeps u
  obtain ⟨-, -, -, -, -, points, -, banks, -⟩ := State.surroundings_eq u.surroundings_closeFinished
  obtain ⟨-, -, -, -, -, points', -, banks', -⟩ := State.surroundings_eq u.closeFinished.surroundings_arbiterTake
  refine confirmed.of_parts (fun e mem => .inl ⟨e, ?_, rfl⟩) (points'.trans points) (banks'.trans banks)
  rwa [arbiterTake_queue, queue] at mem

/-- Settles O24: `Confirmed` is left by the confirmations and kept by serves, closures and the take; finishing is `Operation.settled`. -/
theorem confirmedEntriesLeaveTheQueue : Obligations.ConfirmedEntriesLeaveTheQueue := by
  refine ⟨fun s station payload e mem p confirm updated => ?left, fun s updated => ⟨s.confirmedEntries updated, List.filter_sublist,
    fun e mem => ?confirms, rfl⟩, fun s e nodup => ?finished⟩
  case left =>
    rw [← readsOpen_iff, Bool.not_eq_true]
    have banks : (s.countPublication station payload).banks = s.banks :=
      (congrArg Surroundings.banks (State.surroundings_afterUpdates _ _ _)).trans rfl
    have active : (s.countPublication station payload).active = s.active := by rw [State.active, banks]; rfl
    exact afterUpdates_confirmed _ s.points _ e mem p (active ▸ confirm) updated
  case confirms =>
    rw [mem_confirmedEntries, and_iff_right mem]
    simp only [readsOpen_iff]
  case finished =>
    refine ⟨(finishFor_ops e.action .confirmed e.refs nodup (s.removeEntry e.action)).trans ?_,
      (finishFor_ops e.action .sent e.refs nodup (s.removeEntry e.action)).trans ?_⟩
    · simp only [finish_confirmed]
      rfl
    · simp only [finish_sent]
      rfl

/-! Closures, and the ids of operations. -/

theorem mem_shortSchemes (op : Operation) (i : Nat) : i ∈ (op.parts.filter Participation.isShort).map Participation.scheme ↔
    ∃ p ∈ op.parts, ∃ x, p = ⟨i, some x⟩ ∧ x.closeOutcome ≠ .covered := by
  simp only [List.mem_map, List.mem_filter, isShort_iff]
  constructor
  · rintro ⟨⟨scheme, taken⟩, ⟨mem, x, has, short⟩, rfl⟩
    exact ⟨_, mem, x, by rw [show taken = some x from has], short⟩
  · rintro ⟨p, mem, x, rfl, short⟩
    exact ⟨_, ⟨mem, x, rfl, short⟩, rfl⟩

theorem mem_takenSchemes (op : Operation) (i : Nat) :
    i ∈ (op.parts.filter (fun p => p.taken.isSome)).map Participation.scheme ↔ ∃ p ∈ op.parts, p.scheme = i ∧ p.taken ≠ none := by
  simp only [List.mem_map, List.mem_filter, Option.isSome_iff_ne_none]
  exact exists_congr fun p => by tauto

/-- Settles O26: the end of an event by `closeFinished_eq`, one closure by `closeOp_spec`. -/
theorem closureLogsAndReleases : Obligations.ClosureLogsAndReleases := by
  refine ⟨fun s => ⟨closeFinished_eq s, mem_closeFinished s⟩, fun s op ⟨_, schemes, _, _⟩ below => ?_⟩
  have inTable : ∀ p ∈ op.parts, p.taken.isSome = true → p.scheme < s.arming.schemes.length := fun p mem _ => schemes.symm ▸ below p mem
  obtain ⟨-, log, length, records⟩ := closeOp_spec s op inTable
  obtain ⟨queue, monitor, engine, notices, tracker, -, -⟩ := closeOp_keeps s op
  refine ⟨⟨⟨{ op with parts := op.parts.map Participation.close }, op.outcome, s.timeBase, s.cycleNumber, s.log.nextSeq⟩,
    by rw [log]; rfl, rfl, outcome_iff op, rfl, rfl, rfl⟩, by rw [log]; rfl, tracker, fun i inScheme => ?latch, fun i inScheme => ?released,
    queue, monitor, engine, notices⟩
  case latch =>
    have own := records i (schemes.symm ▸ inScheme)
    have hardTrip : ((s.closeOp op).scheme i).hardTrip = if i ∈ (op.parts.filter Participation.isShort).map Participation.scheme
        ∧ (s.active.scheme i).hardTripEnable = true then true else (s.scheme i).hardTrip := by
      rw [own]
      dsimp only
      split_ifs <;> rfl
    rw [hardTrip, ← mem_shortSchemes]
    by_cases latches : i ∈ (op.parts.filter Participation.isShort).map Participation.scheme
        ∧ (s.active.scheme i).hardTripEnable = true
    · rw [if_pos latches]
      exact iff_of_true rfl (.inr latches.symm)
    · rw [if_neg latches]
      exact (or_iff_left (mt And.symm latches)).symm
  case released =>
    have own := records i (schemes.symm ▸ inScheme)
    have delayed : s.after ((s.active.scheme i).resetDelay * 1000)
        = s.timeBase + BitVec.ofNat 32 (1000 * (s.active.scheme i).resetDelay) := by
      rw [Nat.mul_comm]
      rfl
    rw [own, ← mem_takenSchemes]
    refine ⟨fun mine => ?_, fun idle => ?_⟩
    · simp only [if_pos mine, delayed]
      exact ⟨trivial, trivial⟩
    · simp only [if_neg idle]
      split_ifs <;> exact ⟨rfl, rfl⟩

/-- Settles O27: the search for a free id, whose cycle is `iterId_eq`. -/
theorem newOperationIdIsFree : Obligations.NewOperationIdIsFree := by
  intro s room last
  obtain ⟨first, first'⟩ : 1 ≤ nextId s.tracker.lastId ∧ nextId s.tracker.lastId ≤ 255 := by
    unfold nextId
    split <;> omega
  have cycle : ∀ k, iterId k (nextId s.tracker.lastId) = (s.tracker.lastId + k) % 255 + 1 := fun k => by
    rw [iterId_eq k _ first first']
    unfold nextId
    split <;> omega
  have fresh := newId_fresh s room last
  obtain ⟨low, high⟩ := freeId_range (s.tracker.ops.map Operation.id) 9 _ first first'
  obtain ⟨d, le, found, opened⟩ := freeId_first (s.tracker.ops.map Operation.id) 9 (nextId s.tracker.lastId)
  simp only [cycle] at found opened
  refine ⟨low, high, fresh, fun below free => ?next, fun top free => ?wrap, d, ?steps, found, opened⟩
  case next =>
    have following : (s.tracker.lastId + 0) % 255 + 1 = s.tracker.lastId + 1 := by omega
    have at_once : d = 0 := by
      by_contra later
      exact free (following ▸ opened 0 (by omega))
    rw [at_once, following] at found
    exact found
  case wrap =>
    have following : (s.tracker.lastId + 0) % 255 + 1 = 1 := by omega
    have at_once : d = 0 := by
      by_contra later
      exact free (following ▸ opened 0 (by omega))
    rw [at_once, following] at found
    exact found
  case steps =>
    by_contra nine
    have distinct : ((List.range 9).map (fun j => (s.tracker.lastId + j) % 255 + 1)).Nodup := by
      rw [List.nodup_map_iff_inj_on List.nodup_range]
      intro x hx y hy same
      rw [List.mem_range] at hx hy
      omega
    have within : ((List.range 9).map (fun j => (s.tracker.lastId + j) % 255 + 1)) ⊆ s.tracker.ops.map Operation.id := by
      intro x mem
      obtain ⟨j, below, rfl⟩ := List.mem_map.1 mem
      exact opened j (by rw [List.mem_range] at below; omega)
    have nineOpen := (distinct.subperm within).length_le
    rw [List.length_map, List.length_map, List.length_range] at nineOpen
    omega

end Sys2Proof.Machine
end

section
/-! The expiry of an entry with its escalations (R96, R97, R99, R102). -/

namespace Sys2Proof.Machine

section
variable {s : State} {a : Fin 128}

/-- An expiry that is not due changes nothing (R96). -/
theorem exec_entryExpiry_of_not_due (held : s.held = false) (not_due : ∀ e, s.liveEntry a = some e → e.deadline ≠ s.timeBase) :
    exec (.entryExpiry a) s = .next s.quiet := by
  have ran : execEntryExpiry a s = .next _ := running_next held _
  refine ran.trans (congrArg _ ?_)
  cases entry : s.quiet.liveEntry a with
  | none => rfl
  | some e => exact if_neg (not_due e entry)

/-- What stands of the queue once the expired entry has left it. -/
theorem entriesStand_removeEntry (s : State) (action : Nat) : EntriesStand s (s.removeEntry action) action where
  surr := s.surroundings_removeEntry action
  monitor := rfl
  engine := rfl
  old x mem other := ⟨x, List.mem_filter.2 ⟨mem, bne_iff_ne.2 other⟩, rfl, rfl, rfl, rfl, rfl, rfl⟩
  new _ mem own := absurd own (bne_iff_ne.1 (List.mem_filter.1 mem).2)

/-- The other entries stand through an expiry (R96). -/
theorem entriesStand_expireEntry (s : State) (e : Entry) : EntriesStand s (s.expireEntry e) e.action := by
  have expired := foldl_pres (fun t => EntriesStand s t e.action) (fun t id h => h.expireFor (b := e.action) id) e.refs
    (s.removeEntry e.action) (entriesStand_removeEntry s e.action)
  obtain ⟨queue, monitor, engine, -⟩ := closeFinished_keeps (e.refs.foldl (State.expireFor e.action) (s.removeEntry e.action))
  exact expired.queue (State.surroundings_closeFinished _) monitor engine queue

end

section
variable {s : State} {id i : Nat} {op : Operation} {x : TakenPart}

theorem takenPart_of_find {part : Participation} (found : op.parts.find? (fun p => p.scheme == i) = some part)
    (taken : part.taken = some x) : op.takenPart i = some x := by
  rw [Operation.takenPart, found]
  exact taken

/-- An escalation without a free replacement place or an eligible candidate does nothing (R97). -/
theorem escalate_of_none (found : s.findOp id = some op) (taken : op.takenPart i = some x)
    (none_left : (s.active.scheme i).escalation ≤ x.replacements
      ∨ s.replacement (s.active.scheme i).shedList x.continuation = none) : s.escalate id i = s := by
  simp only [State.escalate, found, taken]
  by_cases more : x.replacements < (s.active.scheme i).escalation
  · rw [if_pos more, none_left.resolve_left (not_le.2 more)]
  · rw [if_neg more]

/-- An escalation that finds a candidate (R97). -/
theorem escalate_of_some (found : s.findOp id = some op) (taken : op.takenPart i = some x) {position amount : Nat}
    (more : x.replacements < (s.active.scheme i).escalation)
    (candidate : s.replacement (s.active.scheme i).shedList x.continuation = some (position, amount)) : s.escalate id i =
      (s.active.walk (s.active.headAction i position) (.scheme i position)).foldl (State.handIn id op.priority op.takenSchemes)
        (s.updOp id (fun o => o.updPart i (fun t => t.addReplacement position amount (s.active.headAction i position)))) := by
  simp only [State.escalate, found, taken, if_pos more, candidate]

/-- With an escalation limit of 0 no scheme is escalated. -/
theorem escalate_of_limit_zero (limit : (s.active.scheme i).escalation = 0) : s.escalate id i = s := by
  unfold State.escalate
  cases found : s.findOp id with
  | none => rfl
  | some op =>
    dsimp only
    cases taken : op.takenPart i with
    | none => rfl
    | some x => exact if_neg (by omega)

theorem expireFor_of_found (action : Nat) (found : s.findOp id = some op) : s.expireFor action id =
    (op.failing action).foldl (State.escalate id) (s.updOp id (Operation.finish action .expired)) := by
  rw [State.expireFor, found]

theorem updOp_expired (s : State) (id action : Nat) : s.updOp id (Operation.finish action .expired) = { s with tracker := { s.tracker with
    ops := s.tracker.ops.map (fun o => if o.id = id then o.settled action .failed .expired (fun _ => 0) else o) } } := by
  simp only [← finish_expired]
  rfl

end

/-- The expiry of an entry of one operation that waits for nothing else closes the operation (R96, R99). -/
theorem expireEntry_closes {s : State} {e : Entry} {op : Operation} (refs : e.refs = [op.id]) (ops : s.tracker.ops = [op])
    (tracking : op.phase = .tracking) (last : op.outstanding = 1) (no_escalation : ∀ i, (s.active.scheme i).escalation = 0) :
    s.expireEntry e = ((s.removeEntry e.action).updOp op.id (Operation.finish e.action .expired)).closeOp
      (op.finish e.action .expired) := by
  have found : (s.removeEntry e.action).findOp op.id = some op := by
    show s.tracker.ops.find? _ = _
    rw [ops]
    simp
  have unescalated : ∀ (l : List Nat) (t : State), t.active = s.active → l.foldl (State.escalate op.id) t = t := by
    intro l
    induction l with
    | nil => exact fun _ _ => rfl
    | cons x l ih =>
      intro t active
      rw [List.foldl_cons, escalate_of_limit_zero (by rw [active]; exact no_escalation x)]
      exact ih t active
  have table : ((s.removeEntry e.action).updOp op.id (Operation.finish e.action .expired)).tracker.ops
      = [op.finish e.action .expired] := by
    show s.tracker.ops.map _ = _
    rw [ops]
    simp
  have finished : (op.finish e.action .expired).finished = true := by
    rw [finished_iff]
    exact ⟨tracking, by show op.outstanding - 1 = 0; omega⟩
  rw [State.expireEntry, refs, List.foldl_cons, List.foldl_nil, expireFor_of_found _ found,
    unescalated _ ((s.removeEntry e.action).updOp op.id (Operation.finish e.action .expired)) rfl,
    State.closeFinished, table]
  simp [finished]

/-- Settles O28: the entry leaves first; `EntriesStand` carries the others through the expiries, and each escalation is one of two. -/
theorem entryExpiry : Obligations.EntryExpiry := by
  refine ⟨fun s a held => ⟨fun e live due => ?expires, fun not_due => exec_entryExpiry_of_not_due held not_due⟩,
    fun s a e held live refs due waiting => ?untracked, fun s a e op held live refs due ops tracking last no_escalation => ?tracked,
    fun s a id op found => ?operation, fun s id i op x found ⟨part, inParts, taken⟩ => ?escalation⟩
  case expires =>
    obtain ⟨-, own⟩ := liveEntry_some live
    have stand := entriesStand_expireEntry s.quiet e
    rw [own] at stand
    exact ⟨_, exec_entryExpiry held live due, serviceOnly_of stand.surr, stand.monitor, stand.engine, stand.old, stand.new⟩
  case untracked =>
    obtain ⟨-, own⟩ := liveEntry_some live
    rw [exec_entryExpiry held live due, State.expireEntry, refs, List.foldl_nil, closeFinished_nil (s := s.quiet.removeEntry _) waiting, own]
    rfl
  case tracked =>
    obtain ⟨-, own⟩ := liveEntry_some live
    have ran := exec_entryExpiry held live due
    rw [expireEntry_closes (s := s.quiet) refs ops tracking last no_escalation, own] at ran
    obtain ⟨queue, -, -, -, tracker, log, -⟩ := closeOp_keeps ((s.quiet.removeEntry a).updOp op.id (Operation.finish a .expired))
      (op.finish a .expired)
    refine ⟨_, ran, ?_, by rw [queue]; rfl, _, by rw [log]; rfl, rfl, ?_⟩
    · rw [tracker]
      show (s.tracker.ops.map _).filter _ = []
      rw [ops]
      simp
    · rw [← finish_expired]
  case operation =>
    refine ⟨op.failing a, failing_spec op a, List.filter_sublist.map _, ?_⟩
    rw [expireFor_of_found a found, updOp_expired]
  case escalation =>
    have has := takenPart_of_find inParts taken
    exact ⟨escalate_of_none found has, fun position amount more candidate => escalate_of_some found has more candidate⟩

end Sys2Proof.Machine
end

section
/-! The expansion completion of a service (R60, R71, R72, R74, R99). -/

namespace Sys2Proof.Machine

/-- The scheme is OPERATED. -/
def State.Operated (i : Nat) (s : State) : Prop := (s.scheme i).state = .operated

theorem State.Operated.of_schemes {i : Nat} {s t : State} (h : s.Operated i) (same : t.arming.schemes = s.arming.schemes) : t.Operated i := by
  rw [Operated, State.scheme, same]
  exact h

/-- A scheme of the table, by its state. -/
theorem lt_of_operated {i : Nat} {s : State} (h : s.Operated i) : i < s.arming.schemes.length := by
  by_contra beyond
  rw [State.Operated, State.scheme, List.getD_eq_default _ _ (not_lt.1 beyond)] at h
  cases h

theorem State.Operated.updScheme {i : Nat} {s : State} (h : s.Operated i) (j : Nat) {f : SchemeRec → SchemeRec}
    (keeps : ∀ r : SchemeRec, r.state = .operated → (f r).state = .operated) : (s.updScheme j f).Operated i := by
  by_cases same : j = i
  · subst same
    have record : (s.updScheme j f).scheme j = f (s.scheme j) := getD_modify_self _ _ (lt_of_operated h) _ _
    rw [Operated, record]
    exact keeps _ h
  · have record : (s.updScheme j f).scheme i = s.scheme i := getD_modify_ne _ _ _ same _ _
    rw [Operated, record]
    exact h

theorem operated_endWork {i : Nat} {s : State} (h : s.Operated i) (j : Nat) : (s.endWork j).Operated i := by
  unfold State.endWork
  split
  · exact h.updScheme j (fun _ _ => rfl)
  · exact h

/-- The elementary operations of a service keep an OPERATED scheme OPERATED. -/
theorem operated_serviceKeeps (i : Nat) : ServiceKeeps (State.Operated i) where
  record _ _ _ h := h
  handed id p taken s n h := (handKeeps_state (handKeeps_handIn id p taken s n) i (lt_of_operated h)).trans h
  removed _ _ h := h
  sent _ _ _ h := h
  closed s op h := by
    have latched := foldl_pres (State.Operated i) (fun t (p : Participation) ht =>
      (handKeeps_state (handKeeps_latchHardTrip t p.scheme) i (lt_of_operated ht)).trans ht) (op.parts.filter Participation.isShort) s h
    exact foldl_pres (State.Operated i) (fun _ (p : Participation) ht => operated_endWork ht p.scheme)
      (op.parts.filter (fun p => p.taken.isSome)) _ latched
  ended s j h := operated_endWork h j
  opened s c path p phase taken h := by
    obtain ⟨-, arming, -⟩ := openWork_keeps s c path p phase taken
    exact h.of_schemes (congrArg ArmingState.schemes arming)

/-- The take touches ARMED schemes alone. -/
theorem operated_arbiterTake {i : Nat} {s : State} (h : s.Operated i) : s.arbiterTake.Operated i := by
  unfold State.arbiterTake
  split
  · exact h
  · split
    · exact h
    · rename_i c _
      have unarmed : ¬ ∃ t ∈ s.armedOf (s.active.cont c).schemes, t.scheme = i := by
        rw [armedOf_taken_iff]
        rintro ⟨-, -, armed, -⟩
        cases h.symm.trans armed
      rw [State.Operated, take_scheme (lt_of_operated h), if_neg unarmed]
      exact h

theorem lt_of_operating {i : Nat} {s : State} (h : (s.scheme i).state = .operating) : i < s.arming.schemes.length := by
  by_contra beyond
  rw [State.scheme, List.getD_eq_default _ _ (not_lt.1 beyond)] at h
  cases h

/-- Ending the work of a list of schemes takes an OPERATING one of them to OPERATED (R22). -/
theorem endWorks_operated {i : Nat} (l : List Nat) {s : State} (mem : i ∈ l) (operating : (s.scheme i).state = .operating) :
    (l.foldl State.endWork s).Operated i := by
  induction l generalizing s with
  | nil => cases mem
  | cons x l ih =>
    rw [List.foldl_cons]
    by_cases same : x = i
    · subst same
      have record : (s.endWork x).Operated x := by
        rw [State.endWork, if_pos operating]
        exact congrArg SchemeRec.state (getD_modify_self _ _ (lt_of_operating operating) _ _)
      exact foldl_pres (State.Operated x) (fun _ j h => operated_endWork h j) l _ record
    · have record : (s.endWork x).scheme i = s.scheme i := by
        unfold State.endWork
        split
        · exact getD_modify_ne _ _ _ same _ _
        · rfl
      exact ih ((List.mem_cons.1 mem).resolve_left (Ne.symm same)) (by rw [record, operating])

/-! The arbiter's take after a completion. -/

/-- A take leaves a contingency that is not PENDING, and the last served, as they are. -/
theorem arbiterTake_keeps {s : State} {c : Nat} (h : (s.cont c).state ≠ .pending) :
    s.arbiterTake.cont c = s.cont c ∧ s.arbiterTake.monitor.lastServed = s.monitor.lastServed := by
  unfold State.arbiterTake
  split
  · exact ⟨rfl, rfl⟩
  · split
    · exact ⟨rfl, rfl⟩
    · rename_i chosen is
      have other : c ≠ chosen := by
        rintro rfl
        exact h ((mem_pendingSet s c).1 ((chosen_spec s).2 c is).1).2
      refine ⟨?_, by rw [take_monitor]⟩
      rw [cont_congr (s := s.updCont chosen (fun r => { r with state := .serving }))
        (congrArg MonitorState.conts (take_monitor s chosen)) c, updCont_ne (Ne.symm other)]

/-- The operations after a take: those before, and one that is EXPANDING. -/
theorem mem_arbiterTake_ops {s : State} {op : Operation} (mem : op ∈ s.arbiterTake.tracker.ops) :
    op ∈ s.tracker.ops ∨ op.phase = .expanding := by
  unfold State.arbiterTake at mem
  split at mem
  · exact .inl mem
  · split at mem
    · exact .inl mem
    · rename_i c _
      rw [take_tracker] at mem
      by_cases room : s.tracker.ops.length < 8
      · rw [openWork_tracked room] at mem
        obtain ⟨new, opened, lower, higher, before, after, -⟩ := allocate_spec s c .ordinary (s.active.cont c).priority .expanding
          (s.armedOf (s.active.cont c).schemes)
        rw [after, List.mem_append, List.mem_cons] at mem
        rw [before, List.mem_append]
        rcases mem with mem | rfl | mem
        · exact .inl (.inl mem)
        · exact .inr (by rw [opened.record])
        · exact .inl (.inr mem)
      · rw [openWork_untracked (not_lt.1 room)] at mem
        exact .inl mem

/-! The completion up to the take. -/

section
variable (s : State) (snap : Snapshot)

/-- The completion before the arbiter's take (R60, R74, R99). -/
def State.completedService : State := (((s.expanded snap).served snap.contingency).setEngine none).closeFinished

theorem completeExpansion_take : s.completeExpansion snap = (s.completedService snap).arbiterTake := rfl

/-- The operation of the service in TRACKING (R74). -/
def State.trackingFor (s : State) (id : Nat) : State := if id = 0 then s else s.updOp id (fun op => { op with phase := .tracking })

theorem trackingFor_eq (id : Nat) : s.trackingFor id = { s with tracker := { s.tracker with ops := s.tracker.ops.map (fun o =>
    if id ≠ 0 ∧ o.id = id then { o with phase := .tracking } else o) } } := by
  unfold State.trackingFor
  by_cases untracked : id = 0
  · have same : s.tracker.ops.map (fun o => if id ≠ 0 ∧ o.id = id then { o with phase := .tracking } else o) = s.tracker.ops := by
      conv_rhs => rw [← List.map_id s.tracker.ops]
      exact List.map_congr_left fun o _ => if_neg (fun h => h.1 untracked)
    rw [if_pos untracked, same]
  · rw [if_neg untracked]
    simp only [ne_eq, untracked, not_false_eq_true, true_and]
    rfl

/-- The hand-ins of a completion (R72). -/
def State.handedFor (s : State) (snap : Snapshot) : State :=
  (s.active.serviceNodes snap.taken snap.directHead).foldl
    (State.handIn snap.opId snap.priority (snap.taken.map SchemeCopy.scheme)) (s.trackingFor snap.opId)

theorem expanded_eq : s.expanded snap =
    if snap.opId = 0 then (snap.taken.map SchemeCopy.scheme).foldl State.endWork (s.handedFor snap) else s.handedFor snap := rfl

theorem endWork_keeps (t : State) (i : Nat) : (t.endWork i).queue = t.queue ∧ (t.endWork i).tracker = t.tracker := by
  unfold State.endWork
  split <;> exact ⟨rfl, rfl⟩

theorem expanded_keeps : (s.expanded snap).queue = (s.handedFor snap).queue ∧ (s.expanded snap).tracker = (s.handedFor snap).tracker := by
  rw [expanded_eq]
  split
  · exact ⟨foldl_keeps State.queue (fun t i => (endWork_keeps t i).1) _ _, foldl_keeps State.tracker (fun t i => (endWork_keeps t i).2) _ _⟩
  · exact ⟨rfl, rfl⟩

theorem trackingFor_keeps (id : Nat) : (s.trackingFor id).queue = s.queue ∧ (s.trackingFor id).points = s.points
    ∧ (s.trackingFor id).banks = s.banks ∧ (s.trackingFor id).timeBase = s.timeBase ∧ (s.trackingFor id).arming = s.arming := by
  rw [trackingFor_eq]
  exact ⟨rfl, rfl, rfl, rfl, rfl⟩

theorem completeExpansion_queue : (s.completeExpansion snap).queue = ((s.active.serviceNodes snap.taken snap.directHead).foldl
    (State.handIn snap.opId snap.priority (snap.taken.map SchemeCopy.scheme)) s).queue := by
  obtain ⟨queue, -⟩ := closeFinished_keeps (((s.expanded snap).served snap.contingency).setEngine none)
  obtain ⟨expanded, -⟩ := expanded_keeps s snap
  obtain ⟨sameQueue, points, banks, time, -⟩ := trackingFor_keeps s snap.opId
  rw [completeExpansion_take, arbiterTake_queue]
  exact (queue.trans expanded).trans (handIns_queue_congr _ _ _ _ sameQueue points banks time)

theorem completedService_engine : (s.completedService snap).engine = none := (monitorIs_closeFinished _).2

/-- The contingencies when the arbiter looks: the served one SERVED, the others as they were (R60). -/
theorem completedService_monitor : (s.completedService snap).monitor = { s.monitor with
    conts := s.monitor.conts.modify snap.contingency (fun r => { r with state := .served, rearm := 0 })
    lastServed := some snap.contingency } := by
  have expanded : (s.expanded snap).monitor = s.monitor := (monitorIs_expanded s snap).1
  rw [State.completedService, (monitorIs_closeFinished _).1]
  show ((s.expanded snap).served snap.contingency).monitor = _
  simp only [State.served, State.updCont, State.setMonitor, expanded]

variable {s snap}

theorem completedService_cont (below : snap.contingency < s.monitor.conts.length) :
    (s.completedService snap).cont snap.contingency = { s.cont snap.contingency with state := .served, rearm := 0 } := by
  rw [State.cont, completedService_monitor]
  exact getD_modify_self _ _ below _ _

/-- A completion of the contingency that is SERVING leaves the pending set as it was (R60). -/
theorem completedService_pendingSet (below : snap.contingency < s.monitor.conts.length) (serving : (s.cont snap.contingency).state = .serving) :
    (s.completedService snap).pendingSet = s.pendingSet := by
  refine pendingSet_congr fun c _ => ?_
  by_cases same : c = snap.contingency
  · subst same
    rw [completedService_cont below, serving]
    exact iff_of_false ContState.noConfusion ContState.noConfusion
  · have other : (s.completedService snap).cont c = s.cont c := by
      rw [State.cont, completedService_monitor]
      exact getD_modify_ne _ _ _ (Ne.symm same) _ _
    rw [other]

theorem completeExpansion_operated {i : Nat} (untracked : snap.opId = 0) (taken : i ∈ snap.taken.map SchemeCopy.scheme)
    (operating : (s.scheme i).state = .operating) : ((s.completeExpansion snap).scheme i).state = .operated := by
  have handed : ((s.handedFor snap).scheme i).state = .operating := by
    have arming : (s.trackingFor snap.opId).arming = s.arming := by
      rw [trackingFor_eq]
    have same : (s.trackingFor snap.opId).scheme i = s.scheme i := by
      rw [State.scheme, arming]
      rfl
    refine (handKeeps_state (handKeeps_handIns _ _ _ _ _) i ?_).trans (same ▸ operating)
    rw [arming]
    exact lt_of_operating operating
  have ended : (s.expanded snap).Operated i := by
    rw [expanded_eq, if_pos untracked]
    exact endWorks_operated _ taken handed
  exact operated_arbiterTake ((operated_serviceKeeps i).closeFinished ended)

/-- After the completion no TRACKING operation is left with nothing to wait for (R99). -/
theorem completeExpansion_waits : ∀ op ∈ (s.completeExpansion snap).tracker.ops, op.phase = .tracking → op.outstanding ≠ 0 := by
  intro op mem tracking finished
  rw [completeExpansion_take] at mem
  rcases mem_arbiterTake_ops mem with old | expanding
  · obtain ⟨before, unclosed⟩ := (mem_closeFinished _ op).1 old
    exact unclosed op before tracking finished rfl
  · cases expanding.symm.trans tracking

/-- The operation of the service is TRACKING when the completion closes what is finished (R74). -/
theorem completedService_tracking (tracked : snap.opId ≠ 0) : ∀ op ∈ (s.completedService snap).tracker.ops, op.id = snap.opId →
    op.phase = .tracking := by
  intro op mem own
  obtain ⟨before, -⟩ := (mem_closeFinished _ op).1 mem
  have handed : op ∈ (s.handedFor snap).tracker.ops := by
    rw [← (expanded_keeps s snap).2]
    exact before
  have ids : (s.handedFor snap).tracker.ops.map (fun o => (o.id, o.contingency, o.phase))
      = (s.trackingFor snap.opId).tracker.ops.map (fun o => (o.id, o.contingency, o.phase)) :=
    congrArg HandKeeps.ids (handKeeps_handIns _ _ _ _ _)
  obtain ⟨base, baseMem, same⟩ := List.mem_map.1 (ids ▸ List.mem_map_of_mem handed)
  rw [Prod.mk.injEq, Prod.mk.injEq] at same
  obtain ⟨sameId, -, samePhase⟩ := same
  rw [trackingFor_eq] at baseMem
  obtain ⟨o, -, rfl⟩ := List.mem_map.1 baseMem
  rw [← samePhase]
  by_cases mine : snap.opId ≠ 0 ∧ o.id = snap.opId
  · rw [if_pos mine]
  · rw [if_neg mine] at sameId
    exact absurd ⟨tracked, sameId.trans own⟩ mine

end

/-- The arbiter takes the one contingency that is PENDING (R59). -/
theorem arbiterTake_of_one_pending {s : State} {c : Nat} (idle : s.engine = none) (h : s.pendingSet = [c]) : s.arbiterTake = s.take c := by
  obtain ⟨noneIff, best⟩ := chosen_spec s
  unfold State.arbiterTake
  rw [idle]
  cases is : s.chosen with
  | none => exact absurd (noneIff.1 is) (by rw [h]; exact List.cons_ne_nil _ _)
  | some c' =>
    have mem : c' ∈ s.pendingSet := (best c' is).1
    rw [h, List.mem_singleton] at mem
    rw [mem]

/-- Settles O29: the completion is its hand-ins, the closures and the arbiter's take, and each part is read off a lemma of its own. -/
theorem expansionCompletionServes : Obligations.ExpansionCompletionServes := by
  rintro s snap held ⟨-, -, -, conts⟩ engine below serving
  have inTable : snap.contingency < s.quiet.monitor.conts.length := conts.symm ▸ below
  have ran : exec .expansionCompletion s = .next (s.quiet.completeExpansion snap) := by
    have ran : execExpansionCompletion s = .next _ := running_next held _
    refine ran.trans ?_
    rw [show s.quiet.engine = some snap from engine]
  have record := completedService_cont (s := s.quiet) inTable
  have monitor := completedService_monitor s.quiet snap
  have pending : (s.quiet.completedService snap).pendingSet = s.pendingSet := completedService_pendingSet inTable serving
  have idle := completedService_engine s.quiet snap
  obtain ⟨kept, lastServed⟩ := arbiterTake_keeps (s := s.quiet.completedService snap) (c := snap.contingency)
    (by rw [record]; exact ContState.noConfusion)
  have served : (s.quiet.completeExpansion snap).cont snap.contingency
      = { s.quiet.cont snap.contingency with state := .served, rearm := 0 } := kept.trans record
  have untaken (none : s.pendingSet = []) : s.quiet.completeExpansion snap = s.quiet.completedService snap :=
    arbiterTake_of_none_pending (pending.trans none)
  refine ⟨_, ran, congrArg ContRec.state served, congrArg ContRec.rearm served, lastServed.trans (by rw [monitor]), ?_,
    fun untracked i _ taken operating => completeExpansion_operated untracked taken operating,
    fun none => (congrArg State.engine (untaken none)).trans idle, fun c one => ?_,
    serviceOnly_of (State.surroundings_completeExpansion _ _), completeExpansion_waits,
    fun tracked none op mem own => completedService_tracking tracked op (untaken none ▸ mem) own, ?_⟩
  · exact (completeExpansion_queue s.quiet snap).trans (handIns_queue_congr _ _ _ _ rfl rfl rfl rfl)
  · have took : s.quiet.completeExpansion snap = (s.quiet.completedService snap).take c :=
      arbiterTake_of_one_pending idle (pending.trans one)
    obtain ⟨small, -⟩ := (mem_pendingSet s c).1 (one ▸ List.mem_singleton_self c)
    have length : c < (s.quiet.completedService snap).monitor.conts.length := by
      rw [monitor]
      exact (List.length_modify _ _ _).symm ▸ conts.symm ▸ small
    rw [took]
    refine ⟨?_, take_engine _ c⟩
    rw [State.cont, take_monitor]
    exact congrArg ContRec.state (getD_modify_self _ _ length _ _)
  · rw [completeExpansion_take, State.completedService, expanded_eq, State.handedFor, trackingFor_eq]
    rfl

end Sys2Proof.Machine
end

section
/-! Own slots, waiting copies and the timing port (R140, R141, R156 to R158, R175). -/

namespace Sys2Proof.Machine

/-! What a move of the link keeps. -/

theorem LinkMove.copiesKept {l m : LinkState} (move : LinkMove l m) {s t : State} (before : s.link = l) (after : t.link = m) :
    CopiesKept s t := by
  have refl (s : State) : CopiesKept s s := .same (fun _ => rfl) (fun _ h => h)
  induction move generalizing s t with
  | refl => exact (refl s).link (after.trans before.symm)
  | record l side p same =>
    subst before
    exact ((refl s).setPort side p same).link after
  | change l side p =>
    subst before
    exact ((refl s).changePort side false p).link after
  | copies l waiting fewer =>
    subst before
    exact .same (fun side => by rw [State.port, after]; rfl) (fun w mem => by rw [after] at mem; exact fewer w mem)
  | @trans _ m _ _ _ first second => exact (first (t := { s with link := m }) before rfl).trans (second rfl after)

theorem LinkMove.timingKept {l m : LinkState} (move : LinkMove l m) {s t : State} (before : s.link = l) (after : t.link = m) :
    TimingKept s t := by
  have refl (s : State) : TimingKept s s := .same (fun _ => rfl) rfl
  induction move generalizing s t with
  | refl => exact (refl s).link (after.trans before.symm)
  | record l side p same =>
    subst before
    exact ((refl s).setPort side p same).link after
  | change l side p unlocked =>
    subst before
    exact ((refl s).changePort side p unlocked).link after
  | copies l waiting =>
    subst before
    exact .same (fun side => by rw [State.port, after]; rfl) (by rw [after])
  | @trans _ m _ _ _ first second => exact (first (t := { s with link := m }) before rfl).trans (second rfl after)

/-- A MARKER's use for timing (R158). -/
theorem timeMarker_copiesKept (s : State) (side : Side) (start : Nat) (cycle : Byte) (slots : Nat) :
    CopiesKept s (s.timeMarker side start cycle slots) := by
  have refl : CopiesKept s s := .same (fun _ => rfl) (fun _ h => h)
  have take (p : PortRec) : CopiesKept s (s.takeMarker side cycle p) :=
    (refl.changePort side true p).ofPorts rfl (fun _ h => h)
  have down : CopiesKept s (s.portDown side) := refl.changePort side false _
  unfold State.timeMarker
  dsimp only
  split
  · exact refl
  · split
    · exact take _
    · exact refl
  · split
    · exact down
    · split <;> exact take _
  · split
    · exact down
    · split
      · exact take _
      · exact refl
  · split
    · exact refl.setPort side _ rfl
    · split <;> exact take _

/-- No command leaves a waiting copy behind a change of its transmitter's timing source (R158). -/
theorem exec_waiting {s t : State} {c : Instr} (ran : exec c s = .next t) : (t.timingPort ≠ s.timingPort → t.link.waiting = [])
    ∧ ∀ w ∈ t.link.waiting, (s.port w.tx.other).state = .locked → (t.port w.tx.other).state = .locked := by
  have of_kept (kept : CopiesKept s t) : (t.timingPort ≠ s.timingPort → t.link.waiting = [])
      ∧ ∀ w ∈ t.link.waiting, (s.port w.tx.other).state = .locked → (t.port w.tx.other).state = .locked := by
    obtain ⟨-, moved, locked⟩ := kept
    exact ⟨moved, locked⟩
  have effect := exec_link ran
  generalize link : t.link = l at effect
  cases effect with
  | moved move => exact link ▸ of_kept (move.copiesKept rfl link)
  | timed u side start cycle slots _ move =>
    exact link ▸ of_kept (((move.copiesKept rfl rfl).trans (timeMarker_copiesKept u side start cycle slots)).link link)
  | sent waiting =>
    have same (side : Side) : (t.port side).state = (s.port side).state := by rw [State.port, link]; rfl
    exact ⟨fun moved => absurd (timingPort_states same) moved, fun w _ locked => (same _).trans locked⟩
  | reset => exact ⟨fun _ => rfl, fun w mem => by cases mem⟩

/-! A MARKER received, and the timing port (R149, R156). -/

/-- A frame off a slot leaves the ports but for a counter. -/
theorem offSlot_link (s : State) (side : Side) (start : Nat) (words : List Word) :
    ∃ f, (s.offSlot side start words).link = (s.countPort side f).link := by
  have error (slot : Option Nat) (k : Nat) : ∃ f, (s.framingError side slot k words).link = (s.countPort side f).link := by
    refine ⟨fun c => { c with framing := satInc c.framing }, ?_⟩
    unfold State.framingError State.repeatBroken
    dsimp only
    split
    · split
      · exact repeatWords_link _ _ _ _
      · rfl
    · rfl
  unfold State.offSlot
  split <;> exact error _ _

/-- So does a good frame in a slot that is handed on to nothing. -/
theorem goodInSlot_link (s : State) (rx : Reception) (kind : BitVec 4) (payload : List Word) (slot : Nat) :
    (s.goodInSlot rx kind payload slot (fun s => s)).link = s.link
      ∨ ∃ f, (s.goodInSlot rx kind payload slot (fun s => s)).link = (s.countPort rx.port f).link := by
  unfold State.goodInSlot
  split
  · exact .inl rfl
  · exact .inr ⟨_, rfl⟩
  · exact .inl (repeatWords_link _ _ _ _)

theorem port_countPort (s : State) (side : Side) (f : PortCounters → PortCounters) (side' : Side) :
    ∃ counters, (s.countPort side f).port side' = { s.port side' with counters := counters } := by
  cases side <;> cases side'
  · exact ⟨_, rfl⟩
  · exact ⟨(s.port .west).counters, rfl⟩
  · exact ⟨(s.port .east).counters, rfl⟩
  · exact ⟨_, rfl⟩

theorem countPort_ownSlotsRun (s : State) (side : Side) (f : PortCounters → PortCounters) :
    (s.countPort side f).link.ownSlotsRun = s.link.ownSlotsRun := by
  cases side <;> rfl

/-- The reception of a frame as far as the link goes: the counters alone have changed. -/
def State.LinkStands (s u : State) : Prop :=
  (∀ side, ∃ counters, u.port side = { s.port side with counters := counters }) ∧ u.link.ownSlotsRun = s.link.ownSlotsRun

theorem State.LinkStands.of_link {s u : State} (same : u.link = s.link) : s.LinkStands u :=
  ⟨fun side => ⟨(s.port side).counters, by rw [State.port, same]; rfl⟩, by rw [same]⟩

theorem State.LinkStands.of_countPort {s u : State} {side : Side} {f : PortCounters → PortCounters}
    (same : u.link = (s.countPort side f).link) : s.LinkStands u := by
  have port : u.port = (s.countPort side f).port := by unfold State.port; rw [same]
  refine ⟨fun side' => ?_, by rw [same, countPort_ownSlotsRun]⟩
  rw [port]
  exact port_countPort s side f side'

section
variable {s u : State}

theorem State.LinkStands.state (h : s.LinkStands u) (side : Side) : (u.port side).state = (s.port side).state := by
  obtain ⟨ports, -⟩ := h
  obtain ⟨counters, port⟩ := ports side
  rw [port]

theorem State.LinkStands.position (h : s.LinkStands u) (side : Side) : (u.port side).position = (s.port side).position := by
  obtain ⟨ports, -⟩ := h
  obtain ⟨counters, port⟩ := ports side
  rw [port]

theorem State.LinkStands.adoptedS (h : s.LinkStands u) (side : Side) : (u.port side).adoptedS = (s.port side).adoptedS := by
  obtain ⟨ports, -⟩ := h
  obtain ⟨counters, port⟩ := ports side
  rw [port]

theorem State.LinkStands.timingKept (h : s.LinkStands u) : TimingKept s u := by
  have states := h.state
  obtain ⟨-, runs⟩ := h
  exact .same states runs

/-- A MARKER after a frame that left the link standing. -/
theorem MarkerTiming.after {t : State} {side : Side} (stands : s.LinkStands u) (timing : MarkerTiming side u t) : MarkerTiming side s t := by
  have port : u.timingPort = s.timingPort := timingPort_states stands.state
  obtain ⟨-, runs⟩ := stands
  unfold MarkerTiming at timing ⊢
  rwa [port, runs] at timing

end

/-- A MARKER received, and the timing port (R149, R156). -/
theorem receiveMarker_timing (s : State) (rx : Reception) (w : Word) : MarkerTiming rx.port s (s.receiveMarker rx w) := by
  unfold State.receiveMarker
  dsimp only
  split
  · split
    · obtain ⟨f, same⟩ := offSlot_link s rx.port rx.start (receivedWords rx 0 [w])
      have stands := State.LinkStands.of_countPort same
      exact .kept stands.timingKept (fun moved => absurd (timingPort_states stands.state) moved)
    · rename_i slot _
      refine .after ?_ (timeMarker_timing _ _ _ _ _)
      rcases goodInSlot_link s rx 0 [w] slot with same | ⟨f, same⟩
      · exact .of_link same
      · exact .of_countPort same
  · exact timeMarker_timing _ _ _ _ _

/-- A command that is the reception of a MARKER is one on one port. -/
theorem markerOn_iff {c : Instr} {side side' : Side} (h : MarkerOn c side) : MarkerOn c side' ↔ side' = side := by
  refine ⟨fun h' => ?_, fun same => same ▸ h⟩
  obtain ⟨rx, w, is, rfl⟩ := h
  obtain ⟨rx', w', is', rfl⟩ := h'
  rcases is with rfl | rfl
  · rcases is' with same | same <;> cases same
    rfl
  · rcases is' with same | same <;> cases same
    rfl

theorem exec_markerOn {c : Instr} {side : Side} (h : MarkerOn c side) : ∃ rx w, rx.port = side
    ∧ ∀ s : State, s.held = false → exec c s = .next (s.quiet.receiveMarker rx w) := by
  obtain ⟨rx, w, is, port⟩ := h
  refine ⟨rx, w, port, fun s held => ?_⟩
  rcases is with rfl | rfl
  · have ran : execMarker rx w s = .next _ := running_next held _
    exact ran
  · have ran : execRepeatedFrame rx 0 [w] s = .next _ := running_next held _
    exact ran

/-- What any command makes of the running of own slots (R156). -/
theorem exec_ownSlotsRun {s t : State} {c : Instr} (ran : exec c s = .next t) :
    (t.timingPort ≠ s.timingPort → (t.link.ownSlotsRun = true ↔ ∃ side, t.timingPort = some side ∧ MarkerOn c side))
    ∧ ∀ side, s.timingPort = some side → t.timingPort = some side →
      (s.link.ownSlotsRun = true → t.link.ownSlotsRun = true)
      ∧ (t.link.ownSlotsRun = true → s.link.ownSlotsRun = true ∨ MarkerOn c side) := by
  have quiet (kept : TimingKept s t) (none : ∀ side, ¬ MarkerOn c side) :
      (t.timingPort ≠ s.timingPort → (t.link.ownSlotsRun = true ↔ ∃ side, t.timingPort = some side ∧ MarkerOn c side))
      ∧ ∀ side, s.timingPort = some side → t.timingPort = some side →
        (s.link.ownSlotsRun = true → t.link.ownSlotsRun = true)
        ∧ (t.link.ownSlotsRun = true → s.link.ownSlotsRun = true ∨ MarkerOn c side) := by
    obtain ⟨-, ran_before, goes_on⟩ := kept
    refine ⟨fun moved => ⟨fun runs => ?_, fun ⟨side, _, marker⟩ => absurd marker (none side)⟩, fun side before after => ⟨fun runs => ?_,
      fun runs => ?_⟩⟩
    · obtain ⟨-, same⟩ := ran_before runs
      exact absurd same moved
    · exact goes_on (after.trans before.symm) (after ▸ Option.some_ne_none side) runs
    · obtain ⟨before, -⟩ := ran_before runs
      exact .inl before
  by_cases marked : ∃ side, MarkerOn c side
  · obtain ⟨side, marker⟩ := marked
    have timing : MarkerTiming side s t := by
      obtain ⟨rx, w, rfl, does⟩ := exec_markerOn marker
      by_cases held : s.held = true
      · have idle : exec c s = .next s.quiet := by
          obtain ⟨rx', w', rfl | rfl, -⟩ := marker
          · show Host.Outcome.next (if s.held = true then s.quiet else _) = _
            rw [if_pos held]
          · show Host.Outcome.next (if s.held = true then s.quiet else _) = _
            rw [if_pos held]
        cases (Host.Outcome.next.inj (idle.symm.trans ran))
        exact .kept (.same (fun _ => rfl) rfl) (fun moved => absurd rfl moved)
      · cases (Host.Outcome.next.inj ((does s (Bool.eq_false_iff.2 held)).symm.trans ran))
        exact receiveMarker_timing s.quiet rx w
    obtain ⟨changed, stays⟩ := timing
    refine ⟨fun moved => (changed moved).trans ⟨fun h => ⟨side, h, marker⟩, ?_⟩, fun side' before after => ?_⟩
    · rintro ⟨side', h, marker'⟩
      rwa [(markerOn_iff marker).1 marker'] at h
    · obtain ⟨on, starts⟩ := stays side' before after
      exact ⟨on, fun runs => (starts runs).imp_right (markerOn_iff marker).2⟩
  · have none (side : Side) : ¬ MarkerOn c side := fun marker => marked ⟨side, marker⟩
    have effect := exec_link ran
    generalize link : t.link = l at effect
    cases effect with
    | moved move => exact link ▸ quiet (move.timingKept rfl link) none
    | timed _ side _ _ _ marker _ => exact absurd marker (none side)
    | sent waiting => exact link ▸ quiet (.same (fun side => by rw [State.port, link]; rfl) (by rw [link])) none
    | reset =>
      have timing : t.timingPort = .none := by rw [State.timingPort, link]; rfl
      refine ⟨fun _ => ⟨fun runs => (by cases runs), fun ⟨side, _, marker⟩ => absurd marker (none side)⟩, fun side _ after => ?_⟩
      cases timing.symm.trans after

/-! Slots by the cycle position (R140). -/

section
variable {s : State} {side : Side}

theorem slotAt_of_position {slots pos start : Nat} (inForce : s.slotsOf side = some slots) (position : (s.port side).position = some pos)
    (after : pos ≤ start) (aligned : (start - pos) % 32 = 0) : s.slotAt side start = some ((start - pos) / 32 % slots) := by
  have holding : s.slotHolding side start = some ((start - pos) / 32 % slots, 0) := by
    unfold State.slotHolding
    rw [inForce]
    show slotHolding slots (s.port side).position start = _
    rw [position]
    show (if pos ≤ start then some ((start - pos) / 32 % slots, (start - pos) % 32) else none) = _
    rw [if_pos after, aligned]
  simp only [State.slotAt, holding]

theorem locked_of_timingPort (timing : s.timingPort = some side) : (s.port side).state = .locked := by
  rw [timingPort_eq] at timing
  split at timing
  · cases timing
    assumption
  · split at timing
    · cases timing
      assumption
    · cases timing

/-- A MARKER received on the timing port at its expected position keeps own slots running, or starts them (R147, R156). -/
theorem receiveMarker_runs {rx : Reception} {w : Word} {pos : Nat} (timing : s.timingPort = some rx.port)
    (inForce : s.slotsOf rx.port = some (bits w 0 6)) (least : 4 ≤ bits w 0 6) (most : bits w 0 6 ≤ 32)
    (position : (s.port rx.port).position = some pos) (expected : rx.start = pos + 32 * bits w 0 6) :
    (s.receiveMarker rx w).timingPort = some rx.port ∧ (s.receiveMarker rx w).link.ownSlotsRun = true := by
  have slot := slotAt_of_position inForce position (start := rx.start) (by omega) (by omega)
  generalize (rx.start - pos) / 32 % bits w 0 6 = k at slot
  have received : s.receiveMarker rx w
      = (s.goodInSlot rx 0 [w] k (fun s => s)).timeMarker rx.port rx.start rx.cycle (bits w 0 6) := by
    unfold State.receiveMarker
    dsimp only
    rw [if_pos (locked_of_timingPort timing), slot]
  have stands : s.LinkStands (s.goodInSlot rx 0 [w] k (fun s => s)) := by
    rcases goodInSlot_link s rx 0 [w] k with same | ⟨f, same⟩
    · exact .of_link same
    · exact .of_countPort same
  have settings : (s.goodInSlot rx 0 [w] k (fun s => s)).slotsOf rx.port = s.slotsOf rx.port := by
    have banks : (s.goodInSlot rx 0 [w] k (fun s => s)).blank = s.blank
        ∧ (s.goodInSlot rx 0 [w] k (fun s => s)).active = s.active := by
      unfold State.goodInSlot State.repeatWords
      split
      · exact ⟨rfl, rfl⟩
      · exact ⟨rfl, rfl⟩
      · split <;> exact ⟨rfl, rfl⟩
    obtain ⟨blank, active⟩ := banks
    rw [State.slotsOf, blank, active, stands.adoptedS, State.slotsOf]
  rw [received]
  exact timeMarker_runs rx.cycle ((timingPort_states stands.state).trans timing) (settings.trans inForce) least most
    ((stands.position _).trans position) expected

end

/-! What an own slot sends, and a waiting copy (R157, R158). -/

theorem tripEntries_eq_nil {s : State} (sent : ∀ e ∈ s.queue.entries, e.repeats = 0) : s.tripEntries = [] := by
  rw [List.eq_nil_iff_forall_not_mem]
  intro e mem
  obtain ⟨live, repeats⟩ := tripEntries_mem s e mem
  exact absurd (sent e live) (Nat.pos_iff_ne_zero.1 repeats)

theorem compose_of_reply {s : State} {h : Held} (untripped : s.tripEntries = []) (holds : s.agent.holder = some h) (slot : Nat) :
    s.compose slot = (s.sendOwn slot (s.ownFrame 4 h.dest.toNat h.payload)).setAgent
      { (s.sendOwn slot (s.ownFrame 4 h.dest.toNat h.payload)).agent with holder := none, restartDue := h.restart } := by
  simp only [State.compose, untripped, holds]

theorem compose_of_idle {s : State} (untripped : s.tripEntries = []) (empty : s.agent.holder = none) (slot : Nat) :
    s.compose slot = s.sendOwn slot (s.ownFrame 5 63 s.statusPayload) := by
  simp only [State.compose, untripped, empty]

theorem exec_waitingCopySend {s : State} (held : s.held = false) (tx : Side) (start : Nat) :
    exec (.waitingCopySend tx start) s = .next (s.quiet.sendWaiting tx start) := by
  have ran : execWaitingCopySend tx start s = .next _ := running_next held _
  exact ran

/-- The first waiting copy goes out in the transmitter's slot of its number. -/
theorem sendWaiting_of_first {s : State} {tx : Side} {start slot : Nat} {words : List Word} {rest : List WaitingCopy}
    (at_ : s.slotAt tx.other start = some slot) (first : s.link.waiting = ⟨tx, slot, words⟩ :: rest) (joined : (s.port tx).state ≠ .isolated) :
    s.sendWaiting tx start = { s with
      out := s.out ++ [⟨tx, (s.port tx).state == .loopback, some slot, words⟩], link := { s.link with waiting := rest } } := by
  unfold State.sendWaiting
  rw [at_]
  dsimp only
  rw [first]
  simp only [removeFirst, List.find?_cons, beq_self_eq_true, Bool.and_self, if_true]
  exact if_neg joined

/-- The settings in force (R141). -/
theorem settings_valid {s : State} (loaded : s.active.status ≠ .blank) : (∀ side, s.slotsOf side = some s.active.link.slots)
    ∧ s.ownSlots = s.active.link.own ∧ s.partAddress = s.active.link.address ∧ s.engineerAddress = s.active.link.engineer
    ∧ s.isolation = s.active.link.isolation ∧ s.babbleLimit = s.active.link.babbleLimit ∧ s.autoRejoin = s.active.link.autoRejoin := by
  have blank : s.blank = false := beq_eq_false_iff_ne.2 loaded
  simp [State.slotsOf, State.ownSlots, State.partAddress, State.engineerAddress, State.isolation, State.babbleLimit, State.autoRejoin, blank]

theorem settings_blank {s : State} (empty : s.active.status = .blank) : (∀ side, s.slotsOf side = (s.port side).adoptedS)
    ∧ (∀ side slots, s.timingPort = some side → (s.port side).adoptedS = some slots → s.ownSlots = [slots - 1])
    ∧ s.partAddress = 62 ∧ s.engineerAddress = 63 ∧ s.isolation = false ∧ s.babbleLimit = 15 ∧ s.autoRejoin = false := by
  have blank : s.blank = true := beq_iff_eq.2 empty
  refine ⟨fun side => ?_, fun side slots timing adopted => ?_, ?_⟩
  · rw [State.slotsOf, if_pos blank]
  · rw [State.ownSlots, if_pos blank]
    simp only [timing, adopted]
  · simp [State.partAddress, State.engineerAddress, State.isolation, State.babbleLimit, State.autoRejoin, blank]

/-- Settles O30: each clause from the lemma that says it; what every command keeps is read off its effect on the link. -/
theorem ownSlotsAndWaitingCopies : Obligations.OwnSlotsAndWaitingCopies := by
  refine ⟨fun s start slot held own sent => ⟨fun h holds => ?_, fun empty => ?_⟩, statusPayload_shown,
    fun s kind dest payload side cycle timing number => ?_, fun s tx start slot words rest held at_ first joined => ?_,
    fun s t c ran => exec_waiting ran, timingPort_eq, ownSlotAt_iff, fun s start held idle => ?_, fun s t c ran => exec_ownSlotsRun ran,
    fun s rx w pos held timing inForce least most position expected => ?_, fun s => ⟨settings_valid, settings_blank⟩⟩
  · rw [exec_ownSlotStart held own, compose_of_reply (s := s.quiet) (tripEntries_eq_nil (s := s.quiet) sent) holds, sendOwn_quiet]
    rfl
  · rw [exec_ownSlotStart held own, compose_of_idle (s := s.quiet) (tripEntries_eq_nil (s := s.quiet) sent) empty, sendOwn_quiet]
    rfl
  · rw [State.ownFrame, State.cycleNumber, timing]
    dsimp only
    rw [number]
    rfl
  · rw [exec_waitingCopySend held, sendWaiting_of_first (s := s.quiet) at_ first joined]
    rfl
  · have ran : execOwnSlotStart start s = .next _ := running_next held _
    refine ran.trans ?_
    rw [show s.quiet.ownSlotAt start = none from idle]
    rfl
  · have ran : execMarker rx w s = .next _ := running_next held _
    obtain ⟨timed, runs⟩ := receiveMarker_runs (s := s.quiet) timing inForce least most position expected
    exact ⟨_, ran, timed, runs⟩

end Sys2Proof.Machine
end

section
/-! TRIP frames: which entries one carries, in what order and words, and what its sending leaves in the queue (R82 to R84, R95). -/

namespace Sys2Proof.Machine

/-! What is carried, and in what order (R82). -/

/-- The live entries of one priority with repeats remaining, in list order. -/
def State.sendable (s : State) (p : Nat) : List Entry := s.queue.entries.filter (fun e => decide (0 < e.repeats) && e.priority == p)

section
variable {s : State}

theorem mem_sendable {p : Nat} {e : Entry} : e ∈ s.sendable p ↔ e ∈ s.queue.entries ∧ 0 < e.repeats ∧ e.priority = p := by
  simp [State.sendable]

theorem tripEntries_eq : s.tripEntries = ([3, 2, 1, 0].flatMap s.sendable).take 11 := rfl

/-- Sendable entries, highest priority first. -/
theorem sendable_pairwise : ([3, 2, 1, 0].flatMap s.sendable).Pairwise (fun x y => y.priority ≤ x.priority) := by
  have descending : ∀ l : List Nat, l.Pairwise (fun p q => q ≤ p) → (l.flatMap s.sendable).Pairwise (fun x y => y.priority ≤ x.priority) := by
    intro l ordered
    rw [List.pairwise_flatMap]
    refine ⟨fun p _ => List.Pairwise.imp_of_mem (R := fun _ _ => True) (fun {x y} hx hy _ => ?_) (List.pairwise_of_forall (fun _ _ => trivial)),
      ordered.imp (fun {p q} le x hx y hy => ?_)⟩
    · obtain ⟨-, -, px⟩ := mem_sendable.1 hx
      obtain ⟨-, -, py⟩ := mem_sendable.1 hy
      omega
    · obtain ⟨-, -, px⟩ := mem_sendable.1 hx
      obtain ⟨-, -, py⟩ := mem_sendable.1 hy
      omega
  exact descending _ (by decide)

/-- The sendable entries of one priority are those of the whole list that have it. -/
theorem filter_sendable (p q : Nat) : (s.sendable q).filter (fun e => e.priority = p) = if q = p then s.sendable p else [] := by
  by_cases same : q = p
  · subst same
    rw [if_pos rfl, List.filter_eq_self]
    intro e mem
    obtain ⟨-, -, priority⟩ := mem_sendable.1 mem
    exact decide_eq_true priority
  · rw [if_neg same, List.filter_eq_nil_iff]
    intro e mem has
    obtain ⟨-, -, priority⟩ := mem_sendable.1 mem
    exact same (priority.symm.trans (of_decide_eq_true has))

theorem filter_sendables (p : Nat) : ([3, 2, 1, 0].flatMap s.sendable).filter (fun e => e.priority = p) <+: s.sendable p := by
  simp only [List.flatMap_cons, List.flatMap_nil, List.filter_append, filter_sendable, List.append_nil]
  by_cases inRange : p ≤ 3
  · interval_cases p <;> simp
  · rw [if_neg (by omega), if_neg (by omega), if_neg (by omega), if_neg (by omega)]
    exact List.nil_prefix

theorem tripEntries_order (p : Nat) : s.tripEntries.filter (fun e => e.priority = p)
    <+: s.queue.entries.filter (fun e => 0 < e.repeats ∧ e.priority = p) := by
  have same : s.queue.entries.filter (fun e => 0 < e.repeats ∧ e.priority = p) = s.sendable p :=
    List.filter_congr (fun e _ => by rw [Bool.eq_iff_iff]; simp)
  rw [same, tripEntries_eq]
  exact ((List.take_prefix 11 _).filter _).trans (filter_sendables p)

/-- An entry with repeats remaining is left out for 11 of at least its priority alone. -/
theorem tripEntries_full {e : Entry} (live : e ∈ s.queue.entries) (repeats : 0 < e.repeats) (priority : e.priority ≤ 3)
    (left_out : e ∉ s.tripEntries) : s.tripEntries.length = 11 ∧ ∀ x ∈ s.tripEntries, e.priority ≤ x.priority := by
  have candidate : e ∈ [3, 2, 1, 0].flatMap s.sendable :=
    List.mem_flatMap.2 ⟨e.priority, by have := priority; interval_cases e.priority <;> simp, mem_sendable.2 ⟨live, repeats, rfl⟩⟩
  have ordered := sendable_pairwise (s := s)
  rw [tripEntries_eq] at left_out ⊢
  generalize [3, 2, 1, 0].flatMap s.sendable = l at candidate left_out ordered
  rw [← List.take_append_drop 11 l, List.mem_append] at candidate
  have dropped : e ∈ l.drop 11 := candidate.resolve_left left_out
  rw [← List.take_append_drop 11 l, List.pairwise_append] at ordered
  obtain ⟨-, -, across⟩ := ordered
  refine ⟨?_, fun x mem => across x mem e dropped⟩
  have more := List.length_pos_of_mem dropped
  rw [List.length_drop] at more
  rw [List.length_take]
  omega

end

/-! Its words (R84). -/

theorem tripPayload_length (l : List Entry) : (tripPayload l).length = 1 + 2 * l.length := by
  rw [tripPayload, List.length_cons, commandWords_length]
  omega

theorem tripPayload_count {l : List Entry} (fits : l.length ≤ 11) : bits ((tripPayload l).getD 0 0) 0 4 = l.length := by
  have holds : bits (packWord [(0, 4, l.length)]) 0 4 = l.length % 2 ^ 4 :=
    packWord_holds (L := [(0, 4, l.length)]) rfl _ (List.mem_singleton_self _)
  refine holds.trans (Nat.mod_eq_of_lt ?_)
  omega

/-- The operation id a command carries: the lowest of its reference set (R84). -/
theorem min_refs_spec {refs : List Nat} (some_ref : refs ≠ []) : refs.min?.getD 0 ∈ refs ∧ ∀ id ∈ refs, refs.min?.getD 0 ≤ id := by
  obtain ⟨least, is⟩ := Option.isSome_iff_exists.1 (List.isSome_min?_iff.2 some_ref)
  rw [is, Option.getD_some]
  exact List.min?_eq_some_iff.1 is

/-! What the sending leaves (R83, R95). -/

section
variable {s : State}

/-- With distinct actions an entry is finished by its own action alone. -/
theorem inj_of_actions_nodup {l : List Entry} (distinct : (l.map Entry.action).Nodup) {x y : Entry} (hx : x ∈ l) (hy : y ∈ l)
    (same : x.action = y.action) : x = y := List.inj_on_of_nodup_map distinct hx hy same

theorem sendTrip_queue (entries : List Entry) : (s.sendTrip entries).queue = { s.queue with
    entries := (s.queue.entries.map (fun e => if entries.contains e then e.send else e)).filter
      (fun x => (entries.filter s.finishesSent).all (fun e => x.action != e.action)) } := by
  obtain ⟨queue, -⟩ := closeFinished_keeps ((entries.filter s.finishesSent).foldl (State.finishEntry .sent)
    (s.setQueue { s.queue with entries := s.queue.entries.map (fun e => if entries.contains e then e.send else e) }))
  exact queue.trans (finishEntries_queue _ _ _)

/-- Sent entries are counted down, and those sent for the last time without a confirm point leave. -/
theorem sendTrip_entries {entries : List Entry} (distinct : (s.queue.entries.map Entry.action).Nodup)
    (carried : ∀ e ∈ entries, e ∈ s.queue.entries) : (s.sendTrip entries).queue.entries
      = (s.queue.entries.filter (fun e => !(entries.contains e && decide (e.repeats ≤ 1) && (s.active.action e.action).confirm.isNone))).map
        (fun e => if e ∈ entries then e.send else e) := by
  have congruent : (fun e => if entries.contains e then e.send else e) = fun e => if e ∈ entries then e.send else e := by
    funext e
    exact if_congr List.contains_iff_mem rfl rfl
  rw [sendTrip_queue]
  show (s.queue.entries.map _).filter _ = _
  rw [List.filter_map, congruent]
  refine congrArg (List.map _) (List.filter_congr fun x mem => ?_)
  have action : (if x ∈ entries then x.send else x).action = x.action := by split <;> rfl
  rw [Bool.eq_iff_iff]
  simp only [Function.comp_apply, action, List.all_eq_true, List.mem_filter, State.finishesSent, Bool.and_eq_true, decide_eq_true_eq,
    bne_iff_ne, ne_eq, Bool.not_eq_true', ← Bool.not_eq_true, List.contains_iff_mem]
  constructor
  · rintro others ⟨⟨sent, last⟩, unconfirmed⟩
    exact others x ⟨sent, last, unconfirmed⟩ rfl
  · rintro stays e ⟨sent, last, unconfirmed⟩ same
    cases inj_of_actions_nodup distinct mem (carried e sent) same
    exact stays ⟨⟨sent, last⟩, unconfirmed⟩

theorem compose_of_trip {slot : Nat} (some_entry : s.tripEntries ≠ []) :
    s.compose slot = (s.sendOwn slot (s.ownFrame 2 63 (tripPayload s.tripEntries))).sendTrip s.tripEntries := by
  unfold State.compose
  cases h : s.tripEntries with
  | nil => exact absurd h some_entry
  | cons e rest => rfl

end

/-- Settles O31: the order is that of the entries' priorities, and the sending finishes exactly the entries of its last repeats. -/
theorem ownSlotSendsTripsFirst : Obligations.OwnSlotSendsTripsFirst := by
  refine ⟨?_, fun s small => ⟨?_, tripEntries_order, fun e live repeats left_out => tripEntries_full live repeats (small e live) left_out⟩,
    fun l fits => ⟨tripPayload_length l, tripPayload_count fits, ?_⟩⟩
  · rintro s start slot held own ⟨-, distinct⟩ some_entry
    intro finished
    have ran := exec_ownSlotStart held own
    rw [compose_of_trip (s := s.quiet) some_entry, sendOwn_quiet] at ran
    generalize frame : s.quiet.ownFrame 2 63 (tripPayload s.quiet.tripEntries) = words at ran
    have outside := surroundings_sendTrip (s.ownSent slot words) s.tripEntries
    obtain ⟨monitor, engine⟩ := monitorIs_sendTrip (s.ownSent slot words) s.tripEntries
    have queue := sendTrip_queue (s := s.ownSent slot words) s.tripEntries
    refine ⟨_, ran, ?_, tripEntries_mem s, ?_, ?_, (congrArg QueueState.nextOrder queue :), ?_, congrArg Surroundings.agent outside, monitor, engine,
      congrArg Surroundings.points outside, congrArg Surroundings.banks outside⟩
    · rw [tripEntries_eq]
      exact List.length_take_le _ _
    · rw [show s.ownFrame 2 63 (tripPayload s.tripEntries) = words from frame]
      exact congrArg Surroundings.out outside
    · rw [show s.ownFrame 2 63 (tripPayload s.tripEntries) = words from frame]
      exact congrArg Surroundings.link outside
    · exact sendTrip_entries (s := s.ownSent slot words) distinct (fun e mem => (tripEntries_mem s e mem).1)
  · rw [tripEntries_eq]
    exact (sendable_pairwise (s := s)).sublist (List.take_sublist _ _)
  · intro i e at_ destination output priority sent action ids first second
    obtain ⟨first_is, second_is⟩ := commandWords_getD l i e at_
    have first_eq : first = packWord [(10, 6, e.destination), (6, 4, e.output), (4, 2, e.priority), (2, 2, e.sent)] := by
      refine Eq.trans ?_ first_is
      show (_ :: l.flatMap Entry.commandWords).getD (1 + 2 * i) 0 = _
      rw [Nat.add_comm]
      rfl
    have second_eq : second = packWord [(8, 8, e.refs.min?.getD 0), (0, 7, e.action)] := by
      refine Eq.trans ?_ second_is
      show (_ :: l.flatMap Entry.commandWords).getD (2 + 2 * i) 0 = _
      rw [show 2 + 2 * i = (2 * i + 1) + 1 by omega]
      rfl
    have least : e.refs.min?.getD 0 < 256 := by
      by_cases none : e.refs = []
      · rw [none]
        decide
      · obtain ⟨mem, -⟩ := min_refs_spec none
        exact ids _ mem
    obtain ⟨d, o, p, n⟩ := commandWord_first_fields _ _ _ _ destination output priority sent
    obtain ⟨a, r⟩ := commandWord_second_fields _ _ least action
    rw [first_eq, second_eq]
    refine ⟨d, o, p, n, a, fun none => ?_, fun some_ref => ?_⟩
    · rw [r, none]
      rfl
    · rw [r]
      exact min_refs_spec some_ref

end Sys2Proof.Machine
end

section
/-! MARKERs, missed MARKERs and babbling slots on a port (R145 to R149, R151 to R153). -/

namespace Sys2Proof.Machine

/-! The record of the port that an event changes. -/

section
variable (s : State) (side : Side)

theorem port_takeMarker (cycle : Byte) (p : PortRec) : (s.takeMarker side cycle p).port side = p := by
  obtain ⟨port, -⟩ := takeMarker_spec s side cycle p
  exact port

theorem port_changePort (took : Bool) (p : PortRec) : (s.changePort side took p).port side = p := by
  obtain ⟨port, -⟩ := changePort_spec s side took p
  exact port

theorem port_portDown : (s.portDown side).port side = .down (s.port side).counters := port_changePort s side false _

theorem port_setPort (p : PortRec) : (s.setPort side p).port side = p := port_setPort_self _ _ _

/-- The event changed the link alone, and not the other port. -/
def State.OnLink (side : Side) (s t : State) : Prop := t.port side.other = s.port side.other ∧ t = { s with link := t.link }

variable {s side}

theorem State.OnLink.refl : s.OnLink side s := ⟨rfl, rfl⟩

theorem onLink_takeMarker (cycle : Byte) (p : PortRec) : s.OnLink side (s.takeMarker side cycle p) := by
  obtain ⟨-, other, -, link⟩ := takeMarker_spec s side cycle p
  exact ⟨other, link⟩

theorem onLink_changePort (took : Bool) (p : PortRec) : s.OnLink side (s.changePort side took p) := by
  obtain ⟨-, other, -, link⟩ := changePort_spec s side took p
  exact ⟨other, link⟩

theorem onLink_setPort (p : PortRec) : s.OnLink side (s.setPort side p) := by
  obtain ⟨-, other, -, link⟩ := setPort_spec s side p
  exact ⟨other, link⟩

end

/-! A MARKER's use for timing, by the port's state. -/

/-- On a port that is not DOWN a MARKER matches by the S in force, within 4..32 (R145). -/
theorem markerMatches_joined {s : State} {side : Side} {n : Nat} (joined : (s.port side).state ≠ .down) :
    s.markerMatches side n = true ↔ s.slotsOf side = some n ∧ 4 ≤ n ∧ n ≤ 32 := by
  by_cases inRange : 4 ≤ n ∧ n ≤ 32
  · obtain ⟨least, most⟩ := inRange
    rw [markerMatches_iff least most joined, decide_eq_true_iff]
    simp [least, most]
  · rw [markerMatches_outOfRange (by omega)]
    exact iff_of_false (by simp) (fun ⟨_, h⟩ => inRange h)

section
variable {s : State} {side : Side} {start slots : Nat} (cycle : Byte)

theorem timeMarker_of_loopback (state : (s.port side).state = .loopback) : s.timeMarker side start cycle slots = s := by
  simp only [State.timeMarker, state]

theorem timeMarker_of_down_other (state : (s.port side).state = .down) (other : s.markerMatches side slots = false) :
    s.timeMarker side start cycle slots = s := by
  simp [State.timeMarker, state, other]

theorem timeMarker_of_down (state : (s.port side).state = .down) (hit : s.markerMatches side slots = true) :
    s.timeMarker side start cycle slots = s.takeMarker side cycle { (s.port side).takeMarker start cycle with
      state := .acquiring, acquisition := 1, miss := 0, adoptedS := if s.blank then some slots else (s.port side).adoptedS } := by
  simp [State.timeMarker, state, hit]

theorem timeMarker_unmatched (state : (s.port side).state = .acquiring ∨ (s.port side).state = .locked)
    (other : ¬ s.markerMatches side slots = true) : s.timeMarker side start cycle slots = s.portDown side := by
  rcases state with state | state <;> simp [State.timeMarker, state, other]

theorem timeMarker_of_acquiring (state : (s.port side).state = .acquiring) (hit : s.markerMatches side slots = true) :
    s.timeMarker side start cycle slots = s.takeMarker side cycle (if (s.port side).expects (s.slotsOf side) start then
      { (s.port side).takeMarker start cycle with
        state := if 4 ≤ (s.port side).acquisition + 1 then .locked else .acquiring
        acquisition := (s.port side).acquisition + 1, miss := 0 }
      else { (s.port side).takeMarker start cycle with acquisition := 1, miss := 0 }) := by
  by_cases expected : (s.port side).expects (s.slotsOf side) start = true <;> simp [State.timeMarker, state, hit, expected]

theorem timeMarker_of_locked (state : (s.port side).state = .locked) (hit : s.markerMatches side slots = true) :
    s.timeMarker side start cycle slots = if (s.port side).expects (s.slotsOf side) start then
      s.takeMarker side cycle { (s.port side).takeMarker start cycle with miss := 0 } else s := by
  simp [State.timeMarker, state, hit]

theorem timeMarker_of_isolated_other (state : (s.port side).state = .isolated) (other : ¬ s.markerMatches side slots = true) :
    s.timeMarker side start cycle slots = s.setPort side { s.port side with babbleFree := 0, position := none } := by
  simp [State.timeMarker, state, other]

theorem timeMarker_of_isolated (state : (s.port side).state = .isolated) (hit : s.markerMatches side slots = true) :
    s.timeMarker side start cycle slots = s.takeMarker side cycle (if (s.port side).expects (s.slotsOf side) start then
      (s.port side).quietCycle s.autoRejoin start cycle else { (s.port side).takeMarker start cycle with babbleFree := 0 }) := by
  by_cases expected : (s.port side).expects (s.slotsOf side) start = true <;> simp [State.timeMarker, state, hit, expected]

/-- A MARKER's use for timing touches the link alone, and not the other port. -/
theorem timeMarker_onLink : s.OnLink side (s.timeMarker side start cycle slots) := by
  by_cases hit : s.markerMatches side slots = true
  · cases state : (s.port side).state with
    | loopback => exact (timeMarker_of_loopback cycle state).symm ▸ .refl
    | down => exact (timeMarker_of_down cycle state hit).symm ▸ onLink_takeMarker _ _
    | acquiring => exact (timeMarker_of_acquiring cycle state hit).symm ▸ onLink_takeMarker _ _
    | locked =>
      rw [timeMarker_of_locked cycle state hit]
      split
      · exact onLink_takeMarker _ _
      · exact .refl
    | isolated => exact (timeMarker_of_isolated cycle state hit).symm ▸ onLink_takeMarker _ _
  · cases state : (s.port side).state with
    | loopback => exact (timeMarker_of_loopback cycle state).symm ▸ .refl
    | down => exact (timeMarker_of_down_other cycle state (Bool.eq_false_iff.2 hit)).symm ▸ .refl
    | acquiring => exact (timeMarker_unmatched cycle (.inl state) hit).symm ▸ onLink_changePort _ _
    | locked => exact (timeMarker_unmatched cycle (.inr state) hit).symm ▸ onLink_changePort _ _
    | isolated => exact (timeMarker_of_isolated_other cycle state hit).symm ▸ onLink_setPort _

end

/-! The records a MARKER leaves, as R146 to R153 give them. -/

section
variable (p : PortRec) (start : Nat) (cycle : Byte)

theorem takeMarker_record : p.takeMarker start cycle = { p with
    position := some start, cycle := some cycle, strikes := p.strikes - (if p.babbleSeen then 0 else 1), babbleSeen := false } := by
  rw [PortRec.takeMarker, leaked_eq]

theorem quietCycle_record (autoRejoin : Bool) : p.quietCycle autoRejoin start cycle =
    if (if p.babbleSeen then 0 else min 256 (p.babbleFree + 1)) = 256 ∧ autoRejoin = true then
      { p with state := .acquiring, position := some start, cycle := some cycle, acquisition := 0, miss := 0
               strikes := 0, babbleSeen := false, babbleFree := 256 }
    else { p with position := some start, cycle := some cycle, strikes := p.strikes - (if p.babbleSeen then 0 else 1)
                  babbleSeen := false, babbleFree := if p.babbleSeen then 0 else min 256 (p.babbleFree + 1) } := by
  unfold PortRec.quietCycle
  dsimp only
  rw [takeMarker_record]
  generalize (if p.babbleSeen then 0 else min 256 (p.babbleFree + 1)) = run
  by_cases rejoins : run = 256 ∧ autoRejoin = true
  · rw [if_pos rejoins, if_pos rejoins]
    obtain ⟨rfl, -⟩ := rejoins
    rfl
  · rw [if_neg rejoins, if_neg rejoins]

end

/-! The reception of a MARKER. -/

section
variable {s : State} {rx : Reception} {w : Word}

theorem exec_marker (held : s.held = false) : exec (.marker rx w) s = .next (s.quiet.receiveMarker rx w) := by
  have ran : execMarker rx w s = .next _ := running_next held _
  exact ran

theorem receiveMarker_unlocked (state : (s.port rx.port).state ≠ .locked) :
    s.receiveMarker rx w = s.timeMarker rx.port rx.start rx.cycle (bits w 0 6) := if_neg state

theorem receiveMarker_inSlot {slot : Nat} (state : (s.port rx.port).state = .locked) (at_ : s.slotAt rx.port rx.start = some slot) :
    s.receiveMarker rx w = (s.goodInSlot rx 0 [w] slot (fun s => s)).timeMarker rx.port rx.start rx.cycle (bits w 0 6) := by
  unfold State.receiveMarker
  dsimp only
  rw [if_pos state, at_]

/-- A MARKER that is handed on is repeated and then used for timing. -/
theorem receiveMarker_handsOn {slot : Nat} (h : s.HandsOn rx [w] slot) :
    s.quiet.receiveMarker rx w = (s.repeated rx 0 [w] slot).timeMarker rx.port rx.start rx.cycle (bits w 0 6) := by
  have good := goodInSlot_quiet 0 (fun s => s) h
  obtain ⟨-, state, at_, -⟩ := h
  rw [receiveMarker_inSlot (s := s.quiet) state at_, good]

/-- The part's own MARKER is stripped, and used for timing all the same (log 14). -/
theorem goodInSlot_of_own {kind : BitVec 4} {payload : List Word} {slot : Nat} {f : State → State}
    (own : rx.source.toNat = s.partAddress) : s.goodInSlot rx kind payload slot f = s := by
  obtain ⟨stripped, -⟩ := goodInSlot_turned (s := s) (rx := rx) (kind := kind) (payload := payload) (slot := slot) f
  exact stripped own

/-- A good frame of another source in an own slot is counted (R149). -/
theorem goodInSlot_of_conflict {kind : BitVec 4} {payload : List Word} {slot : Nat} {f : State → State}
    (other : rx.source.toNat ≠ s.partAddress) (own : s.ownSlots.contains slot = true) :
    s.goodInSlot rx kind payload slot f = s.countPort rx.port (fun c => { c with slotConflict := satInc c.slotConflict }) := by
  obtain ⟨-, struck⟩ := goodInSlot_turned (s := s) (rx := rx) (kind := kind) (payload := payload) (slot := slot) f
  exact struck other own

end

section
variable {s : State} {rx : Reception} {w : Word}

/-- A valid MARKER in DOWN matches the S in force, and any S where none is adopted (R145). -/
theorem markerMatches_down (state : (s.port rx.port).state = .down) (least : 4 ≤ bits w 0 6) (most : bits w 0 6 ≤ 32)
    (loaded : s.active.status ≠ .blank → s.active.link.slots = bits w 0 6)
    (fresh : s.active.status = .blank → (s.port rx.port).adoptedS = none) : s.markerMatches rx.port (bits w 0 6) = true := by
  unfold State.markerMatches
  by_cases blank : s.active.status = .blank
  · obtain ⟨slots, -⟩ := settings_blank blank
    rw [slots, fresh blank, state]
    simp [least, most]
  · obtain ⟨slots, -⟩ := settings_valid blank
    rw [slots, loaded blank]
    simp [least, most]

/-- The four situations of R146 and R152 in which a valid MARKER changes a port that is not LOCKED. -/
theorem receiveMarker_joined (least : 4 ≤ bits w 0 6) (most : bits w 0 6 ≤ 32) :
    let p := s.port rx.port
    let t := s.receiveMarker rx w
    let matched := s.slotsOf rx.port = some (bits w 0 6)
    let elsewhere := ∀ pos, p.position = some pos → rx.start ≠ pos + 32 * bits w 0 6
    (p.state = .acquiring → matched → elsewhere → t.port rx.port = { p.takeMarker rx.start rx.cycle with acquisition := 1, miss := 0 })
    ∧ (p.state = .acquiring → ¬ matched → t.port rx.port = .down p.counters)
    ∧ (∀ pos, p.state = .isolated → matched → p.position = some pos → rx.start = pos + 32 * bits w 0 6 →
        t.port rx.port = p.quietCycle s.autoRejoin rx.start rx.cycle)
    ∧ (p.state = .isolated → matched → elsewhere → t.port rx.port = { p.takeMarker rx.start rx.cycle with babbleFree := 0 })
    ∧ (p.state = .isolated → ¬ matched → t.port rx.port = { p with position := none, babbleFree := 0 }) := by
  have hits (joined : (s.port rx.port).state ≠ .down) : s.markerMatches rx.port (bits w 0 6) = true
      ↔ s.slotsOf rx.port = some (bits w 0 6) :=
    (markerMatches_joined joined).trans (by simp [least, most])
  refine ⟨fun state matched elsewhere => ?_, fun state other => ?_, fun pos state matched position expected => ?_,
    fun state matched elsewhere => ?_, fun state other => ?_⟩
  all_goals rw [receiveMarker_unlocked (by rw [state]; exact PortState.noConfusion)]
  · rw [timeMarker_of_acquiring _ state ((hits (by rw [state]; exact PortState.noConfusion)).2 matched), port_takeMarker,
      expects_false matched elsewhere]
    rfl
  · rw [timeMarker_unmatched _ (.inl state) (fun hit => other ((hits (by rw [state]; exact PortState.noConfusion)).1 hit)), port_portDown]
  · rw [timeMarker_of_isolated _ state ((hits (by rw [state]; exact PortState.noConfusion)).2 matched), port_takeMarker,
      expects_true matched position expected]
    rfl
  · rw [timeMarker_of_isolated _ state ((hits (by rw [state]; exact PortState.noConfusion)).2 matched), port_takeMarker,
      expects_false matched elsewhere]
    rfl
  · rw [timeMarker_of_isolated_other _ state (fun hit => other ((hits (by rw [state]; exact PortState.noConfusion)).1 hit)), port_setPort]

/-- A MARKER on a port that is not LOCKED touches the link alone. -/
theorem receiveMarker_onLink (state : (s.port rx.port).state ≠ .locked) : s.OnLink rx.port (s.receiveMarker rx w) := by
  rw [receiveMarker_unlocked state]
  exact timeMarker_onLink rx.cycle

theorem receiveMarker_other_down {n : Nat} (state : (s.port rx.port).state = .down) (inForce : s.slotsOf rx.port = some n)
    (other : n ≠ bits w 0 6) : s.receiveMarker rx w = s := by
  rw [receiveMarker_unlocked (by rw [state]; exact PortState.noConfusion), timeMarker_of_down_other _ state]
  simp [State.markerMatches, inForce, other]

theorem receiveMarker_loopback (state : (s.port rx.port).state = .loopback) : s.receiveMarker rx w = s := by
  rw [receiveMarker_unlocked (by rw [state]; exact PortState.noConfusion), timeMarker_of_loopback _ state]

/-- An S outside 4..32 matches no port (R145). -/
theorem receiveMarker_outOfRange (outside : bits w 0 6 < 4 ∨ 32 < bits w 0 6) :
    let p := s.port rx.port
    let t := s.receiveMarker rx w
    (p.state = .down ∨ p.state = .loopback → t = s)
    ∧ (p.state = .acquiring → t.port rx.port = .down p.counters)
    ∧ (p.state = .isolated → t.port rx.port = { p with position := none, babbleFree := 0 }) := by
  have other := markerMatches_outOfRange (s := s) (side := rx.port) outside
  refine ⟨?_, fun state => ?_, fun state => ?_⟩
  · rintro (state | state)
    · rw [receiveMarker_unlocked (by rw [state]; exact PortState.noConfusion), timeMarker_of_down_other _ state other]
    · exact receiveMarker_loopback state
  · rw [receiveMarker_unlocked (by rw [state]; exact PortState.noConfusion), timeMarker_unmatched _ (.inl state) (Bool.eq_false_iff.1 other),
      port_portDown]
  · rw [receiveMarker_unlocked (by rw [state]; exact PortState.noConfusion),
      timeMarker_of_isolated_other _ state (Bool.eq_false_iff.1 other), port_setPort]

end

/-! A LOCKED port's record after a MARKER, whatever was done with the frame (R147). -/

section
variable {s : State} {side : Side} {start slots pos : Nat} (cycle : Byte)

theorem timeMarker_expected (state : (s.port side).state = .locked) (matched : s.slotsOf side = some slots ∧ 4 ≤ slots ∧ slots ≤ 32)
    (position : (s.port side).position = some pos) (expected : start = pos + 32 * slots) :
    s.timeMarker side start cycle slots = s.takeMarker side cycle { s.port side with
      position := some start, cycle := some cycle, miss := 0, babbleSeen := false
      strikes := (s.port side).strikes - (if (s.port side).babbleSeen then 0 else 1) } := by
  have joined : (s.port side).state ≠ .down := by rw [state]; exact PortState.noConfusion
  have hit := (markerMatches_joined joined).2 matched
  obtain ⟨inForce, -⟩ := matched
  rw [timeMarker_of_locked _ state hit, if_pos (expects_true inForce position expected), takeMarker_record]

theorem timeMarker_elsewhere (state : (s.port side).state = .locked) (matched : s.slotsOf side = some slots ∧ 4 ≤ slots ∧ slots ≤ 32)
    (position : (s.port side).position = some pos) (elsewhere : start ≠ pos + 32 * slots) : s.timeMarker side start cycle slots = s := by
  have joined : (s.port side).state ≠ .down := by rw [state]; exact PortState.noConfusion
  have hit := (markerMatches_joined joined).2 matched
  obtain ⟨inForce, -⟩ := matched
  have unexpected : (s.port side).expects (s.slotsOf side) start = false :=
    expects_false inForce (fun pos' is => Option.some.inj (position.symm.trans is) ▸ elsewhere)
  rw [timeMarker_of_locked _ state hit, unexpected]
  rfl

theorem timeMarker_other (state : (s.port side).state = .locked) (other : ¬ (s.slotsOf side = some slots ∧ 4 ≤ slots ∧ slots ≤ 32)) :
    s.timeMarker side start cycle slots = s.portDown side := by
  have joined : (s.port side).state ≠ .down := by rw [state]; exact PortState.noConfusion
  exact timeMarker_unmatched _ (.inr state) (fun hit => other ((markerMatches_joined joined).1 hit))

end

/-- Settles O32: by the port's state and whether the MARKER matches and is expected, each a lemma about the use for timing. -/
theorem markersTakenByAPort : Obligations.MarkersTakenByAPort := by
  refine ⟨fun s rx w held least most => ⟨fun state loaded fresh => ?_, fun pos state inForce position expected => ?_⟩,
    fun s rx w slot hands => ?_, fun s rx w held least most => ?_, fun s rx w held outside => ?_, fun s rx w slot pos held state at_ position => ?_⟩
  · have marked := markerMatches_down state least most loaded fresh
    have ran := exec_marker (rx := rx) (w := w) held
    rw [receiveMarker_unlocked (s := s.quiet) (by show (s.port rx.port).state ≠ _; rw [state]; exact PortState.noConfusion),
      timeMarker_of_down (s := s.quiet) _ state marked] at ran
    obtain ⟨port, other, last, link⟩ := takeMarker_spec s.quiet rx.port rx.cycle
      { (s.quiet.port rx.port).takeMarker rx.start rx.cycle with
        state := .acquiring, acquisition := 1, miss := 0
        adoptedS := if s.quiet.blank then some (bits w 0 6) else (s.quiet.port rx.port).adoptedS }
    refine ⟨_, ran, ?_, last, other, link⟩
    rw [port]
    have adopted : (if s.quiet.blank then some (bits w 0 6) else (s.quiet.port rx.port).adoptedS)
        = if s.active.status = .blank then some (bits w 0 6) else (s.port rx.port).adoptedS := if_congr beq_iff_eq rfl rfl
    rw [adopted]
    rfl
  · have marked := (markerMatches_joined (by rw [state]; exact PortState.noConfusion)).2 ⟨inForce, least, most⟩
    have ran := exec_marker (rx := rx) (w := w) held
    rw [receiveMarker_unlocked (s := s.quiet) (by show (s.port rx.port).state ≠ _; rw [state]; exact PortState.noConfusion),
      timeMarker_of_acquiring (s := s.quiet) _ state marked,
      if_pos (expects_true (p := s.quiet.port rx.port) (o := s.quiet.slotsOf rx.port) inForce position expected)] at ran
    obtain ⟨port, other, last, link⟩ := takeMarker_spec s.quiet rx.port rx.cycle
      { (s.quiet.port rx.port).takeMarker rx.start rx.cycle with
        state := if 4 ≤ (s.quiet.port rx.port).acquisition + 1 then .locked else .acquiring
        acquisition := (s.quiet.port rx.port).acquisition + 1, miss := 0 }
    refine ⟨_, ran, ?_, congrArg PortRec.acquisition port, congrArg PortRec.miss port, congrArg PortRec.position port,
      congrArg PortRec.cycle port, last, other, link⟩
    rw [port]
    exact if_congr (show 4 ≤ (s.port rx.port).acquisition + 1 ↔ 3 ≤ (s.port rx.port).acquisition by omega) rfl rfl
  · have received := receiveMarker_handsOn hands
    obtain ⟨held, state, -⟩ := hands
    have ran := exec_marker (rx := rx) (w := w) held
    rw [received] at ran
    refine ⟨fun pos inForce least most position expected => ?_, fun pos inForce least most position elsewhere => ?_, fun other => ?_⟩
    · rw [timeMarker_expected (s := s.repeated rx 0 [w] slot) rx.cycle state ⟨inForce, least, most⟩ position expected] at ran
      obtain ⟨port, stays, last, link⟩ := takeMarker_spec (s.repeated rx 0 [w] slot) rx.port rx.cycle
        { s.port rx.port with
          position := some rx.start, cycle := some rx.cycle, miss := 0, babbleSeen := false
          strikes := (s.port rx.port).strikes - (if (s.port rx.port).babbleSeen then 0 else 1) }
      exact ⟨_, ran, port, last, stays, link⟩
    · rwa [timeMarker_elsewhere (s := s.repeated rx 0 [w] slot) rx.cycle state ⟨inForce, least, most⟩ position elsewhere] at ran
    · rw [timeMarker_other (s := s.repeated rx 0 [w] slot) rx.cycle state (fun ⟨inForce, least, most⟩ => by
        rcases other with other | other | other
        · exact other inForce
        · omega
        · omega)] at ran
      obtain ⟨port, stays, last, link⟩ := changePort_spec (s.repeated rx 0 [w] slot) rx.port false ((s.port rx.port).toDown)
      exact ⟨_, ran, port, stays, last, link⟩
  · obtain ⟨again, lost, quiet, astray, unplaced⟩ := receiveMarker_joined (s := s.quiet) (rx := rx) least most
    refine ⟨_, exec_marker held, fun state matched elsewhere => (again state matched elsewhere).trans ?_, lost,
      fun pos state matched position expected => (quiet pos state matched position expected).trans (quietCycle_record _ _ _ _),
      fun state matched elsewhere => (astray state matched elsewhere).trans ?_, unplaced, receiveMarker_loopback (s := s.quiet),
      fun state ⟨n, inForce, other⟩ => receiveMarker_other_down (s := s.quiet) state inForce other, receiveMarker_onLink (s := s.quiet)⟩
    · rw [takeMarker_record]
      rfl
    · rw [takeMarker_record]
      rfl
  · obtain ⟨idle, lost, unplaced⟩ := receiveMarker_outOfRange (s := s.quiet) (rx := rx) outside
    exact ⟨_, exec_marker held, idle, lost, unplaced, receiveMarker_onLink (s := s.quiet)⟩
  · intro p slots matched struck linkOnly
    have ran := exec_marker (rx := rx) (w := w) held
    rw [receiveMarker_inSlot (s := s.quiet) state at_] at ran
    refine ⟨fun own isMatched expected => ?_, fun other own => ?_⟩
    · rw [goodInSlot_of_own (s := s.quiet) own, timeMarker_expected (s := s.quiet) rx.cycle state isMatched position expected] at ran
      obtain ⟨port, stays, last, link⟩ := takeMarker_spec s.quiet rx.port rx.cycle
        { s.quiet.port rx.port with
          position := some rx.start, cycle := some rx.cycle, miss := 0, babbleSeen := false
          strikes := (s.quiet.port rx.port).strikes - (if (s.quiet.port rx.port).babbleSeen then 0 else 1) }
      exact ⟨_, ran, ⟨stays, link⟩, last, port⟩
    · rw [goodInSlot_of_conflict (s := s.quiet) other own] at ran
      have counted : (s.quiet.countPort rx.port (fun c => { c with slotConflict := satInc c.slotConflict })).port rx.port
          = { p with counters := struck } := port_setPort _ _ _
      obtain ⟨stays, link⟩ := onLink_setPort (s := s.quiet) (side := rx.port) { p with counters := struck }
      have inForce : (s.quiet.countPort rx.port (fun c => { c with slotConflict := satInc c.slotConflict })).slotsOf rx.port
          = s.slotsOf rx.port := by
        show (if s.blank then ((s.quiet.countPort rx.port _).port rx.port).adoptedS else _) = _
        rw [counted]
        rfl
      obtain ⟨kept, after⟩ := timeMarker_onLink (s := s.quiet.countPort rx.port (fun c => { c with slotConflict := satInc c.slotConflict }))
        (side := rx.port) (start := rx.start) (slots := slots) rx.cycle
      refine ⟨_, ran, ⟨kept.trans stays, after.trans rfl⟩, fun isMatched elsewhere => ?_, fun unmatched => ?_⟩
      · rw [timeMarker_elsewhere rx.cycle (by rw [counted]; exact state) (by rw [inForce]; exact isMatched) (by rw [counted]; exact position)
          elsewhere, counted]
      · rw [timeMarker_other rx.cycle (by rw [counted]; exact state) (by rw [inForce]; exact unmatched), port_portDown, counted]

/-! Missed MARKERs and babbling slots. -/

section
variable {s : State} {side : Side}

/-- The record after a miss that does not take the port to DOWN, but for the acquisition count (R146, R147). -/
def PortRec.missed (p : PortRec) (position : Nat) : PortRec := { p with
  miss := p.miss + 1, position := some position
  counters := { p.counters with markerMissed := satInc p.counters.markerMissed } }

theorem missMarker_of_joined {pos slots : Nat} (position : (s.port side).position = some pos) (inForce : s.slotsOf side = some slots)
    (state : (s.port side).state = .acquiring ∨ (s.port side).state = .locked) : s.missMarker side =
    if 3 ≤ (s.port side).miss + 1 then s.changePort side false ((s.port side).missed (pos + 32 * slots)).toDown
    else s.setPort side { (s.port side).missed (pos + 32 * slots) with
      acquisition := if (s.port side).state = .acquiring then 0 else (s.port side).acquisition } := by
  unfold State.missMarker
  dsimp only
  rw [inForce]
  generalize s.port side = p at position state ⊢
  obtain ⟨current, adopted, place, cycle, acquisition, miss, strikes, seen, free, counters⟩ := p
  obtain rfl : place = some pos := position
  rcases state with state | state <;> obtain rfl : current = _ := state <;> rfl

theorem missMarker_of_isolated {pos slots : Nat} (position : (s.port side).position = some pos) (inForce : s.slotsOf side = some slots)
    (state : (s.port side).state = .isolated) :
    s.missMarker side = s.setPort side { s.port side with position := some (pos + 32 * slots), babbleFree := 0 } := by
  unfold State.missMarker
  dsimp only
  rw [inForce]
  generalize s.port side = p at position state ⊢
  obtain ⟨current, adopted, place, cycle, acquisition, miss, strikes, seen, free, counters⟩ := p
  obtain rfl : place = some pos := position
  obtain rfl : current = _ := state
  rfl

theorem exec_missedMarker (held : s.held = false) : exec (.missedMarker side) s = .next (s.quiet.missMarker side) := by
  have ran : execMissedMarker side s = .next _ := running_next held _
  exact ran

end

/-- Settles O33: a miss on a port with a cycle position counts and lets it run on, and the third in a row takes the port to DOWN. -/
theorem thirdMissTakesAPortDown : Obligations.ThirdMissTakesAPortDown := by
  refine ⟨fun s side pos slots held state position inForce => ?_, fun s side pos slots held state position inForce => ?_⟩
  · intro counters
    have ran := exec_missedMarker (side := side) held
    rw [missMarker_of_joined (s := s.quiet) position inForce state] at ran
    by_cases third : 3 ≤ (s.port side).miss + 1
    · rw [if_pos (show 3 ≤ (s.quiet.port side).miss + 1 from third)] at ran
      obtain ⟨port, other, last, link⟩ := changePort_spec s.quiet side false ((s.port side).missed (pos + 32 * slots)).toDown
      exact ⟨_, ran, fun early => (by omega), fun _ => port, other, last, link⟩
    · rw [if_neg (show ¬ 3 ≤ (s.quiet.port side).miss + 1 from third)] at ran
      obtain ⟨port, other, last, link⟩ := setPort_spec s.quiet side { (s.port side).missed (pos + 32 * slots) with
        acquisition := if (s.port side).state = .acquiring then 0 else (s.port side).acquisition }
      exact ⟨_, ran, fun _ => port, fun late => (by omega), other, last, link⟩
  · rw [exec_missedMarker held, missMarker_of_isolated (s := s.quiet) position inForce state]
    rfl

section
variable {s : State} {side : Side}

/-- The record after a strike (R151). -/
def PortRec.struck (p : PortRec) : PortRec := { p with strikes := min 15 (p.strikes + 1), babbleSeen := true }

theorem babbleSlot_of_idle (state : (s.port side).state = .down ∨ (s.port side).state = .loopback) : s.babbleSlot side = s := by
  rcases state with state | state <;> simp [State.babbleSlot, state]

theorem babbleSlot_of_isolated (state : (s.port side).state = .isolated) :
    s.babbleSlot side = s.setPort side { s.port side with babbleSeen := true } := by
  simp [State.babbleSlot, state]

theorem babbleSlot_of_below (state : (s.port side).state = .acquiring ∨ ((s.port side).state = .locked
    ∧ (s.isolation = false ∨ min 15 ((s.port side).strikes + 1) < s.babbleLimit))) :
    s.babbleSlot side = s.setPort side (s.port side).struck := by
  rcases state with state | ⟨state, off | below⟩
  · simp [State.babbleSlot, state, PortRec.struck]
  · simp [State.babbleSlot, state, PortRec.struck, off]
  · simp [State.babbleSlot, state, PortRec.struck, not_le.2 below]

theorem babbleSlot_of_limit (state : (s.port side).state = .locked) (enabled : s.isolation = true)
    (reached : s.babbleLimit ≤ min 15 ((s.port side).strikes + 1)) : s.babbleSlot side =
    (s.changePort side false (s.port side).struck.isolate).raise (fun n => { n with portIsolated := true }) := by
  have limit : (s.isolation && decide (s.babbleLimit ≤ min 15 ((s.port side).strikes + 1))) = true := by
    rw [enabled, decide_eq_true reached]
    rfl
  unfold State.babbleSlot
  dsimp only
  split
  case h_5 => exact if_pos limit
  all_goals
    rename_i other
    cases state.symm.trans other

/-- A babbling slot touches the link and the notices alone, and not the other port. -/
theorem babbleSlot_keeps : (s.babbleSlot side).port side.other = s.port side.other
    ∧ s.babbleSlot side = { s with link := (s.babbleSlot side).link, notices := (s.babbleSlot side).notices } := by
  have set (p : PortRec) : (s.setPort side p).port side.other = s.port side.other
      ∧ s.setPort side p = { s with link := (s.setPort side p).link, notices := (s.setPort side p).notices } := by
    obtain ⟨-, other, -, link⟩ := setPort_spec s side p
    exact ⟨other, link⟩
  unfold State.babbleSlot
  dsimp only
  split
  · exact ⟨rfl, rfl⟩
  · exact ⟨rfl, rfl⟩
  · exact set _
  · exact set _
  · split
    · obtain ⟨-, other, -, -⟩ := changePort_spec s side false (s.port side).struck.isolate
      exact ⟨other, rfl⟩
    · exact set _

end

/-- Settles O34: by the port's state, and on a LOCKED port by whether the strike reaches the limit. -/
theorem babbleStrikesAndIsolates : Obligations.BabbleStrikesAndIsolates := by
  intro s side held p
  have ran : execBabble side s = .next _ := running_next held _
  obtain ⟨other, all⟩ := babbleSlot_keeps (s := s.quiet) (side := side)
  refine ⟨_, ran, babbleSlot_of_idle (s := s.quiet), fun state => ?_, fun state => ?_, fun state enabled reached => ?_, other, all⟩
  · rw [babbleSlot_of_isolated (s := s.quiet) state]
    exact ⟨port_setPort _ _ _, rfl⟩
  · rw [babbleSlot_of_below (s := s.quiet) state]
    exact ⟨port_setPort _ _ _, rfl⟩
  · rw [babbleSlot_of_limit (s := s.quiet) state enabled reached]
    exact ⟨port_changePort _ _ _ _, rfl⟩

end Sys2Proof.Machine
end

section
/-! Publications offered to Intake (R115, R129 to R133). -/

namespace Sys2Proof.Machine

section
variable {s : State} {i : Nat} {cycle : Byte} {payload : List Word}

/-- The record of a station after a change of it. -/
theorem station_updStation (inTable : i < s.intake.stations.length) (f : StationRec → StationRec) :
    (s.updStation i f).station i = f (s.station i) := getD_modify_self _ _ inTable _ _

/-! The four ways a frame is turned away, and the one in which it is taken. -/

theorem offerInSlot_of_duplicate (again : (s.station i).lastCycle = some cycle) :
    s.offerInSlot i cycle payload = s.updStation i (fun r => { r with duplicate := satInc r.duplicate }) := if_pos again

theorem offerInSlot_of_rejoining (inTable : i < s.intake.stations.length) (new : (s.station i).lastCycle ≠ some cycle)
    (left : 0 < (s.station i).rejoinLeft) : s.offerInSlot i cycle payload = s.updStation i (fun r => { r with
      lastCycle := some cycle, rejoinLeft := r.rejoinLeft - 1, rejoinDiscard := satInc r.rejoinDiscard }) := by
  have rejoining : 0 < ((s.updStation i (fun r => { r with lastCycle := some cycle })).station i).rejoinLeft := by
    rw [station_updStation inTable]
    exact left
  refine (if_neg new).trans ((if_pos rejoining).trans ?_)
  show s.setIntake { s.intake with stations := (s.intake.stations.modify i _).modify i _ } = _
  rw [modify_modify]
  rfl

/-- The state in which the points of an accepted publication are updated. -/
def State.accepting (s : State) (i : Nat) (cycle : Byte) : State :=
  s.updStation i (fun r => { r with lastCycle := some cycle, windowCount := min 255 (r.windowCount + 1) })

theorem offerInSlot_of_accepted (inTable : i < s.intake.stations.length) (new : (s.station i).lastCycle ≠ some cycle)
    (left : (s.station i).rejoinLeft = 0) : s.offerInSlot i cycle payload =
      ((s.accepting i cycle).publishPoints i (s.station i).freshness payload).afterUpdates s.points (s.updatedBy i payload) := by
  have joined : ¬ 0 < ((s.updStation i (fun r => { r with lastCycle := some cycle })).station i).rejoinLeft := by
    rw [station_updStation inTable]
    exact not_lt.2 (Nat.le_of_eq left)
  have counted : (s.updStation i (fun r => { r with lastCycle := some cycle })).updStation i
      (fun r => { r with windowCount := min 255 (r.windowCount + 1) }) = s.accepting i cycle := by
    show s.setIntake { s.intake with stations := (s.intake.stations.modify i _).modify i _ } = _
    rw [modify_modify]
    rfl
  have freshness : ((s.accepting i cycle).station i).freshness = (s.station i).freshness := by
    rw [State.accepting, station_updStation inTable]
  refine (if_neg new).trans ((if_neg joined).trans ?_)
  unfold State.countPublication
  dsimp only
  rw [counted, freshness]
  rfl

end

section
variable {s : State} {source : Address} {slot i : Nat} {cycle : Byte} {payload : List Word}

theorem offer_of_unknown (unknown : s.stationOf source = none) : s.offer source slot cycle payload =
    s.setIntake { s.intake with unknownSource := satInc s.intake.unknownSource } := by
  simp only [State.offer, unknown]

theorem offer_of_misplaced (known : s.stationOf source = some i) (elsewhere : (s.active.station i).slot ≠ slot) :
    s.offer source slot cycle payload = s.setIntake { s.intake with misplaced := satInc s.intake.misplaced } := by
  simp only [State.offer, known]
  exact if_neg elsewhere

theorem offer_of_inSlot (known : s.stationOf source = some i) (inSlot : (s.active.station i).slot = slot) :
    s.offer source slot cycle payload = s.offerInSlot i cycle payload := by
  simp only [State.offer, known]
  exact if_pos inSlot

end

/-- Settles O35: a frame handed on is offered to Intake, whose tests turn it away in order. -/
theorem publicationTurnedAway : Obligations.PublicationTurnedAway := by
  refine ⟨fun s a => stationOf_spec s a, fun s rx payload slot hands => ?_⟩
  intro up base
  have ran := exec_publish hands
  refine ⟨fun unknown => ?_, fun i known => ⟨fun elsewhere => ?_, fun inSlot again => ?_, fun inSlot new left inTable => ?_⟩⟩
  · rw [offer_of_unknown (s := s.repeated rx 1 payload slot) unknown] at ran
    exact ran
  · rw [offer_of_misplaced (s := s.repeated rx 1 payload slot) known elsewhere] at ran
    exact ran
  · rw [offer_of_inSlot (s := s.repeated rx 1 payload slot) known inSlot,
      offerInSlot_of_duplicate (s := s.repeated rx 1 payload slot) again] at ran
    exact ran
  · rw [offer_of_inSlot (s := s.repeated rx 1 payload slot) known inSlot,
      offerInSlot_of_rejoining (s := s.repeated rx 1 payload slot) inTable new left] at ran
    exact ran

/-! What an accepted publication makes of the points (R115). -/

theorem freshness_quality (f : Freshness) : f.quality = if f ∈ [Freshness.fresh, .unknown] then .good else .suspect := by
  cases f <;> rfl

/-- A point's record after the publication (R115). -/
theorem publish_record (e : PointEntry) (f : Freshness) (w : Word) (r : PointRec) : r.publish e f w =
    if r.quality = .forced then { r with lastRaw := some w }
    else match e.decode w with
      | none => { r with lastRaw := some w, quality := .invalid, holdStart := none }
      | some v => ⟨v, if f ∈ [Freshness.fresh, .unknown] then .good else .suspect, none, some w⟩ := by
  unfold PointRec.publish
  dsimp only
  by_cases forced : r.quality = .forced
  · rw [if_pos forced, if_pos forced]
  · rw [if_neg forced, if_neg forced]
    cases e.decode w with
    | none => rfl
    | some v => exact congrArg (fun q => PointRec.mk v q none (some w)) (freshness_quality f)

theorem carries_iff (s : State) (i : Nat) (payload : List Word) (p : Nat) : s.carries i payload p = true
    ↔ (s.active.point p).kind ≠ .disabled ∧ (s.active.point p).source = i ∧ (s.active.point p).offset < payload.length := by
  simp [State.carries, PointEntry.enabled_iff, and_assoc]

theorem mem_updatedBy (s : State) (i : Nat) (payload : List Word) (p : Nat) : p ∈ s.updatedBy i payload
    ↔ p < 256 ∧ (s.active.point p).kind ≠ .disabled ∧ (s.active.point p).source = i ∧ (s.active.point p).offset < payload.length
      ∧ (s.point p).quality ≠ .forced := by
  rw [State.updatedBy, List.mem_filter, List.mem_range, Bool.and_eq_true, carries_iff, bne_iff_ne, and_assoc, and_assoc]

theorem publishPoints_point {s : State} {p : Nat} (inTable : p < s.points.length) (i : Nat) (f : Freshness) (payload : List Word) :
    (s.publishPoints i f payload).point p = if s.carries i payload p then
      (s.point p).publish (s.active.point p) f (payload.getD (s.active.point p).offset 0) else s.point p :=
  getD_mapIdx s.points p inTable _ _

/-- Settles O36: the accepted publication is its update of the points and then the event of that update. -/
theorem publicationUpdatesPoints : Obligations.PublicationUpdatesPoints := by
  rintro s rx payload slot i hands ⟨points, -, stations, conts⟩ known inSlot new left
  obtain ⟨isStation, -⟩ := stationOf_spec s rx.source
  obtain ⟨small, -⟩ := (isStation i).1 known
  have inTable : i < s.intake.stations.length := stations.symm ▸ small
  have ran := exec_publish hands
  rw [offer_of_inSlot (s := s.repeated rx 1 payload slot) known inSlot,
    offerInSlot_of_accepted (s := s.repeated rx 1 payload slot) inTable new left] at ran
  replace ran : exec (.publish rx payload) s = .next ((((s.repeated rx 1 payload slot).accepting i rx.cycle).publishPoints i
    (s.station i).freshness payload).afterUpdates s.points (s.updatedBy i payload)) := ran
  have updates := afterUpdates_spec (((s.repeated rx 1 payload slot).accepting i rx.cycle).publishPoints i (s.station i).freshness payload)
    s.points (s.updatedBy i payload) conts
  have service := State.surroundings_afterUpdates
    (((s.repeated rx 1 payload slot).accepting i rx.cycle).publishPoints i (s.station i).freshness payload) s.points (s.updatedBy i payload)
  have after := congrArg Surroundings.points service
  refine ⟨_, ran, fun p hp => ?_, ?_, s.updatedBy i payload, mem_updatedBy s i payload, ?_⟩
  · intro e w
    rw [State.point]
    have pointwise := publishPoints_point (s := (s.repeated rx 1 payload slot).accepting i rx.cycle) (p := p) (points.symm ▸ hp) i
      (s.station i).freshness payload
    refine (congrArg (fun l : List PointRec => l.getD p (.fresh (.analog 0))) after).trans (pointwise.trans ?_)
    refine if_congr (carries_iff _ _ _ _) ?_ rfl
    exact publish_record _ _ _ _
  · rw [show State.points _ = _ from after]
    exact serviceOnly_of service
  · rw [show State.points _ = _ from after]
    exact updates

end Sys2Proof.Machine
end

section
/-! Good frames and looped frames on a port (R146, R149, R152, R154). -/

namespace Sys2Proof.Machine

section
variable {s : State} {c : Instr} {side : Side} {start : Nat} {words : List Word}

/-- What a command brings that is no MARKER: a damaged frame, or a good one that is received as such. -/
theorem exec_arrival (held : s.held = false) (brings : c.arrival = some (side, start, words))
    (unmarked : ∀ rx w, c ≠ .marker rx w ∧ c ≠ .repeatedFrame rx 0 [w]) :
    (∃ whole, exec c s = .next (s.quiet.receiveDamaged side start whole words))
    ∨ ∃ rx kind payload, side = rx.port ∧ start = rx.start ∧ words = receivedWords rx kind payload
      ∧ ((c = .requestLost rx payload ∧ s.agent.holder = none ∧ exec c s = .next s.quiet)
        ∨ ∃ f, exec c s = .next (s.quiet.receiveGood rx kind payload f)) := by
  rcases arrival_cases c side start words brings with ⟨whole, rfl⟩ | ⟨rx, kind, payload, frame, port, at_, received⟩
  · have ran : execDamagedFrame side start whole words s = .next _ := running_next held _
    exact .inl ⟨whole, ran⟩
  · refine .inr ⟨rx, kind, payload, port, at_, received, exec_frame held frame ?_⟩
    by_contra marker
    rw [not_or, not_not, not_not] at marker
    obtain ⟨rfl, length⟩ := marker
    obtain ⟨w, -, is | is⟩ := frame_marker frame length
    · exact (unmarked rx w).1 is
    · exact (unmarked rx w).2 is

theorem receiveDamaged_unlocked (state : (s.port side).state ≠ .locked) (whole : Bool) :
    s.receiveDamaged side start whole words = s := if_neg state

/-- A frame that is no MARKER does nothing on a port that is not LOCKED. -/
theorem exec_unlocked (held : s.held = false) (brings : c.arrival = some (side, start, words))
    (unmarked : ∀ rx w, c ≠ .marker rx w ∧ c ≠ .repeatedFrame rx 0 [w]) (state : (s.port side).state ≠ .locked) :
    exec c s = .next s.quiet := by
  rcases exec_arrival held brings unmarked with ⟨whole, ran⟩ | ⟨rx, kind, payload, rfl, -, -, ⟨-, -, ran⟩ | ⟨f, ran⟩⟩
  · rwa [receiveDamaged_unlocked (s := s.quiet) state] at ran
  · exact ran
  · rwa [receiveGood_unlocked (s := s.quiet) state] at ran

end

/-! A frame that is handed on and concerns no other block. -/

section
variable {s : State} {rx : Reception} {payload : List Word}

theorem exec_repeatedFrame_held_on {kind : BitVec 4} {slot : Nat} (hands : s.HandsOn rx payload slot) {f : Nat → State → State}
    (received : exec (.repeatedFrame rx kind payload) s = running s (fun s => s.receiveGood rx kind payload f)) :
    exec (.repeatedFrame rx kind payload) s = .next (f slot (s.repeated rx kind payload slot)) := by
  have good := receiveGood_quiet kind f hands
  obtain ⟨held, -⟩ := hands
  rw [received, running_next held, good]

/-- A frame of kind MARKER whose payload is not one word is no valid MARKER. -/
theorem exec_repeatedFrame_marker (long : payload.length ≠ 1) :
    exec (.repeatedFrame rx 0 payload) s = running s (fun s => s.receiveGood rx 0 payload (fun _ s => s)) := by
  match payload, long with
  | [], _ => rfl
  | _ :: _ :: _, _ => rfl

theorem exec_repeatedFrame_agent :
    exec (.repeatedFrame rx 3 payload) s = running s (fun s => s.receiveGood rx 3 payload (fun _ s => s.handPayload rx payload)) := rfl

theorem exec_repeatedFrame_plain {kind : BitVec 4} (k0 : kind ≠ 0) (k1 : kind ≠ 1) (k3 : kind ≠ 3) (held : s.held = false) :
    exec (.repeatedFrame rx kind payload) s = running s (fun s => s.receiveGood rx kind payload (fun _ s => s)) := by
  rw [exec_repeatedFrame held k0 k1 k3, running_next held]

/-- A REQUEST that is not for the part, or does not come on the timing port, is passed over (R168). -/
theorem handPayload_passed (some_word : payload ≠ []) (passed : s.timingPort ≠ some rx.port
    ∨ (rx.dest.toNat ≠ s.partAddress ∧ (rx.dest ≠ 63 ∨ bits (payload.headD 0) 8 8 ≠ 1))) : s.handPayload rx payload = s := by
  match payload, some_word with
  | w :: rest, _ =>
    have untaken : ¬ (s.timingPort = some rx.port ∧ s.screens rx.dest (w.extractLsb' 8 8) = true) := by
      rintro ⟨timing, screened⟩
      rcases passed with other | ⟨elsewhere, notIdentify⟩
      · exact other timing
      · rw [State.screens, Bool.or_eq_true, Bool.and_eq_true, beq_iff_eq, beq_iff_eq, beq_iff_eq] at screened
        obtain ⟨all, code⟩ := screened.resolve_left elsewhere
        rcases notIdentify with notAll | notCode
        · exact notAll (BitVec.eq_of_toNat_eq all)
        · refine notCode ?_
          have value := congrArg BitVec.toNat code
          rw [BitVec.extractLsb'_toNat] at value
          exact value
    show s.takeRequest rx.port rx.dest (w.extractLsb' 8 8) _ = s
    exact if_neg untaken

end

/-! A REPEATED_FRAME with a payload of a row of its own (R149; log 13). -/

theorem repeatedFrame_request {rx : Reception} {code tag : Byte} {args : List Word} {body : Request → State → State}
    (same : State.execute (requestOf rx code tag args) = body (requestOf rx code tag args)) (s : State) :
    exec (.repeatedFrame rx 3 (requestPayload code tag args)) s = running s (fun s => s.receiveRequest rx code tag args body) := by
  rw [exec_repeatedFrame_request]
  unfold State.receiveRequest
  rw [same]

/-- A PORT CONTROL request is executed by its action. -/
theorem execute_portControl (rx : Reception) (tag port : Byte) (extra : List Word) :
    let q := fun action : Byte => requestOf rx 0x0E tag (portControlWord port action :: extra)
    State.execute (q 0) = State.doPortRestart (q 0) ∧ State.execute (q 1) = State.doRejoin (q 1)
      ∧ State.execute (q 2) = State.doLoopbackOn (q 2) ∧ State.execute (q 3) = State.doLoopbackOff (q 3) := by
  intro q
  have byAction (action : Byte) : State.execute (q action) = State.doPortControl (q action) := rfl
  have is (action : Byte) : bits ((q action).arg 1) 0 8 = action.toNat := bits_append_lo port action
  refine ⟨?_, ?_, ?_, ?_⟩
  · funext s
    simp only [byAction, State.doPortControl, is, show (0 : Byte).toNat = 0 from rfl]
  · funext s
    simp only [byAction, State.doPortControl, is, show (1 : Byte).toNat = 1 from rfl]
  · funext s
    simp only [byAction, State.doPortControl, is, show (2 : Byte).toNat = 2 from rfl]
  · funext s
    simp only [byAction, State.doPortControl, is, show (3 : Byte).toNat = 3 from rfl]

theorem bit_readCountersWord (first : Byte) (clear : Bool) : bit (readCountersWord first clear) 0 = clear := by
  show (first ++ (if clear then 1 else 0 : Byte) : BitVec (8 + 8)).getLsbD 0 = clear
  rw [BitVec.getLsbD_append]
  cases clear <;> rfl

/-- A READ COUNTERS request is executed by its clear option. -/
theorem execute_readCounters (rx : Reception) (tag first : Byte) (clear : Bool) (extra : List Word) :
    State.execute (requestOf rx 0x0F tag (readCountersWord first clear :: extra)) =
      fun s => if clear then s.doReadCountersClear (requestOf rx 0x0F tag (readCountersWord first clear :: extra))
        else s.doReadCounters (requestOf rx 0x0F tag (readCountersWord first clear :: extra)) := by
  funext s
  show (if bit (readCountersWord first clear) 0 then _ else _) = _
  rw [bit_readCountersWord]

/-- One whose payload ends before its clear option is a read. -/
theorem execute_readCounters_short (rx : Reception) (tag : Byte) :
    State.execute (requestOf rx 0x0F tag []) = State.doReadCounters (requestOf rx 0x0F tag []) := by
  funext s
  have unset : ¬ bit ((requestOf rx 0x0F tag []).arg 1) 0 = true := by
    show ¬ bit (0 : Word) 0 = true
    decide
  exact if_neg unset

/-- Every request command is the REPEATED_FRAME of its words. -/
theorem repeatedFrame_of_request {c : Instr} {v : RequestView} (is : c.request = some v) (fits : c.wellFormed = true) (s : State) :
    exec (.repeatedFrame v.rx 3 (requestPayload v.code v.tag v.args)) s = exec c s := by
  cases c <;> simp only [Instr.request, reduceCtorEq, Option.some.injEq] at is
  case portRestart rx tag port extra =>
    obtain ⟨same, -⟩ := execute_portControl rx tag port extra
    subst is
    exact repeatedFrame_request same s
  case rejoin rx tag port extra =>
    obtain ⟨-, same, -⟩ := execute_portControl rx tag port extra
    subst is
    exact repeatedFrame_request same s
  case loopbackOn rx tag port extra =>
    obtain ⟨-, -, same, -⟩ := execute_portControl rx tag port extra
    subst is
    exact repeatedFrame_request same s
  case loopbackOff rx tag port extra =>
    obtain ⟨-, -, -, same⟩ := execute_portControl rx tag port extra
    subst is
    exact repeatedFrame_request same s
  case readCountersClear rx tag first extra =>
    subst is
    exact repeatedFrame_request (execute_readCounters rx tag first true extra) s
  case readCounters rx tag first extra =>
    cases first with
    | some first =>
      rw [Option.some.injEq] at is
      subst is
      exact repeatedFrame_request (execute_readCounters rx tag first false extra) s
    | none =>
      rw [Option.some.injEq] at is
      subst is
      obtain rfl : extra = [] := by simpa [Instr.wellFormed] using And.right (by simpa [Instr.wellFormed] using fits)
      exact repeatedFrame_request (execute_readCounters_short rx tag) s
  all_goals
    subst is
    exact repeatedFrame_request rfl s

/-! Looped frames (R154). -/

theorem receiveLooped_of_loopback {s : State} {side : Side} (state : (s.port side).state = .loopback) (whole : Bool) (words : List Word) :
    s.receiveLooped side whole words = s.setPort side { s.port side with
      counters := if damageOf whole words = none then
          { (s.port side).counters with loopGood := satInc (s.port side).counters.loopGood }
        else { (s.port side).counters with loopBad := satInc (s.port side).counters.loopBad } } := by
  unfold State.receiveLooped
  rw [if_pos state]
  cases damageOf whole words <;> rfl

/-- Settles O38: the reception of a good frame, by the port's state and by what R149 does with it. -/
theorem goodFramesRepeatedAndLooped : Obligations.GoodFramesRepeatedAndLooped := by
  refine ⟨fun s c side start words held brings unmarked state => exec_unlocked held brings unmarked state,
    fun s c rx kind payload slot held frame state at_ fits unmarked unlost => ?_, fun s rx kind payload slot hands long other agent => ?_,
    fun s rx => ⟨fun w => rfl, fun payload => rfl, fun code tag args => exec_repeatedFrame_request s rx code tag args,
      fun c v is fits => repeatedFrame_of_request is fits s⟩, fun s side whole words held state => ?_⟩
  · obtain ⟨f, ran⟩ : ∃ f, exec c s = .next (s.quiet.receiveGood rx kind payload f) := by
      rcases exec_frame held frame unmarked with ⟨is, empty, -⟩ | good
      · exact absurd empty (unlost is)
      · exact good
    rw [receiveGood_inSlot (s := s.quiet) state at_ fits] at ran
    obtain ⟨stripped, struck⟩ := goodInSlot_turned (s := s.quiet) (rx := rx) (kind := kind) (payload := payload) (slot := slot) (f slot)
    refine ⟨fun own => ?_, fun foreign own => ?_⟩
    · rwa [stripped own] at ran
    · rwa [struck foreign own] at ran
  · by_cases marker : kind = 0
    · subst marker
      exact exec_repeatedFrame_held_on hands (exec_repeatedFrame_marker (long.resolve_left (fun h => h rfl)))
    · by_cases request : kind = 3
      · subst request
        obtain ⟨some_word, passed⟩ := agent rfl
        rw [exec_repeatedFrame_held_on hands exec_repeatedFrame_agent]
        exact congrArg _ (handPayload_passed (s := s.repeated rx 3 payload slot) some_word passed)
      · have good := exec_repeatedFrame_held_on (kind := kind) hands (f := fun _ s => s)
        obtain ⟨held, -⟩ := hands
        exact good (exec_repeatedFrame_plain marker other request held)
  · intro up
    have ran : execLoopedFrame side whole words s = .next _ := running_next held _
    exact ran.trans (congrArg _ (receiveLooped_of_loopback (s := s.quiet) state whole words))

/-! Damaged frames, and frames off a slot (R140, R148, R150). -/

section
variable {s : State} {side : Side} {start slot : Nat} {whole : Bool} {words : List Word}

theorem receiveDamaged_inSlot {d : Damage} (state : (s.port side).state = .locked) (at_ : s.slotAt side start = some slot)
    (damage : damageOf whole words = some d) : s.receiveDamaged side start whole words = s.damagedInSlot side slot words d := by
  unfold State.receiveDamaged
  simp only [state, if_true, at_, damage]

theorem receiveDamaged_offSlot (state : (s.port side).state = .locked) (at_ : s.slotAt side start = none) :
    s.receiveDamaged side start whole words = s.offSlot side start words := by
  unfold State.receiveDamaged
  simp only [state, if_true, at_]

/-- How many words of a frame with a framing error that starts at word time `at'` are sent (R148, R150; log 8). -/
def State.brokenLength (s : State) (at' : Nat) : Nat := min (lastRepeated - at') (min 2 (Config.framingRepeat s.freeIndex))

/-- A framing error is counted, and sent in part outside the own slots up to word time 27. -/
theorem framingError_quiet (s : State) (side : Side) (slot at' : Nat) (words : List Word) :
    s.quiet.framingError side (some slot) at' words =
      let counted := State.setPort { s with out := [] } side { s.port side with
        counters := { (s.port side).counters with framing := satInc (s.port side).counters.framing } }
      if s.ownSlots.contains slot = true then counted
      else if at' ≤ 27 then
        { counted with out := s.onward side (some slot) (words.take (s.brokenLength at')), freeIndex := s.freeIndex + 1 }
      else { counted with freeIndex := s.freeIndex + 1 } := by
  have passes (b : Bool) (own : s.ownSlots.contains slot = b) := passes_counted (side := side) own
    (fun c => { c with framing := satInc c.framing })
  unfold State.framingError
  cases own : s.ownSlots.contains slot with
  | true =>
    dsimp only
    rw [passes _ own]
    rfl
  | false =>
    dsimp only
    rw [passes _ own]
    refine Eq.trans (b := (s.quiet.countPort side (fun c => { c with framing := satInc c.framing })).repeatBroken side (some slot) at' words)
      rfl ?_
    unfold State.repeatBroken
    dsimp only
    by_cases early : at' ≤ 27
    · rw [if_pos (show at' ≤ lastRepeated from early), if_neg (by simp), if_pos early]
      exact repeat_counted s side slot _ _ _
    · rw [if_neg (show ¬ at' ≤ lastRepeated from early), if_neg (by simp), if_neg early]
      rfl

/-- A damaged frame in an own slot is counted and nothing else. -/
theorem damagedInSlot_own (own : s.ownSlots.contains slot = true) (d : Damage) : s.quiet.damagedInSlot side slot words d =
    State.setPort { s with out := [] } side { s.port side with counters := match d with
      | .framing => { (s.port side).counters with framing := satInc (s.port side).counters.framing }
      | .truncated => { (s.port side).counters with truncated := satInc (s.port side).counters.truncated }
      | .badCheck => { (s.port side).counters with check := satInc (s.port side).counters.check } } := by
  have quiet (f : PortCounters → PortCounters) := passes_counted (side := side) own f
  cases d with
  | framing => exact (framingError_quiet s side slot 0 words).trans (if_pos own)
  | truncated => exact if_neg (by rw [quiet]; exact Bool.false_ne_true)
  | badCheck => exact if_neg (by rw [quiet]; exact Bool.false_ne_true)

/-- A whole frame with a bad check word, and a truncated one, outside the own slots. -/
theorem damagedInSlot_repeated (other : s.ownSlots.contains slot = false) :
    s.quiet.damagedInSlot side slot words .badCheck = { State.setPort { s with out := [] } side { s.port side with
      counters := { (s.port side).counters with check := satInc (s.port side).counters.check } } with
        out := s.onward side (some slot) (wholeWords words) }
    ∧ s.quiet.damagedInSlot side slot words .truncated = { State.setPort { s with out := [] } side { s.port side with
      counters := { (s.port side).counters with truncated := satInc (s.port side).counters.truncated } } with
        out := s.onward side (some slot) (truncatedWords words) } := by
  have passes (f : PortCounters → PortCounters) := passes_quiet (side := side) other f
  refine ⟨(if_pos (passes _)).trans ?_, (if_pos (passes _)).trans ?_⟩
  · exact repeat_counted s side slot (fun c => { c with check := satInc c.check }) s.freeIndex _
  · exact repeat_counted s side slot (fun c => { c with truncated := satInc c.truncated }) s.freeIndex _

theorem exec_damagedFrame (held : s.held = false) :
    exec (.damagedFrame side start whole words) s = .next (s.quiet.receiveDamaged side start whole words) := by
  have ran : execDamagedFrame side start whole words s = .next _ := running_next held _
  exact ran

/-- A word time off the start of a slot. -/
theorem slotAt_off {pos slots : Nat} (inForce : s.slotsOf side = some slots) (position : (s.port side).position = some pos)
    (after : pos ≤ start) (off : (start - pos) % 32 ≠ 0) : s.slotAt side start = none
      ∧ s.slotHolding side start = some ((start - pos) / 32 % slots, (start - pos) % 32) := by
  have holding : s.slotHolding side start = some ((start - pos) / 32 % slots, (start - pos) % 32) := by
    simp only [State.slotHolding, inForce, slotHolding, position, if_pos after]
  refine ⟨?_, holding⟩
  unfold State.slotAt
  rw [holding]
  generalize (start - pos) % 32 = k at off
  cases k with
  | zero => exact absurd rfl off
  | succ k => rfl

/-- Any frame whose start marker falls off a slot is a framing error of the slot it falls in (R140). -/
theorem exec_offSlot {c : Instr} (held : s.held = false) (brings : c.arrival = some (side, start, words))
    (unlost : ∀ rx payload, c = .requestLost rx payload → s.agent.holder ≠ none) (state : (s.port side).state = .locked)
    (off : s.slotAt side start = none) : exec c s = .next (s.quiet.offSlot side start words) := by
  by_cases marker : ∃ rx w, c = .marker rx w ∨ c = .repeatedFrame rx 0 [w]
  · obtain ⟨rx, w, is⟩ := marker
    obtain ⟨rfl, rfl, rfl⟩ : rx.port = side ∧ rx.start = start ∧ receivedWords rx 0 [w] = words := by
      rcases is with rfl | rfl <;> simpa [Instr.arrival, Instr.frame] using brings
    have received : s.quiet.receiveMarker rx w = s.quiet.offSlot rx.port rx.start (receivedWords rx 0 [w]) := by
      unfold State.receiveMarker
      dsimp only
      rw [if_pos (show (s.quiet.port rx.port).state = .locked from state), show s.quiet.slotAt rx.port rx.start = none from off]
    rw [← received]
    rcases is with rfl | rfl
    · exact exec_marker held
    · exact exec_marker held
  · have unmarked (rx : Reception) (w : Word) : c ≠ .marker rx w ∧ c ≠ .repeatedFrame rx 0 [w] :=
      ⟨fun is => marker ⟨rx, w, .inl is⟩, fun is => marker ⟨rx, w, .inr is⟩⟩
    rcases exec_arrival held brings unmarked with ⟨whole, ran⟩ | ⟨rx, kind, payload, rfl, rfl, rfl, ⟨is, empty, -⟩ | ⟨f, ran⟩⟩
    · rwa [receiveDamaged_offSlot (s := s.quiet) state off] at ran
    · exact absurd empty (unlost rx payload is)
    · rwa [receiveGood_offSlot (s := s.quiet) state off] at ran

end

/-- Settles O39: a damaged frame is counted once, and what is sent of it are its first words, as many as R148 and R150 allow. -/
theorem damagedFrameCountsOnce : Obligations.DamagedFrameCountsOnce := by
  refine ⟨fun s side start slot whole words held state at_ other => ?_, fun s side start slot whole words d held state at_ own damage => ?_,
    fun s c side start pos slots words held brings unlost state inForce position after => ?_⟩
  · intro up counted
    obtain ⟨checked, truncated⟩ := damagedInSlot_repeated (s := s) (side := side) (slot := slot) (words := words) other
    have received (d : Damage) (damage : damageOf whole words = some d) : exec (.damagedFrame side start whole words) s
        = .next (s.quiet.damagedInSlot side slot words d) := by
      rw [exec_damagedFrame held, receiveDamaged_inSlot (s := s.quiet) state at_ damage]
    refine ⟨fun damage => (received _ damage).trans (congrArg _ checked), fun damage => (received _ damage).trans (congrArg _ truncated),
      fun damage => ⟨words.take (s.brokenLength 0), ?_, List.take_prefix _ _, ?_⟩⟩
    · rw [List.length_take, State.brokenLength]
      omega
    · refine (received _ damage).trans (congrArg _ ((framingError_quiet s side slot 0 words).trans ?_))
      dsimp only
      rw [if_neg (by rw [other]; exact Bool.false_ne_true), if_pos (Nat.zero_le 27)]
      rfl
  · intro up
    rw [exec_damagedFrame held, receiveDamaged_inSlot (s := s.quiet) state at_ damage, damagedInSlot_own own]
    cases d <;> rfl
  · intro slot at' off counted
    obtain ⟨none, holding⟩ := slotAt_off inForce position after off
    have ran := exec_offSlot held brings unlost state none
    have error : s.quiet.offSlot side start words = s.quiet.framingError side (some slot) at' words := by
      unfold State.offSlot
      rw [show s.quiet.slotHolding side start = some (slot, at') from holding]
    rw [error, framingError_quiet] at ran
    refine ⟨fun own => ?_, fun other early => ⟨words.take (s.brokenLength at'), ?_, ?_, List.take_prefix _ _, ?_⟩, fun other late => ?_⟩
    · exact ran.trans (congrArg _ (if_pos own))
    · rw [List.length_take, State.brokenLength]
      omega
    · rw [List.length_take, State.brokenLength, lastRepeated]
      omega
    · exact ran.trans (congrArg _ ((if_neg (by rw [other]; exact Bool.false_ne_true)).trans (if_pos early)))
    · exact ran.trans (congrArg _ ((if_neg (by rw [other]; exact Bool.false_ne_true)).trans (if_neg (not_le.2 late))))

end Sys2Proof.Machine
end

section
/-! The words of a frame and its check word (R148, R182; section 11.1). -/

namespace Sys2Proof.Machine

theorem headerWords_fields (kind source length cycle dest spare : Nat) :
    ∃ h0 h1, headerWords kind source length cycle dest spare = [h0, h1]
      ∧ HoldsFields h0 [(12, 4, kind), (6, 6, source), (0, 6, length)] ∧ HoldsFields h1 [(8, 8, cycle), (2, 6, dest), (0, 2, spare)] :=
  ⟨_, _, rfl, packWord_holds rfl, packWord_holds rfl⟩

/-- The damage of a frame of its declared length is in its last word alone. -/
theorem damageOf_whole {sent : List Word} (w : Word) (length : sent.length = declaredLength (sent.headD 0) + 2)
    (fits : declaredLength (sent.headD 0) ≤ 24) :
    damageOf true (sent ++ [w]) = if w = checkWord sent then none else some .badCheck := by
  match sent, length with
  | h :: rest, length =>
    rw [List.headD_cons] at length fits
    have long : ¬ 25 ≤ declaredLength h := by omega
    have full : ¬ ((h :: rest) ++ [w]).length < declaredLength h + 3 := by
      rw [List.length_append, length, List.length_singleton]
      omega
    have last : ((h :: rest) ++ [w]).getD (declaredLength h + 2) 0 = w := by
      rw [← length, List.getD_append_right _ _ _ _ le_rfl, Nat.sub_self]
      rfl
    have before : ((h :: rest) ++ [w]).take (declaredLength h + 2) = h :: rest := by rw [← length, List.take_left]
    show (if (!true || decide (25 ≤ declaredLength h)) = true then _
      else if ((h :: rest) ++ [w]).length < declaredLength h + 3 then _
      else if ((h :: rest) ++ [w]).getD (declaredLength h + 2) 0 = checkWord (((h :: rest) ++ [w]).take (declaredLength h + 2)) then _
      else _) = _
    rw [last, before, if_neg full]
    simp [long]

theorem complement_ne (w : Word) : w ≠ ~~~ w := by
  intro same
  have bit := congrArg (fun v : Word => v.getLsbD 0) same
  simp at bit

/-- A poisoned frame fails every receiver's check (R148). -/
theorem poisonWord_ne_checkWord (words : List Word) : poisonWord words ≠ checkWord words := complement_ne (checkRegister words)

section
variable {words : List Word}

/-- What a truncated frame is padded to. -/
def paddedWords (words : List Word) : List Word :=
  (words ++ List.replicate (declaredLength (words.headD 0) + 2) 0).take (declaredLength (words.headD 0) + 2)

theorem truncatedWords_eq (words : List Word) : truncatedWords words = paddedWords words ++ [poisonWord (paddedWords words)] := rfl

theorem paddedWords_length (words : List Word) : (paddedWords words).length = declaredLength (words.headD 0) + 2 := by
  rw [paddedWords, List.length_take, List.length_append, List.length_replicate]
  omega

theorem paddedWords_head (some_word : words ≠ []) : (paddedWords words).headD 0 = words.headD 0 := by
  match words, some_word with
  | w :: rest, _ => rfl

theorem truncatedWords_length (words : List Word) : (truncatedWords words).length = declaredLength (words.headD 0) + 3 := by
  rw [truncatedWords_eq, List.length_append, paddedWords_length]
  rfl

theorem damageOf_truncatedWords (some_word : words ≠ []) (fits : declaredLength (words.headD 0) ≤ 24) :
    damageOf true (truncatedWords words) = some .badCheck := by
  rw [truncatedWords_eq, damageOf_whole]
  · exact if_neg (poisonWord_ne_checkWord _)
  · rw [paddedWords_head some_word, paddedWords_length]
  · rwa [paddedWords_head some_word]

/-- The words received of a truncated frame go on as they are. -/
theorem truncatedWords_take (short : words.length < declaredLength (words.headD 0) + 3) :
    (truncatedWords words).take words.length = words := by
  have received : words.length ≤ declaredLength (words.headD 0) + 2 := by omega
  rw [truncatedWords_eq, List.take_append_of_le_length (by rw [paddedWords_length]; exact received), paddedWords, List.take_take,
    min_eq_left received, List.take_left]

end

/-- Settles O40: the words by their places in the frame, and the check word by the register of R182. -/
theorem poisonedFrameFailsTheCheck : Obligations.PoisonedFrameFailsTheCheck := by
  refine ⟨fun kind source length cycle dest spare payload => ?_, fun words => ?_, fun words some_word fits =>
    ⟨truncatedWords_length words, fun short => ⟨by rw [truncatedWords_take short], damageOf_truncatedWords some_word fits⟩,
      fun header payload two small declared => ?_⟩⟩
  · obtain ⟨h0, h1, header, first, second⟩ := headerWords_fields kind source length cycle dest spare
    intro w
    have words : w = h0 :: h1 :: (payload ++ [checkWord (h0 :: h1 :: payload)]) := by
      show frameWords (headerWords kind source length cycle dest spare) payload = _
      rw [header]
      rfl
    rw [words]
    refine ⟨by simp, first, second, List.take_left, ?_⟩
    have before : (h0 :: h1 :: (payload ++ [checkWord (h0 :: h1 :: payload)])).take (payload.length + 2) = h0 :: h1 :: payload := by
      rw [List.take_succ_cons, List.take_succ_cons, List.take_left]
    rw [before, List.getD_cons_succ, List.getD_cons_succ, List.getD_append_right _ _ _ _ le_rfl, Nat.sub_self]
    rfl
  · intro sent register
    have is : checkRegister words = register := checkRegister_bits words
    exact ⟨congrArg _ is, is⟩
  · have length : (header ++ payload).length = declaredLength ((header ++ payload).headD 0) + 2 := by
      match header, two with
      | [h0, h1], _ =>
        rw [List.headD_cons] at declared
        show payload.length + 2 = declaredLength h0 + 2
        rw [declared]
    have head : declaredLength ((header ++ payload).headD 0) ≤ 24 := by
      rw [List.length_append, two] at length
      omega
    rw [frameWords, damageOf_whole _ length head, if_pos rfl]

end Sys2Proof.Machine
end

section
/-! Requests that are refused, unknown or lost (R155, R163, R165, R168 to R170, R179 to R181, R183). -/

namespace Sys2Proof.Machine

/-! The refusals before a request's own rule (R170). -/

section
variable {s : State} {q : Request} {write : Bool} {n : Nat} {body : State → State}

theorem guarded_of_unpermitted (is : write = true) (unpermitted : s.permits q.source = false) :
    s.guarded q write n body = s.reply q .notPermitted := if_pos (by rw [is, unpermitted]; rfl)

theorem guarded_of_length (permitted : write = false ∨ s.permits q.source = true) (wrong : q.len ≠ 1 + n) :
    s.guarded q write n body = s.reply q .badArgument := by
  refine (if_neg ?_).trans (if_pos wrong)
  rcases permitted with read | permitted
  · rw [read]
    exact Bool.false_ne_true
  · rw [permitted, Bool.not_true, Bool.and_false]
    exact Bool.false_ne_true

theorem permits_iff (source : Address) : s.permits source = true ↔ s.engineerAddress = 63 ∨ s.engineerAddress = source.toNat := by
  simp [State.permits]

/-- The permission is that of the state before the repeat. -/
theorem permits_repeated {rx : Reception} {code tag : Byte} {args : List Word} {slot : Nat} {source : Address} :
    (s.requestRepeated rx code tag args slot).permits source = s.permits source := rfl

end

/-- A request that is taken is answered by its own body, or refused before it. -/
theorem exec_refused {s : State} {c : Instr} {v : RequestView} {slot : Nat} (is : c.request = some v)
    (takes : s.Takes v.rx v.code v.tag v.args slot) :
    (v.write = true → s.engineerAddress ≠ 63 → s.engineerAddress ≠ v.rx.source.toNat →
      exec c s = .next ((s.requestRepeated v.rx v.code v.tag v.args slot).answered v.rx v.code v.tag .notPermitted 0 [] false))
    ∧ ((v.write = false ∨ s.engineerAddress = 63 ∨ s.engineerAddress = v.rx.source.toNat) → v.args.length ≠ v.needs →
      exec c s = .next ((s.requestRepeated v.rx v.code v.tag v.args slot).answered v.rx v.code v.tag .badArgument 0 [] false)) := by
  obtain ⟨body, runs, f, guards⟩ := exec_request is
  have ran : exec c s = .next _ := (runs s).trans (receiveRequest_takes takes body)
  rw [guards] at ran
  refine ⟨fun write notAny notIt => ?_, fun permitted wrong => ?_⟩
  · have unpermitted : s.permits v.rx.source = false := by
      rw [Bool.eq_false_iff, ne_eq, permits_iff, not_or]
      exact ⟨notAny, notIt⟩
    rw [guarded_of_unpermitted write (permits_repeated.trans unpermitted)] at ran
    exact ran
  · have allowed : v.write = false ∨ s.permits v.rx.source = true := permitted.imp_right (permits_iff _).2
    rw [guarded_of_length (allowed.imp_right permits_repeated.trans)
      (fun same => wrong (by have : v.args.length + 1 = 1 + v.needs := same; omega))] at ran
    exact ran

/-! A request's own rule, of a taken request of the right length. -/

section
variable {s : State} {rx : Reception} {tag : Byte} {args : List Word} {slot : Nat}

theorem exec_load (h : s.TakesWrite rx 0x04 tag args slot) (length : args.length = 2 + bits (args.getD 1 0) 0 8) :
    exec (.load rx tag args) s = .next (
      match runFits (TableKind.ofCode (bits (args.getD 0 0) 8 4)) (bits (args.getD 0 0) 0 8) (bits (args.getD 1 0) 8 8)
        (bits (args.getD 1 0) 0 8) with
      | none => (s.requestRepeated rx 0x04 tag args slot).reply (requestOf rx 0x04 tag args) .badArgument
      | some k => ((s.requestRepeated rx 0x04 tag args slot).loadShadow
          (k.address (bits (args.getD 0 0) 0 8) (bits (args.getD 1 0) 8 8)) (args.drop 2)).done (requestOf rx 0x04 tag args)) := by
  have takes := h
  obtain ⟨takes, -⟩ := takes
  have ran : exec (.load rx tag args) s = .next _ := receiveRequest_takes takes State.doLoad
  refine ran.trans (congrArg _ ?_)
  unfold State.doLoad
  exact guarded_write h length

theorem exec_readTable (h : s.Takes rx 0x03 tag args slot) (length : args.length = 2) :
    exec (.readTable rx tag args) s = .next (
      match runFits (TableKind.ofCode (bits (args.getD 0 0) 8 4)) (bits (args.getD 0 0) 0 8) (bits (args.getD 1 0) 8 8)
        (bits (args.getD 1 0) 0 8) with
      | none => (s.requestRepeated rx 0x03 tag args slot).reply (requestOf rx 0x03 tag args) .badArgument
      | some k => (s.requestRepeated rx 0x03 tag args slot).done (requestOf rx 0x03 tag args)
          (BitVec.ofNat 16 (if bit (args.getD 0 0) 15 then s.banks.b else s.banks.a).status.code
            :: (if bit (args.getD 0 0) 15 then s.banks.b else s.banks.a).words.readRun
              (k.address (bits (args.getD 0 0) 0 8) (bits (args.getD 1 0) 8 8)) (bits (args.getD 1 0) 0 8))) := by
  have ran : exec (.readTable rx tag args) s = .next _ := receiveRequest_takes h State.doReadTable
  exact ran.trans (congrArg _ (guarded_read length))

theorem exec_readState (h : s.Takes rx 0x02 tag args slot) (length : args.length = 2) :
    exec (.readState rx tag args) s = .next (
      match s.report (bits (args.getD 0 0) 8 8) (bits (args.getD 0 0) 0 8) with
      | none => (s.requestRepeated rx 0x02 tag args slot).reply (requestOf rx 0x02 tag args) .badArgument
      | some words =>
        if words ≠ [] ∧ words.length ≤ (args.getD 1 0).toNat then
          (s.requestRepeated rx 0x02 tag args slot).reply (requestOf rx 0x02 tag args) .badArgument
        else ((s.requestRepeated rx 0x02 tag args slot).setFreeIndex (s.freeIndex + 1)).reply (requestOf rx 0x02 tag args) .done
          words.length (longWords s.timeBase ++ (words.drop (args.getD 1 0).toNat).take 20)) := by
  have ran : exec (.readState rx tag args) s = .next _ := receiveRequest_takes h State.doReadState
  exact ran.trans (congrArg _ (guarded_read length))

theorem exec_readOperationLog (h : s.Takes rx 0x10 tag args slot) (length : args.length = 1) :
    exec (.readOperationLog rx tag args) s = .next (
      if 31 < bits (args.getD 0 0) 8 8 ∨ bits (args.getD 0 0) 0 8 = 0 ∨ 3 < bits (args.getD 0 0) 0 8 then
        (s.requestRepeated rx 0x10 tag args slot).reply (requestOf rx 0x10 tag args) .badArgument
      else (s.requestRepeated rx 0x10 tag args slot).done (requestOf rx 0x10 tag args)
        (BitVec.ofNat 16 s.log.records.length
          :: ((s.log.records.drop (bits (args.getD 0 0) 8 8)).take (bits (args.getD 0 0) 0 8)).flatMap LogRecord.summary)) := by
  have ran : exec (.readOperationLog rx tag args) s = .next _ := receiveRequest_takes h State.doReadLog
  exact ran.trans (congrArg _ (guarded_read length))

theorem exec_readCounters {first : Byte} (h : s.Takes rx 0x0F tag [readCountersWord first false] slot) :
    exec (.readCounters rx tag (some first) []) s = .next (
      if 81 < first.toNat then (s.requestRepeated rx 0x0F tag [readCountersWord first false] slot).reply
          (requestOf rx 0x0F tag [readCountersWord first false]) .badArgument
      else (s.requestRepeated rx 0x0F tag [readCountersWord first false] slot).done
        (requestOf rx 0x0F tag [readCountersWord first false]) ((s.counterImage.drop first.toNat).take 20)) := by
  have ran : exec (.readCounters rx tag (some first) []) s = .next _ := receiveRequest_takes h State.doReadCounters
  refine ran.trans (congrArg _ ((guarded_read rfl).trans ?_))
  rw [show bits ((requestOf rx 0x0F tag [readCountersWord first false]).arg 1) 8 8 = first.toNat from bits_append_hi first _]
  rfl

theorem exec_readCountersClear {first : Byte} (h : s.TakesWrite rx 0x0F tag [readCountersWord first true] slot) :
    exec (.readCountersClear rx tag first []) s = .next (
      if 81 < first.toNat then (s.requestRepeated rx 0x0F tag [readCountersWord first true] slot).reply
          (requestOf rx 0x0F tag [readCountersWord first true]) .badArgument
      else ((s.requestRepeated rx 0x0F tag [readCountersWord first true] slot).clearCounters
          (fun place => decide (first.toNat ≤ place) && decide (place < first.toNat + 20))).done
        (requestOf rx 0x0F tag [readCountersWord first true]) ((s.counterImage.drop first.toNat).take 20)) := by
  have takes := h
  obtain ⟨takes, -⟩ := takes
  have ran : exec (.readCountersClear rx tag first []) s = .next _ := receiveRequest_takes takes State.doReadCountersClear
  refine ran.trans (congrArg _ ((guarded_write h rfl).trans ?_))
  rw [show bits ((requestOf rx 0x0F tag [readCountersWord first true]).arg 1) 8 8 = first.toNat from bits_append_hi first _]
  rfl

/-- A PORT CONTROL action of the right length, on the port its word names (R155). -/
theorem onPort_taken {port action : Byte} (h : s.TakesWrite rx 0x0E tag [portControlWord port action] slot) (body : Side → State → State) :
    (s.requestRepeated rx 0x0E tag [portControlWord port action] slot).onPort (requestOf rx 0x0E tag [portControlWord port action]) body =
      (sideOf port.toNat).elim ((s.requestRepeated rx 0x0E tag [portControlWord port action] slot).reply
          (requestOf rx 0x0E tag [portControlWord port action]) .badArgument)
        (fun side => body side (s.requestRepeated rx 0x0E tag [portControlWord port action] slot)) := by
  refine (guarded_write h rfl).trans ?_
  rw [show bits ((requestOf rx 0x0E tag [portControlWord port action]).arg 1) 8 8 = port.toNat from bits_append_hi port action]
  cases sideOf port.toNat <;> rfl

end

/-! Arguments out of their ranges. -/

theorem runFits_eq_none {kind : Option TableKind} {entry first count : Nat} (misfit : ∀ k, kind = some k →
    k.entries ≤ entry ∨ count = 0 ∨ 20 < count ∨ k.width < first + count) : runFits kind entry first count = none := by
  cases kind with
  | none => rfl
  | some k =>
    refine if_neg ?_
    have := misfit k rfl
    omega

theorem report_eq_none {s : State} {kind index : Nat} (beyond : ∀ n, [16, 64, 1, 1, 8, 32, 32, 256, 2][kind]? = some n → n ≤ index) :
    s.report kind index = none := by
  unfold State.report
  split
  case h_9 =>
    have := beyond 2 rfl
    match index, this with
    | _ + 2, _ => rfl
  case h_10 => rfl
  all_goals exact if_neg (by have := beyond _ rfl; omega)

theorem sideOf_eq_none {n : Nat} (beyond : 2 ≤ n) : sideOf n = none := by
  match n, beyond with
  | _ + 2, _ => rfl

/-- Settles O41: permission and length before a request's own rule, and then the ranges that rule examines. -/
theorem refusedRequestsChangeNothing : Obligations.RefusedRequestsChangeNothing := by
  refine ⟨fun s c v slot is takes => exec_refused is takes, fun s rx tag slot => ?_⟩
  intro bad misfit
  refine ⟨fun w run data h length unfit => ?_, fun w run h unfit => ?_, fun w first h beyond => ?_, fun first beyond => ⟨fun h => ?_,
    fun h => ?_⟩, fun w h beyond => ?_, fun port beyond => ⟨fun h => ?_, fun h => ?_, fun h => ?_, fun h => ?_⟩, fun port action beyond h => ?_⟩
  · have none : runFits (TableKind.ofCode (bits w 8 4)) (bits w 0 8) (bits run 8 8) (bits run 0 8) = none := runFits_eq_none unfit
    have ran := exec_load h (by show data.length + 1 + 1 = 2 + bits run 0 8; omega)
    simp only [List.getD_cons_zero, List.getD_cons_succ, none] at ran
    exact ran
  · have none : runFits (TableKind.ofCode (bits w 8 4)) (bits w 0 8) (bits run 8 8) (bits run 0 8) = none := runFits_eq_none unfit
    have ran := exec_readTable h rfl
    simp only [List.getD_cons_zero, List.getD_cons_succ, none] at ran
    exact ran
  · have ran := exec_readState h rfl
    rcases beyond with none | ⟨words, is, some_word, short⟩
    · have none := report_eq_none (s := s) none
      simp only [List.getD_cons_zero, none] at ran
      exact ran
    · simp only [List.getD_cons_zero, List.getD_cons_succ, is] at ran
      rw [if_pos ⟨some_word, short⟩] at ran
      exact ran
  · exact (exec_readCounters h).trans (congrArg _ (if_pos beyond))
  · exact (exec_readCountersClear h).trans (congrArg _ (if_pos beyond))
  · exact (exec_readOperationLog h rfl).trans (congrArg _ (if_pos beyond))
  · have takes := h
    obtain ⟨takes, -⟩ := takes
    have ran : exec (.portRestart rx tag port []) s = .next _ := receiveRequest_takes takes State.doPortRestart
    exact ran.trans (congrArg _ ((onPort_taken h _).trans (by rw [sideOf_eq_none beyond]; rfl)))
  · have takes := h
    obtain ⟨takes, -⟩ := takes
    have ran : exec (.rejoin rx tag port []) s = .next _ := receiveRequest_takes takes State.doRejoin
    exact ran.trans (congrArg _ ((onPort_taken h _).trans (by rw [sideOf_eq_none beyond]; rfl)))
  · have takes := h
    obtain ⟨takes, -⟩ := takes
    have ran : exec (.loopbackOn rx tag port []) s = .next _ := receiveRequest_takes takes State.doLoopbackOn
    exact ran.trans (congrArg _ ((onPort_taken h _).trans (by rw [sideOf_eq_none beyond]; rfl)))
  · have takes := h
    obtain ⟨takes, -⟩ := takes
    have ran : exec (.loopbackOff rx tag port []) s = .next _ := receiveRequest_takes takes State.doLoopbackOff
    exact ran.trans (congrArg _ ((onPort_taken h _).trans (by rw [sideOf_eq_none beyond]; rfl)))
  · have takes := h
    obtain ⟨takes, -⟩ := takes
    have ran : exec (.unknownRequest rx 0x0E tag [portControlWord port action]) s = .next _ := receiveRequest_takes takes State.execute
    refine ran.trans (congrArg _ ?_)
    show State.doPortControl _ _ = _
    have is : bits ((requestOf rx 0x0E tag [portControlWord port action]).arg 1) 0 8 = action.toNat := bits_append_lo port action
    unfold State.doPortControl
    rw [is]
    generalize action.toNat = n at beyond
    match n, beyond with
    | _ + 4, _ => exact guarded_write h rfl

/-! Unknown and lost requests. -/

/-- A code that is none of the eighteen (R170). -/
theorem execute_unknown {q : Request} (unknown : q.code.toNat = 0 ∨ 0x12 < q.code.toNat) (s : State) :
    s.execute q = s.reply q .unknownRequest := by
  unfold State.execute
  split
  case h_19 => rfl
  all_goals
    rename_i is
    rw [is] at unknown
    omega

theorem loseRequest_eq (s : State) : s.loseRequest = { s with
    agent := { s.agent with requestLost := if s.agent.requestLost = 65535 then 65535 else s.agent.requestLost + 1 }
    notices := { s.notices with requestLost := true } } := rfl

/-- A REQUEST frame for the part that finds the holder full (R168). -/
theorem handPayload_lost {s : State} {rx : Reception} {w : Word} {args : List Word} (timing : s.timingPort = some rx.port)
    (addressed : rx.dest.toNat = s.partAddress) (full : s.agent.holder ≠ none) : s.handPayload rx (w :: args) = s.loseRequest := by
  have screened (code : Byte) : s.timingPort = some rx.port ∧ s.screens rx.dest code = true :=
    ⟨timing, Bool.or_eq_true_iff.2 (.inl (beq_iff_eq.2 addressed))⟩
  show s.takeRequest rx.port rx.dest (w.extractLsb' 8 8) _ = _
  exact (if_pos (screened _)).trans (if_pos (Option.isSome_iff_ne_none.2 full))

/-- Settles O42: an unknown code has its answer, and a full holder loses whatever REQUEST reaches it. -/
theorem unknownAndLostRequests : Obligations.UnknownAndLostRequests := by
  refine ⟨fun s rx code tag args slot takes unknown => ?_, fun s c v slot is reaches full => ?_,
    fun s rx w args slot hands timing addressed full => ?_⟩
  · have ran : exec (.unknownRequest rx code tag args) s = .next _ := receiveRequest_takes takes State.execute
    refine ran.trans (congrArg _ (execute_unknown ?_ _))
    rcases unknown with rfl | above
    · exact .inl rfl
    · exact .inr above
  · obtain ⟨body, runs, -⟩ := exec_request is
    refine (runs s).trans ((receiveRequest_reaches reaches body).trans (congrArg _ ?_))
    rw [if_pos (Option.isSome_iff_ne_none.2 full)]
    exact loseRequest_eq _
  · have good := receiveGood_quiet 3 (fun _ s => s.handPayload rx (w :: args)) hands
    obtain ⟨held, -⟩ := hands
    have ran : execRequestLost rx (w :: args) s = .next _ := running_next held _
    refine ran.trans (congrArg _ ?_)
    rw [if_pos (show s.quiet.agent.holder.isSome = true from Option.isSome_iff_ne_none.2 full), good]
    exact (handPayload_lost (s := s.repeated rx 3 (w :: args) slot) timing addressed full).trans (loseRequest_eq _)

end Sys2Proof.Machine
end

section
/-! The requests that read, and LOAD and COPY ACTIVE TO SHADOW (R163 to R165, R172, R179 to R181). -/

namespace Sys2Proof.Machine

/-! What the reports hold. -/

section
variable (s : State)

theorem operationReport_open {i : Nat} {op : Operation} (is : s.tracker.ops[i]? = some op) :
    op.Reported 0 0 0 0 (s.operationReport i) := by
  have words : s.operationReport i = op.words (Config.unstated s.freeIndex) none (longWords 0 ++ [(0 : Byte).setWidth 16, 0]) := by
    simp only [State.operationReport, is]
    rfl
  rw [words]
  exact operationWords_shown _ op none 0 0 0

theorem operationReport_beyond {i : Nat} (is : s.tracker.ops[i]? = none) : s.operationReport i = [] := by
  simp only [State.operationReport, is]

theorem logReport_beyond {i : Nat} (is : s.log.records[i]? = none) : s.logReport i = [] := by
  simp only [State.logReport, is]

theorem logReport_logged {i : Nat} {r : LogRecord} (is : s.log.records[i]? = some r) :
    r.op.Reported (if r.outcome = .complete then 1 else 2) r.closeTime r.closeCycle r.seq (s.logReport i) := by
  have words : s.logReport i = r.op.words (Config.unstated s.freeIndex) (some r.outcome)
      (longWords r.closeTime ++ [r.closeCycle.setWidth 16, r.seq]) := by
    simp only [State.logReport, is]
  have code : (if r.outcome = .complete then 1 else 2) = OpOutcome.code (some r.outcome) := by
    cases r.outcome <;> rfl
  rw [words, code]
  exact operationWords_shown _ r.op (some r.outcome) r.closeTime r.closeCycle r.seq

end

/-! IDENTIFY, which is taken at the address of all stations too (R168). -/

theorem exec_identify {s : State} {rx : Reception} {tag : Byte} {slot : Nat} (hands : s.HandsOn rx (requestPayload 0x01 tag []) slot)
    (timing : s.timingPort = some rx.port) (addressed : rx.dest.toNat = s.partAddress ∨ rx.dest = 63) (empty : s.agent.holder = none) :
    exec (.identify rx tag []) s
      = .next ((s.requestRepeated rx 0x01 tag [] slot).doIdentify (requestOf rx 0x01 tag [])) := by
  have good := receiveGood_quiet 3 (fun _ s => s.takeRequest rx.port rx.dest 0x01 (State.doIdentify (requestOf rx 0x01 tag []))) hands
  obtain ⟨held, -⟩ := hands
  have ran : execIdentify rx tag [] s = .next _ := running_next held _
  refine ran.trans (congrArg _ (good.trans ?_))
  have screened : s.screens rx.dest 0x01 = true := by
    rcases addressed with own | all
    · exact Bool.or_eq_true_iff.2 (.inl (beq_iff_eq.2 own))
    · rw [all]
      exact Bool.or_eq_true_iff.2 (.inr rfl)
  exact (if_pos ⟨timing, screened⟩).trans (if_neg (by rw [show (s.repeated rx 3 _ slot).agent.holder = none from empty]; exact Bool.false_ne_true))

theorem runFits_eq_some {k : TableKind} {kind : Option TableKind} {entry first count : Nat} (is : kind = some k) (inTable : entry < k.entries)
    (least : 1 ≤ count) (most : count ≤ 20) (inEntry : first + count ≤ k.width) : runFits kind entry first count = some k := by
  rw [is]
  exact if_pos ⟨inTable, least, most, inEntry⟩

/-- Settles O43: the reports by the lemmas about each, and the read requests by their own rules. -/
theorem readsAnswerFromTheState : Obligations.ReadsAnswerFromTheState := by
  refine ⟨fun s => ⟨fun i hi => ⟨_, if_pos hi, schemeReport_shown s i⟩, fun i hi => ⟨_, if_pos hi, contReport_shown s i⟩,
    ⟨_, rfl, engineReport_shown s⟩, ⟨_, rfl, queueReport_shown s⟩,
    fun i hi => ⟨fun is => (if_pos hi).trans (congrArg some (operationReport_beyond s is)), fun op is =>
      ⟨_, if_pos hi, operationReport_open s is⟩⟩,
    fun i hi => ⟨fun is => (if_pos hi).trans (congrArg some (logReport_beyond s is)), fun r is => ⟨_, if_pos hi, logReport_logged s is⟩⟩,
    fun i hi => ⟨_, if_pos hi, stationReport_shown s i⟩, fun i hi => ⟨_, if_pos hi, pointReport_shown s i⟩, fun side i mem => ?_,
    counterImage_counted s, summary_shown⟩,
    fun s rx tag slot => ⟨fun hands timing addressed empty => ?_, fun w first words takes report inReport => ?_,
      fun w run k takes kind inTable least most inEntry => ?_, fun first takes inImage => ?_, fun w takes start least most => ?_⟩⟩
  · rcases List.mem_cons.1 mem with is | mem
    · cases is
      exact ⟨_, rfl, portReport_shown s .east⟩
    · cases List.mem_singleton.1 mem
      exact ⟨_, rfl, portReport_shown s .west⟩
  · exact (exec_identify hands timing addressed empty).trans (congrArg _ (guarded_read rfl))
  · have ran := exec_readState takes rfl
    simp only [List.getD_cons_zero, List.getD_cons_succ, report] at ran
    rw [if_neg (fun ⟨some_word, short⟩ => by
      rcases inReport with none | inside
      · exact some_word none
      · omega)] at ran
    exact ran
  · intro bank
    have ran := exec_readTable takes rfl
    have fits : runFits (TableKind.ofCode (bits w 8 4)) (bits w 0 8) (bits run 8 8) (bits run 0 8) = some k :=
      runFits_eq_some kind inTable least most inEntry
    simp only [List.getD_cons_zero, List.getD_cons_succ, fits] at ran
    refine ran.trans (congrArg (fun words => Host.Outcome.next (State.answered _ rx 0x03 tag .done 0 (_ :: words) false)) ?_)
    exact List.map_congr_left fun j _ => congrArg bank.words.read (by unfold TableKind.address; omega)
  · exact (exec_readCounters takes).trans (congrArg _ (if_neg (not_lt.2 inImage)))
  · exact (exec_readOperationLog takes rfl).trans (congrArg _ (if_neg (by
      show ¬ (31 < bits w 8 8 ∨ bits w 0 8 = 0 ∨ 3 < bits w 0 8)
      omega)))

/-! The shadow bank written (R163, R164). -/

section
variable (s : State) (b : Bank)

theorem setShadow_banks : (s.setShadow b).banks.activeB = s.banks.activeB ∧ (s.setShadow b).active = s.active
    ∧ (s.setShadow b).shadow = b := by
  unfold State.setShadow State.active State.shadow
  cases h : s.banks.activeB <;> simp [State.setBanks, h]

end

/-- Within its table, an address gives its entry and its word (log 21). -/
theorem address_range {k : TableKind} {e j : Nat} (he : e < k.entries) (hj : j < k.width) :
    k.base ≤ k.address e j ∧ k.address e j < k.base + k.entries * k.width := by
  have within : (e + 1) * k.width ≤ k.entries * k.width := Nat.mul_le_mul_right _ he
  rw [Nat.add_mul, Nat.one_mul] at within
  unfold TableKind.address
  omega

theorem address_inj {k : TableKind} {e e' j j' : Nat} (hj : j < k.width) (hj' : j' < k.width) (same : k.address e j = k.address e' j') :
    e = e' ∧ j = j' := by
  have offsets : j + k.width * e = j' + k.width * e' := by
    unfold TableKind.address at same
    rw [Nat.mul_comm k.width e, Nat.mul_comm k.width e']
    omega
  have entries := congrArg (· / k.width) offsets
  have words := congrArg (· % k.width) offsets
  simp only [Nat.add_mul_div_left _ _ (Nat.zero_lt_of_lt hj), Nat.div_eq_of_lt hj, Nat.div_eq_of_lt hj', Nat.zero_add,
    Nat.add_mul_mod_self_left, Nat.mod_eq_of_lt hj, Nat.mod_eq_of_lt hj'] at entries words
  exact ⟨entries, words⟩

/-- Settles O44: a run written to the shadow bank is read back there and nowhere else, and the tables do not overlap. -/
theorem loadAndCopyWriteTheShadow : Obligations.LoadAndCopyWriteTheShadow := by
  refine ⟨fun s rx tag slot w run data k takes kind inTable least most inEntry length canonical => ?_, fun s rx tag slot takes => ?_,
    fun k k' e e' j j' he he' hj hj' same => ?_⟩
  · intro start
    have ran := exec_load takes (by show data.length + 1 + 1 = 2 + bits run 0 8; omega)
    have fits : runFits (TableKind.ofCode (bits w 8 4)) (bits w 0 8) (bits run 8 8) (bits run 0 8) = some k :=
      runFits_eq_some kind inTable least most inEntry
    simp only [List.getD_cons_zero, List.getD_cons_succ, fits] at ran
    obtain ⟨active, same, shadow⟩ := setShadow_banks (s.requestRepeated rx 0x04 tag (w :: run :: data) slot)
      ⟨.modified, s.shadow.words.writeRun start data⟩
    refine ⟨_, ran, rfl, active, same, congrArg Bank.status shadow, fun a => ?_⟩
    exact (congrArg (fun b : Bank => b.words.read a) shadow).trans (BankWords.read_writeRun start a data canonical.shadow)
  · have taken := takes
    obtain ⟨taken, -⟩ := taken
    have ran : exec (.copyActiveToShadow rx tag []) s = .next _ := receiveRequest_takes taken State.doCopy
    replace ran := ran.trans (congrArg _ (guarded_write takes rfl))
    obtain ⟨active, same, shadow⟩ := setShadow_banks (s.requestRepeated rx 0x05 tag [] slot) s.active
    exact ⟨_, ran, rfl, active, same, shadow⟩
  · obtain rfl : k = k' := by
      by_contra other
      obtain ⟨lower, upper⟩ := address_range he hj
      obtain ⟨lower', upper'⟩ := address_range he' hj'
      rcases TableKind.extents_disjoint k k' other with below | above <;> omega
    exact ⟨rfl, address_inj hj hj' same⟩

end Sys2Proof.Machine
end

section
/-! COMMIT refused, and what validation finds in a bank (R166). -/

namespace Sys2Proof.Machine

/-! When a bank fails no check. -/

theorem failure_eq_none (b : Bank) : b.failure = none ↔ b.Passes := by
  have stations := overEntries_none .station (fun i => (b.station i).enable) b.stationChecks
  have points := overEntries_none .point (fun i => (b.point i).enabled) b.pointChecks
  have actions := overEntries_none .action (fun _ => true) b.actionChecks
  have schemes := overEntries_none .scheme (fun i => (b.scheme i).enable) b.schemeChecks
  have conts := overEntries_none .contingency (fun i => (b.cont i).enable) b.contChecks
  unfold Bank.failure
  rw [Option.or_eq_none_iff, Option.or_eq_none_iff, Option.or_eq_none_iff, Option.or_eq_none_iff, Option.or_eq_none_iff,
    Option.or_eq_none_iff, Option.or_eq_none_iff, Option.or_eq_none_iff, runChecks_none, runChecks_none, stations, points, actions,
    shedFailure_none, schemes, conts, designationChecks_none]
  constructor
  · rintro ⟨link, params, stations, points, actions, shed, schemes, conts, designated, distinct⟩
    exact ⟨(link_iff b).1 ⟨link, params⟩, fun i hi is => (station_iff b i).1 (stations i hi is),
      fun i hi is => (point_iff b i is).1 (points i hi ((PointEntry.enabled_iff _).2 is)), fun i hi => (action_iff b i).1 (actions i hi rfl),
      shed, fun i hi is => (scheme_iff b i).1 (schemes i hi is),
      fun i hi is => (cont_iff b i (fun named => designated i named is)).1 (conts i hi is), distinct⟩
  · rintro ⟨link, stations, points, actions, shed, schemes, conts, distinct⟩
    obtain ⟨linkChecks, paramsChecks⟩ := (link_iff b).2 link
    have designated (i : Nat) (named : b.params.expressA = some i ∨ b.params.expressB = some i) (is : (b.cont i).enable = true) :
        (b.cont i).priority = 3 := (conts i (Nat.lt_succ_of_le (link.designations i named)) is).express named
    exact ⟨linkChecks, paramsChecks, fun i hi is => (station_iff b i).2 (stations i hi is),
      fun i hi is => (point_iff b i ((PointEntry.enabled_iff _).1 is)).2 (points i hi ((PointEntry.enabled_iff _).1 is)),
      fun i hi _ => (action_iff b i).2 (actions i hi), shed, fun i hi is => (scheme_iff b i).2 (schemes i hi is),
      fun i hi is => (cont_iff b i (fun named => designated i named is)).2 (conts i hi is), designated, distinct⟩

/-! Which failure is reported: the order of the checks of designations, and of the tables. -/

section
variable {b : Bank}

/-- A designation that names an enabled contingency of another priority than 3 (R47). -/
def Bank.Misnames (b : Bank) (d : Option Nat) (f : Failure) : Prop :=
  f.kind = .contingency ∧ f.check = 8 ∧ d = some f.entry ∧ (b.cont f.entry).enable = true ∧ (b.cont f.entry).priority ≠ 3

/-- Both designations name one contingency (R47; log 18). -/
def Bank.NamesTwice (b : Bank) (f : Failure) : Prop :=
  f.kind = .contingency ∧ f.check = 9 ∧ b.params.expressA = some f.entry ∧ b.params.expressB = some f.entry

theorem Bank.Misnames.unique {d : Option Nat} {f g : Failure} (hf : b.Misnames d f) (hg : b.Misnames d g) : f = g := by
  obtain ⟨kind, check, entry, -⟩ := hf
  obtain ⟨kind', check', entry', -⟩ := hg
  cases f
  cases g
  cases kind
  cases kind'
  cases check
  cases check'
  cases entry.symm.trans entry'
  rfl

theorem designationCheck_first (d : Option Nat) : IsFirst b.place (b.designationCheck d) (b.Misnames d) := by
  refine ⟨fun none f fails => ?_, fun f is => ?_⟩
  · obtain ⟨-, -, named, enabled, priority⟩ := fails
    exact priority ((designationCheck_none b d).1 none _ named enabled)
  · have fails : b.Misnames d f := by
      unfold Bank.designationCheck at is
      split at is
      · cases is
      · rename_i c
        by_cases wrong : ((b.cont c).enable && (b.cont c).priority != 3) = true
        · rw [if_pos wrong] at is
          cases is
          rw [Bool.and_eq_true, bne_iff_ne] at wrong
          exact ⟨rfl, rfl, rfl, wrong⟩
        · rw [if_neg wrong] at is
          cases is
    exact ⟨fails, fun g hg => by rw [fails.unique hg]⟩

theorem namesTwice_first : IsFirst b.place (match b.params.expressA with
    | none => none
    | some c => if b.params.expressB = some c then some ⟨.contingency, c, 9⟩ else none) b.NamesTwice := by
  cases is : b.params.expressA with
  | none => exact ⟨fun _ f ⟨_, _, named, _⟩ => (by rw [is] at named; cases named), fun f h => by cases h⟩
  | some c =>
    by_cases both : b.params.expressB = some c
    · dsimp only
      rw [if_pos both]
      refine ⟨fun h => (by cases h), fun f h => ?_⟩
      cases h
      refine ⟨⟨rfl, rfl, is, both⟩, fun g hg => ?_⟩
      obtain ⟨kind, check, named, -⟩ := hg
      cases g
      cases kind
      cases check
      cases is.symm.trans named
      exact le_rfl
    · dsimp only
      rw [if_neg both]
      refine ⟨fun _ f hf => ?_, fun f h => (by cases h)⟩
      obtain ⟨-, -, named, again⟩ := hf
      cases is.symm.trans named
      exact both again

theorem Bank.Misnames.place {d : Option Nat} {f : Failure} (h : b.Misnames d f) :
    b.place f = 8 * 65536 + if b.params.expressA = some f.entry then 0 else 1 := by
  obtain ⟨kind, check, -⟩ := h
  exact if_pos ⟨kind, check⟩

theorem Bank.NamesTwice.place {f : Failure} (h : b.NamesTwice f) : b.place f = 9 * 65536 := by
  obtain ⟨kind, check, -⟩ := h
  exact (if_neg (by rintro ⟨-, eight⟩; omega)).trans (if_pos ⟨kind, check⟩)

/-- The failures of the express designations. -/
def Bank.DesignationFails (b : Bank) (f : Failure) : Prop :=
  (b.Misnames b.params.expressA f ∨ b.Misnames b.params.expressB f) ∨ b.NamesTwice f

theorem designationChecks_first : IsFirst b.place b.designationChecks b.DesignationFails := by
  refine ((designationCheck_first b.params.expressA).or (designationCheck_first b.params.expressB) (fun f g hf hg => ?_)).or namesTwice_first
    (fun f g hf hg => ?_)
  · have first := hf.place
    obtain ⟨-, -, named, -⟩ := hf
    rw [first, hg.place, if_pos named]
    omega
  · rw [hg.place]
    rcases hf with hf | hf <;> rw [hf.place] <;> split <;> omega

theorem Bank.DesignationFails.place {f : Failure} (h : b.DesignationFails f) : 8 * 65536 ≤ b.place f := by
  rcases h with (h | h) | h
  · rw [h.place]
    omega
  · rw [h.place]
    omega
  · rw [h.place]
    omega

/-- The failures of the tables from a stage of validation on, and of the designations. -/
def Bank.FailsFrom (b : Bank) (stage : Nat) (f : Failure) : Prop := (∃ k : TableKind, stage ≤ k.stage ∧ b.TableFails k f) ∨ b.DesignationFails f

theorem stage_inj {k k' : TableKind} (same : k.stage = k'.stage) : k = k' := by
  cases k <;> cases k' <;> first | rfl | cases same

theorem stage_le (k : TableKind) : k.stage ≤ 7 := by cases k <;> decide

/-- One table, and then the later ones. -/
theorem IsFirst.stage {o o' : Option Failure} (k : TableKind) (here : IsFirst b.place o (b.TableFails k))
    (later : IsFirst b.place o' (b.FailsFrom (k.stage + 1))) : IsFirst b.place (o.or o') (b.FailsFrom k.stage) := by
  have small := stage_le k
  refine (here.or later (fun f g hf hg => ?_)).congr (fun f => ?_)
  · obtain ⟨-, upper⟩ := TableFails.place hf
    rcases hg with ⟨k', after, fails⟩ | fails
    · obtain ⟨lower, -⟩ := TableFails.place fails
      omega
    · have := fails.place
      omega
  · constructor
    · rintro (fails | ⟨k', after, fails⟩ | fails)
      · exact .inl ⟨k, le_rfl, fails⟩
      · exact .inl ⟨k', Nat.le_of_succ_le after, fails⟩
      · exact .inr fails
    · rintro (⟨k', after, fails⟩ | fails)
      · rcases after.eq_or_lt with same | later
        · exact .inl (stage_inj same ▸ fails)
        · exact .inr (.inl ⟨k', later, fails⟩)
      · exact .inr (.inr fails)

theorem failure_first : IsFirst b.place b.failure (b.FailsFrom 0) := by
  have designations : IsFirst b.place b.designationChecks (b.FailsFrom 8) := designationChecks_first.congr fun f =>
    ⟨.inr, fun h => h.resolve_left (fun ⟨k, after, _⟩ => absurd (stage_le k) (by omega))⟩
  exact .stage .link (one_first b .link rfl trivial _ (link_agree b))
    (.stage .params (one_first b .params rfl trivial _ (params_agree b))
    (.stage .station (over_first b .station _ (fun _ => Iff.rfl) _ (station_agree b))
    (.stage .point (over_first b .point _ (fun i => PointEntry.enabled_iff (b.point i)) _ (point_agree b))
    (.stage .action (over_first b .action _ (fun _ => iff_of_true rfl trivial) _ (action_agree b))
    (.stage .shed (shed_first b)
    (.stage .scheme (over_first b .scheme _ (fun _ => Iff.rfl) _ (scheme_agree b))
    (.stage .contingency (over_first b .contingency _ (fun _ => Iff.rfl) _ (cont_agree b)) designations)))))))

theorem failsFrom_iff (f : Failure) : b.FailsFrom 0 f ↔ b.Fails f := by
  constructor
  · rintro (⟨k, -, i, mem, examined, rfl, rfl, least, fails⟩ | (misnamed | misnamed) | twice)
    · exact .inl ⟨List.mem_range.1 mem, examined, least, fails⟩
    · obtain ⟨kind, check, named, wrong⟩ := misnamed
      exact .inr (.inl ⟨kind, check, .inl named, wrong⟩)
    · obtain ⟨kind, check, named, wrong⟩ := misnamed
      exact .inr (.inl ⟨kind, check, .inr named, wrong⟩)
    · exact .inr (.inr twice)
  · rintro (⟨inTable, examined, least, fails⟩ | ⟨kind, check, named, wrong⟩ | twice)
    · exact .inl ⟨f.kind, Nat.zero_le _, f.entry, List.mem_range.2 inTable, examined, rfl, rfl, least, fails⟩
    · rcases named with named | named
      · exact .inr (.inl (.inl ⟨kind, check, named, wrong⟩))
      · exact .inr (.inl (.inr ⟨kind, check, named, wrong⟩))
    · exact .inr (.inr twice)

end

/-! A COMMIT that is taken (R166). -/

section
variable {s : State} {rx : Reception} {tag : Byte} {slot : Nat}

theorem exec_commit (takes : s.TakesWrite rx 0x06 tag [] slot) : exec (.commit rx tag []) s = .next (
    if s.workInFlight then (s.requestRepeated rx 0x06 tag [] slot).reply (requestOf rx 0x06 tag []) .busy
    else s.shadow.failure.elim
      ((s.requestRepeated rx 0x06 tag [] slot).commitBanks.done (requestOf rx 0x06 tag []))
      (fun f => (s.requestRepeated rx 0x06 tag [] slot).reply (requestOf rx 0x06 tag []) .validationFailed 0
        [BitVec.ofNat 16 f.kind.code, BitVec.ofNat 16 f.entry, BitVec.ofNat 16 f.check])) := by
  have taken := takes
  obtain ⟨taken, -⟩ := taken
  have ran : exec (.commit rx tag []) s = .next _ := receiveRequest_takes taken State.doCommit
  refine ran.trans (congrArg _ ((guarded_write takes rfl).trans ?_))
  show (if s.workInFlight then _ else _) = _
  refine if_congr Iff.rfl rfl ?_
  rw [show (s.requestRepeated rx 0x06 tag [] slot).shadow.failure = s.shadow.failure from rfl]
  cases s.shadow.failure <;> rfl

theorem workInFlight_of_quiet (idle : s.engine = none) (closed : s.tracker.ops = []) (empty : s.queue.entries = []) :
    ¬ s.workInFlight = true := by
  rw [workInFlight_iff, idle, closed, empty]
  simp

end

/-- Settles O45: COMMIT by work in flight and the shadow's failure, and that failure by the order of the checks. -/
theorem commitRefused : Obligations.CommitRefused := by
  refine ⟨fun s rx tag slot takes => ⟨fun work => ?_, fun f idle closed empty fails => ?_, fun blank empty => ?_⟩, failure_eq_none,
    fun b f is => ?_⟩
  · exact (exec_commit takes).trans (congrArg _ (if_pos ((workInFlight_iff s).2 work)))
  · refine (exec_commit takes).trans (congrArg _ ((if_neg (workInFlight_of_quiet idle closed empty)).trans ?_))
    rw [fails]
    rfl
  · generalize s.shadow = b at blank empty
    obtain ⟨status, words⟩ := b
    cases blank
    cases empty
    rfl
  · obtain ⟨-, first⟩ := failure_first (b := b)
    obtain ⟨fails, least⟩ := first f is
    exact ⟨(failsFrom_iff f).1 fails, fun g hg => least g ((failsFrom_iff g).2 hg)⟩

end Sys2Proof.Machine
end

section
/-! The gate's opening with nothing FORCED, and a successful COMMIT (R25, R26, R143, R166, R167). -/

namespace Sys2Proof.Machine

/-- An element of a mapped list, within it. -/
theorem getD_map_of_lt {α β : Type} (l : List α) {i : Nat} (inside : i < l.length) (f : α → β) (d : α) (e : β) :
    (l.map f).getD i e = f (l.getD i d) := by
  simp [List.getD, inside]

/-! An update of no point. -/

section
variable {s : State}

theorem evaluateConts_nil : s.evaluateConts [] = (s, []) := by
  have due : s.dueConts [] = [] := by
    rw [State.dueConts, List.filter_eq_nil_iff]
    intro c _
    simp
  rw [State.evaluateConts, due]
  rfl

theorem confirmUpdated_nil : s.confirmUpdated [] = s := by
  have none : s.confirmedEntries [] = [] := by
    rw [State.confirmedEntries, List.filter_eq_nil_iff]
    intro e _
    split
    · exact Bool.false_ne_true
    · rw [List.contains_nil, Bool.false_and]
      exact Bool.false_ne_true
  rw [State.confirmUpdated, none]
  rfl

/-- With no operation open and nothing PENDING an update of no point changes nothing. -/
theorem afterUpdates_nil (before : List PointRec) (no_ops : s.tracker.ops = []) (none_pending : s.pendingSet = []) :
    s.afterUpdates before [] = s := by
  rw [afterUpdates_eq, evaluateConts_nil]
  show ((s.confirmUpdated []).closeFinished).arbiterTake = s
  rw [confirmUpdated_nil, closeFinished_of_no_ops no_ops, arbiterTake_of_none_pending none_pending]

theorem unforce_of_not_forced {l : List PointRec} (free : ∀ p ∈ l, p.quality ≠ .forced) : l.mapIdx (fun _ r => r.unforce) = l := by
  refine List.ext_getElem (List.length_mapIdx ..) fun i _ inside => ?_
  rw [List.getElem_mapIdx]
  exact if_neg (free _ (List.getElem_mem inside))

theorem forcedOf_eq_nil (free : s.Unforced) (addressed : Nat → Bool) : s.forcedOf addressed = [] := by
  rw [State.forcedOf, List.filter_eq_nil_iff]
  intro i _ forced
  rw [Bool.and_eq_true, beq_iff_eq] at forced
  obtain ⟨-, forced⟩ := forced
  by_cases inside : i < s.points.length
  · rw [State.point, List.getD_eq_getElem _ _ inside] at forced
    exact free _ (List.getElem_mem inside) forced
  · rw [State.point, List.getD_eq_default _ _ (not_lt.1 inside)] at forced
    cases forced

/-- The gate's opening, with nothing FORCED and no work (R26). -/
theorem openGate_of_quiet (free : s.Unforced) (no_ops : s.tracker.ops = []) (none_pending : s.pendingSet = []) :
    s.openGate = s.setArming { s.arming with gateOpen := true, schemes := s.arming.schemes.map SchemeRec.openGate } := by
  generalize opened : s.setArming { s.arming with gateOpen := true, schemes := s.arming.schemes.map SchemeRec.openGate } = u
  have points : u.points = s.points := by rw [← opened]; rfl
  have quiet : u.tracker.ops = [] ∧ u.pendingSet = [] := by rw [← opened]; exact ⟨no_ops, none_pending⟩
  obtain ⟨ops, pending⟩ := quiet
  have free' : u.Unforced := by rw [State.Unforced, points]; exact free
  have same : u.points.mapIdx (fun _ r => r.unforce) = u.points := unforce_of_not_forced free'
  have unforced : s.openGate = u.unforce (fun _ => true) := by rw [← opened]; rfl
  rw [unforced]
  show (u.setPoints (u.points.mapIdx (fun _ r => r.unforce))).afterUpdates u.points (u.forcedOf (fun _ => true)) = u
  rw [forcedOf_eq_nil free', same]
  exact afterUpdates_nil _ ops pending

end

/-! The state a COMMIT sets from the new bank (R167). -/

section
variable (s : State)

/-- The shadow bank as it becomes active. -/
def State.newBank (s : State) : Bank := { s.shadow with status := .valid }

theorem swap_banks : s.banks.swap.activeB = !s.banks.activeB ∧ (s.setBanks s.banks.swap).active = s.newBank
    ∧ (s.setBanks s.banks.swap).shadow = s.active := by
  unfold BanksState.swap State.active State.shadow State.newBank State.setBanks State.shadow
  cases is : s.banks.activeB <;> simp

theorem committed_eq : s.committed = { s with
    link := if s.linkChanged s.shadow then s.portsDown.link else s.link
    banks := s.banks.swap
    intake := { s.intake with stations := s.intake.stations.map (StationRec.atCommit s.timeBase) }
    points := s.newBank.freshPoints
    arming := { s.arming with
      schemes := s.arming.schemes.mapIdx (fun i r =>
        .fresh (s.newBank.schemeState i (if s.arming.gateOpen then .disarmed else .gated)) r.hardTrip)
      nextEvaluation := some (s.after s.newBank.params.interval) }
    monitor := { s.monitor with conts := freshConts, lastServed := none, imageA := .invalid, imageB := .invalid } } := by
  obtain ⟨-, active, -⟩ := swap_banks s
  have downed : (if s.linkChanged s.shadow then s.portsDown else s)
      = s.setLink (if s.linkChanged s.shadow then s.portsDown.link else s.link) := by split <;> rfl
  unfold State.committed State.setFromActive
  rw [downed, show ((s.setLink (if s.linkChanged s.shadow then s.portsDown.link else s.link)).setBanks s.banks.swap).active = s.newBank
    from active]
  rfl

/-- The gate is open after the COMMIT: it was, or the COMMIT completes its conditions (R25). -/
def State.opensAtCommit (s : State) : Bool := s.arming.gateOpen || (s.arming.settleEnded && s.arming.startRequested)

variable {s}

theorem newBank_valid {t : State} (active : t.active = s.newBank) : t.valid = true := by
  rw [State.valid, active]
  rfl

theorem committed_unforced : s.committed.Unforced := by
  rw [State.Unforced, committed_eq]
  intro p mem
  obtain ⟨i, -, rfl⟩ := List.mem_map.1 mem
  exact Quality.noConfusion

theorem committed_none_pending : s.committed.pendingSet = [] := by
  rw [State.pendingSet, List.filter_eq_nil_iff]
  intro c mem pending
  have fresh : s.committed.cont c = .fresh := by
    rw [committed_eq]
    exact getD_replicate 64 c (List.mem_range.1 mem) _ _
  rw [fresh, beq_iff_eq] at pending
  cases pending

/-- A scheme's record after a COMMIT (R5, R26). -/
theorem openGate_fresh (b : Bank) (i : Nat) (hardTrip : Bool) : (SchemeRec.fresh (b.schemeState i .gated) hardTrip).openGate
    = .fresh (b.schemeState i .disarmed) hardTrip := by
  unfold Bank.schemeState
  split <;> rfl

theorem openGate_freshSchemes (b : Bank) (l : List SchemeRec) :
    (l.mapIdx (fun i r => SchemeRec.fresh (b.schemeState i .gated) r.hardTrip)).map SchemeRec.openGate
      = l.mapIdx (fun i r => SchemeRec.fresh (b.schemeState i .disarmed) r.hardTrip) := by
  refine List.ext_getElem (by rw [List.length_map, List.length_mapIdx, List.length_mapIdx]) fun i _ _ => ?_
  rw [List.getElem_map, List.getElem_mapIdx, List.getElem_mapIdx]
  exact openGate_fresh _ _ _

/-- What a COMMIT leaves, the reply apart. -/
theorem commitBanks_of_quiet (no_ops : s.tracker.ops = []) : s.commitBanks = s.committed.setArming { s.committed.arming with
    gateOpen := s.opensAtCommit
    schemes := s.arming.schemes.mapIdx (fun i r =>
      .fresh (s.newBank.schemeState i (if s.opensAtCommit then .disarmed else .gated)) r.hardTrip) } := by
  have due : s.committed.gateDue = (!s.arming.gateOpen && s.arming.settleEnded && s.arming.startRequested) := by
    have valid : s.committed.valid = true := by
      obtain ⟨-, active, -⟩ := swap_banks s
      refine newBank_valid (s := s) ?_
      rw [committed_eq]
      exact active
    unfold State.gateDue
    rw [valid, committed_eq, Bool.and_true]
  rw [commitBanks_eq]
  by_cases opens : s.committed.gateDue = true
  · have quiet : s.committed.tracker.ops = [] := by rw [committed_eq]; exact no_ops
    rw [tryOpenGate_of_due _ opens, openGate_of_quiet committed_unforced quiet committed_none_pending]
    rw [due, Bool.and_eq_true, Bool.and_eq_true, Bool.not_eq_true'] at opens
    obtain ⟨⟨closed, settled⟩, started⟩ := opens
    have isOpen : s.opensAtCommit = true := by rw [State.opensAtCommit, closed, settled, started]; rfl
    have schemes : s.committed.arming.schemes.map SchemeRec.openGate = s.arming.schemes.mapIdx (fun i r =>
        .fresh (s.newBank.schemeState i .disarmed) r.hardTrip) := by
      have gated : s.committed.arming.schemes = s.arming.schemes.mapIdx (fun i r =>
          .fresh (s.newBank.schemeState i .gated) r.hardTrip) := by
        rw [committed_eq]
        dsimp only
        rw [closed, if_neg Bool.false_ne_true]
      rw [gated]
      exact openGate_freshSchemes s.newBank _
    rw [schemes, isOpen]
    rfl
  · rw [tryOpenGate_of_not_due _ (Bool.eq_false_iff.2 opens)]
    have same : s.opensAtCommit = s.arming.gateOpen := by
      rw [due] at opens
      unfold State.opensAtCommit
      cases isOpen : s.arming.gateOpen with
      | true => rfl
      | false =>
        rw [isOpen, Bool.not_false, Bool.true_and] at opens
        rw [Bool.eq_false_iff.2 opens]
        rfl
    rw [same]
    conv_lhs => rw [committed_eq]
    conv_rhs => rw [committed_eq]
    rfl

/-- The settings a port runs on differ (R143). -/
theorem linkChanged_iff {new : Bank} (loaded : s.active.status ≠ .blank) : s.linkChanged new = true ↔ s.active.link.slots ≠ new.link.slots
    ∨ (∃ k, (k ∈ s.active.link.own ∧ k ∉ new.link.own) ∨ (k ∈ new.link.own ∧ k ∉ s.active.link.own))
    ∨ s.active.link.address ≠ new.link.address := by
  obtain ⟨slots, own, address, -⟩ := settings_valid loaded
  have sets : (s.active.link.own.all new.link.own.contains && new.link.own.all s.active.link.own.contains) = false
      ↔ ∃ k, (k ∈ s.active.link.own ∧ k ∉ new.link.own) ∨ (k ∈ new.link.own ∧ k ∉ s.active.link.own) := by
    rw [Bool.and_eq_false_iff, List.all_eq_false, List.all_eq_false]
    simp only [List.contains_iff_mem, exists_or]
  simp only [State.linkChanged, slots, own, address]
  rw [Bool.or_eq_true, Bool.or_eq_true, List.any_cons, List.any_cons, List.any_nil, Bool.or_false, Bool.or_self, bne_iff_ne,
    Bool.not_eq_true', sets, bne_iff_ne, or_assoc]

theorem portsDown_port (s : State) (side : Side) : s.portsDown.port side = .down (s.port side).counters := by
  cases side <;> rfl

end

/-- Settles O46: the successful COMMIT as one state, and each owner's part read off it. -/
theorem commitSwapsTheBanks : Obligations.CommitSwapsTheBanks := by
  rintro s rx tag slot takes ⟨-, schemes, stations, -⟩ idle no_ops empty passes new opened
  obtain ⟨activeB, active, shadow⟩ := swap_banks (s.requestRepeated rx 0x06 tag [] slot)
  have ran := exec_commit takes
  rw [if_neg (workInFlight_of_quiet idle no_ops empty), passes] at ran
  have committed := commitBanks_of_quiet (s := s.requestRepeated rx 0x06 tag [] slot) no_ops
  rw [committed_eq] at committed
  refine ⟨_, ran, ?_⟩
  show let t := (s.requestRepeated rx 0x06 tag [] slot).commitBanks.done (requestOf rx 0x06 tag []); _
  rw [committed]
  refine ⟨active, shadow, activeB, rfl, rfl, rfl, rfl, fun i hi => ?_, fun p hp => ?_, fun i hi => ?_, fun c hc => ?_, rfl, rfl, rfl, rfl,
    rfl, rfl, rfl, fun changed side => ?_, fun same => ?_, linkChanged_iff, rfl, rfl, rfl, rfl, rfl, idle, rfl⟩
  · exact getD_mapIdx s.arming.schemes i (schemes.symm ▸ hi) _ _
  · have inside : p < (List.range 256).length := by rw [List.length_range]; exact hp
    have place : (List.range 256).getD p 0 = p := by rw [List.getD_eq_getElem _ _ inside, List.getElem_range]
    exact (getD_map_of_lt (List.range 256) inside (fun i => PointRec.fresh (s.newBank.point i).kind.initial) 0 _).trans (congrArg (fun i => PointRec.fresh (s.newBank.point i).kind.initial) place)
  · exact getD_map_of_lt s.intake.stations (stations.symm ▸ hi) _ _ _
  · exact getD_replicate 64 c hc _ _
  · show LinkState.port (if s.linkChanged new then _ else _) side = _
    exact (congrArg (LinkState.port · side) (if_pos changed)).trans (portsDown_port _ side)
  · show (if s.linkChanged new then _ else _) = _
    exact if_neg (by rw [same]; exact Bool.false_ne_true)

end Sys2Proof.Machine
end

section
/-! START, CLOSE GATE and the end of the settle interval (R25 to R28, R120). -/

namespace Sys2Proof.Machine

/-! A scheme that is not ARMED and not OPERATING keeps its record through the service of contingencies, but for a latched hard trip. -/

/-- Scheme `i` has the record `r`, but for a hard-trip request that may have latched since. -/
def State.HoldsRecord (i : Nat) (r : SchemeRec) (s : State) : Prop :=
  s.scheme i = { r with hardTrip := (s.scheme i).hardTrip } ∧ (r.hardTrip = true → (s.scheme i).hardTrip = true)

theorem updScheme_scheme_cases (s : State) (j : Nat) (f : SchemeRec → SchemeRec) (i : Nat) :
    (s.updScheme j f).scheme i = s.scheme i ∨ (s.updScheme j f).scheme i = f (s.scheme i) := by
  by_cases same : j = i
  · subst same
    by_cases inside : j < s.arming.schemes.length
    · exact .inr (getD_modify_self _ _ inside _ _)
    · have kept : (s.arming.schemes.modify j f).getD j (.fresh .off false) = s.arming.schemes.getD j (.fresh .off false) := by
        rw [List.modify_eq_self (not_lt.1 inside)]
      exact .inl kept
  · exact .inl (getD_modify_ne _ _ _ same _ _)

theorem updScheme_scheme_of_ne {s : State} {i j : Nat} (other : j ≠ i) (f : SchemeRec → SchemeRec) :
    (s.updScheme j f).scheme i = s.scheme i := getD_modify_ne _ _ _ other _ _

namespace State.HoldsRecord
variable {i : Nat} {r : SchemeRec} {s t : State}

theorem refl (s : State) (i : Nat) : s.HoldsRecord i (s.scheme i) := ⟨rfl, id⟩

theorem of_scheme (h : s.HoldsRecord i r) (same : t.scheme i = s.scheme i) : t.HoldsRecord i r := by
  rw [HoldsRecord, same]
  exact h

theorem of_arming (h : s.HoldsRecord i r) (same : t.arming = s.arming) : t.HoldsRecord i r :=
  h.of_scheme (by rw [State.scheme, same]; rfl)

theorem state_eq (h : s.HoldsRecord i r) : (s.scheme i).state = r.state := by
  obtain ⟨record, -⟩ := h
  rw [record]

theorem latchHardTrip (h : s.HoldsRecord i r) (j : Nat) : (s.latchHardTrip j).HoldsRecord i r := by
  unfold State.latchHardTrip
  split
  · rcases updScheme_scheme_cases s j (fun r => { r with hardTrip := true }) i with kept | latched
    · exact h.of_scheme kept
    · rw [HoldsRecord, latched]
      obtain ⟨record, -⟩ := h
      exact ⟨by rw [record], fun _ => rfl⟩
  · exact h

theorem latchAll (h : s.HoldsRecord i r) (l : List Nat) : (l.foldl State.latchHardTrip s).HoldsRecord i r :=
  foldl_pres (State.HoldsRecord i r) (fun _ j ht => ht.latchHardTrip j) l s h

/-- A hand-in latches at most, when its node is dropped (R79). -/
theorem handIn (h : s.HoldsRecord i r) (id priority : Nat) (taken : List Nat) (n : Node) :
    (State.handIn id priority taken s n).HoldsRecord i r := by
  obtain ⟨-, arming⟩ := handIn_parts (s := s) (id := id) (priority := priority) (taken := taken) (n := n)
  refine HoldsRecord.of_arming ?_ arming
  cases s.handOutcome id n.action with
  | merged _ => exact h
  | alreadyOpen => exact h
  | entered => exact h
  | dropped =>
    show ((s.raise _).latchDropped taken n.origin).HoldsRecord i r
    rw [latchDropped_eq]
    exact latchAll (s := s.raise _) h _

theorem endWork (h : s.HoldsRecord i r) (idle : r.state ≠ .operating) (j : Nat) : (s.endWork j).HoldsRecord i r := by
  unfold State.endWork
  split
  · rename_i operating
    have other : j ≠ i := by
      rintro rfl
      exact idle (h.state_eq.symm.trans operating)
    exact h.of_scheme (updScheme_scheme_of_ne other _)
  · exact h

theorem closeOp (h : s.HoldsRecord i r) (idle : r.state ≠ .operating) (op : Operation) : (s.closeOp op).HoldsRecord i r := by
  have latched := foldl_pres (State.HoldsRecord i r) (fun _ (p : Participation) ht => ht.latchHardTrip p.scheme)
    (op.parts.filter Participation.isShort) s h
  exact foldl_pres (State.HoldsRecord i r) (fun _ (p : Participation) ht => ht.endWork idle p.scheme)
    (op.parts.filter (fun p => p.taken.isSome)) _ latched

theorem takeSchemes (h : s.HoldsRecord i r) {taken : List SchemeCopy} (others : ∀ t ∈ taken, t.scheme ≠ i) :
    (s.takeSchemes taken).HoldsRecord i r := by
  induction taken generalizing s with
  | nil => exact h
  | cons x rest ih =>
    exact ih (h.of_scheme (updScheme_scheme_of_ne (others x List.mem_cons_self) _)) fun t mem => others t (List.mem_cons_of_mem _ mem)

/-- An update event keeps the record of a scheme that is neither ARMED nor OPERATING, but for a latched hard trip. -/
theorem eventKeeps (idle : r.state ≠ .operating) (unarmed : r.state ≠ .armed) : EventKeeps (State.HoldsRecord i r) where
  record _ _ _ h := h
  handed id p taken _ n h := h.handIn id p taken n
  removed _ _ h := h
  sent _ _ _ h := h
  closed _ op h := h.closeOp idle op
  ended _ j h := h.endWork idle j
  opened s c path p phase taken h := by
    obtain ⟨-, arming, -⟩ := openWork_keeps s c path p phase taken
    exact h.of_arming arming
  monitor _ _ h := h
  raised _ _ h := h
  engine _ _ h := h
  points _ _ h := h
  drawn _ _ h := h
  took s taken armed h := h.takeSchemes fun t mem => by
    rintro rfl
    exact unarmed (h.state_eq.symm.trans (armed t mem))

end State.HoldsRecord

/-! The gate's opening. -/

section
variable {s : State}

theorem gateDue_iff : s.gateDue = true ↔ s.arming.gateOpen = false ∧ s.arming.settleEnded = true ∧ s.arming.startRequested = true
    ∧ s.active.status = .valid := by
  rw [State.gateDue, State.valid, Bool.and_eq_true, Bool.and_eq_true, Bool.and_eq_true, Bool.not_eq_true', beq_iff_eq, and_assoc, and_assoc]

theorem mapIdx_unforce (l : List PointRec) : l.mapIdx (fun _ r => r.unforce)
    = l.map (fun p => if p.quality = .forced then { p with quality := .invalid, holdStart := none } else p) :=
  List.ext_getElem (by rw [List.length_mapIdx, List.length_map]) fun i _ _ => by
    rw [List.getElem_mapIdx, List.getElem_map]
    rfl

theorem mem_forcedOf {addressed : Nat → Bool} {p : Nat} :
    p ∈ s.forcedOf addressed ↔ p < 256 ∧ addressed p = true ∧ (s.point p).quality = .forced := by
  rw [State.forcedOf, List.mem_filter, List.mem_range, Bool.and_eq_true, beq_iff_eq]

theorem openGate_points : s.openGate.points
    = s.points.map (fun p => if p.quality = .forced then { p with quality := .invalid, holdStart := none } else p) :=
  (congrArg Surroundings.points (surroundings_openGate s)).trans (mapIdx_unforce s.points)

theorem openGate_settings : s.openGate.arming.gateOpen = true ∧ s.openGate.arming.startRequested = s.arming.startRequested
    ∧ s.openGate.arming.settleEnded = s.arming.settleEnded :=
  ⟨congrArg Surroundings.gateOpen (surroundings_openGate s), congrArg Surroundings.startRequested (surroundings_openGate s),
    congrArg Surroundings.settleEnded (surroundings_openGate s)⟩

theorem openGate_record_state {r : SchemeRec} (shut : r.state = .gated ∨ r.state = .off) :
    r.openGate.state ≠ .operating ∧ r.openGate.state ≠ .armed := by
  rcases shut with gated | off
  · rw [SchemeRec.openGate, if_pos gated]
    exact ⟨SchemeState.noConfusion, SchemeState.noConfusion⟩
  · have kept : r.openGate = r := if_neg (by rw [off]; exact SchemeState.noConfusion)
    rw [kept, off]
    exact ⟨SchemeState.noConfusion, SchemeState.noConfusion⟩

/-- A scheme that was GATED or OFF leaves the opening as R26 says, but for a latched hard trip. -/
theorem openGate_scheme {i : Nat} (shut : (s.scheme i).state = .gated ∨ (s.scheme i).state = .off) :
    s.openGate.HoldsRecord i (s.scheme i).openGate := by
  obtain ⟨idle, unarmed⟩ := openGate_record_state shut
  have opened : (s.setArming { s.arming with gateOpen := true, schemes := s.arming.schemes.map SchemeRec.openGate }).scheme i
      = (s.scheme i).openGate := List.getD_map s.arming.schemes (.fresh .off false) SchemeRec.openGate
  refine (State.HoldsRecord.eventKeeps idle unarmed).unforce (fun _ => true) ?_
  rw [← opened]
  exact State.HoldsRecord.refl _ i

theorem openGate_service : State.ServiceOnly { s with points := s.openGate.points, arming := { s.arming with gateOpen := true } } s.openGate :=
  serviceOnly_of ((surroundings_openGate s).trans
    (congrArg (fun points => ({ s.surroundings with gateOpen := true, points := points } : Surroundings))
      (congrArg Surroundings.points (surroundings_openGate s)).symm))

/-- The opening unforces by one update of the points that were FORCED (R120). -/
theorem openGate_updates (conts : s.monitor.conts.length = 64) : State.UpdateEvent
    { s with points := s.openGate.points
             arming := { s.arming with gateOpen := true, schemes := s.arming.schemes.map SchemeRec.openGate } }
    s.points (s.forcedOf (fun _ => true)) s.openGate := by
  have points : s.openGate.points = s.points.mapIdx (fun _ r => r.unforce) := congrArg Surroundings.points (surroundings_openGate s)
  rw [points]
  exact afterUpdates_spec (State.setPoints (s.setArming { s.arming with
    gateOpen := true, schemes := s.arming.schemes.map SchemeRec.openGate }) (s.points.mapIdx (fun _ r => r.unforce))) s.points _ conts

/-- What the event that opens the gate makes of the state `s`, its flags set as the event sets them; `agent` is the agent's state as it
stands at the update, before the reply (R25, R26, R120). -/
def State.GateOpening (agent : AgentState) (s t : State) : Prop :=
  t.arming.gateOpen = true ∧ t.arming.startRequested = true ∧ t.arming.settleEnded = true
  ∧ t.points = s.points.map (fun p => if p.quality = .forced then { p with quality := .invalid, holdStart := none } else p)
  ∧ (∀ i, (s.scheme i).state = .gated ∨ (s.scheme i).state = .off →
      t.scheme i = { (s.scheme i).openGate with hardTrip := (t.scheme i).hardTrip }
      ∧ ((s.scheme i).hardTrip = true → (t.scheme i).hardTrip = true))
  ∧ State.ServiceOnly { s with
      points := t.points
      arming := { s.arming with startRequested := true, gateOpen := true, settleEnded := true } } t
  ∧ (s.TablesWhole → ∃ (updated : List Nat) (u : State),
      (∀ p, p ∈ updated ↔ p < 256 ∧ (s.point p).quality = .forced)
      ∧ State.UpdateEvent { s with
          agent := agent
          points := t.points
          arming := { s.arming with
            startRequested := true, gateOpen := true, settleEnded := true, schemes := s.arming.schemes.map SchemeRec.openGate } }
        s.points updated u
      ∧ t = { u with agent := s.agent })

/-- A state whose START is requested and whose settle interval has ended, but for what its update and its reply leave in the agent. -/
def State.ready (s : State) (agent : AgentState) : State :=
  { s with agent := agent, arming := { s.arming with startRequested := true, settleEnded := true } }

theorem openGate_hardTrip (r : SchemeRec) : r.openGate.hardTrip = r.hardTrip := by
  unfold SchemeRec.openGate
  split <;> rfl

theorem gateOpening_ready (agent : AgentState) : s.GateOpening agent { (s.ready agent).openGate with agent := s.agent } := by
  obtain ⟨opens, requested, settled⟩ := openGate_settings (s := s.ready agent)
  refine ⟨opens, requested, settled, openGate_points (s := s.ready agent), fun i shut => ?_, ?_, fun whole => ?_⟩
  · obtain ⟨record, latched⟩ := openGate_scheme (s := s.ready agent) shut
    exact ⟨record, fun before => latched ((openGate_hardTrip _).trans before)⟩
  · exact congrArg (fun t : State => { t with agent := s.agent }) (openGate_service (s := s.ready agent))
  · obtain ⟨-, -, -, conts⟩ := whole
    exact ⟨_, _, fun p => (mem_forcedOf (s := s.ready agent)).trans (by rw [and_iff_right (rfl : (fun _ : Nat => true) p = true)]; rfl),
      openGate_updates (s := s.ready agent) conts, rfl⟩

end

section
variable {s : State} {rx : Reception} {tag : Byte} {slot : Nat}

theorem answered_eq_of_agent {t : State} {code : Byte} (same : t.agent = s.agent) :
    t.answered rx code tag .done 0 [] false = { t with agent := (s.answered rx code tag .done 0 [] false).agent } := by
  rw [State.answered, same]
  rfl

theorem exec_start (h : s.TakesWrite rx 0x07 tag [] slot) : exec (.start rx tag []) s = .next
    ((((s.requestRepeated rx 0x07 tag [] slot).setArming { s.arming with startRequested := true }).tryOpenGate).answered rx 0x07 tag
      .done 0 [] false) := by
  have takes := h
  obtain ⟨takes, -⟩ := takes
  have ran : exec (.start rx tag []) s = .next _ := receiveRequest_takes takes State.doStart
  exact ran.trans (congrArg _ (guarded_write h rfl))

theorem exec_closeGate (h : s.TakesWrite rx 0x08 tag [] slot) : exec (.closeGate rx tag []) s = .next
    (if s.workInFlight then (s.requestRepeated rx 0x08 tag [] slot).answered rx 0x08 tag .busy 0 [] false
      else ((s.requestRepeated rx 0x08 tag [] slot).closeGate).answered rx 0x08 tag .done 0 [] false) := by
  have takes := h
  obtain ⟨takes, -⟩ := takes
  have ran : exec (.closeGate rx tag []) s = .next _ := receiveRequest_takes takes State.doCloseGate
  exact ran.trans (congrArg _ (guarded_write h rfl))

theorem exec_settleIntervalEnd (held : s.held = false) (now : s.timeBase = 2000) (running : s.arming.settleEnded = false) :
    exec .settleIntervalEnd s = .next (s.quiet.setArming { s.arming with settleEnded := true }).tryOpenGate :=
  (running_next held _).trans (congrArg _ (if_pos ⟨now, running⟩))

end

/-- Settles O47: START and the end of the interval open the gate exactly when it is due; CLOSE GATE closes it with no work in flight. -/
theorem settleIntervalAndGate : Obligations.SettleIntervalAndGate := by
  refine ⟨fun s rx tag slot => ⟨fun takes => ⟨fun stays => ?_, fun shut settled loaded => ?_⟩, fun takes => ⟨fun work => ?_, fun idle closed
    empty => ?_⟩⟩, fun s held now running => ⟨fun stays => ?_, fun requested loaded shut => ?_⟩⟩
  · have not_due : ((s.requestRepeated rx 0x07 tag [] slot).setArming { s.arming with startRequested := true }).gateDue = false := by
      rw [Bool.eq_false_iff, ne_eq, gateDue_iff]
      rintro ⟨shut, settled, -, loaded⟩
      rcases stays with opened | unsettled | unloaded
      · cases opened.symm.trans shut
      · cases unsettled.symm.trans settled
      · exact unloaded loaded
    have ran := exec_start takes
    rw [tryOpenGate_of_not_due _ not_due] at ran
    exact ran
  · have due : ((s.requestRepeated rx 0x07 tag [] slot).setArming { s.arming with startRequested := true }).gateDue = true :=
      gateDue_iff.2 ⟨shut, settled, rfl, loaded⟩
    have ran := exec_start takes
    rw [tryOpenGate_of_due _ due] at ran
    have ready : (s.requestRepeated rx 0x07 tag [] slot).setArming { s.arming with startRequested := true }
        = ((s.requestRepeated rx 0x07 tag [] slot).answered rx 0x07 tag .done 0 [] false).ready s.agent :=
      congrArg (fun ended => (s.requestRepeated rx 0x07 tag [] slot).setArming { s.arming with startRequested := true, settleEnded := ended })
        settled
    refine ⟨_, ran, ?_, fun quiet free => ?_⟩
    · rw [ready, answered_eq_of_agent (congrArg Surroundings.agent (surroundings_openGate _))]
      exact gateOpening_ready (s := (s.requestRepeated rx 0x07 tag [] slot).answered rx 0x07 tag .done 0 [] false) s.agent
    · obtain ⟨-, -, no_ops, -, none_pending⟩ := quiet shut
      rw [openGate_of_quiet (s := (s.requestRepeated rx 0x07 tag [] slot).setArming { s.arming with startRequested := true }) free no_ops
        none_pending]
      rfl
  · exact (exec_closeGate takes).trans (congrArg _ (if_pos ((workInFlight_iff s).2 work)))
  · exact (exec_closeGate takes).trans (congrArg _ (if_neg (workInFlight_of_quiet idle closed empty)))
  · have not_due : (s.quiet.setArming { s.arming with settleEnded := true }).gateDue = false := by
      rw [Bool.eq_false_iff, ne_eq, gateDue_iff]
      rintro ⟨shut, -, requested, loaded⟩
      rcases stays with unrequested | unloaded | opened
      · cases unrequested.symm.trans requested
      · exact unloaded loaded
      · cases opened.symm.trans shut
    have ran := exec_settleIntervalEnd held now running
    rw [tryOpenGate_of_not_due _ not_due] at ran
    exact ran
  · have due : (s.quiet.setArming { s.arming with settleEnded := true }).gateDue = true := gateDue_iff.2 ⟨shut, rfl, requested, loaded⟩
    have ran := exec_settleIntervalEnd held now running
    rw [tryOpenGate_of_due _ due] at ran
    have ready : s.quiet.setArming { s.arming with settleEnded := true } = s.quiet.ready s.agent :=
      congrArg (fun requested => s.quiet.setArming { s.arming with startRequested := requested, settleEnded := true }) requested
    refine ⟨_, ran, ?_⟩
    rw [ready]
    have kept : (s.quiet.ready s.agent).openGate.agent = s.agent := congrArg Surroundings.agent (surroundings_openGate (s.quiet.ready s.agent))
    have opening := gateOpening_ready (s := s.quiet) s.agent
    rw [show ({ (s.quiet.ready s.agent).openGate with agent := s.quiet.agent } : State) = (s.quiet.ready s.agent).openGate from
      congrArg (fun agent => { (s.quiet.ready s.agent).openGate with agent := agent }) kept.symm] at opening
    exact opening

end Sys2Proof.Machine
end

section
/-! RESET SCHEME, RESTORE MARGIN and RELEASE HARD TRIP (R13, R24, R104). -/

namespace Sys2Proof.Machine

/-! The schemes addressed. -/

theorem addressedSchemes_eq_none {w : Word} (one : w ≠ 0x00FF) (beyond : 16 ≤ w.toNat) : addressedSchemes w = none := by
  rw [addressedSchemes, if_neg one, if_neg (not_lt.2 beyond)]

/-- An index in its range addresses its scheme, and 0x00FF every scheme, each once (log 34). -/
theorem addressedSchemes_eq_some {w : Word} (fits : w = 0x00FF ∨ w.toNat < 16) :
    ∃ l, addressedSchemes w = some l ∧ l.Nodup ∧ ∀ i, i ∈ l ↔ i < 16 ∧ (w = 0x00FF ∨ w.toNat = i) := by
  by_cases every : w = 0x00FF
  · refine ⟨List.range 16, if_pos every, List.nodup_range, fun i => ?_⟩
    rw [List.mem_range, and_iff_left (.inl every)]
  · have small : w.toNat < 16 := fits.resolve_left every
    refine ⟨[w.toNat], (if_neg every).trans (if_pos small), List.nodup_singleton _, fun i => ?_⟩
    rw [List.mem_singleton, or_iff_right every]
    exact ⟨fun at_i => ⟨at_i ▸ small, at_i.symm⟩, fun ⟨_, at_i⟩ => at_i.symm⟩

section
variable {s : State}

/-- A list of schemes changed one after the other, none of them twice. -/
theorem updSchemes_scheme (f : SchemeRec → SchemeRec) {l : List Nat} (once : l.Nodup) {i : Nat} (inside : i < s.arming.schemes.length) :
    (l.foldl (fun s j => s.updScheme j f) s).scheme i = if i ∈ l then f (s.scheme i) else s.scheme i := by
  induction l generalizing s with
  | nil => rfl
  | cons j rest ih =>
    obtain ⟨first, others⟩ := List.nodup_cons.1 once
    have length : (s.updScheme j f).arming.schemes.length = s.arming.schemes.length := List.length_modify ..
    rw [List.foldl_cons, ih others (length.symm ▸ inside)]
    by_cases same : j = i
    · subst same
      rw [if_neg first, if_pos List.mem_cons_self]
      exact getD_modify_self _ _ inside _ _
    · rw [updScheme_scheme_of_ne same]
      exact if_congr (by rw [List.mem_cons, or_iff_right (Ne.symm same)]) rfl rfl

theorem resetScheme_eq {r : SchemeRec} (idle : r.state ≠ .operating) :
    r.resetScheme = if r.state ∉ [SchemeState.off, .gated] then
      { r with
        state := .disarmed, armCount := 0, disarmCount := 0, stress := 0, selection := none
        resetTimer := if r.state = .operated then none else r.resetTimer }
    else r := by
  unfold SchemeRec.resetScheme
  cases is : r.state <;> simp_all [SchemeRec.calm]

theorem restoreMargin_eq (r : SchemeRec) :
    r.restoreMargin = if r.state ≠ .off then { r with walk := 0, holdTimer := none, stress := 0 } else r := by
  unfold SchemeRec.restoreMargin
  exact (ite_not ..).symm

end

section
variable {s : State} {rx : Reception} {tag : Byte} {slot : Nat} {w : Word}

theorem exec_resetScheme_of_none (h : s.TakesWrite rx 0x09 tag [w] slot) (unaddressed : addressedSchemes w = none) :
    exec (.resetScheme rx tag [w]) s = .next ((s.requestRepeated rx 0x09 tag [w] slot).answered rx 0x09 tag .badArgument 0 [] false) := by
  have takes := h
  obtain ⟨takes, -⟩ := takes
  have ran : exec (.resetScheme rx tag [w]) s = .next _ := receiveRequest_takes takes State.doResetScheme
  refine ran.trans (congrArg _ ((guarded_write h rfl).trans ?_))
  rw [show (requestOf rx 0x09 tag [w]).arg 1 = w from rfl, unaddressed]
  rfl

theorem exec_resetScheme_of_some {l : List Nat} (h : s.TakesWrite rx 0x09 tag [w] slot) (addressed : addressedSchemes w = some l) :
    exec (.resetScheme rx tag [w]) s = .next (if l.any (fun i => (s.scheme i).state == .operating) then
        (s.requestRepeated rx 0x09 tag [w] slot).answered rx 0x09 tag .busy 0 [] false
      else (l.foldl (fun s i => s.updScheme i SchemeRec.resetScheme) (s.requestRepeated rx 0x09 tag [w] slot)).answered rx 0x09 tag
        .done 0 [] false) := by
  have takes := h
  obtain ⟨takes, -⟩ := takes
  have ran : exec (.resetScheme rx tag [w]) s = .next _ := receiveRequest_takes takes State.doResetScheme
  refine ran.trans (congrArg _ ((guarded_write h rfl).trans ?_))
  rw [show (requestOf rx 0x09 tag [w]).arg 1 = w from rfl, addressed]
  rfl

theorem exec_restoreMargin_of_none (h : s.TakesWrite rx 0x0A tag [w] slot) (unaddressed : addressedSchemes w = none) :
    exec (.restoreMargin rx tag [w]) s = .next ((s.requestRepeated rx 0x0A tag [w] slot).answered rx 0x0A tag .badArgument 0 [] false) := by
  have takes := h
  obtain ⟨takes, -⟩ := takes
  have ran : exec (.restoreMargin rx tag [w]) s = .next _ := receiveRequest_takes takes State.doRestoreMargin
  refine ran.trans (congrArg _ ((guarded_write h rfl).trans ?_))
  rw [show (requestOf rx 0x0A tag [w]).arg 1 = w from rfl, unaddressed]
  rfl

theorem exec_restoreMargin_of_some {l : List Nat} (h : s.TakesWrite rx 0x0A tag [w] slot) (addressed : addressedSchemes w = some l) :
    exec (.restoreMargin rx tag [w]) s = .next
      ((l.foldl (fun s i => s.updScheme i SchemeRec.restoreMargin) (s.requestRepeated rx 0x0A tag [w] slot)).answered rx 0x0A tag
        .done 0 [] false) := by
  have takes := h
  obtain ⟨takes, -⟩ := takes
  have ran : exec (.restoreMargin rx tag [w]) s = .next _ := receiveRequest_takes takes State.doRestoreMargin
  refine ran.trans (congrArg _ ((guarded_write h rfl).trans ?_))
  rw [show (requestOf rx 0x0A tag [w]).arg 1 = w from rfl, addressed]
  rfl

end

/-- Settles O48: each scheme addressed changes once, and no other. -/
theorem schemeRequests : Obligations.SchemeRequests := by
  rintro s rx tag slot w ⟨-, schemes, -, -⟩ mine
  refine ⟨fun takes => ⟨fun one beyond => exec_resetScheme_of_none takes (addressedSchemes_eq_none one beyond), ?busy, fun fits idle => ?_⟩,
    fun takes => ⟨fun one beyond => exec_restoreMargin_of_none takes (addressedSchemes_eq_none one beyond), fun fits => ?_⟩, fun takes => ?_⟩
  case busy =>
    rintro ⟨i, hi, addresses, operating⟩
    have fits : w = 0x00FF ∨ w.toNat < 16 := Or.imp_right (fun at_i : w.toNat = i => at_i.symm ▸ hi) addresses
    obtain ⟨l, addressed, -, mem⟩ := addressedSchemes_eq_some fits
    have any : l.any (fun i => (s.scheme i).state == .operating) = true :=
      List.any_eq_true.2 ⟨i, (mem i).2 ⟨hi, addresses⟩, beq_iff_eq.2 operating⟩
    exact (exec_resetScheme_of_some takes addressed).trans (congrArg _ (if_pos any))
  · obtain ⟨l, addressed, once, mem⟩ := addressedSchemes_eq_some fits
    have none_operating : ¬ l.any (fun i => (s.scheme i).state == .operating) = true := by
      rw [List.any_eq_true]
      rintro ⟨i, listed, operating⟩
      obtain ⟨hi, addresses⟩ := (mem i).1 listed
      exact idle i hi addresses (beq_iff_eq.1 operating)
    refine ⟨_, (exec_resetScheme_of_some takes addressed).trans (congrArg _ (if_neg none_operating)), ?_, fun i hi => ?_⟩
    · rw [foldl_updScheme_eq]
      rfl
    · refine (updSchemes_scheme (s := s.requestRepeated rx 0x09 tag [w] slot) SchemeRec.resetScheme once (schemes.symm ▸ hi)).trans ?_
      by_cases addresses : mine i
      · rw [if_pos ((mem i).2 ⟨hi, addresses⟩)]
        exact (resetScheme_eq (idle i hi addresses)).trans (if_congr (and_iff_right addresses).symm rfl rfl)
      · rw [if_neg (fun listed => addresses ((mem i).1 listed).2), if_neg (fun both => addresses both.1)]
        rfl
  · obtain ⟨l, addressed, once, mem⟩ := addressedSchemes_eq_some fits
    refine ⟨_, exec_restoreMargin_of_some takes addressed, ?_, fun i hi => ?_⟩
    · rw [foldl_updScheme_eq]
      rfl
    · refine (updSchemes_scheme (s := s.requestRepeated rx 0x0A tag [w] slot) SchemeRec.restoreMargin once (schemes.symm ▸ hi)).trans ?_
      by_cases addresses : mine i
      · rw [if_pos ((mem i).2 ⟨hi, addresses⟩)]
        exact (restoreMargin_eq _).trans (if_congr (and_iff_right addresses).symm rfl rfl)
      · rw [if_neg (fun listed => addresses ((mem i).1 listed).2), if_neg (fun both => addresses both.1)]
        rfl
  · have taken := takes
    obtain ⟨taken, -⟩ := taken
    have ran : exec (.releaseHardTrip rx tag []) s = .next _ := receiveRequest_takes taken State.doReleaseHardTrip
    exact ran.trans (congrArg _ (guarded_write takes rfl))

end Sys2Proof.Machine
end

section
/-! FORCE POINT and UNFORCE POINT (R111, R118, R119). -/

namespace Sys2Proof.Machine

/-! The values that suit a kind. -/

theorem forceValue_analog (w : Word) (v : PointValue) :
    PointKind.forceValue .analog w = some v ↔ v = .analog w.toInt ∧ -32767 ≤ w.toInt := by
  have least : w = 0x8000 ↔ w.toInt = -32768 := by
    rw [← BitVec.toInt_inj]
    exact Iff.rfl
  have bound := BitVec.le_toInt w
  by_cases lowest : w = 0x8000
  · have value := least.1 lowest
    refine iff_of_false ?_ (fun both => by obtain ⟨-, above⟩ := both; omega)
    rw [PointKind.forceValue, if_pos lowest]
    exact nofun
  · have above : -32767 ≤ w.toInt := by
      have value := mt least.2 lowest
      omega
    rw [PointKind.forceValue, if_neg lowest, and_iff_left above, Option.some.injEq]
    exact eq_comm

/-- The value of a SINGLE or DOUBLE point's value word. -/
def binaryValue (n : Nat) : Option PointValue :=
  match n with
  | 0 => some (.binary .intermediate)
  | 1 => some (.binary .opened)
  | 2 => some (.binary .closed)
  | _ => none

theorem binaryValue_eq_some (n : Nat) (v : PointValue) : binaryValue n = some v
    ↔ (n = 0 ∧ v = .binary .intermediate) ∨ (n = 1 ∧ v = .binary .opened) ∨ (n = 2 ∧ v = .binary .closed) := by
  match n with
  | 0 | 1 | 2 | _ + 3 => simp [binaryValue, eq_comm]

theorem forceValue_binary {kind : PointKind} (binary : kind ∈ [PointKind.single, .double]) (w : Word) (v : PointValue) :
    kind.forceValue w = some v
      ↔ (w = 0 ∧ v = .binary .intermediate) ∨ (w = 1 ∧ v = .binary .opened) ∨ (w = 2 ∧ v = .binary .closed) := by
  have value : kind.forceValue w = binaryValue w.toNat := by
    rcases List.mem_pair.1 binary with rfl | rfl
    · rfl
    · rfl
  rw [value, binaryValue_eq_some]
  simp only [← BitVec.toNat_inj]
  exact Iff.rfl

section
variable {s : State} {rx : Reception} {tag : Byte} {slot : Nat} {w value : Word}

/-- An update event behind a reply is service alone. -/
theorem serviceOnly_answered (before : List PointRec) (updated : List Nat) (code : Byte) :
    State.ServiceOnly (s.answered rx code tag .done 0 [] false) ((s.afterUpdates before updated).answered rx code tag .done 0 [] false) := by
  have kept := State.surroundings_afterUpdates s before updated
  rw [answered_eq_of_agent (congrArg Surroundings.agent kept)]
  exact congrArg (fun t : State => { t with agent := (s.answered rx code tag .done 0 [] false).agent }) (serviceOnly_of kept)

theorem exec_forcePoint (h : s.TakesWrite rx 0x0C tag [w, value] slot) : exec (.forcePoint rx tag [w, value]) s = .next
    (if s.arming.gateOpen then (s.requestRepeated rx 0x0C tag [w, value] slot).answered rx 0x0C tag .refusedGate 0 [] false
    else if 256 ≤ w.toNat then (s.requestRepeated rx 0x0C tag [w, value] slot).answered rx 0x0C tag .badArgument 0 [] false
    else ((s.active.point w.toNat).kind.forceValue value).elim
      ((s.requestRepeated rx 0x0C tag [w, value] slot).answered rx 0x0C tag .badArgument 0 [] false)
      (fun v => ((s.requestRepeated rx 0x0C tag [w, value] slot).force w.toNat v).answered rx 0x0C tag .done 0 [] false)) := by
  have takes := h
  obtain ⟨takes, -⟩ := takes
  have ran : exec (.forcePoint rx tag [w, value]) s = .next _ := receiveRequest_takes takes State.doForcePoint
  refine ran.trans (congrArg _ ((guarded_write h rfl).trans (if_congr Iff.rfl rfl (if_congr Iff.rfl rfl ?_))))
  show (match (s.active.point w.toNat).kind.forceValue value with | none => _ | some v => _) = _
  cases (s.active.point w.toNat).kind.forceValue value with
  | none => rfl
  | some v => rfl

/-- The points an UNFORCE POINT addresses (R119). -/
def unforceAddresses (w : Word) (p : Nat) : Bool := decide (w = 0xFFFF ∨ w.toNat = p)

theorem unforced_record (w : Word) (p : Nat) (r : PointRec) : (if unforceAddresses w p then r.unforce else r)
    = if (w = 0xFFFF ∨ w.toNat = p) ∧ r.quality = .forced then { r with quality := .invalid, holdStart := none } else r := by
  rw [ite_and]
  exact if_congr decide_eq_true_iff rfl rfl

theorem exec_unforcePoint_of_beyond (h : s.TakesWrite rx 0x0D tag [w] slot) (beyond : 256 ≤ w.toNat) (one : w ≠ 0xFFFF) :
    exec (.unforcePoint rx tag [w]) s = .next ((s.requestRepeated rx 0x0D tag [w] slot).answered rx 0x0D tag .badArgument 0 [] false) := by
  have takes := h
  obtain ⟨takes, -⟩ := takes
  have ran : exec (.unforcePoint rx tag [w]) s = .next _ := receiveRequest_takes takes State.doUnforcePoint
  refine ran.trans (congrArg _ ((guarded_write h rfl).trans ((if_neg ?_).trans (if_pos beyond))))
  exact fun all => one (BitVec.eq_of_toNat_eq all)

theorem exec_unforcePoint (h : s.TakesWrite rx 0x0D tag [w] slot) (fits : w = 0xFFFF ∨ w.toNat < 256) :
    exec (.unforcePoint rx tag [w]) s = .next
      (((s.requestRepeated rx 0x0D tag [w] slot).unforce (unforceAddresses w)).answered rx 0x0D tag .done 0 [] false) := by
  have takes := h
  obtain ⟨takes, -⟩ := takes
  have ran : exec (.unforcePoint rx tag [w]) s = .next _ := receiveRequest_takes takes State.doUnforcePoint
  refine ran.trans (congrArg _ ((guarded_write h rfl).trans ?_))
  by_cases every : w = 0xFFFF
  · have addresses : unforceAddresses w = fun _ => true := funext fun p => decide_eq_true (.inl every)
    rw [addresses]
    exact if_pos (congrArg BitVec.toNat every)
  · have small := fits.resolve_left every
    have addresses : unforceAddresses w = fun p => p == w.toNat := funext fun p => by
      rw [unforceAddresses, Bool.eq_iff_iff, decide_eq_true_iff, beq_iff_eq, or_iff_right every]
      exact eq_comm
    rw [addresses]
    exact (if_neg (fun all => every (BitVec.eq_of_toNat_eq all))).trans (if_neg (not_le.2 small))

end

/-- Settles O49: either request is its change of the points and then the event of that update. -/
theorem forceAndUnforce : Obligations.ForceAndUnforce := by
  refine ⟨fun w v => ⟨rfl, forceValue_analog w v, fun kind binary => forceValue_binary binary w v⟩, ?_⟩
  rintro s rx tag slot w ⟨points, -, -, conts⟩
  refine ⟨fun value takes => ⟨fun opened => ?_, fun shut unsuited => ?_, fun v shut small suits => ?_⟩, fun takes => ⟨fun beyond one => ?_,
    fun fits => ?_⟩⟩
  · exact (exec_forcePoint takes).trans (congrArg _ (if_pos opened))
  · have ran := exec_forcePoint takes
    rw [shut, if_neg Bool.false_ne_true] at ran
    refine ran.trans (congrArg _ ?_)
    by_cases beyond : 256 ≤ w.toNat
    · exact if_pos beyond
    · rw [unsuited.resolve_left beyond]
      exact if_neg beyond
  · have ran := exec_forcePoint takes
    rw [shut, if_neg Bool.false_ne_true, if_neg (not_le.2 small), suits] at ran
    exact ⟨_, ran, serviceOnly_answered _ _ _, _, afterUpdates_spec _ _ _ conts, rfl⟩
  · exact exec_unforcePoint_of_beyond takes beyond one
  · have after := congrArg Surroundings.points (surroundings_unforce (s.requestRepeated rx 0x0D tag [w] slot) (unforceAddresses w))
    refine ⟨_, exec_unforcePoint takes fits, fun p hp => ?_, ?_, s.forcedOf (unforceAddresses w), _, fun p => ?_, ?_, rfl⟩
    · refine (congrArg (fun l : List PointRec => l.getD p (.fresh (.analog 0))) after).trans ?_
      refine (getD_mapIdx s.points p (points.symm ▸ hp) _ _).trans (unforced_record w p _)
    · rw [show State.points (State.answered _ _ _ _ _ _ _ _) = _ from after]
      exact serviceOnly_answered _ _ _
    · exact mem_forcedOf.trans (and_congr_right fun _ => and_congr_left fun _ => decide_eq_true_iff)
    · rw [show State.points (State.answered _ _ _ _ _ _ _ _) = _ from after]
      exact afterUpdates_spec _ _ _ conts

end Sys2Proof.Machine
end

section
/-! PORT CONTROL (R153 to R155). -/

namespace Sys2Proof.Machine

section
variable {s : State} {side : Side}

/-- The event changed the link alone, and in it neither the other port nor the last cycle number taken. -/
def State.OnPort (side : Side) (s t : State) : Prop :=
  t = { s with link := t.link } ∧ t.port side.other = s.port side.other ∧ t.link.lastCycle = s.link.lastCycle

theorem onPort_refl : s.OnPort side s := ⟨rfl, rfl, rfl⟩

theorem onPort_changePort (p : PortRec) : s.OnPort side (s.changePort side false p) := by
  obtain ⟨-, other, cycle, frame⟩ := changePort_spec s side false p
  exact ⟨frame, other, cycle⟩

/-- A REJOIN acts on an ISOLATED port alone (R153). -/
def State.rejoined (s : State) (side : Side) : State :=
  if (s.port side).state = .isolated then s.changePort side false (s.port side).rejoin else s

theorem onPort_rejoined : s.OnPort side (s.rejoined side) := by
  unfold State.rejoined
  split
  · exact onPort_changePort _
  · exact onPort_refl

theorem port_rejoined : (s.rejoined side).port side = if (s.port side).state = .isolated then
    { s.port side with state := .acquiring, acquisition := 0, miss := 0, strikes := 0, babbleSeen := false } else s.port side := by
  unfold State.rejoined
  split
  · exact port_changePort _ _ _ _
  · rfl

/-- LOOPBACK OFF acts on a port in LOOPBACK alone (R155). -/
def State.unlooped (s : State) (side : Side) : State := if (s.port side).state = .loopback then s.portDown side else s

theorem onPort_unlooped : s.OnPort side (s.unlooped side) := by
  unfold State.unlooped
  split
  · exact onPort_changePort _
  · exact onPort_refl

theorem port_unlooped : (s.unlooped side).port side = if (s.port side).state = .loopback then .down (s.port side).counters
    else s.port side := by
  unfold State.unlooped
  split
  · exact port_portDown _ _
  · rfl

end

section
variable {s : State} {rx : Reception} {tag port : Byte} {slot : Nat} {side : Side}

theorem exec_portRestart (named : sideOf port.toNat = some side) (h : s.TakesWrite rx 0x0E tag [portControlWord port 0] slot) :
    exec (.portRestart rx tag port []) s = .next
      (((s.requestRepeated rx 0x0E tag [portControlWord port 0] slot).portDown side).answered rx 0x0E tag .done 0 [] false) := by
  have takes := h
  obtain ⟨takes, -⟩ := takes
  have ran : exec (.portRestart rx tag port []) s = .next _ := receiveRequest_takes takes State.doPortRestart
  refine ran.trans (congrArg _ ((onPort_taken h _).trans ?_))
  rw [named]
  rfl

theorem exec_rejoin (named : sideOf port.toNat = some side) (h : s.TakesWrite rx 0x0E tag [portControlWord port 1] slot) :
    exec (.rejoin rx tag port []) s = .next
      (((s.requestRepeated rx 0x0E tag [portControlWord port 1] slot).rejoined side).answered rx 0x0E tag .done 0 [] false) := by
  have takes := h
  obtain ⟨takes, -⟩ := takes
  have ran : exec (.rejoin rx tag port []) s = .next _ := receiveRequest_takes takes State.doRejoin
  refine ran.trans (congrArg _ ((onPort_taken h _).trans ?_))
  rw [named]
  rfl

theorem exec_loopbackOn (named : sideOf port.toNat = some side) (h : s.TakesWrite rx 0x0E tag [portControlWord port 2] slot) :
    exec (.loopbackOn rx tag port []) s = .next
      (if s.arming.gateOpen then (s.requestRepeated rx 0x0E tag [portControlWord port 2] slot).answered rx 0x0E tag .refusedGate 0 [] false
      else if s.timingPort = some side ∧ (s.port side.other).state ≠ .locked then
        (s.requestRepeated rx 0x0E tag [portControlWord port 2] slot).answered rx 0x0E tag .busy 0 [] false
      else ((s.requestRepeated rx 0x0E tag [portControlWord port 2] slot).changePort side false
        { s.port side with state := .loopback }).answered rx 0x0E tag .done 0 [] false) := by
  have takes := h
  obtain ⟨takes, -⟩ := takes
  have ran : exec (.loopbackOn rx tag port []) s = .next _ := receiveRequest_takes takes State.doLoopbackOn
  refine ran.trans (congrArg _ ((onPort_taken h _).trans ?_))
  rw [named]
  rfl

theorem exec_loopbackOff (named : sideOf port.toNat = some side) (h : s.TakesWrite rx 0x0E tag [portControlWord port 3] slot) :
    exec (.loopbackOff rx tag port []) s = .next
      (((s.requestRepeated rx 0x0E tag [portControlWord port 3] slot).unlooped side).answered rx 0x0E tag .done 0 [] false) := by
  have takes := h
  obtain ⟨takes, -⟩ := takes
  have ran : exec (.loopbackOff rx tag port []) s = .next _ := receiveRequest_takes takes State.doLoopbackOff
  refine ran.trans (congrArg _ ((onPort_taken h _).trans ?_))
  rw [named]
  rfl

/-- The reply to an event on one port leaves the link and the holder alone changed. -/
theorem onPort_answered {t : State} {code : Byte} (h : s.OnPort side t) :
    t.answered rx code tag .done 0 [] false = { s.answered rx code tag .done 0 [] false with link := t.link }
      ∧ (t.answered rx code tag .done 0 [] false).port side.other = s.port side.other ∧ t.link.lastCycle = s.link.lastCycle := by
  obtain ⟨frame, other, cycle⟩ := h
  exact ⟨congrArg (fun t : State => t.answered rx code tag .done 0 [] false) frame, other, cycle⟩

end

/-- Settles O50: each action on the port it names. -/
theorem portControl : Obligations.PortControl := by
  intro s rx tag port slot side is base done
  have named : sideOf port.toNat = some side := by
    cases side with
    | east => exact is ▸ rfl
    | west => exact is ▸ rfl
  refine ⟨fun takes => ⟨_, exec_portRestart named takes, onPort_answered (onPort_changePort _), port_portDown (base 0) side⟩,
    fun takes => ⟨_, exec_rejoin named takes, onPort_answered onPort_rejoined, port_rejoined (s := base 1)⟩,
    fun takes => ⟨fun opened => ?_, fun shut timing unlocked => ?_, fun shut allowed => ?_⟩,
    fun takes => ⟨_, exec_loopbackOff named takes, onPort_answered onPort_unlooped, port_unlooped (s := base 3)⟩⟩
  · exact (exec_loopbackOn named takes).trans (congrArg _ (if_pos opened))
  · have ran := exec_loopbackOn named takes
    rw [shut, if_neg Bool.false_ne_true, if_pos ⟨timing, unlocked⟩] at ran
    exact ran
  · have refused : ¬ (s.timingPort = some side ∧ (s.port side.other).state ≠ .locked) := by
      rintro ⟨timing, unlocked⟩
      exact allowed.elim (fun other => other timing) unlocked
    have ran := exec_loopbackOn named takes
    rw [shut, if_neg Bool.false_ne_true, if_neg refused] at ran
    exact ⟨_, ran, onPort_answered (onPort_changePort _),
      congrArg PortRec.state (port_changePort (base 2) side false { s.port side with state := .loopback })⟩

end Sys2Proof.Machine
end

section
/-! READ COUNTERS with its clear option, CLEAR NOTICES and RESTART (R173, R177, R181). -/

namespace Sys2Proof.Machine

section
variable (s : State) (covers : Nat → Bool)

/-- The counters of the image that stand before those of the stations: the ports' and the part's own. -/
def State.partCounters : List Word :=
  s.link.east.counters.image ++ s.link.west.counters.image
    ++ [s.intake.misplaced, s.intake.unknownSource, s.monitor.gatedDetection, s.agent.requestLost]

theorem counterImage_eq : s.counterImage
    = s.partCounters ++ (List.range 32).flatMap (fun i => [(s.station i).duplicate, (s.station i).rejoinDiscard]) := rfl

theorem image_clearAt (c : PortCounters) (covers : Nat → Bool) (first : Nat) :
    (c.clearAt covers first).image = c.image.mapIdx (fun k => clearAt covers (k + first)) := by
  simp [PortCounters.image, PortCounters.clearAt, List.mapIdx_cons, Nat.add_comm]

theorem partCounters_clearCounters : (s.clearCounters covers).partCounters = s.partCounters.mapIdx (clearAt covers) := by
  have cleared : (s.clearCounters covers).partCounters
      = (s.link.east.counters.clearAt covers 0).image ++ (s.link.west.counters.clearAt covers 7).image
        ++ [clearAt covers 14 s.intake.misplaced, clearAt covers 15 s.intake.unknownSource, clearAt covers 16 s.monitor.gatedDetection,
          clearAt covers 17 s.agent.requestLost] := rfl
  rw [cleared, State.partCounters, List.mapIdx_append, List.mapIdx_append, image_clearAt, image_clearAt]
  rfl

variable {s covers}

theorem station_clearCounters {i : Nat} (inTable : i < s.intake.stations.length) : (s.clearCounters covers).station i
    = { s.station i with
        duplicate := clearAt covers (18 + 2 * i) (s.station i).duplicate
        rejoinDiscard := clearAt covers (19 + 2 * i) (s.station i).rejoinDiscard } :=
  getD_mapIdx s.intake.stations i inTable _ _

theorem station_kept_counters {i : Nat} (inTable : i < s.intake.stations.length) : (s.clearCounters covers).station i
    = { s.station i with
        duplicate := ((s.clearCounters covers).station i).duplicate
        rejoinDiscard := ((s.clearCounters covers).station i).rejoinDiscard } := by
  rw [station_clearCounters inTable]

/-- A clearing sets exactly the places it covers to 0 (R181). -/
theorem counterImage_clearCounters (stations : s.intake.stations.length = 32) {i : Nat} (inImage : i < 82) :
    (s.clearCounters covers).counterImage.getD i 0 = clearAt covers i (s.counterImage.getD i 0) := by
  by_cases early : i < 18
  · have inPart : i < s.partCounters.length := early
    have inPart' : i < (s.clearCounters covers).partCounters.length := early
    rw [counterImage_eq, counterImage_eq, List.getD_append _ _ _ _ inPart, List.getD_append _ _ _ _ inPart', partCounters_clearCounters]
    exact getD_mapIdx _ _ inPart _ _
  · obtain ⟨k, inTable, place⟩ : ∃ k < 32, i = 18 + 2 * k ∨ i = 19 + 2 * k := ⟨(i - 18) / 2, by omega, by omega⟩
    obtain ⟨duplicate, discard⟩ := (counterImage_counted s).station k inTable
    obtain ⟨duplicate', discard'⟩ := (counterImage_counted (s.clearCounters covers)).station k inTable
    have cleared := station_clearCounters (covers := covers) (stations.symm ▸ inTable : k < s.intake.stations.length)
    rcases place with rfl | rfl
    · rw [duplicate', duplicate, cleared]
    · rw [discard', discard, cleared]

end

/-- Settles O51: the clearing of the counters carried, place by place; the other two as they are carried out. -/
theorem clearsAndRestart : Obligations.ClearsAndRestart := by
  refine fun s rx tag slot => ⟨?_, fun takes => ?_, fun takes => ?_⟩
  · rintro first ⟨-, -, stations, -⟩ takes inImage
    have ran := exec_readCountersClear takes
    rw [if_neg (not_lt.2 inImage)] at ran
    refine ⟨_, ran, (counterImage_counted _).length, (counterImage_counted s).length, fun i hi => ?_, rfl, rfl, rfl, rfl, rfl, rfl, rfl, rfl,
      rfl, fun side => ?_, fun i hi => ?_⟩
    · refine (counterImage_clearCounters (s := s.requestRepeated rx 0x0F tag [readCountersWord first true] slot) stations hi).trans ?_
      exact if_congr (by rw [Bool.and_eq_true, decide_eq_true_iff, decide_eq_true_iff]) rfl rfl
    · cases side with
      | east => rfl
      | west => rfl
    · exact station_kept_counters (s := s.requestRepeated rx 0x0F tag [readCountersWord first true] slot) (stations.symm ▸ hi)
  · have taken := takes
    obtain ⟨taken, -⟩ := taken
    have ran : exec (.clearNotices rx tag []) s = .next _ := receiveRequest_takes taken State.doClearNotices
    exact ran.trans (congrArg _ (guarded_write takes rfl))
  · have taken := takes
    obtain ⟨taken, -⟩ := taken
    have ran : exec (.restart rx tag []) s = .next _ := receiveRequest_takes taken State.doRestart
    exact ran.trans (congrArg _ (guarded_write takes rfl))

end Sys2Proof.Machine
end
